-- ==== Sys2Proof/Word.lean ====
section
/-! DEFINITION. The two data widths of the blitter: the 32-bit DWord and the byte (R6, R10). -/

namespace Sys2Proof

/-- A DWord: the width of a command word and of a register (R6). -/
abbrev Word := BitVec 32

/-- A byte: the smallest addressable unit of graphics memory (R10, R120). -/
abbrev Byte := BitVec 8

end Sys2Proof
end

