-- ==== Sys2Proof/Machine/Bits.lean ====
section
/-! DEFINITION. Bit fields of a DWord, and the little-endian byte order (R9, R125). -/

namespace Sys2Proof

/-- The field of `n` bits whose lowest bit is `lo` (R9). -/
def field (w : Word) (lo n : Nat) : BitVec n := w.extractLsb' lo n

/-- Bit `i` of a DWord. -/
def bit (w : Word) (i : Nat) : Bool := w.getLsbD i

/-- Put the field `v` at bit `lo` of a DWord whose bits there are 0. -/
def put {n : Nat} (w : Word) (lo : Nat) (v : BitVec n) : Word := w ||| (v.setWidth 32 <<< lo)

/-- Put one flag at bit `i`. -/
def putBit (w : Word) (i : Nat) (b : Bool) : Word := put w i (BitVec.ofBool b)

/-- A DWord with bit `i` set or cleared. -/
def setBit (w : Word) (i : Nat) (b : Bool) : Word :=
  if b then w ||| (1#32 <<< i) else w &&& ~~~(1#32 <<< i)

/-- Byte `k` of a DWord: bits 8k+7:8k (R125). -/
def byteOf (w : Word) (k : Nat) : Byte := w.extractLsb' (8 * k) 8

/-- The bytes of a DWord, lowest address first (R125). -/
def wordBytes (w : Word) : List Byte := [byteOf w 0, byteOf w 1, byteOf w 2, byteOf w 3]

/-- The DWord whose bytes are `bs`, lowest address first; missing bytes are 0 and further ones are dropped (R125). -/
def bytesWord : List Byte → Word
  | [] => 0
  | b :: bs => b.setWidth 32 ||| (bytesWord bs <<< 8)

/-- A 16-bit two's complement coordinate or pitch as an integer (R187). -/
def sext16 (v : BitVec 16) : Int := v.toInt

end Sys2Proof
end

