-- ==== Sys2Proof/Syntax.lean ====
section
/-! DEFINITION. The commands of the blitter: one constructor of `Instr` for each of the 43 rows of the opcode table, its
arguments the fields of the command's DWord table. Every command of more than one DWord carries its DWord Length field
as programmed (`len`), because R181 gives an illegal length a treatment of its own. -/

namespace Sys2Proof

/-- The Color Depth field (R221): 8 bit, 16 bit 565, 16 bit 1555, 32 bit. -/
inductive Depth where
  | c8
  | c565
  | c1555
  | c32
deriving DecidableEq, Repr

/-- A destination rectangle (R184): X2 and Y2 exclusive, all 16-bit signed. -/
structure Rect where
  x1 : BitVec 16
  y1 : BitVec 16
  x2 : BitVec 16
  y2 : BitVec 16
deriving DecidableEq, Repr

/-- The clip rectangle DWords (R49, R50): 15-bit unsigned fields. -/
structure Clip where
  x1 : BitVec 15
  y1 : BitVec 15
  x2 : BitVec 15
  y2 : BitVec 15
deriving DecidableEq, Repr

/-- The raster fields of DWord 1 common to all drawing commands (R183): depth, raster operation, destination pitch. -/
structure Pen where
  depth : Depth
  rop : BitVec 8
  pitch : BitVec 16
deriving DecidableEq, Repr

/-- The part DWords 0 to 4 of every XY drawing command share (R258). -/
structure Draw where
  mask : BitVec 2
  tiled : Bool
  clip : Bool
  pen : Pen
  rect : Rect
  base : Word
deriving DecidableEq, Repr

/-- A colour source surface of an XY command (R231): tiling bit, pitch, top-left corner, base address. -/
structure ColorSrc where
  tiled : Bool
  pitch : BitVec 16
  x1 : BitVec 16
  y1 : BitVec 16
  base : Word
deriving DecidableEq, Repr

/-- The two pattern seeds (R182). -/
structure Seeds where
  h : BitVec 3
  v : BitVec 3
deriving DecidableEq, Repr

/-- The 43 commands (R185, R191). -/
inductive Instr where
  /-- R280 -/
  | colorBlt (len : BitVec 8) (mask : BitVec 2) (pen : Pen) (height width : BitVec 16) (dst color : Word)
  /-- R281 -/
  | srcCopyBlt (len : BitVec 8) (mask : BitVec 2) (xdir : Bool) (pen : Pen) (height width : BitVec 16) (dst : Word)
      (spitch : BitVec 16) (src : Word)
  /-- R290 -/
  | xySetupBlt (len : BitVec 8) (mask : BitVec 2) (tiled clip transp : Bool) (pen : Pen) (rect : Clip)
      (base bg fg pat : Word)
  /-- R291 -/
  | xySetupMonoPatternSlBlt (len : BitVec 8) (mask : BitVec 2) (tiled solid clip transp : Bool) (pen : Pen) (rect : Clip)
      (base bg fg p0 p1 : Word)
  /-- R292 -/
  | xySetupClipBlt (len : BitVec 8) (tiled : Bool) (rect : Clip)
  /-- R293 -/
  | xyPixelBlt (len : BitVec 8) (tiled : Bool) (x y : BitVec 16)
  /-- R294 -/
  | xyScanlinesBlt (len : BitVec 8) (tiled : Bool) (seeds : Seeds) (rect : Rect)
  /-- R295 -/
  | xyTextBlt (len : BitVec 8) (tiled packed : Bool) (rect : Rect) (src : Word)
  /-- R296 -/
  | xyTextImmediateBlt (len : BitVec 8) (tiled packed : Bool) (rect : Rect) (data : List Word)
  /-- R310 -/
  | xyColorBlt (len : BitVec 8) (d : Draw) (color : Word)
  /-- R311 -/
  | xyPatBlt (len : BitVec 8) (d : Draw) (seeds : Seeds) (pat : Word)
  /-- R312 -/
  | xyPatChromaBlt (len : BitVec 8) (d : Draw) (mode : BitVec 3) (seeds : Seeds) (pat lo hi : Word)
  /-- R313 -/
  | xyPatBltImmediate (len : BitVec 8) (d : Draw) (seeds : Seeds) (data : List Word)
  /-- R314 -/
  | xyPatChromaBltImmediate (len : BitVec 8) (d : Draw) (mode : BitVec 3) (seeds : Seeds) (lo hi : Word)
      (data : List Word)
  /-- R315 -/
  | xyMonoPatBlt (len : BitVec 8) (d : Draw) (transp : Bool) (seeds : Seeds) (bg fg p0 p1 : Word)
  /-- R316 -/
  | xyMonoPatFixedBlt (len : BitVec 8) (d : Draw) (transp : Bool) (fixed : BitVec 4) (seeds : Seeds) (bg fg : Word)
  /-- R330 -/
  | xySrcCopyBlt (len : BitVec 8) (d : Draw) (src : ColorSrc)
  /-- R331 -/
  | xySrcCopyChromaBlt (len : BitVec 8) (d : Draw) (mode : BitVec 3) (src : ColorSrc) (lo hi : Word)
  /-- R332 -/
  | xyMonoSrcCopyBlt (len : BitVec 8) (d : Draw) (transp : Bool) (start : BitVec 3) (src bg fg : Word)
  /-- R333 -/
  | xyMonoSrcCopyImmediateBlt (len : BitVec 8) (d : Draw) (transp : Bool) (start : BitVec 3) (bg fg : Word)
      (data : List Word)
  /-- R350 -/
  | xyFullBlt (len : BitVec 8) (d : Draw) (seeds : Seeds) (src : ColorSrc) (pat : Word)
  /-- R351 -/
  | xyFullImmediatePatternBlt (len : BitVec 8) (d : Draw) (hseed : BitVec 3) (src : ColorSrc) (data : List Word)
  /-- R352 -/
  | xyFullMonoSrcBlt (len : BitVec 8) (d : Draw) (transp : Bool) (start : BitVec 3) (seeds : Seeds) (src bg fg pat : Word)
  /-- R353 -/
  | xyFullMonoSrcImmediatePatternBlt (len : BitVec 8) (d : Draw) (transp : Bool) (start hseed : BitVec 3)
      (src bg fg : Word) (data : List Word)
  /-- R354 -/
  | xyFullMonoPatternBlt (len : BitVec 8) (d : Draw) (solid transp : Bool) (seeds : Seeds) (src : ColorSrc)
      (bg fg p0 p1 : Word)
  /-- R355 -/
  | xyFullMonoPatternMonoSrcBlt (len : BitVec 8) (d : Draw) (solid stransp ptransp : Bool) (start : BitVec 3)
      (seeds : Seeds) (src sbg sfg pbg pfg p0 p1 : Word)
  /-- R376 -/
  | miNoop (writeId : Bool) (ident : BitVec 22)
  /-- R384 -/
  | miUserInterrupt
  /-- R385 -/
  | miWaitForEvent (spriteC : Bool) (cc : BitVec 4) (planeC spriteB planeB spriteA planeA : Bool)
  /-- R371 -/
  | miArbCheck
  /-- R377 -/
  | miReportHead
  /-- R372 -/
  | miBatchBufferEnd
  /-- R382 -/
  | miSuspendFlush (on : Bool)
  /-- R387 -/
  | miDisplayFlip (len : BitVec 8) (async : Bool) (plane : BitVec 3) (pitch : BitVec 10) (tiled : Bool)
      (base : BitVec 20) (kind : BitVec 2)
  /-- R378 -/
  | miSemaphoreMbox (len : BitVec 8) (ggtt update compare cmpReg : Bool) (sel : BitVec 2) (data : Word)
      (addr : BitVec 30)
  /-- R380 -/
  | miStoreDataImm (len : BitVec 10) (ggtt : Bool) (addr : BitVec 30) (d0 d1 : Word)
  /-- R381 -/
  | miStoreDataIndex (len : BitVec 8) (offset : BitVec 10) (d0 d1 : Word)
  /-- R375 -/
  | miLoadRegisterImm (len : BitVec 8) (disables : BitVec 4) (reg : BitVec 30) (data : Word)
  /-- R383 -/
  | miUpdateGtt (len : BitVec 6) (ggtt : Bool) (entry : BitVec 20) (data : List Word)
  /-- R379 -/
  | miStoreRegisterMem (len : BitVec 8) (ggtt : Bool) (reg : BitVec 21) (addr : BitVec 30)
  /-- R374; `spare` is the ignored bit 22 -/
  | miFlushDw (len : BitVec 6) (spare index tlbInv gfdt : Bool) (op : BitVec 2) (notify : Bool) (addr : BitVec 29)
      (toGgtt : Bool) (d0 d1 : Word)
  /-- R386 -/
  | miLoadRegisterMem (len : BitVec 8) (ggtt async : Bool) (reg : BitVec 21) (addr : BitVec 30)
  /-- R373 -/
  | miBatchBufferStart (len : BitVec 8) (asi : Bool) (addr : BitVec 30)
deriving DecidableEq, Repr

/-- The opcodes themselves, without operands: what DWord 0 selects (R185, R191). -/
inductive Op where
  | colorBlt | srcCopyBlt | xySetupBlt | xySetupMonoPatternSlBlt | xySetupClipBlt | xyPixelBlt | xyScanlinesBlt
  | xyTextBlt | xyTextImmediateBlt | xyColorBlt | xyPatBlt | xyPatChromaBlt | xyPatBltImmediate
  | xyPatChromaBltImmediate | xyMonoPatBlt | xyMonoPatFixedBlt | xySrcCopyBlt | xySrcCopyChromaBlt | xyMonoSrcCopyBlt
  | xyMonoSrcCopyImmediateBlt | xyFullBlt | xyFullImmediatePatternBlt | xyFullMonoSrcBlt
  | xyFullMonoSrcImmediatePatternBlt | xyFullMonoPatternBlt | xyFullMonoPatternMonoSrcBlt
  | miNoop | miUserInterrupt | miWaitForEvent | miArbCheck | miReportHead | miBatchBufferEnd | miSuspendFlush
  | miDisplayFlip | miSemaphoreMbox | miStoreDataImm | miStoreDataIndex | miLoadRegisterImm | miUpdateGtt
  | miStoreRegisterMem | miFlushDw | miLoadRegisterMem | miBatchBufferStart
deriving DecidableEq, Repr

/-- The opcode of a command. -/
def Instr.op : Instr → Op
  | .colorBlt .. => .colorBlt
  | .srcCopyBlt .. => .srcCopyBlt
  | .xySetupBlt .. => .xySetupBlt
  | .xySetupMonoPatternSlBlt .. => .xySetupMonoPatternSlBlt
  | .xySetupClipBlt .. => .xySetupClipBlt
  | .xyPixelBlt .. => .xyPixelBlt
  | .xyScanlinesBlt .. => .xyScanlinesBlt
  | .xyTextBlt .. => .xyTextBlt
  | .xyTextImmediateBlt .. => .xyTextImmediateBlt
  | .xyColorBlt .. => .xyColorBlt
  | .xyPatBlt .. => .xyPatBlt
  | .xyPatChromaBlt .. => .xyPatChromaBlt
  | .xyPatBltImmediate .. => .xyPatBltImmediate
  | .xyPatChromaBltImmediate .. => .xyPatChromaBltImmediate
  | .xyMonoPatBlt .. => .xyMonoPatBlt
  | .xyMonoPatFixedBlt .. => .xyMonoPatFixedBlt
  | .xySrcCopyBlt .. => .xySrcCopyBlt
  | .xySrcCopyChromaBlt .. => .xySrcCopyChromaBlt
  | .xyMonoSrcCopyBlt .. => .xyMonoSrcCopyBlt
  | .xyMonoSrcCopyImmediateBlt .. => .xyMonoSrcCopyImmediateBlt
  | .xyFullBlt .. => .xyFullBlt
  | .xyFullImmediatePatternBlt .. => .xyFullImmediatePatternBlt
  | .xyFullMonoSrcBlt .. => .xyFullMonoSrcBlt
  | .xyFullMonoSrcImmediatePatternBlt .. => .xyFullMonoSrcImmediatePatternBlt
  | .xyFullMonoPatternBlt .. => .xyFullMonoPatternBlt
  | .xyFullMonoPatternMonoSrcBlt .. => .xyFullMonoPatternMonoSrcBlt
  | .miNoop .. => .miNoop
  | .miUserInterrupt => .miUserInterrupt
  | .miWaitForEvent .. => .miWaitForEvent
  | .miArbCheck => .miArbCheck
  | .miReportHead => .miReportHead
  | .miBatchBufferEnd => .miBatchBufferEnd
  | .miSuspendFlush .. => .miSuspendFlush
  | .miDisplayFlip .. => .miDisplayFlip
  | .miSemaphoreMbox .. => .miSemaphoreMbox
  | .miStoreDataImm .. => .miStoreDataImm
  | .miStoreDataIndex .. => .miStoreDataIndex
  | .miLoadRegisterImm .. => .miLoadRegisterImm
  | .miUpdateGtt .. => .miUpdateGtt
  | .miStoreRegisterMem .. => .miStoreRegisterMem
  | .miFlushDw .. => .miFlushDw
  | .miLoadRegisterMem .. => .miLoadRegisterMem
  | .miBatchBufferStart .. => .miBatchBufferStart

/-- Whether the command is a BLT command (client 2h), handed to the BLT engine (R180). -/
def Op.isBlt : Op → Bool
  | .miNoop | .miUserInterrupt | .miWaitForEvent | .miArbCheck | .miReportHead | .miBatchBufferEnd | .miSuspendFlush
  | .miDisplayFlip | .miSemaphoreMbox | .miStoreDataImm | .miStoreDataIndex | .miLoadRegisterImm | .miUpdateGtt
  | .miStoreRegisterMem | .miFlushDw | .miLoadRegisterMem | .miBatchBufferStart => false
  | .colorBlt | .srcCopyBlt | .xySetupBlt | .xySetupMonoPatternSlBlt | .xySetupClipBlt | .xyPixelBlt | .xyScanlinesBlt
  | .xyTextBlt | .xyTextImmediateBlt | .xyColorBlt | .xyPatBlt | .xyPatChromaBlt | .xyPatBltImmediate
  | .xyPatChromaBltImmediate | .xyMonoPatBlt | .xyMonoPatFixedBlt | .xySrcCopyBlt | .xySrcCopyChromaBlt
  | .xyMonoSrcCopyBlt | .xyMonoSrcCopyImmediateBlt | .xyFullBlt | .xyFullImmediatePatternBlt | .xyFullMonoSrcBlt
  | .xyFullMonoSrcImmediatePatternBlt | .xyFullMonoPatternBlt | .xyFullMonoPatternMonoSrcBlt => true

end Sys2Proof
end

