-- ==== Sys2Proof/WellFormed.lean ====
section
/-! DEFINITION. Which terms of `Instr` stand for a command the spec gives a meaning: the DWord Length has a legal value
(R181, R185, R191), the immediate data has the length it names, and no enumerated field has a reserved value (R205). -/

namespace Sys2Proof

/-- Transparency Range Mode of the pattern commands: no source mode (001b, 011b), because there is no source (R312). -/
def chromaPatModeOk (m : BitVec 3) : Bool := m.toNat != 1 && m.toNat != 3

/-- The ten built-in patterns of XY_MONO_PAT_FIXED_BLT; 6, 7 and 12 to 15 are reserved (R316). -/
def fixedPatternOk (p : BitVec 4) : Bool := p.toNat ≤ 5 || (8 ≤ p.toNat && p.toNat ≤ 11)

/-- How many of the flip-pending waits and the condition code wait an MI_WAIT_FOR_EVENT selects (R385). -/
def eventCount (spriteC : Bool) (cc : BitVec 4) (planeC spriteB planeB spriteA planeA : Bool) : Nat :=
  spriteC.toNat + planeC.toNat + spriteB.toNat + planeB.toNat + spriteA.toNat + planeA.toNat
    + (if cc = 0 then 0 else 1)

/-- The DWord Length of an immediate command: the printed constant plus the number of immediate DWords (R181). -/
def immLenOk (len : BitVec 8) (const : Nat) (data : List Word) : Bool := len.toNat == const + data.length

/-- A command of one DWord or one QWord of data: the short form carries no second data DWord (R374, R380, R381). -/
def dataLenOk (len short : Nat) (d1 : Word) : Bool := (len == short && d1 == 0) || len == short + 1

/-- Well-formed commands: legal DWord Length and no reserved enumeration value. -/
def Instr.wf : Instr → Bool
  | .colorBlt len _ _ _ _ _ _ => len == 3
  | .srcCopyBlt len _ _ _ _ _ _ _ _ => len == 4
  | .xySetupBlt len _ _ _ _ _ _ _ _ _ _ => len == 6
  | .xySetupMonoPatternSlBlt len _ _ _ _ _ _ _ _ _ _ _ _ => len == 7
  | .xySetupClipBlt len _ _ => len == 1
  | .xyPixelBlt len _ _ _ => len == 0
  | .xyScanlinesBlt len _ _ _ => len == 1
  | .xyTextBlt len _ _ _ _ => len == 2
  | .xyTextImmediateBlt len _ _ _ data => immLenOk len 1 data
  | .xyColorBlt len _ _ => len == 4
  | .xyPatBlt len _ _ _ => len == 4
  | .xyPatChromaBlt len _ mode _ _ _ _ => len == 6 && chromaPatModeOk mode
  | .xyPatBltImmediate len _ _ data => immLenOk len 3 data
  | .xyPatChromaBltImmediate len _ mode _ _ _ data => immLenOk len 5 data && chromaPatModeOk mode
  | .xyMonoPatBlt len _ _ _ _ _ _ _ => len == 7
  | .xyMonoPatFixedBlt len _ _ fixed _ _ _ => len == 5 && fixedPatternOk fixed
  | .xySrcCopyBlt len _ _ => len == 6
  | .xySrcCopyChromaBlt len _ _ _ _ _ => len == 8
  | .xyMonoSrcCopyBlt len _ _ _ _ _ _ => len == 6
  | .xyMonoSrcCopyImmediateBlt len _ _ _ _ _ data => immLenOk len 5 data
  | .xyFullBlt len _ _ _ _ => len == 7
  | .xyFullImmediatePatternBlt len _ _ _ data => immLenOk len 6 data
  | .xyFullMonoSrcBlt len _ _ _ _ _ _ _ _ => len == 7
  | .xyFullMonoSrcImmediatePatternBlt len _ _ _ _ _ _ _ data => immLenOk len 6 data
  | .xyFullMonoPatternBlt len _ _ _ _ _ _ _ _ _ => len == 10
  | .xyFullMonoPatternMonoSrcBlt len _ _ _ _ _ _ _ _ _ _ _ _ _ => len == 10
  | .miNoop _ _ => true
  | .miUserInterrupt => true
  | .miWaitForEvent sc cc pc sb pb sa pa => eventCount sc cc pc sb pb sa pa ≤ 1 && cc.toNat < 6
  | .miArbCheck => true
  | .miReportHead => true
  | .miBatchBufferEnd => true
  | .miSuspendFlush _ => true
  | .miDisplayFlip len async plane _ _ _ kind =>
    len == 1 && plane.toNat < 6 && kind.toNat < 2 && async == (kind == 1)
  | .miSemaphoreMbox len _ update compare cmpReg sel _ _ =>
    len == 1 && (update || compare) && (!cmpReg || (!update && (sel == 0 || sel == 2)))
  | .miStoreDataImm len _ _ _ d1 => dataLenOk len.toNat 2 d1
  | .miStoreDataIndex len offset _ d1 => dataLenOk len.toNat 1 d1 && 16 ≤ offset.toNat
  | .miLoadRegisterImm len disables _ _ => len == 1 && (disables == 0 || disables == 15)
  | .miUpdateGtt len ggtt _ data => len.toNat == data.length && ggtt && 1 ≤ data.length
  | .miStoreRegisterMem len _ _ _ => len == 1
  | .miFlushDw len _ _ tlbInv gfdt op _ _ _ _ d1 =>
    dataLenOk len.toNat 1 d1 && op != 2 && (!tlbInv || op != 0) && (!gfdt || op != 0)
  | .miLoadRegisterMem len _ _ _ _ => len == 1
  | .miBatchBufferStart len _ _ => len == 0

end Sys2Proof
end

