-- ==== Sys2Proof/Decode.lean ====
section
/-! DEFINITION. The binary format of the commands (spec/30_encoding.md): the table of opcodes, the decoder from DWords to
`Instr`, total on any DWords and rejecting by name, and the encoder written from the same tables. -/

namespace Sys2Proof

/-! ## The table -/

/-- How DWord 0 gives the number of DWords (R181, R191). -/
inductive LenKind where
  /-- length bias 1: one DWord, no length field -/
  | one
  /-- length bias 2: a field of `bits` bits with these legal values -/
  | exact (bits : Nat) (legal : List Nat)
  /-- a BLT command with immediate data: the field is `const` plus the number of immediate DWords -/
  | atLeast (const : Nat)
  /-- MI_UPDATE_GTT: a 6-bit field counting the entries, at least one (R383) -/
  | entries
deriving DecidableEq, Repr

/-- One row of the opcode table: mnemonic, opcode, number of fixed DWords, length field, and the reserved (MBZ) fields as
(DWord, lowest bit, width). -/
structure Row where
  mnemonic : String
  code : Nat
  fixed : Nat
  len : LenKind
  mbz : List (Nat × Nat × Nat)
deriving DecidableEq, Repr

/-- The opcode table (R185, R191), with the reserved fields of each command's own rule (R280 to R387). -/
def Op.row : Op → Row
  | .colorBlt => ⟨"COLOR_BLT", 0x40, 5, .exact 8 [3], [(0, 8, 12), (1, 26, 6)]⟩
  | .srcCopyBlt => ⟨"SRC_COPY_BLT", 0x43, 6, .exact 8 [4], [(0, 8, 12), (1, 31, 1), (1, 26, 4), (4, 16, 16)]⟩
  | .xySetupBlt => ⟨"XY_SETUP_BLT", 0x01, 8, .exact 8 [6], [(0, 12, 8), (0, 8, 3), (1, 31, 1), (1, 26, 3), (2, 31, 1), (2, 15, 1), (3, 31, 1), (3, 15, 1)]⟩
  | .xySetupMonoPatternSlBlt => ⟨"XY_SETUP_MONO_PATTERN_SL_BLT", 0x11, 9, .exact 8 [7], [(0, 12, 8), (0, 8, 3), (1, 29, 1), (1, 26, 2), (2, 31, 1), (2, 15, 1), (3, 31, 1), (3, 15, 1)]⟩
  | .xySetupClipBlt => ⟨"XY_SETUP_CLIP_BLT", 0x03, 3, .exact 8 [1], [(0, 12, 10), (0, 8, 3), (1, 31, 1), (1, 15, 1), (2, 31, 1), (2, 15, 1)]⟩
  | .xyPixelBlt => ⟨"XY_PIXEL_BLT", 0x24, 2, .exact 8 [0], [(0, 12, 10), (0, 8, 3)]⟩
  | .xyScanlinesBlt => ⟨"XY_SCANLINES_BLT", 0x25, 3, .exact 8 [1], [(0, 15, 7)]⟩
  | .xyTextBlt => ⟨"XY_TEXT_BLT", 0x26, 4, .exact 8 [2], [(0, 17, 5), (0, 12, 4), (0, 8, 3)]⟩
  | .xyTextImmediateBlt => ⟨"XY_TEXT_IMMEDIATE_BLT", 0x31, 3, .atLeast 1, [(0, 17, 5), (0, 12, 4), (0, 8, 3)]⟩
  | .xyColorBlt => ⟨"XY_COLOR_BLT", 0x50, 6, .exact 8 [4], [(0, 12, 8), (0, 8, 3), (1, 31, 1), (1, 26, 4)]⟩
  | .xyPatBlt => ⟨"XY_PAT_BLT", 0x51, 6, .exact 8 [4], [(0, 15, 5), (1, 31, 1), (1, 26, 4)]⟩
  | .xyPatChromaBlt => ⟨"XY_PAT_CHROMA_BLT", 0x76, 8, .exact 8 [6], [(0, 15, 2), (1, 31, 1), (1, 26, 4)]⟩
  | .xyPatBltImmediate => ⟨"XY_PAT_BLT_IMMEDIATE", 0x72, 5, .atLeast 3, [(0, 15, 5), (1, 31, 1), (1, 26, 4)]⟩
  | .xyPatChromaBltImmediate => ⟨"XY_PAT_CHROMA_BLT_IMMEDIATE", 0x77, 7, .atLeast 5, [(0, 15, 2), (1, 31, 1), (1, 26, 4)]⟩
  | .xyMonoPatBlt => ⟨"XY_MONO_PAT_BLT", 0x52, 9, .exact 8 [7], [(0, 15, 5), (1, 31, 1), (1, 29, 1), (1, 26, 2)]⟩
  | .xyMonoPatFixedBlt => ⟨"XY_MONO_PAT_FIXED_BLT", 0x59, 7, .exact 8 [5], [(0, 19, 1), (1, 31, 1), (1, 29, 1), (1, 26, 2)]⟩
  | .xySrcCopyBlt => ⟨"XY_SRC_COPY_BLT", 0x53, 8, .exact 8 [6], [(0, 16, 4), (0, 12, 3), (0, 8, 3), (1, 31, 1), (1, 26, 4), (6, 16, 16)]⟩
  | .xySrcCopyChromaBlt => ⟨"XY_SRC_COPY_CHROMA_BLT", 0x73, 10, .exact 8 [8], [(0, 16, 1), (0, 12, 3), (0, 8, 3), (1, 31, 1), (1, 26, 4), (6, 16, 16)]⟩
  | .xyMonoSrcCopyBlt => ⟨"XY_MONO_SRC_COPY_BLT", 0x54, 8, .exact 8 [6], [(0, 12, 5), (0, 8, 3), (1, 31, 1), (1, 26, 3)]⟩
  | .xyMonoSrcCopyImmediateBlt => ⟨"XY_MONO_SRC_COPY_IMMEDIATE_BLT", 0x71, 7, .atLeast 5, [(0, 12, 5), (0, 8, 3), (1, 31, 1), (1, 26, 3)]⟩
  | .xyFullBlt => ⟨"XY_FULL_BLT", 0x55, 9, .exact 8 [7], [(0, 16, 4), (1, 31, 1), (1, 26, 4), (5, 16, 16)]⟩
  | .xyFullImmediatePatternBlt => ⟨"XY_FULL_IMMEDIATE_PATTERN_BLT", 0x74, 8, .atLeast 6, [(0, 16, 4), (0, 8, 3), (1, 31, 1), (1, 26, 4), (5, 16, 16)]⟩
  | .xyFullMonoSrcBlt => ⟨"XY_FULL_MONO_SRC_BLT", 0x56, 9, .exact 8 [7], [(0, 15, 2), (1, 31, 1), (1, 26, 3)]⟩
  | .xyFullMonoSrcImmediatePatternBlt => ⟨"XY_FULL_MONO_SRC_IMMEDIATE_PATTERN_BLT", 0x75, 8, .atLeast 6, [(0, 15, 2), (0, 8, 3), (1, 31, 1), (1, 26, 3)]⟩
  | .xyFullMonoPatternBlt => ⟨"XY_FULL_MONO_PATTERN_BLT", 0x57, 12, .exact 8 [10], [(0, 16, 4), (1, 29, 1), (1, 26, 2), (5, 16, 16)]⟩
  | .xyFullMonoPatternMonoSrcBlt => ⟨"XY_FULL_MONO_PATTERN_MONO_SRC_BLT", 0x58, 12, .exact 8 [10], [(0, 15, 2), (1, 26, 2)]⟩
  | .miNoop => ⟨"MI_NOOP", 0x00, 1, .one, []⟩
  | .miUserInterrupt => ⟨"MI_USER_INTERRUPT", 0x02, 1, .one, [(0, 0, 23)]⟩
  | .miWaitForEvent => ⟨"MI_WAIT_FOR_EVENT", 0x03, 1, .one, [(0, 21, 2), (0, 11, 4), (0, 3, 6), (0, 0, 1)]⟩
  | .miArbCheck => ⟨"MI_ARB_CHECK", 0x05, 1, .one, [(0, 0, 23)]⟩
  | .miReportHead => ⟨"MI_REPORT_HEAD", 0x07, 1, .one, [(0, 0, 23)]⟩
  | .miBatchBufferEnd => ⟨"MI_BATCH_BUFFER_END", 0x0A, 1, .one, [(0, 0, 23)]⟩
  | .miSuspendFlush => ⟨"MI_SUSPEND_FLUSH", 0x0B, 1, .one, [(0, 1, 22)]⟩
  | .miDisplayFlip => ⟨"MI_DISPLAY_FLIP", 0x14, 3, .exact 8 [1], [(0, 8, 11), (1, 16, 16), (1, 1, 5), (2, 2, 10)]⟩
  | .miSemaphoreMbox => ⟨"MI_SEMAPHORE_MBOX", 0x16, 3, .exact 8 [1], [(0, 19, 1), (0, 8, 8), (2, 0, 2)]⟩
  | .miStoreDataImm => ⟨"MI_STORE_DATA_IMM", 0x20, 4, .exact 10 [2, 3], [(0, 10, 12), (1, 0, 32), (2, 0, 2)]⟩
  | .miStoreDataIndex => ⟨"MI_STORE_DATA_INDEX", 0x21, 3, .exact 8 [1, 2], [(0, 8, 15), (1, 12, 20), (1, 0, 2)]⟩
  | .miLoadRegisterImm => ⟨"MI_LOAD_REGISTER_IMM", 0x22, 3, .exact 8 [1], [(0, 12, 11), (1, 0, 2)]⟩
  | .miUpdateGtt => ⟨"MI_UPDATE_GTT", 0x23, 2, .entries, [(0, 6, 16), (1, 0, 12)]⟩
  | .miStoreRegisterMem => ⟨"MI_STORE_REGISTER_MEM", 0x24, 3, .exact 8 [1], [(0, 8, 14), (1, 23, 9), (1, 0, 2), (2, 0, 2)]⟩
  | .miFlushDw => ⟨"MI_FLUSH_DW", 0x26, 3, .exact 6 [1, 2], [(0, 19, 2), (0, 16, 1), (0, 9, 5), (0, 6, 2), (1, 0, 2)]⟩
  | .miLoadRegisterMem => ⟨"MI_LOAD_REGISTER_MEM", 0x29, 3, .exact 8 [1], [(0, 8, 13), (1, 23, 9), (1, 0, 2), (2, 0, 2)]⟩
  | .miBatchBufferStart => ⟨"MI_BATCH_BUFFER_START", 0x31, 2, .exact 8 [0], [(0, 9, 14), (1, 0, 2)]⟩

/-- DWord 0 of a command with every operand field 0 (R180). -/
def Op.header (o : Op) : Word :=
  if o.isBlt then BitVec.ofNat 32 (0x40000000 + o.row.code * 0x400000) else BitVec.ofNat 32 (o.row.code * 0x800000)

/-- The BLT opcode map (R185). -/
def Op.ofBlt : Nat → Option Op
  | 0x40 => some .colorBlt
  | 0x43 => some .srcCopyBlt
  | 0x01 => some .xySetupBlt
  | 0x11 => some .xySetupMonoPatternSlBlt
  | 0x03 => some .xySetupClipBlt
  | 0x24 => some .xyPixelBlt
  | 0x25 => some .xyScanlinesBlt
  | 0x26 => some .xyTextBlt
  | 0x31 => some .xyTextImmediateBlt
  | 0x50 => some .xyColorBlt
  | 0x51 => some .xyPatBlt
  | 0x76 => some .xyPatChromaBlt
  | 0x72 => some .xyPatBltImmediate
  | 0x77 => some .xyPatChromaBltImmediate
  | 0x52 => some .xyMonoPatBlt
  | 0x59 => some .xyMonoPatFixedBlt
  | 0x53 => some .xySrcCopyBlt
  | 0x73 => some .xySrcCopyChromaBlt
  | 0x54 => some .xyMonoSrcCopyBlt
  | 0x71 => some .xyMonoSrcCopyImmediateBlt
  | 0x55 => some .xyFullBlt
  | 0x74 => some .xyFullImmediatePatternBlt
  | 0x56 => some .xyFullMonoSrcBlt
  | 0x75 => some .xyFullMonoSrcImmediatePatternBlt
  | 0x57 => some .xyFullMonoPatternBlt
  | 0x58 => some .xyFullMonoPatternMonoSrcBlt
  | _ => none

/-- The MI opcode map (R191). -/
def Op.ofMi : Nat → Option Op
  | 0x00 => some .miNoop
  | 0x02 => some .miUserInterrupt
  | 0x03 => some .miWaitForEvent
  | 0x05 => some .miArbCheck
  | 0x07 => some .miReportHead
  | 0x0A => some .miBatchBufferEnd
  | 0x0B => some .miSuspendFlush
  | 0x14 => some .miDisplayFlip
  | 0x16 => some .miSemaphoreMbox
  | 0x20 => some .miStoreDataImm
  | 0x21 => some .miStoreDataIndex
  | 0x22 => some .miLoadRegisterImm
  | 0x23 => some .miUpdateGtt
  | 0x24 => some .miStoreRegisterMem
  | 0x26 => some .miFlushDw
  | 0x29 => some .miLoadRegisterMem
  | 0x31 => some .miBatchBufferStart
  | _ => none

/-- The command DWord 0 selects: client and opcode only (R210); `none` is the Instruction Error of R200. -/
def Op.ofHeader (w : Word) : Option Op :=
  if field w 29 3 = 0 then Op.ofMi (field w 23 6).toNat
  else if field w 29 3 = 2 then Op.ofBlt (field w 22 7).toNat
  else none

/-- The value of the DWord Length field; 0 for a command of one DWord (R181). -/
def LenKind.value (w : Word) : LenKind → Nat
  | .one => 0
  | .exact bits _ => (field w 0 bits).toNat
  | .atLeast _ => (field w 0 8).toNat
  | .entries => (field w 0 6).toNat

/-- The total number of DWords a header announces (R181, R210). -/
def Op.dwords (o : Op) (w : Word) : Nat :=
  if o.row.len = .one then 1 else o.row.len.value w + 2

/-- Whether the length field has a legal value for the command (R181; 93 E3, E10). In an immediate command one below its
constant is `Op.underfed`. -/
def Op.lengthOk (o : Op) (w : Word) : Bool :=
  match o.row.len with
  | .one => true
  | .exact _ legal => legal.contains (o.row.len.value w)
  | .atLeast const => const ≤ o.row.len.value w
  | .entries => 1 ≤ o.row.len.value w

/-- An immediate command whose length field does not even cover its fixed DWords: a wrong amount of data (R181, D17). -/
def Op.underfed (o : Op) (w : Word) : Bool :=
  match o.row.len with
  | .atLeast const => o.row.len.value w < const
  | _ => false

/-! ## The decoder -/

/-- Why a DWord sequence is no command. -/
inductive DecodeError where
  /-- client or opcode undefined (R200) -/
  | undefinedOpcode
  /-- fewer DWords than the command has -/
  | truncated (mnemonic : String)
  /-- a reserved field is not zero (R205) -/
  | reservedField (mnemonic : String)
deriving DecidableEq, Repr

/-- Color Depth (R183, R221). -/
def Depth.ofBits : BitVec 2 → Depth
  | 0 => .c8
  | 1 => .c565
  | 2 => .c1555
  | 3 => .c32

/-- The Color Depth field of a depth. -/
def Depth.bits : Depth → BitVec 2
  | .c8 => 0
  | .c565 => 1
  | .c1555 => 2
  | .c32 => 3

/-- The raster fields of DWord 1 (R183). -/
def readPen (w : Word) : Pen := ⟨.ofBits (field w 24 2), field w 16 8, field w 0 16⟩

/-- Two coordinate DWords (R184): top-left, bottom-right. -/
def readRect (a b : Word) : Rect := ⟨field a 0 16, field a 16 16, field b 0 16, field b 16 16⟩

/-- Two clip DWords (R49, R50). -/
def readClip (a b : Word) : Clip := ⟨field a 0 15, field a 16 15, field b 0 15, field b 16 15⟩

/-- DWords 0 to 4 of an XY drawing command (R258). -/
def readDraw (w : Nat → Word) : Draw :=
  ⟨field (w 0) 20 2, bit (w 0) 11, bit (w 1) 30, readPen (w 1), readRect (w 2) (w 3), w 4⟩

/-- A colour source: coordinates, pitch and base DWords (R330, R350); bit 15 of DWord 0 is its tiling bit. -/
def readSrc (w0 xy pitch base : Word) : ColorSrc := ⟨bit w0 15, field pitch 0 16, field xy 0 16, field xy 16 16, base⟩

/-- The pattern seeds of DWord 0 (R182). -/
def readSeeds (w0 : Word) : Seeds := ⟨field w0 12 3, field w0 8 3⟩

/-- The command an opcode and its DWords stand for; `w k` is DWord `k`, `data` the DWords after the fixed ones. -/
def Op.read (w : Nat → Word) (data : List Word) : Op → Instr
  | .colorBlt => .colorBlt (field (w 0) 0 8) (field (w 0) 20 2) (readPen (w 1)) (field (w 2) 16 16) (field (w 2) 0 16)
      (w 3) (w 4)
  | .srcCopyBlt => .srcCopyBlt (field (w 0) 0 8) (field (w 0) 20 2) (bit (w 1) 30) (readPen (w 1)) (field (w 2) 16 16)
      (field (w 2) 0 16) (w 3) (field (w 4) 0 16) (w 5)
  | .xySetupBlt => .xySetupBlt (field (w 0) 0 8) (field (w 0) 20 2) (bit (w 0) 11) (bit (w 1) 30) (bit (w 1) 29)
      (readPen (w 1)) (readClip (w 2) (w 3)) (w 4) (w 5) (w 6) (w 7)
  | .xySetupMonoPatternSlBlt => .xySetupMonoPatternSlBlt (field (w 0) 0 8) (field (w 0) 20 2) (bit (w 0) 11)
      (bit (w 1) 31) (bit (w 1) 30) (bit (w 1) 28) (readPen (w 1)) (readClip (w 2) (w 3)) (w 4) (w 5) (w 6) (w 7) (w 8)
  | .xySetupClipBlt => .xySetupClipBlt (field (w 0) 0 8) (bit (w 0) 11) (readClip (w 1) (w 2))
  | .xyPixelBlt => .xyPixelBlt (field (w 0) 0 8) (bit (w 0) 11) (field (w 1) 0 16) (field (w 1) 16 16)
  | .xyScanlinesBlt => .xyScanlinesBlt (field (w 0) 0 8) (bit (w 0) 11) (readSeeds (w 0)) (readRect (w 1) (w 2))
  | .xyTextBlt => .xyTextBlt (field (w 0) 0 8) (bit (w 0) 11) (bit (w 0) 16) (readRect (w 1) (w 2)) (w 3)
  | .xyTextImmediateBlt => .xyTextImmediateBlt (field (w 0) 0 8) (bit (w 0) 11) (bit (w 0) 16) (readRect (w 1) (w 2))
      data
  | .xyColorBlt => .xyColorBlt (field (w 0) 0 8) (readDraw w) (w 5)
  | .xyPatBlt => .xyPatBlt (field (w 0) 0 8) (readDraw w) (readSeeds (w 0)) (w 5)
  | .xyPatChromaBlt => .xyPatChromaBlt (field (w 0) 0 8) (readDraw w) (field (w 0) 17 3) (readSeeds (w 0)) (w 5) (w 6)
      (w 7)
  | .xyPatBltImmediate => .xyPatBltImmediate (field (w 0) 0 8) (readDraw w) (readSeeds (w 0)) data
  | .xyPatChromaBltImmediate => .xyPatChromaBltImmediate (field (w 0) 0 8) (readDraw w) (field (w 0) 17 3)
      (readSeeds (w 0)) (w 5) (w 6) data
  | .xyMonoPatBlt => .xyMonoPatBlt (field (w 0) 0 8) (readDraw w) (bit (w 1) 28) (readSeeds (w 0)) (w 5) (w 6) (w 7)
      (w 8)
  | .xyMonoPatFixedBlt => .xyMonoPatFixedBlt (field (w 0) 0 8) (readDraw w) (bit (w 1) 28) (field (w 0) 15 4)
      (readSeeds (w 0)) (w 5) (w 6)
  | .xySrcCopyBlt => .xySrcCopyBlt (field (w 0) 0 8) (readDraw w) (readSrc (w 0) (w 5) (w 6) (w 7))
  | .xySrcCopyChromaBlt => .xySrcCopyChromaBlt (field (w 0) 0 8) (readDraw w) (field (w 0) 17 3)
      (readSrc (w 0) (w 5) (w 6) (w 7)) (w 8) (w 9)
  | .xyMonoSrcCopyBlt => .xyMonoSrcCopyBlt (field (w 0) 0 8) (readDraw w) (bit (w 1) 29) (field (w 0) 17 3) (w 5) (w 6)
      (w 7)
  | .xyMonoSrcCopyImmediateBlt => .xyMonoSrcCopyImmediateBlt (field (w 0) 0 8) (readDraw w) (bit (w 1) 29)
      (field (w 0) 17 3) (w 5) (w 6) data
  | .xyFullBlt => .xyFullBlt (field (w 0) 0 8) (readDraw w) (readSeeds (w 0)) (readSrc (w 0) (w 6) (w 5) (w 7)) (w 8)
  | .xyFullImmediatePatternBlt => .xyFullImmediatePatternBlt (field (w 0) 0 8) (readDraw w) (field (w 0) 12 3)
      (readSrc (w 0) (w 6) (w 5) (w 7)) data
  | .xyFullMonoSrcBlt => .xyFullMonoSrcBlt (field (w 0) 0 8) (readDraw w) (bit (w 1) 29) (field (w 0) 17 3)
      (readSeeds (w 0)) (w 5) (w 6) (w 7) (w 8)
  | .xyFullMonoSrcImmediatePatternBlt => .xyFullMonoSrcImmediatePatternBlt (field (w 0) 0 8) (readDraw w) (bit (w 1) 29)
      (field (w 0) 17 3) (field (w 0) 12 3) (w 5) (w 6) (w 7) data
  | .xyFullMonoPatternBlt => .xyFullMonoPatternBlt (field (w 0) 0 8) (readDraw w) (bit (w 1) 31) (bit (w 1) 28)
      (readSeeds (w 0)) (readSrc (w 0) (w 6) (w 5) (w 7)) (w 8) (w 9) (w 10) (w 11)
  | .xyFullMonoPatternMonoSrcBlt => .xyFullMonoPatternMonoSrcBlt (field (w 0) 0 8) (readDraw w) (bit (w 1) 31)
      (bit (w 1) 29) (bit (w 1) 28) (field (w 0) 17 3) (readSeeds (w 0)) (w 5) (w 6) (w 7) (w 8) (w 9) (w 10) (w 11)
  | .miNoop => .miNoop (bit (w 0) 22) (field (w 0) 0 22)
  | .miUserInterrupt => .miUserInterrupt
  | .miWaitForEvent => .miWaitForEvent (bit (w 0) 20) (field (w 0) 16 4) (bit (w 0) 15) (bit (w 0) 10) (bit (w 0) 9)
      (bit (w 0) 2) (bit (w 0) 1)
  | .miArbCheck => .miArbCheck
  | .miReportHead => .miReportHead
  | .miBatchBufferEnd => .miBatchBufferEnd
  | .miSuspendFlush => .miSuspendFlush (bit (w 0) 0)
  | .miDisplayFlip => .miDisplayFlip (field (w 0) 0 8) (bit (w 0) 22) (field (w 0) 19 3) (field (w 1) 6 10) (bit (w 1) 0)
      (field (w 2) 12 20) (field (w 2) 0 2)
  | .miSemaphoreMbox => .miSemaphoreMbox (field (w 0) 0 8) (bit (w 0) 22) (bit (w 0) 21) (bit (w 0) 20) (bit (w 0) 18)
      (field (w 0) 16 2) (w 1) (field (w 2) 2 30)
  | .miStoreDataImm => .miStoreDataImm (field (w 0) 0 10) (bit (w 0) 22) (field (w 2) 2 30) (w 3) (data.getD 0 0)
  | .miStoreDataIndex => .miStoreDataIndex (field (w 0) 0 8) (field (w 1) 2 10) (w 2) (data.getD 0 0)
  | .miLoadRegisterImm => .miLoadRegisterImm (field (w 0) 0 8) (field (w 0) 8 4) (field (w 1) 2 30) (w 2)
  | .miUpdateGtt => .miUpdateGtt (field (w 0) 0 6) (bit (w 0) 22) (field (w 1) 12 20) data
  | .miStoreRegisterMem => .miStoreRegisterMem (field (w 0) 0 8) (bit (w 0) 22) (field (w 1) 2 21) (field (w 2) 2 30)
  | .miFlushDw => .miFlushDw (field (w 0) 0 6) (bit (w 0) 22) (bit (w 0) 21) (bit (w 0) 18) (bit (w 0) 17)
      (field (w 0) 14 2) (bit (w 0) 8) (field (w 1) 3 29) (bit (w 1) 2) (w 2) (data.getD 0 0)
  | .miLoadRegisterMem => .miLoadRegisterMem (field (w 0) 0 8) (bit (w 0) 22) (bit (w 0) 21) (field (w 1) 2 21)
      (field (w 2) 2 30)
  | .miBatchBufferStart => .miBatchBufferStart (field (w 0) 0 8) (bit (w 0) 8) (field (w 1) 2 30)

/-- Every reserved field of the command is zero (R205). -/
def Op.reservedOk (o : Op) (w : Nat → Word) : Bool :=
  o.row.mbz.all fun (k, lo, n) => field (w k) lo n == 0

/-- Decode the DWords of a command, DWord 0 first (R210). The DWord Length is an operand like any other here: whether it
is legal is `Op.lengthOk`, which the parser checks before it fetches the further DWords (R432). A list longer than the
command is allowed; the rest is not looked at. -/
def decode (ws : List Word) : Except DecodeError Instr :=
  match Op.ofHeader (ws.getD 0 0) with
  | none => .error .undefinedOpcode
  | some o =>
    if ws.length < max o.row.fixed (o.dwords (ws.getD 0 0)) then .error (.truncated o.row.mnemonic)
    else if o.reservedOk (fun k => ws.getD k 0) then
      .ok (o.read (fun k => ws.getD k 0) ((ws.take (o.dwords (ws.getD 0 0))).drop o.row.fixed))
    else .error (.reservedField o.row.mnemonic)

/-! ## The encoder -/

/-- The DWord of the raster fields (R183). -/
def penWord (p : Pen) : Word := put (put (put 0 24 p.depth.bits) 16 p.rop) 0 p.pitch

/-- A coordinate DWord: Y above X (R184). -/
def pointWord (x y : BitVec 16) : Word := put (put 0 16 y) 0 x

/-- A clip DWord (R49, R50). -/
def clipWord (x y : BitVec 15) : Word := put (put 0 16 y) 0 x

/-- DWord 0 of a drawing command with its mask and destination tiling bit. -/
def drawHeader (o : Op) (len : BitVec 8) (d : Draw) : Word := putBit (put (put o.header 0 len) 20 d.mask) 11 d.tiled

/-- DWord 1 of a drawing command (R183). -/
def drawPen (d : Draw) : Word := putBit (penWord d.pen) 30 d.clip

/-- DWords 2 to 4 of a drawing command (R258). -/
def drawRest (d : Draw) : List Word := [pointWord d.rect.x1 d.rect.y1, pointWord d.rect.x2 d.rect.y2, d.base]

/-- Seeds at their places in DWord 0 (R182). -/
def putSeeds (w : Word) (s : Seeds) : Word := put (put w 12 s.h) 8 s.v

/-- The DWords of a command, written from the encoding tables of its rule. -/
def encode : Instr → List Word
  | .colorBlt len mask pen h w dst color => [put (put (Op.header .colorBlt) 0 len) 20 mask, penWord pen,
      put (put 0 16 h) 0 w, dst, color]
  | .srcCopyBlt len mask xdir pen h w dst sp src => [put (put (Op.header .srcCopyBlt) 0 len) 20 mask,
      putBit (penWord pen) 30 xdir, put (put 0 16 h) 0 w, dst, put 0 0 sp, src]
  | .xySetupBlt len mask tiled clip transp pen r base bg fg pat =>
      [putBit (put (put (Op.header .xySetupBlt) 0 len) 20 mask) 11 tiled, putBit (putBit (penWord pen) 30 clip) 29 transp,
       clipWord r.x1 r.y1, clipWord r.x2 r.y2, base, bg, fg, pat]
  | .xySetupMonoPatternSlBlt len mask tiled solid clip transp pen r base bg fg p0 p1 =>
      [putBit (put (put (Op.header .xySetupMonoPatternSlBlt) 0 len) 20 mask) 11 tiled,
       putBit (putBit (putBit (penWord pen) 31 solid) 30 clip) 28 transp,
       clipWord r.x1 r.y1, clipWord r.x2 r.y2, base, bg, fg, p0, p1]
  | .xySetupClipBlt len tiled r => [putBit (put (Op.header .xySetupClipBlt) 0 len) 11 tiled, clipWord r.x1 r.y1,
      clipWord r.x2 r.y2]
  | .xyPixelBlt len tiled x y => [putBit (put (Op.header .xyPixelBlt) 0 len) 11 tiled, pointWord x y]
  | .xyScanlinesBlt len tiled seeds r => [putSeeds (putBit (put (Op.header .xyScanlinesBlt) 0 len) 11 tiled) seeds,
      pointWord r.x1 r.y1, pointWord r.x2 r.y2]
  | .xyTextBlt len tiled packed r src => [putBit (putBit (put (Op.header .xyTextBlt) 0 len) 11 tiled) 16 packed,
      pointWord r.x1 r.y1, pointWord r.x2 r.y2, src]
  | .xyTextImmediateBlt len tiled packed r data =>
      [putBit (putBit (put (Op.header .xyTextImmediateBlt) 0 len) 11 tiled) 16 packed,
       pointWord r.x1 r.y1, pointWord r.x2 r.y2] ++ data
  | .xyColorBlt len d color => drawHeader .xyColorBlt len d :: drawPen d :: drawRest d ++ [color]
  | .xyPatBlt len d seeds pat => putSeeds (drawHeader .xyPatBlt len d) seeds :: drawPen d :: drawRest d ++ [pat]
  | .xyPatChromaBlt len d mode seeds pat lo hi => putSeeds (put (drawHeader .xyPatChromaBlt len d) 17 mode) seeds ::
      drawPen d :: drawRest d ++ [pat, lo, hi]
  | .xyPatBltImmediate len d seeds data => putSeeds (drawHeader .xyPatBltImmediate len d) seeds :: drawPen d ::
      drawRest d ++ data
  | .xyPatChromaBltImmediate len d mode seeds lo hi data =>
      putSeeds (put (drawHeader .xyPatChromaBltImmediate len d) 17 mode) seeds :: drawPen d :: drawRest d ++ lo :: hi :: data
  | .xyMonoPatBlt len d transp seeds bg fg p0 p1 => putSeeds (drawHeader .xyMonoPatBlt len d) seeds ::
      putBit (drawPen d) 28 transp :: drawRest d ++ [bg, fg, p0, p1]
  | .xyMonoPatFixedBlt len d transp fixed seeds bg fg =>
      putSeeds (put (drawHeader .xyMonoPatFixedBlt len d) 15 fixed) seeds ::
      putBit (drawPen d) 28 transp :: drawRest d ++ [bg, fg]
  | .xySrcCopyBlt len d src => putBit (drawHeader .xySrcCopyBlt len d) 15 src.tiled :: drawPen d :: drawRest d ++
      [pointWord src.x1 src.y1, put 0 0 src.pitch, src.base]
  | .xySrcCopyChromaBlt len d mode src lo hi =>
      putBit (put (drawHeader .xySrcCopyChromaBlt len d) 17 mode) 15 src.tiled :: drawPen d :: drawRest d ++
      [pointWord src.x1 src.y1, put 0 0 src.pitch, src.base, lo, hi]
  | .xyMonoSrcCopyBlt len d transp start src bg fg => put (drawHeader .xyMonoSrcCopyBlt len d) 17 start ::
      putBit (drawPen d) 29 transp :: drawRest d ++ [src, bg, fg]
  | .xyMonoSrcCopyImmediateBlt len d transp start bg fg data =>
      put (drawHeader .xyMonoSrcCopyImmediateBlt len d) 17 start ::
      putBit (drawPen d) 29 transp :: drawRest d ++ bg :: fg :: data
  | .xyFullBlt len d seeds src pat => putSeeds (putBit (drawHeader .xyFullBlt len d) 15 src.tiled) seeds :: drawPen d ::
      drawRest d ++ [put 0 0 src.pitch, pointWord src.x1 src.y1, src.base, pat]
  | .xyFullImmediatePatternBlt len d hseed src data =>
      put (putBit (drawHeader .xyFullImmediatePatternBlt len d) 15 src.tiled) 12 hseed :: drawPen d ::
      drawRest d ++ put 0 0 src.pitch :: pointWord src.x1 src.y1 :: src.base :: data
  | .xyFullMonoSrcBlt len d transp start seeds src bg fg pat =>
      putSeeds (put (drawHeader .xyFullMonoSrcBlt len d) 17 start) seeds ::
      putBit (drawPen d) 29 transp :: drawRest d ++ [src, bg, fg, pat]
  | .xyFullMonoSrcImmediatePatternBlt len d transp start hseed src bg fg data =>
      put (put (drawHeader .xyFullMonoSrcImmediatePatternBlt len d) 17 start) 12 hseed ::
      putBit (drawPen d) 29 transp :: drawRest d ++ src :: bg :: fg :: data
  | .xyFullMonoPatternBlt len d solid transp seeds src bg fg p0 p1 =>
      putSeeds (putBit (drawHeader .xyFullMonoPatternBlt len d) 15 src.tiled) seeds ::
      putBit (putBit (drawPen d) 31 solid) 28 transp ::
      drawRest d ++ [put 0 0 src.pitch, pointWord src.x1 src.y1, src.base, bg, fg, p0, p1]
  | .xyFullMonoPatternMonoSrcBlt len d solid st pt start seeds src sbg sfg pbg pfg p0 p1 =>
      putSeeds (put (drawHeader .xyFullMonoPatternMonoSrcBlt len d) 17 start) seeds ::
      putBit (putBit (putBit (drawPen d) 31 solid) 29 st) 28 pt ::
      drawRest d ++ [src, sbg, sfg, pbg, pfg, p0, p1]
  | .miNoop writeId ident => [putBit (put (Op.header .miNoop) 0 ident) 22 writeId]
  | .miUserInterrupt => [Op.header .miUserInterrupt]
  | .miWaitForEvent sc cc pc sb pb sa pa =>
      [putBit (putBit (putBit (putBit (putBit (putBit (put (Op.header .miWaitForEvent) 16 cc) 20 sc) 15 pc) 10 sb) 9 pb)
        2 sa) 1 pa]
  | .miArbCheck => [Op.header .miArbCheck]
  | .miReportHead => [Op.header .miReportHead]
  | .miBatchBufferEnd => [Op.header .miBatchBufferEnd]
  | .miSuspendFlush on => [putBit (Op.header .miSuspendFlush) 0 on]
  | .miDisplayFlip len async plane pitch tiled base kind =>
      [putBit (put (put (Op.header .miDisplayFlip) 0 len) 19 plane) 22 async, putBit (put 0 6 pitch) 0 tiled,
       put (put 0 12 base) 0 kind]
  | .miSemaphoreMbox len ggtt update compare cmpReg sel data addr =>
      [putBit (putBit (putBit (putBit (put (put (Op.header .miSemaphoreMbox) 0 len) 16 sel) 22 ggtt) 21 update)
        20 compare) 18 cmpReg, data, put 0 2 addr]
  | .miStoreDataImm len ggtt addr d0 d1 => [putBit (put (Op.header .miStoreDataImm) 0 len) 22 ggtt, 0, put 0 2 addr, d0] ++
      (if len = 3 then [d1] else [])
  | .miStoreDataIndex len offset d0 d1 => [put (Op.header .miStoreDataIndex) 0 len, put 0 2 offset, d0] ++
      (if len = 2 then [d1] else [])
  | .miLoadRegisterImm len disables reg data => [put (put (Op.header .miLoadRegisterImm) 0 len) 8 disables, put 0 2 reg,
      data]
  | .miUpdateGtt len ggtt entry data => [putBit (put (Op.header .miUpdateGtt) 0 len) 22 ggtt, put 0 12 entry] ++ data
  | .miStoreRegisterMem len ggtt reg addr => [putBit (put (Op.header .miStoreRegisterMem) 0 len) 22 ggtt, put 0 2 reg,
      put 0 2 addr]
  | .miFlushDw len spare index tlbInv gfdt op notify addr toGgtt d0 d1 =>
      [putBit (putBit (putBit (putBit (putBit (put (put (Op.header .miFlushDw) 0 len) 14 op) 22 spare) 21 index) 18 tlbInv)
        17 gfdt) 8 notify, putBit (put 0 3 addr) 2 toGgtt, d0] ++ (if len = 2 then [d1] else [])
  | .miLoadRegisterMem len ggtt async reg addr =>
      [putBit (putBit (put (Op.header .miLoadRegisterMem) 0 len) 22 ggtt) 21 async, put 0 2 reg, put 0 2 addr]
  | .miBatchBufferStart len asi addr => [putBit (put (Op.header .miBatchBufferStart) 0 len) 8 asi, put 0 2 addr]

/-! ## The opcode table's numbering -/

/-- The longest command: 8 fixed DWords and 64 immediate ones (R185). -/
def maxDwords : Nat := 72

/-- The DWords of an instruction given as a number, bit 0 the least significant bit of DWord 0; bits at and above `nbits`
are 0. -/
def tableWords (nbits w : Nat) : List Word :=
  (List.range maxDwords).map fun k => BitVec.ofNat 32 ((w % 2 ^ nbits) / 2 ^ (32 * k))

/-- The instruction the decoder reads from an instruction word numbered as the opcode table numbers it. -/
def decodeTableWord (nbits w : Nat) : Option Instr := (decode (tableWords nbits w)).toOption

end Sys2Proof
end

