-- ==== Sys2Proof/Config.lean ====
section
/-! DEFINITION. What an implementation or the platform fixes (the open parameters of R7) and the free values: opaque
constants, so that no proof can see what they are. -/

namespace Sys2Proof

/-- Which of the two tiled layouts a surface uses (R104, R132). -/
inductive TileMode where
  | tileX
  | tileY
deriving DecidableEq, Repr

/-- `TILE_LAYOUT` (R7, R132): in which order the DWords of a tiled surface of this mode, base and byte pitch lie in its
4 KB tiles. The spec leaves the order open, but it is a bijection. -/
opaque Config.tileOrder : TileMode → Nat → Nat → Equiv.Perm Nat

/-- Where a position right of the pitch of a tiled surface lies (log 9): the spec gives addresses to the positions of the
surface alone. -/
opaque Config.tileOutside : TileMode → Nat → Nat → Nat → Nat → Nat

/-- `TileAddr(mode, base, pitch, x, y)` (R132): the byte address of position (`x` in bytes, `y`). -/
def Config.tileAddr (mode : TileMode) (base pitch x y : Nat) : Nat :=
  if x < pitch then base + (4 * Config.tileOrder mode base pitch ((y * pitch + x) / 4) + (y * pitch + x) % 4)
  else Config.tileOutside mode base pitch x y

/-- `GTT` (R7, R150, R153): what a raw 32-bit page table entry means for a read (`false`) or a write (`true`): the page
frame and whether the page is cacheable, or `none` for an invalid entry. The entry format is not in the spec. -/
opaque Config.pteMeaning : Word → Bool → Option (Nat × Bool)

/-- `ISR_ADDR` (R7, R96): the MMIO offset of the Interrupt Status Register, not printed. -/
opaque Config.isrAddr : Nat

/-- `IIR_ADDR` (R7, R97): the MMIO offset of the Interrupt Identity Register, not printed. -/
opaque Config.iirAddr : Nat

/-- `NOPID_ADDR` (R7, R106): the MMIO offset of the MI NOPID register, not printed. -/
opaque Config.nopidAddr : Nat

/-- `HWSP_ISR_OFFSET` (R7, R424) as a choice among the fifteen reserved DWords 0 to 3 and 5 to 15 of the status page. -/
opaque Config.hwspIsrSlot : Fin 15

/-- `BR14_16BIT` (R7, R39, C7): whether width and height above 1FFFh are honoured; the spec's default. -/
def Config.br14SixteenBit : Bool := false

/-- Free bytes: what a continued page fault reads (D33), what an overlapped destination byte receives (R486). -/
opaque Config.freeByte : Nat → Byte

/-- Which of the entries a TLB holds a slot of its debug view shows: BCS TLB 0, BLB TLB 1, PD TLB 2. A slot whose number
names no held entry is empty. The spec does not say which slot holds which entry (R63, R64, R66, C10). -/
opaque Config.tlbSlot : Nat → Nat → Nat

/-- What an access is for: it tells the translations of one step apart, which R155 lets be served independently. -/
inductive Use where
  /-- a DWord of the command stream -/
  | fetch
  /-- the operand of an MI command -/
  | operand
  /-- the read of an asynchronous register load -/
  | load
  /-- the automatic head report -/
  | report
  /-- the status write when the pulses of the last step end -/
  | pulse
  /-- the status write of any other interrupt event or condition -/
  | event
  /-- the bytes of a pixel of the pattern, of the source or of the destination -/
  | pattern (x y : Int)
  | source (x y : Int)
  | dest (x y : Int)
  /-- the status write when ISR bit 29 rises or falls on the page fault of another access -/
  | fault (rise : Bool) (addr : Nat) (write : Bool) (of : Use)
deriving DecidableEq, Repr

/-- Which of the pairs a TLB holds for a page serves this one translation (R155): the choice in force, the TLB (numbered as in
`tlbSlot`), the address, its direction, and what the access is for. A number that names no held pair: the table is read. -/
opaque Config.tlbServes : Nat → Nat → Nat → Bool → Use → Nat

/-- Whether a linear copy whose source and destination overlap at different addresses is done pixel by pixel, as R281 has it,
or leaves any value where they overlap, as R486 has it (log 15). -/
opaque Config.linearOverlapInOrder : Bool

/-- Whether an XY copy between operands of one base but of different pitches or layouts is done pixel by pixel, as R486 has it,
or leaves any value where they overlap, as R252 has it (log 15). -/
opaque Config.pitchOverlapInOrder : Bool

/-- Free DWords: reads of `MMIO_OTHER` (U5), setup patterns after a per-command pattern (D3). -/
opaque Config.freeWord : Nat → Word

end Sys2Proof
end

