-- ==== Sys2Proof/Machine/State.lean ====
section
/-! DEFINITION. The state of the blitter as plain data (spec/10_state.md, spec/11_state_mmio.md), the reasons a step can
stop, and the machine after reset (R480). -/

namespace Sys2Proof.Machine

/-! ## The BLT engine -/

/-- BR00 as its named fields (R30). Bit 31 (busy) is a view of the engine's run state and bit 29 lives in the setup set. -/
structure Br00 where
  clips : Bool
  opcode : BitVec 7
  mask : BitVec 2
  monoStart : BitVec 3
  packed : Bool
  srcTiled : Bool
  hseed : BitVec 3
  dstTiled : Bool
  rangeMode : BitVec 3
  vseed : BitVec 3
  dstRead : Bool
  colorSrc : Bool
  monoSrc : Bool
  colorPat : Bool
  monoPat : Bool
deriving DecidableEq, Repr

/-- The per-command registers of the BLT engine (R21, R22). -/
structure Br where
  br00 : Br00
  br09 : Word
  br11 : Word
  br12 : Word
  br13 : Word
  br14 : Word
  br15 : Word
  br16 : Word
  br17 : Word
  br18 : Word
  br19 : Word
  br20 : Word
  br21 : Word
  br22 : Word
  br23 : Word
  br26 : Word
deriving DecidableEq, Repr

/-- The setup set (R22): `br09` is BR09S, `br20` and `br21` are BR20S and BR21S, `monoPattern` is SetupMonoPattern. -/
structure Setup where
  br01 : Word
  br05 : Word
  br06 : Word
  br07 : Word
  br09 : Word
  br20 : Word
  br21 : Word
  br24 : Word
  br25 : Word
  monoPattern : Bool
deriving DecidableEq, Repr

/-- The two translation spaces (R150). -/
inductive Space where
  | ggtt
  | ppgtt
deriving DecidableEq, Repr

/-- The run state of the BLT engine (R28); `pending` holds a command handed over and not yet executed. -/
inductive EngineRun where
  | idle
  | hung
  | pending (cmd : Instr)
deriving DecidableEq, Repr

/-- The BLT engine: its run state and the space of the buffer its command was fetched from (R150, D14). -/
structure Engine where
  run : EngineRun
  space : Space
deriving DecidableEq, Repr

/-! ## The command parser -/

/-- The run state of the parser (R27). A wait state carries the command it re-evaluates. -/
inductive RunState where
  | disabled
  | idle
  | running
  | stopped
  | waitEvent (cmd : Instr)
  | waitSemaphore (cmd : Instr)
  | waitFlush (cmd : Instr)
  | waitRead (cmd : Instr)
  | hung
deriving DecidableEq, Repr

/-- The parser's own state (R25). BCS_BB_ADDR is a view of it; the ring part of `pc` is BCS_RING_BUFFER_HEAD. -/
structure Parser where
  run : RunState
  inBatch : Bool
  batchAddr : Word
  batchSpace : Space
deriving DecidableEq, Repr

/-! ## Memory-mapped registers -/

/-- The memory-mapped registers of spec/11_state_mmio.md rule R60 that are stored. -/
structure Regs where
  hwsPga : Word
  /-- the model's own bit: BCS_HWS_PGA has been written since reset (93 U6) -/
  hwsPgaWritten : Bool
  tlbpendSec0 : Vector Word 64
  /-- the valid and ready bits of the 64 entries of the TLBPEND table, and section 1 of each entry (R57, R71 to R74) -/
  pendValid : BitVec 64
  pendReady : BitVec 64
  pendSec1 : Vector Word 64
  excc : Word
  tail : Word
  head : Word
  start : Word
  ctl : Word
  brsync : Word
  bvsync : Word
  r22050 : Word
  hwstam : Word
  miMode : Word
  gabMode : Word
  imr : Word
  eir : Word
  emr : Word
  esr : Word
  instpm : Word
  uhptr : Word
  ctrThrsh : Word
  cxtSize : Word
  swctrl : Word
  ppDclv : Word
  bltMode : Word
  syncFlip : Word
  timestamp : BitVec 36
  gabCtl : Word
  gabErr : Word
  isr : Word
  iir : Word
  nopid : BitVec 22
  /-- a page or directory fault is pending: the condition behind ISR bit 29 (R421, R430) -/
  faultPending : Bool
deriving DecidableEq, Repr

/-! ## Memory, translation and the environment -/

/-- A page table entry (R150). `raw` is a DWord written by MI_UPDATE_GTT or by the host in the platform's own format,
whose meaning is `Config.pteMeaning`. -/
inductive PageEntry where
  | invalid
  | mapped (frame : Nat) (cacheable writable : Bool)
  | raw (w : Word)
deriving DecidableEq, Repr

/-- The two TLBs that hold page translations of modelled accesses (R57, R155): command streamer and BLT engine. The PD TLB
is `State.pdTlb`. -/
inductive TlbUnit where
  | bcs
  | blb
deriving DecidableEq, Repr

/-- One TLB entry, a pair of a page and what its translation returned: it may be used instead of the table as long as it is
there (R155). -/
structure TlbEntry where
  unit : TlbUnit
  space : Space
  page : Nat
  entry : PageEntry
deriving DecidableEq, Repr

/-- A flip request held by the display engine (R387). -/
structure Flip where
  plane : BitVec 3
  async : Bool
  tiled : Bool
  pitch : BitVec 10
  base : BitVec 20
deriving DecidableEq, Repr

/-- An asynchronous MI_LOAD_REGISTER_MEM still to be done (R386). -/
structure AsyncLoad where
  space : Space
  addr : Word
  reg : Word
  secure : Bool
deriving DecidableEq, Repr

/-- A command DWord the parser has read before it reaches it (R167, 93 M21): from the ring or a batch buffer, its space and
graphics address, and what it read. -/
structure ReadAhead where
  ring : Bool
  space : Space
  addr : Nat
  word : Word
deriving DecidableEq, Repr

/-- What can happen to memory in the middle of a BLT command: at any later moment a byte of the render cache, or the oldest
posted write, reaches memory (R162, R165), the texture cache proves to have kept a byte, or the host stores one. -/
inductive MidAct where
  | evict (addr : Nat)
  | texFill (addr : Nat)
  | drain
  | hostStore (addr : Nat) (b : Byte)
deriving DecidableEq, Repr

/-- When it happens: right before the engine's access for this use, in this direction. -/
structure MidEvent where
  use : Use
  write : Bool
  act : MidAct
deriving DecidableEq, Repr

/-- What the schedule can let happen next (R8, R450): a step of one of the agents, or an act of the environment.
Memory addresses of `evict`, `texFill` and `hostStore` are physical. -/
inductive EnvEvent where
  /-- the parser takes a step although the engine still holds a command (R28) -/
  | parser
  /-- the parser takes a step; a BLT command it reaches is only handed over, not yet executed, and a command that waits for a
  read begins to wait (R27) -/
  | parserDefer
  /-- the engine executes the command it holds -/
  | engine
  /-- the parser reads the DWord `n` DWords behind `pc` of the ring or of the batch buffer, before it gets there (R167) -/
  | readAhead (ring : Bool) (n : Nat)
  /-- the oldest posted write reaches memory (R165) -/
  | drain
  /-- the oldest write of a byte leaves the render cache for memory (R162) -/
  | evict (addr : Nat)
  /-- the texture cache proves to have kept a byte that a texture read returned (R162) -/
  | texFill (addr : Nat)
  /-- from now on this happens in the middle of BLT commands (R162, R165) -/
  | midEvents (l : List MidEvent)
  /-- a TLB proves to have kept what translation number `k` of the record returned (R155) -/
  | tlbFill (k : Nat)
  /-- the entries of a page are replaced in a TLB -/
  | tlbDrop (unit : TlbUnit) (space : Space) (page : Nat)
  /-- the PD TLB proves to have kept a page directory entry that a translation went through (R155) -/
  | pdFill (index : Nat)
  /-- an entry of the PD TLB is replaced -/
  | pdDrop (index : Nat)
  /-- from now on the TLBs serve other accesses from what they hold (R155) -/
  | tlbPick (n : Nat)
  /-- the arbiter's table of pending translations changes in one entry (R57, R71 to R74) -/
  | tlbPend (entry : Nat) (valid ready : Bool) (sec1 : Word)
  /-- one of the asynchronous register loads is done, in no particular order (R386, 93 M18) -/
  | asyncLoad (k : Nat)
  /-- a requested sync flush is done, if it can be (R164) -/
  | syncFlush
  /-- the host writes a register (R61) -/
  | hostWrite (off : Nat) (v : Word)
  /-- the host clears IIR bits by writing ones (R421) -/
  | hostClearIir (v : Word)
  /-- the host writes a byte of memory (R162) -/
  | hostStore (addr : Nat) (b : Byte)
  /-- the platform changes a page table entry (R150) -/
  | setPage (space : Space) (page : Nat) (entry : PageEntry)
  /-- the platform makes a page directory entry of the PPGTT valid or invalid (R151) -/
  | setDirectory (index : Nat) (valid : Bool)
  /-- the render command streamer writes BRSYNC (R84) -/
  | csSemaphore (v : Word)
  /-- the video command streamer writes BVSYNC (R85) -/
  | vcsSemaphore (v : Word)
  /-- the display engine completes the flips of one kind on one plane (R387) -/
  | flipDone (plane : BitVec 3) (async : Bool)
  /-- the timestamp counts on (R460) -/
  | tick (n : Nat)
  /-- RESET (R480); `full` is the chipset reset -/
  | reset (full : Bool)
deriving DecidableEq, Repr

/-- The whole machine. -/
structure State where
  br : Br
  setup : Setup
  regs : Regs
  parser : Parser
  engine : Engine
  /-- graphics memory by physical address; a byte not listed is 0 -/
  mem : List Host.Cell
  /-- the render cache: of the byte writes not yet in memory, the last one of each byte (R162) -/
  rc : List Host.Cell
  /-- the render cache: the earlier writes of bytes that were written again before they got to memory, oldest first (R162) -/
  rcPast : List Host.Cell
  /-- the texture cache: read-only copies, perhaps stale (R162) -/
  tc : List Host.Cell
  /-- the MODEL's own record of what texture reads have returned since the last flush: what the texture cache may have kept of
  it (R162, log 56) -/
  tcRead : List Host.Cell
  /-- posted writes, oldest first (R165) -/
  posted : List (List Host.Cell)
  asyncLoads : List AsyncLoad
  /-- global GTT and per-process table by page number; a page not listed maps to itself, uncached and writable -/
  ggtt : List (Nat × PageEntry)
  ppgtt : List (Nat × PageEntry)
  /-- page directory entries of the PPGTT that are invalid (R151, R431 bit 4) -/
  pdInvalid : List Nat
  tlb : List TlbEntry
  /-- the page directory entries the PD TLB holds (R57, R155) -/
  pdTlb : List Nat
  /-- the MODEL's own record of what translations have returned from the tables since the last invalidation: what the TLBs may
  have kept of it (R155, log 18) -/
  xlats : List TlbEntry
  flips : List Flip
  /-- command DWords read ahead of `pc` (R167) -/
  readAhead : List ReadAhead
  /-- the MODEL's own counter of free values -/
  freeCount : Nat
  /-- the MODEL's own choice of which accesses the TLBs serve (R155) -/
  tlbPick : Nat
  /-- the MODEL's own choice of what happens in the middle of BLT commands (R162, R165, log 61) -/
  midEvents : List MidEvent
  /-- the MODEL's own choice of what happens next; empty: the default agent moves -/
  schedule : List EnvEvent
deriving DecidableEq, Repr

/-! ## Reasons to stop -/

/-- Faults: the parser's fetch left what the ring or the batch buffer can hold. All are safe: the model stops where the
hardware's behaviour is not described. -/
inductive Fault where
  /-- raised by a fetch whose head or tail lies at or beyond RingSize, or whose ring start has bits 31:29 set
  (R87, R89; 93 M9); safe -/
  | ringMisprogrammed
  /-- raised by a fetch when the command's DWords would straddle the tail or the end of the ring (R24, 93 M10); safe -/
  | commandStraddles
  /-- raised by a fetch or an advance past FFFFFFFCh in a batch buffer (R24, 93 M10); safe -/
  | batchOverrun
deriving DecidableEq, Repr

/-- Refusals: the spec gives the command no meaning (each "refuse" of spec/93_implementation_defined.md). All are safe:
nothing can be proved about what the hardware does there. -/
inductive Refusal where
  /-- raised by an arm of `exec` whose meaning is not written; safe -/
  | notModelled (mnemonic : String)
  /-- raised by the parser: the DWord Length of a fixed-length command is not its constant (R181, D17; 93 E3), or
  MI_UPDATE_GTT has no entries (R383; 93 E10); safe -/
  | illegalLength
  /-- raised by the parser: a reserved field is not zero (R205, E2); safe -/
  | reservedField
  /-- raised by a meaning: a reserved value of an enumerated field (R205, E4 to E9); safe -/
  | reservedValue
  /-- raised by a drawing command whose raster operation uses an operand it lacks (R224, M1); safe -/
  | ropOperand
  /-- raised by a drawing command with a negative pitch where it is forbidden (R251, M2); safe -/
  | negativePitch
  /-- raised by a drawing command: base, width or pitch alignment (R126, R257, M5, M7); safe -/
  | misaligned
  /-- raised by a drawing command: pattern address not on a pattern-size boundary (R40, M4); safe -/
  | patternMisaligned
  /-- raised by an access whose address leaves 0 .. FFFFFFFFh (R121, M6); safe -/
  | addressOutOfRange
  /-- raised by a monochrome or text command wider than 32,745 pixels (R136, M3); safe -/
  | widthLimit
  /-- raised by a linear command whose width or height exceeds 13 bits (R39, M7); safe -/
  | br14Range
  /-- raised by an immediate monochrome source of more than 128 bytes whose amount is exact (R137, spec/95_test_vectors.md
  2.11); safe -/
  | immediateTooLarge
  /-- raised by a drawing command that breaks the rules for cacheable memory (R161, M8); safe -/
  | cacheability
  /-- raised by a command that may not stand in a batch buffer (R192, M12) or by a chained start with another address
  space (M13); safe -/
  | placement
  /-- raised by the parser: no command follows an immediate BLT command or a flip before the tail (R207, M11); safe -/
  | noFollowingCommand
  /-- raised by MI_DISPLAY_FLIP when its packet crosses a cache line (R207, M11); safe -/
  | flipCacheLine
  /-- raised by MI_DISPLAY_FLIP: the forms R387 refuses (M19); safe -/
  | flipForm
  /-- raised by a status page write while BCS_HWS_PGA has not been written since reset (U6, R377); safe -/
  | statusPageUnset
  /-- raised by MI_STORE_DATA_INDEX into the reserved DWords (U7); safe -/
  | statusPageReserved
  /-- raised by MI_FLUSH_DW with Store Data Index in a non-secure batch with PPGTT (M14, D28); safe -/
  | perProcessStatusPage
  /-- raised by MI_FLUSH_DW: the combinations R374 refuses (E6, H6); safe -/
  | flushForm
  /-- raised by a QWord store whose address is not QWord aligned (R380, R381); safe -/
  | qwordAlignment
  /-- raised by MI_LOAD_REGISTER_IMM with partial byte write disables (U4); safe -/
  | byteWriteDisables
  /-- raised by MI_SEMAPHORE_MBOX: the combinations R378 refuses (E7); safe -/
  | semaphoreForm
  /-- raised by MI_WAIT_FOR_EVENT with several events (U8) or an unimplemented condition code (U3); safe -/
  | waitForm
  /-- raised by an MI memory command with Use Global GTT clear while PPGTT is disabled (M15), by MI_UPDATE_GTT for the
  per-process table (E10), or by entering a PPGTT batch while PPGTT is disabled (R373); safe -/
  | addressSpace
  /-- raised by MI_ARB_CHECK: the pending head pointer is no offset of the ring (D26); safe -/
  | uhptrRange
  /-- raised by MI_LOAD_REGISTER_MEM to a forbidden register (M17); safe -/
  | registerRange
  /-- raised by a write to the head register while the ring is enabled (U2); safe -/
  | headWhileEnabled
  /-- raised by a write that moves the tail backwards while the ring is enabled (M9); safe -/
  | tailBackwards
  /-- raised by a register write that leaves an enabled ring with its tail at or beyond the ring size (R87, M9); safe -/
  | tailOutside
  /-- raised by a write that unmasks more than one bit of BCS_HWSTAM (M20); safe -/
  | hwstamMask
  /-- raised by a write of an unimplemented condition code select to BCS_SYNC_FLIP_STATUS (R103); safe -/
  | syncFlipSelect
deriving DecidableEq, Repr

/-! ## Reset -/

/-- BR00 after reset: every field 0 (R30). -/
def Br00.reset : Br00 := ⟨false, 0, 0, 0, false, false, 0, false, 0, 0, false, false, false, false, false⟩

/-- The per-command registers after reset: 0, BR20 to BR23 and BR26 by D10 (R21, R480). DESIGN CHOICE for those (log 1). -/
def Br.reset : Br := ⟨.reset, 0, 0, 0, 0, 0, 0, 0, 0, 0, 0, 0, 0, 0, 0, 0⟩

/-- The setup set after reset: 0 (R480; BR09S, BR20S, BR21S, BR24, BR25 by D10, log 1). -/
def Setup.reset : Setup := ⟨0, 0, 0, 0, 0, 0, 0, 0, 0, false⟩

/-- The registers after reset: the printed defaults of R60 (R109); 0 by D10 for those without one (log 1). -/
def Regs.reset : Regs where
  hwsPga := 0
  hwsPgaWritten := false
  tlbpendSec0 := Vector.replicate 64 0
  pendValid := 0
  pendReady := 0
  pendSec1 := Vector.replicate 64 0
  excc := 0
  tail := 0
  head := 0
  start := 0
  ctl := 0
  brsync := 0
  bvsync := 0
  r22050 := 0
  hwstam := 0xFFFFFFFF
  miMode := 0
  gabMode := 0
  imr := 0xFFFFFFFF
  eir := 0
  emr := 0x0000FFFF
  esr := 0
  instpm := 0
  uhptr := 0
  ctrThrsh := 0x00150000
  cxtSize := 0x00000400
  swctrl := 0
  ppDclv := 0
  bltMode := 0
  syncFlip := 0
  timestamp := 0
  gabCtl := 0x000000BF
  gabErr := 0
  isr := 0
  iir := 0
  nopid := 0
  faultPending := false

/-- The machine right after RESET(full) (R480): the ring disabled, nothing in memory. DESIGN CHOICE: a byte of memory
nothing has written reads 0 (log 2), a page not listed maps to itself (log 3), the free-value counter is 0 (log 4), the
schedule is empty (log 5), the choice of the TLBs is number 0 (log 18), nothing happens in the middle of BLT commands
(log 61). -/
def State.reset : State where
  br := .reset
  setup := .reset
  regs := .reset
  parser := ⟨.disabled, false, 0, .ggtt⟩
  engine := ⟨.idle, .ggtt⟩
  mem := []
  rc := []
  rcPast := []
  tc := []
  tcRead := []
  posted := []
  asyncLoads := []
  ggtt := []
  ppgtt := []
  pdInvalid := []
  tlb := []
  pdTlb := []
  xlats := []
  flips := []
  readAhead := []
  freeCount := 0
  tlbPick := 0
  midEvents := []
  schedule := []

end Sys2Proof.Machine
end

