-- ==== Sys2Proof/Machine/Memory.lean ====
section
/-! DEFINITION. Sorted lists of (address, value) pairs: graphics memory, the two caches and the page tables (R120, R162). -/

namespace Sys2Proof.Machine

/-- The value listed at an address. -/
def lookup {α : Type} : List (Nat × α) → Nat → Option α
  | [], _ => none
  | (k, v) :: l, a => if k = a then some v else lookup l a

/-- List a value at an address, keeping the addresses strictly rising. -/
def insert {α : Type} : List (Nat × α) → Nat → α → List (Nat × α)
  | [], a, x => [(a, x)]
  | (k, v) :: l, a, x =>
    if a < k then (a, x) :: (k, v) :: l else if a = k then (a, x) :: l else (k, v) :: insert l a x

/-- Remove what is listed at an address. -/
def erase {α : Type} : List (Nat × α) → Nat → List (Nat × α)
  | [], _ => []
  | (k, v) :: l, a => if k = a then l else (k, v) :: erase l a

/-- The addresses rise strictly. -/
def sorted {α : Type} : List (Nat × α) → Bool
  | [] => true
  | (k, _) :: l => (match l with
      | [] => true
      | (k', _) :: _ => decide (k < k')) && sorted l

/-- The canonical form of graphics memory: addresses strictly rising, no entry equal to what an unlisted byte reads as. -/
def Memory.wf (m : List Host.Cell) : Bool := sorted m && m.all fun c => c.2 != 0

/-- A byte of graphics memory; one that is not listed is 0 (log 2). -/
def Memory.read (m : List Host.Cell) (a : Nat) : Byte := (lookup m a).getD 0

/-- Write a byte of graphics memory, keeping the canonical form. -/
def Memory.write (m : List Host.Cell) (a : Nat) (b : Byte) : List Host.Cell :=
  if b = 0 then erase m a else insert m a b

/-- Write several bytes, in order. -/
def Memory.writeAll : List Host.Cell → List Host.Cell → List Host.Cell
  | m, [] => m
  | m, (a, b) :: l => Memory.writeAll (Memory.write m a b) l

/-- The bytes of `bs` at consecutive addresses from `a`. -/
def cellsAt : Nat → List Byte → List Host.Cell
  | _, [] => []
  | a, b :: bs => (a, b) :: cellsAt (a + 1) bs

/-- What a BLT reads of its destination or of a colour source: the render cache before memory (R162). -/
def State.renderRead (s : State) (a : Nat) : Byte := (lookup s.rc a).getD (Memory.read s.mem a)

/-- What a BLT reads of a pattern or a monochrome source: the texture cache before memory, never the render cache. -/
def State.textureRead (s : State) (a : Nat) : Byte := (lookup s.tc a).getD (Memory.read s.mem a)

/-- Texture reads have returned these bytes, which the texture cache may keep (R162). -/
def State.noteTexture (s : State) (as : List Nat) : State :=
  { s with tcRead := as.foldl (fun l a => insert l a (s.textureRead a)) s.tcRead }

/-- The texture cache holds a byte that a texture read has returned since the last flush; one it holds already stays (R162).
DESIGN CHOICE of form: nothing but texture reads sees the cache, so that it kept the byte is settled after the read and not
at it (log 56). -/
def State.fillTexture (s : State) (a : Nat) : State :=
  match lookup s.tcRead a, lookup s.tc a with
  | some b, none => { s with tc := insert s.tc a b }
  | _, _ => s

/-- A destination write goes to the render cache (R162); an earlier write of the byte stays there until it reaches memory. -/
def State.renderWrite (s : State) (a : Nat) (b : Byte) : State :=
  { s with
    rc := insert s.rc a b
    rcPast := match lookup s.rc a with
      | some o => s.rcPast ++ [(a, o)]
      | none => s.rcPast }

/-- All TLBs are invalidated (R166); no translation made before is theirs to keep. -/
def State.invalidateTlbs (s : State) : State := { s with tlb := [], pdTlb := [], xlats := [] }

/-- The flush of R163 and R164: the render cache is written to memory, both caches are emptied, and nothing read before
stays for the texture cache to keep. -/
def State.flushCaches (s : State) : State :=
  { s with mem := Memory.writeAll (Memory.writeAll s.mem s.rcPast) s.rc, rc := [], rcPast := [], tc := [], tcRead := [] }

/-- The oldest posted write reaches memory (R165). -/
def State.drainOne (s : State) : State :=
  match s.posted with
  | [] => s
  | p :: ps => { s with mem := Memory.writeAll s.mem p, posted := ps }

/-- The oldest write of a byte that the render cache holds is written to memory and leaves the cache (R162). -/
def State.evictByte (s : State) (a : Nat) : State :=
  match lookup s.rcPast a, lookup s.rc a with
  | some b, _ => { s with mem := Memory.write s.mem a b, rcPast := erase s.rcPast a }
  | none, some b => { s with mem := Memory.write s.mem a b, rc := erase s.rc a }
  | none, none => s

/-- The host writes a byte of memory; the caches do not see it (R162). -/
def State.hostStore (s : State) (a : Nat) (b : Byte) : State := { s with mem := Memory.write s.mem a b }

/-- What happens to memory in the middle of a command. -/
def State.midAct (s : State) : MidAct → State
  | .evict a => s.evictByte a
  | .texFill a => s.fillTexture a
  | .drain => s.drainOne
  | .hostStore a b => s.hostStore a b

/-- All that is to happen right before the engine's access for this use, in this direction (R162, R165, log 61). -/
def State.midway (s : State) (use : Use) (write : Bool) : State :=
  (s.midEvents.filter fun e => e.use == use && e.write == write).foldl (fun s e => s.midAct e.act) s

/-- All posted writes reach memory, in order (R165). -/
def drainAll : List Host.Cell → List (List Host.Cell) → List Host.Cell
  | m, [] => m
  | m, p :: ps => drainAll (Memory.writeAll m p) ps

/-- RESET(soft) or RESET(full) in a running machine (R480): memory and page tables stay, the caches are discarded; the
graphics reset keeps the timestamp and the TLBs. The rest of the schedule is the environment's and stays. DESIGN CHOICE, where
R480 leaves it open (log 49): flip requests held by the display engine and queued asynchronous register loads are dropped, as
are command DWords read ahead; and a full reset, after which memory, page tables and status page hold whatever the platform
provides, leaves them as they are, so that what the platform provides comes by later events. -/
def State.afterReset (s : State) (full : Bool) : State :=
  { State.reset with
    regs := { Regs.reset with timestamp := if full then 0 else s.regs.timestamp }
    mem := s.mem
    ggtt := s.ggtt
    ppgtt := s.ppgtt
    pdInvalid := s.pdInvalid
    tlb := if full then [] else s.tlb
    pdTlb := if full then [] else s.pdTlb
    xlats := if full then [] else s.xlats
    tlbPick := s.tlbPick
    midEvents := s.midEvents
    freeCount := s.freeCount
    schedule := s.schedule }

end Sys2Proof.Machine
end

