-- ==== Sys2Proof/Machine/Flags.lean ====
section
/-! DEFINITION. Status bits: the interrupt bits and their levels (R93, R421), the condition codes and flip flags an
MI_WAIT_FOR_EVENT tests (R26, R385), the run-state views, and the flags decoded into BR00 (R30). -/

namespace Sys2Proof.Machine

/-! ## Interrupt bits (R93) -/

/-- The defined interrupt bits: 29, 26, 25, 24, 22. -/
def definedInts : Word := 0x27400000

/-- The pulse bits: 26, 24, 22 (R421). -/
def pulseInts : Word := 0x05400000

/-- The ISR with its level bits following their conditions: bit 25 is the OR of BCS_EIR (R426), bit 29 stands while a
fault is pending (R430). -/
def levels (r : Regs) (isr : Word) : Word := setBit (setBit isr 25 (r.eir != 0)) 29 r.faultPending

/-- `IntPending`, the line towards the CPU (R421, R423). -/
def State.intPending (s : State) : Bool := s.regs.iir != 0

/-- BCS_EIR takes in the unmasked bits of BCS_ESR, continuously (R425). -/
def eirOf (r : Regs) : Word := r.eir ||| (r.esr &&& ~~~r.emr &&& 0xFFFF)

/-- An ISR bit change causes a status write when the bit is clear in BCS_HWSTAM and in BCS_IMR (R421, R424). -/
def needsStatusWrite (r : Regs) (old new : Word) : Bool := (old ^^^ new) &&& ~~~r.hwstam &&& ~~~r.imr != 0

/-! ## Modes and run states -/

/-- `Secure`: fetching from the ring or from a GGTT batch buffer (R440). -/
def State.secure (s : State) : Bool := !s.parser.inBatch || s.parser.batchSpace == .ggtt

/-- BLT_MODE bit 9, Per-Process GTT Enable (R81). -/
def State.ppgttEnabled (s : State) : Bool := bit s.regs.bltMode 9

/-- Ring Buffer Enable (R90). -/
def State.ringEnabled (s : State) : Bool := bit s.regs.ctl 0

/-- BR00 bit 31 and the engine's `busy` (R28, R435): a held command or a hang. -/
def State.engineBusy (s : State) : Bool := s.engine.run != .idle

/-- Ring Idle, BCS_MI_MODE bit 9 (R80, D11). -/
def State.ringIdle (s : State) : Bool :=
  (s.parser.run == .idle || s.parser.run == .stopped || s.parser.run == .disabled) && !s.engineBusy

/-- RingSize in bytes (R23). -/
def Regs.ringSize (r : Regs) : Nat := ((field r.ctl 12 9).toNat + 1) * 4096

/-- The Head Offset as a byte offset (R24). -/
def Regs.headOff (r : Regs) : Nat := (field r.head 2 19).toNat * 4

/-- The Tail Offset as a byte offset (R87). -/
def Regs.tailOff (r : Regs) : Nat := (field r.tail 3 18).toNat * 8

/-- BCS_BB_ADDR (R102). -/
def State.bbAddr (s : State) : Word := (s.parser.batchAddr &&& 0xFFFFFFF8) ||| (BitVec.ofBool s.parser.inBatch).setWidth 32

/-! ## Wait conditions (R385) -/

/-- The places in BCS_SYNC_FLIP_STATUS of one plane or sprite: its pending flags and its wait enables (R103). -/
structure FlipBits where
  pending : Word
  waits : Word
deriving DecidableEq, Repr

/-- Plane and sprite flags of BCS_SYNC_FLIP_STATUS (R103, D31), selected as MI_DISPLAY_FLIP numbers them (R387). -/
def flipBits (plane : Nat) : FlipBits :=
  match plane with
  | 0 => ⟨0x60000000, 0x00600000⟩
  | 1 => ⟨0x06000000, 0x00006000⟩
  | 2 => ⟨0x10000000, 0x00100000⟩
  | 3 => ⟨0x01000000, 0x00001000⟩
  | 4 => ⟨0x00000C00, 0x00000180⟩
  | _ => ⟨0x00000200, 0x00000040⟩

/-- The pending flag a flip request sets: the asynchronous one of a plane, or the synchronous one (R103, R387). -/
def flipPendingBit (plane : Nat) (async : Bool) : Word :=
  match plane, async with
  | 0, true => 0x40000000
  | 0, false => 0x20000000
  | 1, true => 0x04000000
  | 1, false => 0x02000000
  | 2, _ => 0x10000000
  | 3, _ => 0x01000000
  | 4, true => 0x00000800
  | 4, false => 0x00000400
  | _, _ => 0x00000200

/-- Every wait record of BCS_SYNC_FLIP_STATUS: the wait enables and the condition code select. -/
def waitRecords : Word := 0x007071DF

/-- The one event of an MI_WAIT_FOR_EVENT (R385): none, a condition code, or a plane or sprite in the numbering of
`flipBits`. -/
inductive WaitEvent where
  | none
  | code (cc : BitVec 4)
  | flip (plane : Nat)
deriving DecidableEq, Repr

/-- The event an MI_WAIT_FOR_EVENT selects, of at most one selected (R385). -/
def waitEvent (spriteC : Bool) (cc : BitVec 4) (planeC spriteB planeB spriteA planeA : Bool) : WaitEvent :=
  if cc ≠ 0 then .code cc
  else if planeA then .flip 0
  else if planeB then .flip 1
  else if spriteA then .flip 2
  else if spriteB then .flip 3
  else if planeC then .flip 4
  else if spriteC then .flip 5
  else .none

/-- Whether the condition waited for still exists (R385, D31). -/
def WaitEvent.holds (r : Regs) : WaitEvent → Bool
  | .none => false
  | .code cc => bit r.excc (cc.toNat - 1)
  | .flip p => r.syncFlip &&& (flipBits p).pending != 0

/-- The wait recorded in BCS_SYNC_FLIP_STATUS (R103, R385). -/
def WaitEvent.record : WaitEvent → Word
  | .none => 0
  | .code cc => cc.setWidth 32
  | .flip p => (flipBits p).waits

/-! ## Operands a command and a raster operation use -/

/-- Which operands a raster operation uses (R223). -/
structure RopUses where
  d : Bool
  s : Bool
  p : Bool
deriving DecidableEq, Repr

/-- `RopUses` (R223). -/
def ropUses (rop : BitVec 8) : RopUses :=
  ⟨(rop >>> 1) &&& 0x55 != rop &&& 0x55, (rop >>> 2) &&& 0x33 != rop &&& 0x33, (rop >>> 4) &&& 0x0F != rop &&& 0x0F⟩

/-- A source range mode: 001b or 011b (R245). -/
def sourceMode (m : BitVec 3) : Bool := m == 1 || m == 3

/-- A destination range mode: 101b or 111b (R245). -/
def destMode (m : BitVec 3) : Bool := m == 5 || m == 7

/-- The destination is read when the raster operation or the range mode needs it (R226); also BR00 bit 4. -/
def destRead (rop : BitVec 8) (m : BitVec 3) : Bool := (ropUses rop).d || destMode m

/-- BR00 bits 3:0 (R186): colour source, monochrome source, colour pattern, monochrome pattern. -/
def operandBits : Op → Bool × Bool × Bool × Bool
  | .srcCopyBlt | .xySrcCopyBlt | .xySrcCopyChromaBlt => (true, false, false, false)
  | .xyTextBlt | .xyTextImmediateBlt | .xyMonoSrcCopyBlt | .xyMonoSrcCopyImmediateBlt => (false, true, false, false)
  | .xyPatBlt | .xyPatChromaBlt | .xyPatBltImmediate | .xyPatChromaBltImmediate => (false, false, true, false)
  | .xyMonoPatBlt | .xyMonoPatFixedBlt => (false, false, false, true)
  | .xyFullBlt | .xyFullImmediatePatternBlt => (true, false, true, false)
  | .xyFullMonoSrcBlt | .xyFullMonoSrcImmediatePatternBlt => (false, true, true, false)
  | .xyFullMonoPatternBlt => (true, false, false, true)
  | .xyFullMonoPatternMonoSrcBlt => (false, true, false, true)
  | _ => (false, false, false, false)

end Sys2Proof.Machine
end

