-- ==== Sys2Proof/Machine/Ops.lean ====
section
/-! DEFINITION. The operations every meaning is written over: how a command goes on or ends, free values, address
translation (R150), taking a page fault, an Instruction Error or a hang (R430, R425, R435), the interrupt chain (R421),
posted writes (R165) and the advance of `pc` (R24). -/

namespace Sys2Proof.Machine

/-! ## How a command goes on or ends -/

/-- A computation over the state: it goes on with a value, or ends the step with an outcome. The outcome is a next
state when an agent hangs in the middle of a command (R435). -/
abbrev M (α : Type) := StateT State (Except (Host.Outcome State Fault Refusal)) α

/-- The outcome of a whole command or step. -/
def M.outcome (m : M Unit) (s : State) : Host.Outcome State Fault Refusal :=
  match m s with
  | .ok (_, s') => .next s'
  | .error o => o

/-- Go on after the outcome of a command. -/
def M.ofOutcome (f : State → Host.Outcome State Fault Refusal) : M Unit := fun s =>
  match f s with
  | .next s' => .ok ((), s')
  | o => .error o

/-- The command has no meaning. -/
def refuse {α : Type} (r : Refusal) : M α := throw (.refused r)

/-- The step stops with a fault. -/
def stop {α : Type} (f : Fault) : M α := throw (.fault f)

/-- Refuse unless the condition holds. -/
def require (ok : Bool) (r : Refusal) : M Unit := if ok then pure () else refuse r

/-- Do this only when the condition holds. -/
def onlyIf (c : Bool) (m : M Unit) : M Unit := if c then m else pure ()

/-- The step ends here, in the present state. -/
def halt {α : Type} : M α := do throw (.next (← get))

/-! ## State updates -/

/-- Change the memory-mapped registers. -/
def onRegs (f : Regs → Regs) : M Unit := modify fun s => { s with regs := f s.regs }

/-- Change the parser's own state. -/
def onParser (f : Parser → Parser) : M Unit := modify fun s => { s with parser := f s.parser }

/-- Change the per-command registers of the BLT engine. -/
def onBr (f : Br → Br) : M Unit := modify fun s => { s with br := f s.br }

/-- Change the setup set. -/
def onSetup (f : Setup → Setup) : M Unit := modify fun s => { s with setup := f s.setup }

/-- Enter a run state (R27). -/
def setRun (r : RunState) : M Unit := onParser fun p => { p with run := r }

/-! ## Free values -/

/-- A byte the spec leaves open: a new free value at each use. -/
def freeByte : M Byte := do
  let s ← get
  set { s with freeCount := s.freeCount + 1 }
  pure (Config.freeByte s.freeCount)

/-- A DWord the spec leaves open: a new free value at each use. -/
def freeWord : M Word := do
  let s ← get
  set { s with freeCount := s.freeCount + 1 }
  pure (Config.freeWord s.freeCount)

/-! ## Translation (R150 to R155) -/

/-- The agents whose accesses are translated (R430): the parser (command fetch, MI accesses) and the BLT engine. -/
inductive Agent where
  | parser
  | engine
deriving DecidableEq, Repr

/-- The TLB an agent's accesses go through (R155). -/
def Agent.tlb : Agent → TlbUnit
  | .parser => .bcs
  | .engine => .blb

/-- Where a translation leads: the physical address of the byte and whether its page is cacheable (R150). -/
structure Phys where
  addr : Nat
  cacheable : Bool
deriving DecidableEq, Repr

/-- What a translation met instead (R431): an invalid page entry (bit 2), an invalid directory entry (bit 4), or a
directory entry in a set not enabled in BCS_PP_DCLV (bit 3). -/
inductive XlatFault where
  | page
  | directory
  | directorySet
deriving DecidableEq, Repr

/-- The GGTT replaces the PPGTT while BLT_MODE bit 9 is 0 (R150). -/
def State.effective (s : State) (sp : Space) : Space :=
  match sp with
  | .ggtt => .ggtt
  | .ppgtt => if s.ppgttEnabled then .ppgtt else .ggtt

/-- The page tables of a space. -/
def State.table (s : State) : Space → List (Nat × PageEntry)
  | .ggtt => s.ggtt
  | .ppgtt => s.ppgtt

/-- The number of a TLB for the choices of `Config`. -/
def TlbUnit.number : TlbUnit → Nat
  | .bcs => 0
  | .blb => 1

/-- The pairs a TLB holds for a page, in the order they came (R155). -/
def tlbHeld (l : List TlbEntry) (u : TlbUnit) (sp : Space) (page : Nat) : List TlbEntry :=
  l.filter fun e => e.unit == u && e.space == sp && e.page == page

/-- The entry of the table; a page not listed maps to itself, uncached and writable (log 3). -/
def tableEntry (t : List (Nat × PageEntry)) (page : Nat) : PageEntry := (lookup t page).getD (.mapped page false true)

/-- The meaning of an entry for a read or a write: the page frame and its memory type, or invalid (R150, R152). -/
def PageEntry.meaning (e : PageEntry) (write : Bool) : Option (Nat × Bool) :=
  match e with
  | .invalid => none
  | .mapped frame cacheable writable => if write && !writable then none else some (frame, cacheable)
  | .raw w => Config.pteMeaning w write

/-- Whether the PD TLB serves this access from a directory entry it holds (R155). -/
def State.pdServed (s : State) (addr : Nat) (write : Bool) (use : Use) : Bool :=
  s.pdTlb.contains (addr / 0x400000) && Config.tlbServes s.tlbPick 2 addr write use == 0

/-- The directory check of a PPGTT access (R151): each of 512 directory entries covers 4 MB, sixteen make a set. -/
def State.directoryFault (s : State) (addr : Nat) (write : Bool) (use : Use) : Option XlatFault :=
  if addr / 0x4000000 ≥ 32 || !(bit s.regs.ppDclv (addr / 0x4000000)) then some .directorySet
  else if s.pdInvalid.contains (addr / 0x400000) && !s.pdServed addr write use then some .directory
  else none

/-- The entry the TLB of an agent serves this access with: one of those it holds, if it chooses to (R155). -/
def State.tlbEntry (s : State) (u : TlbUnit) (sp : Space) (addr : Nat) (write : Bool) (use : Use) : Option PageEntry :=
  ((tlbHeld s.tlb u sp (addr / 4096))[Config.tlbServes s.tlbPick u.number addr write use]?).map (·.entry)

/-- `Translate` (R150): from a TLB entry, or from the directory and the table (R155). Each translation of a step makes its
own choice: `use` tells it from the others. -/
def State.translate (s : State) (u : TlbUnit) (sp : Space) (addr : Nat) (write : Bool) (use : Use) : Except XlatFault Phys :=
  let sp := s.effective sp
  let finish (e : PageEntry) : Except XlatFault Phys :=
    match e.meaning write with
    | some (frame, cacheable) => .ok ⟨frame * 4096 + addr % 4096, cacheable⟩
    | none => .error .page
  match s.tlbEntry u sp addr write use with
  | some e => finish e
  | none =>
    match (if sp = .ppgtt then s.directoryFault addr write use else none) with
    | some f => .error f
    | none => finish (tableEntry (s.table sp) (addr / 4096))

/-- The pair a translation adds to those a TLB may keep (R155): the page and what the table returned. A translation that faults
has none, and one that a TLB has served is there already. -/
def State.xlatPair (s : State) (u : TlbUnit) (sp : Space) (addr : Nat) (write : Bool) (use : Use) : Option TlbEntry :=
  match s.translate u sp addr write use, s.tlbEntry u (s.effective sp) addr write use with
  | .ok _, none => some ⟨u, s.effective sp, addr / 4096, tableEntry (s.table (s.effective sp)) (addr / 4096)⟩
  | _, _ => none

/-- A translation has been made, and what it returned is noted for the TLBs, which may keep it (R155). DESIGN CHOICE of form:
that a TLB kept it is settled after the access and not at it (log 18). -/
def State.noteXlat (s : State) (u : TlbUnit) (sp : Space) (addr : Nat) (write : Bool) (use : Use) : State :=
  { s with xlats := match s.xlatPair u sp addr write use with
    | some e => if s.xlats.contains e then s.xlats else s.xlats ++ [e]
    | none => s.xlats }

/-- Every access lies in 0 .. FFFFFFFFh; one that leaves it is refused, no address wraps (R121). -/
def checkRange (addr : Int) (n : Nat) : M Nat := do
  require (decide (0 ≤ addr) && decide (addr + n ≤ 0x100000000)) .addressOutOfRange
  pure addr.toNat

/-! ## The interrupt chain (R421 to R426) -/

/-- GAB error bit of a fault (R431); a status page write reports an invalid entry as bit 7. -/
def gabBit (statusPage : Bool) : XlatFault → Nat
  | .page => if statusPage then 7 else 2
  | .directory => 4
  | .directorySet => 3

/-- The agent makes no further step (R435). -/
def hang (a : Agent) : M Unit :=
  match a with
  | .parser => setRun .hung
  | .engine => modify fun s => { s with engine := { s.engine with run := .hung } }

/-- Whether a fault hangs (R430): always for a directory set that is not enabled (D33), otherwise as GAB_CTL_REG bit 8
says. -/
def faultHangs (r : Regs) (f : XlatFault) : Bool := f == .directorySet || !(bit r.gabCtl 8)

/-- Write the ISR and let the IIR take in its unmasked bits (R421). -/
def latchIsr (new : Word) : M Unit := onRegs fun r => { r with isr := new, iir := r.iir ||| (new &&& ~~~r.imr) }

/-- A fault on the status write itself: the error bit, the pending bit and the hang of R430, with no further status
write. The parser is the agent of status page writes. -/
def statusWriteFault (f : XlatFault) : M Unit := do
  onRegs fun r => { r with gabErr := setBit r.gabErr (gabBit true f) true }
  let s ← get
  if faultHangs s.regs f then
    onRegs fun r => { r with faultPending := true }
    latchIsr (setBit s.regs.isr 29 true)
    hang .parser
    halt
  else
    latchIsr (setBit s.regs.isr 29 true)
    latchIsr s.regs.isr

/-- The page address in BCS_HWS_PGA (R76). -/
def Regs.hwsp (r : Regs) : Nat := (r.hwsPga &&& 0xFFFFF000).toNat

/-- The address of the ISR's DWord in the status page: DWord 0 to 3 or 5 to 15, as the platform has it (R424). -/
def Regs.statusAddr (r : Regs) : Nat :=
  r.hwsp + 4 * (if Config.hwspIsrSlot.val < 4 then Config.hwspIsrSlot.val else Config.hwspIsrSlot.val + 1)

/-- Hardware status write (R424): the ISR is posted to its DWord of the status page. -/
def statusWrite (use : Use) : M Unit := do
  let s ← get
  match s.translate .bcs .ggtt s.regs.statusAddr true use with
  | .ok p =>
    let t := s.noteXlat .bcs .ggtt s.regs.statusAddr true use
    set { t with posted := s.posted ++ [cellsAt p.addr (wordBytes s.regs.isr)] }
  | .error f => statusWriteFault f

/-- The ISR changes: it is latched, and a changed bit that is unmasked causes a status write (R421, R424). -/
def setIsr (use : Use) (new : Word) : M Unit := do
  let s ← get
  latchIsr new
  onlyIf (needsStatusWrite s.regs s.regs.isr new) (statusWrite use)

/-- Recompute what follows conditions (R421, R425): the EIR and the level bits of the ISR. -/
def refresh : M Unit := do
  onRegs fun r => { r with eir := eirOf r }
  let s ← get
  setIsr .event (levels s.regs s.regs.isr)

/-- An interrupt event (R422, R427 to R429): its ISR bit is 1 until the next step begins. -/
def raiseInt (b : Nat) : M Unit := do
  let s ← get
  setIsr .event (setBit s.regs.isr b true)

/-- The pulse bits of the ISR last one step (R422, D32). -/
def dropPulses : M Unit := do
  let s ← get
  if s.regs.isr &&& pulseInts = 0 then pure () else setIsr .pulse (s.regs.isr &&& ~~~pulseInts)

/-! ## Taking an exception -/

/-- `PageFault` (R430, R431): the GAB error bit is set; then either ISR bit 29 stands, the agent that made the access
hangs and the step ends, or the access goes nowhere, ISR bit 29 returning to 0. Nothing returns from it (R420). `use` says of
its status writes, as ISR bit 29 rises and falls, what they are for. -/
def takePageFault (a : Agent) (statusPage : Bool) (use : Bool → Use) (f : XlatFault) : M Unit := do
  onRegs fun r => { r with gabErr := setBit r.gabErr (gabBit statusPage f) true }
  let s ← get
  if faultHangs s.regs f then
    onRegs fun r => { r with faultPending := true }
    hang a
    setIsr (use true) (setBit s.regs.isr 29 true)
    halt
  else
    setIsr (use true) (setBit s.regs.isr 29 true)
    let s ← get
    setIsr (use false) (setBit s.regs.isr 29 s.regs.faultPending)

/-- `InstructionError` (R200, R425, R426): ESR bit 0, with it the EIR and Master Error as the masks say; the parser hangs
with `pc` on the command. -/
def takeInstructionError : M Unit := do
  onRegs fun r => { r with esr := r.esr ||| 1 }
  setRun .hung
  refresh

/-- The BLT data hang (R435, D5): the engine hangs, then the parser waiting for it; the step ends. -/
def dataHang {α : Type} : M α := do
  hang .engine
  hang .parser
  halt

/-! ## Memory accesses -/

/-- Translate one access of an agent; `none` when it faulted and goes on without effect (R430). -/
def access (a : Agent) (statusPage : Bool) (sp : Space) (addr : Nat) (write : Bool) (use : Use) : M (Option Phys) := do
  let s ← get
  match s.translate a.tlb sp addr write use with
  | .ok p => do
    set (s.noteXlat a.tlb sp addr write use)
    pure (some p)
  | .error f =>
    takePageFault a statusPage (fun rise => .fault rise addr write use) f
    pure none

/-- Several free bytes. -/
def freeBytes : Nat → M (List Byte)
  | 0 => pure []
  | n + 1 => do
    let b ← freeByte
    let bs ← freeBytes n
    pure (b :: bs)

/-- The bytes at consecutive physical addresses. -/
def bytesAt (read : Nat → Byte) (a n : Nat) : List Byte := (List.range n).map fun k => read (a + k)

/-- A DWord read of the parser (R127, R128): command fetch, MI loads, semaphores. It reads memory, not the caches. DESIGN
CHOICE: a page of the ring buffer that is mapped cacheable, against "must map to Main Memory (uncached) pages" (R483), is read
like any other (log 20). -/
def parserRead (sp : Space) (addr : Nat) (use : Use := .operand) : M Word := do
  match ← access .parser false sp addr false use with
  | some p => do
    let s ← get
    pure (bytesWord (bytesAt (Memory.read s.mem) p.addr 4))
  | none => do
    pure (bytesWord (← freeBytes 4))

/-- `Post` (R165): a write of the parser joins the FIFO of posted writes. -/
def post (statusPage : Bool) (sp : Space) (addr : Nat) (bytes : List Byte) (use : Use := .operand) : M Unit := do
  match ← access .parser statusPage sp addr true use with
  | some p => modify fun s => { s with posted := s.posted ++ [cellsAt p.addr bytes] }
  | none => pure ()

/-- The low and the high DWord of a QWord, in memory order (R193). -/
def qwordBytes (lo hi : Word) : List Byte := wordBytes lo ++ wordBytes hi

/-- The whole ring head register is posted to status page DWord 4 (R377); an unprogrammed page is refused. -/
def reportHead (use : Use := .operand) : M Unit := do
  let s ← get
  require s.regs.hwsPgaWritten .statusPageUnset
  post true .ggtt (s.regs.hwsp + 0x10) (wordBytes s.regs.head) use

/-! ## The advance of `pc` (R24) -/

/-- The interval of the automatic head report in bytes, 0 when it is off (R90, R377). -/
def Regs.reportInterval (r : Regs) : Nat :=
  match (field r.ctl 1 2).toNat with
  | 0 => 0
  | 1 => 0x10000
  | 2 => 0x1000
  | _ => 0x20000

/-- The head register moved on by `n` DWords in a ring of `size` bytes; a wrap counts in the Wrap Count (R24, R88). -/
def advanceHead (head : Word) (size n : Nat) : Word :=
  let off := (field head 2 19).toNat * 4 + 4 * n
  let wrap := field head 21 11
  if off < size then put (put 0 21 wrap) 2 (BitVec.ofNat 19 (off / 4))
  else put (put 0 21 (wrap + 1)) 2 (BitVec.ofNat 19 ((off - size) / 4))

/-- Whether moving from `off` by `n` DWords reaches the next multiple of the report interval, or wraps (R377). -/
def crossesReport (interval off n size : Nat) : Bool :=
  interval != 0 && (decide ((off + 4 * n) / interval ≠ off / interval) || decide (size ≤ off + 4 * n))

/-- Whether a jump of the head to byte offset `off` goes over a multiple of the report interval (R377). DESIGN CHOICE: in either
direction, and no jump counts as a wrap (log 24). -/
def Regs.jumpReports (r : Regs) (off : Nat) : Bool :=
  r.reportInterval != 0 && decide (off / r.reportInterval ≠ r.headOff / r.reportInterval)

/-- With BCS_MI_MODE bit 11 set, UHPTR loses its valid bit when the head reaches it (R371). -/
def Regs.uhptrCheck (r : Regs) : Regs :=
  if bit r.miMode 11 && decide (r.headOff = (field r.uhptr 3 29).toNat * 8) then { r with uhptr := setBit r.uhptr 0 false } else r

/-- Whether moving `pc` on by `n` DWords makes an automatic head report due (R377). -/
def State.reportDue (s : State) (n : Nat) : Bool :=
  !s.parser.inBatch && crossesReport s.regs.reportInterval s.regs.headOff n s.regs.ringSize

/-- `pc <- pc + 4*n` (R24); in the ring with the UHPTR invalidation (R371). DESIGN CHOICE: the invalidation is part of the
advance and so comes before the automatic head report, also where the report's page fault hangs the parser (log 52). -/
def movePc (n : Nat) : M Unit := do
  let s ← get
  if s.parser.inBatch then
    if s.parser.batchAddr.toNat + 4 * n ≥ 0x100000000 then stop .batchOverrun
    else onParser fun p => { p with batchAddr := p.batchAddr + BitVec.ofNat 32 (4 * n) }
  else onRegs fun r => { r with head := advanceHead r.head r.ringSize n }.uhptrCheck

/-- The parser runs on behind the command: `pc` moves, the rest of the command follows, and the automatic head report comes
last (R370; log 52). -/
def finishWith (n : Nat) (rest : M Unit) : M Unit := do
  let s ← get
  setRun .running
  movePc n
  rest
  onlyIf (s.reportDue n) (reportHead .report)

/-- The command is done: the parser runs on behind it. -/
def finish (n : Nat) : M Unit := finishWith n (pure ())

end Sys2Proof.Machine
end

