-- ==== Sys2Proof/Machine/Registers.lean ====
section
/-! DEFINITION. Reading and writing the memory-mapped registers (spec/11_state_mmio.md): every register of the map of R60
under its access type (R61), the registers of unprinted offset (R96, R97, R106), and `MMIO_OTHER` (R107). -/

namespace Sys2Proof.Machine

/-! ## Reading -/

/-- The entries of one TLB. -/
def State.tlbOf (s : State) (u : TlbUnit) : List TlbEntry := s.tlb.filter fun e => e.unit == u

/-- The entry a slot of the debug view of a TLB shows (log 18). -/
def State.tlbSlot (s : State) (u : TlbUnit) (k : Nat) : Option TlbEntry := (s.tlbOf u)[Config.tlbSlot u.number k]?

/-- BCSTLB_VA, BLBTLB_VA (R63, R64): the page of the entry in the slot, 0 in an empty one. -/
def State.tlbVa (s : State) (u : TlbUnit) (k : Nat) : Word :=
  match s.tlbSlot u k with
  | some e => BitVec.ofNat 32 (e.page * 4096)
  | none => 0

/-- BCSTLB_VLD, BLBTLB_VLD (R67, R68): one valid bit for each of the first `n` slots. -/
def State.tlbVld (s : State) (u : TlbUnit) (n : Nat) : Word :=
  (List.range n).foldl (fun w k => setBit w k (s.tlbSlot u k).isSome) 0

/-- The directory entry a slot of the debug view of the PD TLB shows (log 18). -/
def State.pdSlot (s : State) (k : Nat) : Option Nat := s.pdTlb[Config.tlbSlot 2 k]?

/-- PDTLB_VA (R66): the first page of the 4 MB the directory entry in the slot covers, 0 in an empty one. -/
def State.pdVa (s : State) (k : Nat) : Word :=
  match s.pdSlot k with
  | some i => BitVec.ofNat 32 (i * 0x400000)
  | none => 0

/-- PDTLB_VLD (R70): one valid bit for each of eight slots. -/
def State.pdVld (s : State) : Word := (List.range 8).foldl (fun w k => setBit w k (s.pdSlot k).isSome) 0

/-- BCS_TLBPEND_SEC1 of one entry (R74); bits 30:28 and 23:22 are reserved. -/
def Regs.pendEntry (r : Regs) (k : Nat) : Word := r.pendSec1.toList.getD k 0 &&& 0x8F3FFFFF

/-- A register of the map of R60 as a read returns it; `none` is `MMIO_OTHER`. Mask halves and reserved bits read 0 (D9).
The debug registers of the CTX TLB (R65, R69) read 0: the context image is out of scope (R5). -/
def regRead (s : State) (off : Nat) : Option Word :=
  match off with
  | 0x04280 => some s.regs.hwsPga
  | 0x22028 => some s.regs.excc
  | 0x22030 => some s.regs.tail
  | 0x22034 => some s.regs.head
  | 0x22038 => some s.regs.start
  | 0x2203C => some s.regs.ctl
  | 0x22040 => some s.regs.brsync
  | 0x22044 => some s.regs.bvsync
  | 0x22050 => some s.regs.r22050
  | 0x22098 => some s.regs.hwstam
  | 0x2209C => some (setBit s.regs.miMode 9 s.ringIdle)
  | 0x220A0 => some s.regs.gabMode
  | 0x220A8 => some s.regs.imr
  | 0x220B0 => some s.regs.eir
  | 0x220B4 => some s.regs.emr
  | 0x220B8 => some s.regs.esr
  | 0x220C0 => some s.regs.instpm
  | 0x22134 => some s.regs.uhptr
  | 0x22140 => some s.bbAddr
  | 0x2217C => some s.regs.ctrThrsh
  | 0x221A8 => some s.regs.cxtSize
  | 0x22200 => some s.regs.swctrl
  | 0x22220 => some s.regs.ppDclv
  | 0x22224 => some 0
  | 0x2229C => some s.regs.bltMode
  | 0x222D0 => some s.regs.syncFlip
  | 0x22358 => some (s.regs.timestamp.setWidth 32)
  | 0x2235C => some ((s.regs.timestamp >>> 32).setWidth 32)
  | 0x24000 => some s.regs.gabCtl
  | 0x24094 => some s.regs.gabErr
  | 0x24700 => some (s.regs.pendValid.setWidth 32)
  | 0x24708 => some (s.regs.pendReady.setWidth 32)
  | 0x24780 => some (s.tlbVld .bcs 4)
  | 0x24784 => some (s.tlbVld .blb 8)
  | 0x24788 => some 0
  | 0x2478C => some s.pdVld
  | _ =>
    if 0x04400 ≤ off ∧ off < 0x04500 then some (s.regs.tlbpendSec0.toList.getD ((off - 0x04400) / 4) 0)
    else if 0x24500 ≤ off ∧ off < 0x24600 then some (s.regs.pendEntry ((off - 0x24500) / 4))
    else if 0x24800 ≤ off ∧ off < 0x24900 then some (s.tlbVa .bcs ((off - 0x24800) / 4))
    else if 0x24900 ≤ off ∧ off < 0x24A00 then some (s.tlbVa .blb ((off - 0x24900) / 4))
    else if 0x24A00 ≤ off ∧ off < 0x24B00 then some 0
    else if 0x24B00 ≤ off ∧ off < 0x24C00 then some (s.pdVa ((off - 0x24B00) / 4))
    else if off = Config.isrAddr then some s.regs.isr
    else if off = Config.iirAddr then some s.regs.iir
    else if off = Config.nopidAddr then some (s.regs.nopid.setWidth 32)
    else none

/-- `MMIO[off]` (R61). Outside the map the value is free (R107, U5). -/
def mmioRead (off : Nat) : M Word := do
  match regRead (← get) off with
  | some w => pure w
  | none => freeWord

/-! ## Writing -/

/-- The masked-register rule (R61): bits 31:16 of the written DWord enable bits 15:0; `impl` are the bits that exist. -/
def maskedWrite (old w impl : Word) : Word :=
  (old &&& ~~~(w >>> 16 &&& impl)) ||| (w &&& (w >>> 16) &&& impl)

/-- A plain R/W register with these implemented bits; the reserved ones stay as they are. -/
def plainWrite (old w impl : Word) : Word := (old &&& ~~~impl) ||| (w &&& impl)

/-- A write that moves the tail backwards (R87): less of the ring lies before it than before the write. -/
def tailMovesBack (r : Regs) (w : Word) : Bool :=
  let new := (field w 3 18).toNat * 8
  decide ((new + r.ringSize - r.headOff) % r.ringSize < (r.tailOff + r.ringSize - r.headOff) % r.ringSize)

/-- The tail of an enabled ring lies outside it (R87, M9). -/
def Regs.tailOutside (r : Regs) : Bool := bit r.ctl 0 && decide (r.ringSize ≤ r.tailOff)

/-- The registers with a written BCS_RING_BUFFER_TAIL (R87). -/
def Regs.withTail (r : Regs) (w : Word) : Regs := { r with tail := plainWrite r.tail w 0x001FFFF8 }

/-- BCS_HWSTAM after a write (R94): the reserved bits are read-only and read 1. -/
def hwstamWrite (w : Word) : Word := w ||| ~~~definedInts

/-- At most one bit of BCS_HWSTAM is 0 (R94, R424). -/
def hwstamOk (w : Word) : Bool := (~~~w &&& (~~~w - 1)) == 0

/-- BCS_RING_BUFFER_CTL after a write (R90): Buffer Length, Automatic Report and Enable are R/W, writing 1 to RBWait
clears it, Semaphore Wait is status. -/
def ctlWrite (old w : Word) : Word :=
  let v := plainWrite old w 0x001FF007
  if bit w 11 then setBit v 11 false else v

/-- The registers with a written BCS_RING_BUFFER_CTL (R90). -/
def Regs.withCtl (r : Regs) (w : Word) : Regs := { r with ctl := ctlWrite r.ctl w }

/-- A wait is over: its records, RBWait and Semaphore Wait are cleared. DESIGN CHOICE: every wait-record field is cleared,
one that the host has written itself too (log 44). -/
def Regs.waitOver (r : Regs) : Regs :=
  { r with syncFlip := r.syncFlip &&& ~~~waitRecords, ctl := setBit (setBit r.ctl 11 false) 10 false }

/-- The host ends a wait by writing 1 to RBWait, or the condition has ended (R27, R90, R385): the recorded wait and RBWait
are cleared and `pc` goes past the one-DWord command. DESIGN CHOICE: every wait-record field is cleared (log 44). -/
def endEventWait : M Unit := do
  onRegs fun r => { r with syncFlip := r.syncFlip &&& ~~~waitRecords, ctl := setBit r.ctl 11 false }
  finish 1

/-- `MMIO[off] <- w` (R61), as a host write would be done. A write to a read-only register or outside the map does
nothing the model shows (R61, R107). DESIGN CHOICE: a write to MI NOPID, whose access type R60 and R106 do not give, does
nothing either (log 11); BCS_IMR stores all 32 bits, those of reserved interrupts too, and BCS_EMR all of bits 15:0, although
R98 calls 15:1 reserved MBZ, which are 1 by default (R100; log 39); a write to BCS_RING_BUFFER_CTL that ends a wait by RBWait
first ends it, the move of `pc` and the automatic report going by the old length and report mode, and then changes the other
fields, which are lost when the report's page fault hangs the parser (log 53); a tail outside the ring is looked for when the
ring is enabled, or becomes so (log 55). -/
def mmioWrite (off : Nat) (w : Word) : M Unit := do
  let s ← get
  match off with
  | 0x04280 => onRegs fun r => { r with hwsPga := plainWrite r.hwsPga w 0xFFFFF000, hwsPgaWritten := true }
  | 0x22028 => onRegs fun r => { r with excc := maskedWrite r.excc w 0x1F }
  | 0x22030 =>
    if (s.regs.withTail w).tailOutside then refuse .tailOutside
    else if s.ringEnabled && tailMovesBack s.regs w then refuse .tailBackwards
    else onRegs fun r => r.withTail w
  | 0x22034 =>
    if s.ringEnabled then refuse .headWhileEnabled
    else onRegs fun r => { r with head := plainWrite r.head w 0xFFFFFFFC }
  | 0x22038 => onRegs fun r => { r with start := plainWrite r.start w 0xFFFFF000 }
  | 0x2203C =>
    if (s.regs.withCtl w).tailOutside then refuse .tailOutside
    else
      match s.parser.run, bit w 11 with
      | .waitEvent _, true => do
        endEventWait
        onRegs fun r => r.withCtl w
      | _, _ => onRegs fun r => r.withCtl w
  | 0x22040 => onRegs fun r => { r with brsync := w }
  | 0x22044 => onRegs fun r => { r with bvsync := w }
  | 0x22050 => onRegs fun r => { r with r22050 := maskedWrite r.r22050 w 0xFFFF }
  | 0x22098 =>
    if hwstamOk (hwstamWrite w) then onRegs fun r => { r with hwstam := hwstamWrite w } else refuse .hwstamMask
  | 0x2209C => onRegs fun r => { r with miMode := maskedWrite r.miMode w 0xF9FD }
  | 0x220A0 => onRegs fun r => { r with gabMode := maskedWrite r.gabMode w 0xFFFF }
  | 0x220A8 => do
    onRegs fun r => { r with imr := w }
    refresh
  | 0x220B0 => do
    onRegs fun r => { r with eir := r.eir &&& ~~~(w &&& 0xFFFE) }
    refresh
  | 0x220B4 => do
    onRegs fun r => { r with emr := plainWrite r.emr w 0xFFFF }
    refresh
  | 0x220C0 => onRegs fun r => { r with instpm := maskedWrite r.instpm w 0xFFFF }
  | 0x22134 => onRegs fun r => { r with uhptr := plainWrite r.uhptr w 0xFFFFFFF9 }
  | 0x2217C => onRegs fun r => { r with ctrThrsh := w }
  | 0x221A8 => onRegs fun r => { r with cxtSize := plainWrite r.cxtSize w 0x00001F00 }
  | 0x22200 => onRegs fun r => { r with swctrl := maskedWrite r.swctrl w 0x3 }
  | 0x22220 => onRegs fun r => { r with ppDclv := w }
  | 0x2229C => onRegs fun r => { r with bltMode := maskedWrite r.bltMode w 0x0200 }
  | 0x222D0 =>
    if (field w 0 5).toNat < 6 then onRegs fun r => { r with syncFlip := plainWrite r.syncFlip w 0x77707FDF }
    else refuse .syncFlipSelect
  | 0x24000 => onRegs fun r => { r with gabCtl := plainWrite r.gabCtl w 0x1FF }
  | 0x220B8 | 0x22140 | 0x22224 | 0x22358 | 0x2235C | 0x24094 => pure ()
  | 0x24700 | 0x24708 | 0x24780 | 0x24784 | 0x24788 | 0x2478C => pure ()
  | _ =>
    if (0x24500 ≤ off ∧ off < 0x24600) ∨ (0x24800 ≤ off ∧ off < 0x24C00) then pure ()
    else if 0x04400 ≤ off ∧ off < 0x04500 then
      onRegs fun r => { r with tlbpendSec0 := r.tlbpendSec0.setIfInBounds ((off - 0x04400) / 4) w }
    else if off = Config.isrAddr then pure ()
    else if off = Config.iirAddr then do
      onRegs fun r => { r with iir := r.iir &&& ~~~w }
      refresh
    else pure ()

/-- The registers a non-secure batch buffer may write: 22200h to 222FFh (R108, R441, D35). -/
def unprotected (off : Nat) : Bool := decide (0x22200 ≤ off) && decide (off < 0x22300)

/-- A load of this register is a `PrivilegeViolation` (R441): the whole command is consumed without effect, before any
other check of it or access it makes (R432, R440, D34). -/
def protectedFrom (secure : Bool) (off : Nat) : Bool := !secure && !unprotected off

/-- A register write by MI_LOAD_REGISTER_IMM or MI_LOAD_REGISTER_MEM: dropped where protection forbids it (R441). -/
def loadRegister (secure : Bool) (off : Nat) (w : Word) : M Unit :=
  if protectedFrom secure off then pure () else mmioWrite off w

end Sys2Proof.Machine
end

