-- ==== Sys2Proof/Machine/Operands.lean ====
section
/-! DEFINITION. The operand forms of the drawing commands (spec/40_raster_pipeline.md): the raster operation, colour
expansion, pixel formats and the colour range compare, surfaces, patterns, monochrome sources, and the drawing region. -/

namespace Sys2Proof.Machine

/-! ## Pixels -/

/-- Bytes per pixel (R221). -/
def bpp : Depth → Nat
  | .c8 => 1
  | .c565 => 2
  | .c1555 => 2
  | .c32 => 4

/-- The bits of a pixel; a colour operand is truncated to them (R187). -/
def pixelMask : Depth → Word
  | .c8 => 0xFF
  | .c565 => 0xFFFF
  | .c1555 => 0xFFFF
  | .c32 => 0xFFFFFFFF

/-- One product term of a raster operation: bit `k` of the code selects the bit positions where P, S, D spell `k`. -/
def ropTerm (rop : BitVec 8) (k : Nat) (p s d : Word) : Word :=
  if rop.getLsbD k then
    (if k / 4 % 2 = 1 then p else ~~~p) &&& (if k / 2 % 2 = 1 then s else ~~~s) &&& (if k % 2 = 1 then d else ~~~d)
  else 0

/-- `Rop3` (R222): bit `i` of the result is bit `4*P[i] + 2*S[i] + D[i]` of the code. -/
def rop3 (rop : BitVec 8) (p s d : Word) : Word :=
  ropTerm rop 0 p s d ||| ropTerm rop 1 p s d ||| ropTerm rop 2 p s d ||| ropTerm rop 3 p s d |||
  ropTerm rop 4 p s d ||| ropTerm rop 5 p s d ||| ropTerm rop 6 p s d ||| ropTerm rop 7 p s d

/-- `Expand` (R225): the colour a monochrome bit stands for, and whether the pixel may be written. -/
def expand (b : Bool) (fg bg : Word) (transparent : Bool) : Word × Bool := (if b then fg else bg, b || !transparent)

/-- The colour components of a pixel as (lowest bit, width): red, green, blue; the one byte at 8 bpp (R245, D21;
PRESUMED positions, log 8). -/
def colorFields : Depth → List (Nat × Nat)
  | .c8 => [(0, 8)]
  | .c565 => [(11, 5), (5, 6), (0, 5)]
  | .c1555 => [(10, 5), (5, 5), (0, 5)]
  | .c32 => [(16, 8), (8, 8), (0, 8)]

/-- The alpha component, where the format has one (R245, D21). -/
def alphaFields : Depth → List (Nat × Nat)
  | .c8 => []
  | .c565 => []
  | .c1555 => [(15, 1)]
  | .c32 => [(24, 8)]

/-- `InRange` (R245): every component lies between the same component of the two bounds, unsigned. -/
def inRange (fields : List (Nat × Nat)) (lo hi pix : Word) : Bool :=
  fields.all fun (b, n) =>
    decide ((field lo b n).toNat ≤ (field pix b n).toNat) && decide ((field pix b n).toNat ≤ (field hi b n).toNat)

/-- The components a range mode compares: with alpha in modes 011b and 101b (R245). -/
def rangeFields (d : Depth) (mode : BitVec 3) : List (Nat × Nat) :=
  if mode = 3 ∨ mode = 5 then alphaFields d ++ colorFields d else colorFields d

/-- `enableRange` (R245). -/
def rangeEnable (d : Depth) (mode : BitVec 3) (lo hi s dst : Word) : Bool :=
  if sourceMode mode then !inRange (rangeFields d mode) lo hi s
  else if destMode mode then inRange (rangeFields d mode) lo hi dst
  else true

/-- `ByteEnable` (R241): the 32 bpp byte mask gates byte 3 by its bit 1 and bytes 0 to 2 by its bit 0. -/
def byteEnable (d : Depth) (mask : BitVec 2) (k : Nat) : Bool :=
  match d with
  | .c32 => if k = 3 then mask.getLsbD 1 else mask.getLsbD 0
  | _ => true

/-! ## Surfaces (R130, R132, R251) -/

/-- A colour surface: tiled layout or none (linear), base address, pitch in bytes. -/
structure Surface where
  tile : Option TileMode
  base : Int
  pitch : Int
deriving DecidableEq, Repr

/-- The byte address of pixel (x, y) (R231, R251): linear by the formula, tiled by `TILE_LAYOUT`. -/
def Surface.addr (f : Surface) (n : Nat) (x y : Int) : Int :=
  match f.tile with
  | none => f.base + y * f.pitch + x * n
  | some m => (Config.tileAddr m f.base.toNat f.pitch.toNat (x.toNat * n) y.toNat : Nat)

/-- Tile-Y when the bit of BCS_SWCTRL is 1, Tile-X when it is 0, for a surface whose tiling bit is 1 (R104, D12). -/
def tileOf (tiled tileY : Bool) : Option TileMode := if tiled then some (if tileY then .tileY else .tileX) else none

/-- The surface of an XY operand: the pitch counts bytes when linear and DWords when tiled (R36, R38). -/
def xySurface (tiled tileY : Bool) (base : Word) (pitch : BitVec 16) : Surface :=
  ⟨tileOf tiled tileY, base.toNat, if tiled then 4 * pitch.toInt else pitch.toInt⟩

/-- The alignment rules of an XY surface (R126, R251; 93 M2, M5). -/
def checkSurface (f : Surface) (n : Nat) : M Unit :=
  match f.tile with
  | none => require (f.base % n == 0 && f.pitch % 4 == 0) .misaligned
  | some m => do
    require (decide (0 ≤ f.pitch)) .negativePitch
    require (f.base % 4096 == 0 && f.pitch % (match m with
      | .tileX => 512
      | .tileY => 128) == 0) .misaligned

/-! ## Patterns (R230) -/

/-- Where the pattern operand comes from. -/
inductive Pattern where
  | absent
  /-- a solid colour -/
  | solid (color : Word)
  /-- an 8x8 colour pattern in memory -/
  | memory (addr : Nat)
  /-- an 8x8 colour pattern in the command -/
  | immediate (data : List Word)
  /-- an 8x8 monochrome pattern with its colours; a Solid Pattern Select is the pattern of zeros (R227) -/
  | mono (p0 p1 fg bg : Word) (transparent : Bool)
deriving DecidableEq, Repr

/-- `MonoPat` (R134): byte `y` of the pattern, pixel 0 in bit 7. -/
def monoPat (p0 p1 : Word) (x y : Nat) : Bool :=
  bit (if y < 4 then p0 else p1) (8 * (y % 4) + 7 - x)

/-- The ten fixed patterns as BR20 and BR21 (R316); 0 for the reserved values. -/
def fixedPattern (v : BitVec 4) : Word × Word :=
  match v.toNat with
  | 0 => (0xFF000000, 0x00000000)
  | 1 => (0x08080808, 0x08080808)
  | 2 => (0x10204080, 0x01020408)
  | 3 => (0x08040201, 0x80402010)
  | 4 => (0xFF080808, 0x08080808)
  | 5 => (0x18244281, 0x81422418)
  | 8 => (0xAA55AA55, 0xAA55AA55)
  | 9 => (0x33CC33CC, 0x33CC33CC)
  | 10 => (0x11224488, 0x11224488)
  | 11 => (0xEEDDBB77, 0xEEDDBB77)
  | _ => (0, 0)

/-- The address of a colour pattern in memory: bits 28:6 of the DWord (R34, R40, C3). -/
def patAddr (w : Word) : Nat := (w &&& 0x1FFFFFC0).toNat

/-- A colour pattern lies on a boundary of its size, 64 bytes per byte of pixel (R40, M4). -/
def checkPattern (w : Word) (n : Nat) : M Unit := require (patAddr w % (64 * n) == 0) .patternMisaligned

/-- Byte `k` of immediate data (R137). -/
def immByte (data : List Word) (k : Nat) : Byte := byteOf (data.getD (k / 4) 0) (k % 4)

/-- The pattern pixel of a destination pixel (R135). -/
def patPixel (x y : Int) (h v : Nat) : Nat × Nat := (((x + h) % 8).toNat, ((y + v) % 8).toNat)

/-! ## Monochrome sources (R136) -/

/-- The arrangement of the scan lines: word aligned with a start bit, bit packed, byte packed. -/
inductive MonoLayout where
  | wordAligned (start : Nat)
  | bitPacked
  | bytePacked
deriving DecidableEq, Repr

/-- Bytes of one word-aligned scan line of `w` pixels from bit `start`: whole 16-bit words (R136, R332, D4). Negative for an
inverted rectangle, as R333 has it. -/
def wordStride (start : Nat) (w : Int) : Int := 2 * ((start + w + 15) / 16)

/-- The stream bit of pixel `i` of scan line `j` of a source `w` pixels wide; stream bit `n` is bit `7 - n mod 8` of byte
`n / 8` (R136, R295). -/
def MonoLayout.bitIndex (l : MonoLayout) (w : Int) (i j : Nat) : Nat :=
  match l with
  | .wordAligned start => j * ((wordStride start w).toNat * 8) + (start + i)
  | .bitPacked => j * w.toNat + i
  | .bytePacked => j * ((w.toNat + 7) / 8 * 8) + i

/-- The bytes a monochrome source of `w` by `h` pixels occupies (R296, R333); `h` is 0 for an inverted rectangle. Only the
word-aligned amount can be negative (R333). -/
def MonoLayout.bytes (l : MonoLayout) (w : Int) (h : Nat) : Int :=
  match l with
  | .wordAligned start => wordStride start w * h
  | .bitPacked => ((w.toNat * h + 7) / 8 : Nat)
  | .bytePacked => ((w.toNat + 7) / 8 * h : Nat)

/-- The number of immediate DWords that `n` bytes need: whole quadwords (R137, D5). A negative number is the amount of no
command (R333). -/
def neededDwords (n : Int) : Int := 2 * ((n + 7) / 8)

/-- Where a source operand comes from. -/
inductive Source where
  | absent
  /-- a colour surface; source pixel of (X, Y) is (X + ox, Y + oy) -/
  | color (surface : Surface) (ox oy : Int)
  /-- monochrome data in memory from a byte address; the data's pixel (0, 0) belongs to (x1, y1) -/
  | mono (layout : MonoLayout) (width : Int) (addr : Nat) (x1 y1 : Int) (fg bg : Word) (transparent : Bool)
  /-- monochrome data in the command -/
  | monoImm (layout : MonoLayout) (width : Int) (data : List Word) (x1 y1 : Int) (fg bg : Word) (transparent : Bool)
deriving DecidableEq, Repr

/-! ## The drawing region (R250) -/

/-- A rectangle on integers, right and bottom exclusive. -/
structure Box where
  left : Int
  top : Int
  right : Int
  bottom : Int
deriving DecidableEq, Repr

/-- The rectangle of a command (R184, R187). -/
def rectBox (r : Rect) : Box := ⟨r.x1.toInt, r.y1.toInt, r.x2.toInt, r.y2.toInt⟩

/-- The width of a rectangle in pixels before clipping (R295, R332). -/
def rectWidth (r : Rect) : Int := r.x2.toInt - r.x1.toInt

/-- The clip rectangle in BR24 and BR25 (R49, R50). -/
def clipBox (br24 br25 : Word) : Box :=
  ⟨(field br24 0 15).toNat, (field br24 16 15).toNat, (field br25 0 15).toNat, (field br25 16 15).toNat⟩

/-- Nothing lies between the edges. -/
def Box.isEmpty (b : Box) : Bool := decide (b.right ≤ b.left) || decide (b.bottom ≤ b.top)

/-- The intersection of two rectangles. -/
def Box.inter (a b : Box) : Box := ⟨max a.left b.left, max a.top b.top, min a.right b.right, min a.bottom b.bottom⟩

/-- `Region` (R250) for a rectangle whose corner is already adjusted: reject, clip to 0, clip to the clip rectangle. -/
def region (b : Box) (clip : Option Box) : Box :=
  let r : Box := { b with left := max b.left 0, top := max b.top 0 }
  match clip with
  | none => r
  | some c => r.inter c

/-- Step 1 of `Region` (R250): a negative source coordinate moves the destination corner and becomes 0. Gives the
adjusted corner and source coordinate of one axis. -/
def adjust (d s : Int) : Int × Int := if s < 0 then (d - s, 0) else (d, s)

/-- The integers from `lo` up to but not including `hi`, backwards when asked (R252). -/
def span (lo hi : Int) (back : Bool) : List Int :=
  let l := (List.range (hi - lo).toNat).map fun k => lo + (k : Int)
  if back then l.reverse else l

/-- The pixels of a region in the order of R252. -/
def pixels (b : Box) (xBack yBack : Bool) : List (Int × Int) :=
  (span b.top b.bottom yBack).flatMap fun y => (span b.left b.right xBack).map fun x => (x, y)

end Sys2Proof.Machine
end

