-- ==== Sys2Proof/Machine/Raster.lean ====
section
/-! DEFINITION. Drawing (R255 to R257): one pixel, the pixels of a region in order, the overlap of source and destination
(R252, R486), the checks common to the drawing commands (R224, R251, R258), and the latching of BR00 and BR13. -/

namespace Sys2Proof.Machine

/-- Everything a drawing command needs to know of itself, once its registers are latched. -/
structure Job where
  depth : Depth
  rop : BitVec 8
  mask : BitVec 2
  mode : BitVec 3
  lo : Word
  hi : Word
  dst : Surface
  pat : Pattern
  hseed : Nat
  vseed : Nat
  src : Source
deriving DecidableEq, Repr

/-! ## The three operands of a pixel -/

/-- One operand access of the BLT engine: in range, then translated in the space of the command (R121, R150, D14). Before it,
what is to happen to memory in the middle of the command happens (R162, R165, log 61). -/
def engineAccess (addr : Int) (n : Nat) (write : Bool) (use : Use) : M (Option Phys) := do
  let a ← checkRange addr n
  modify fun s => s.midway use write
  access .engine false (← get).engine.space a write use

/-- A pixel of `n` bytes read through the render cache; a continued fault reads free bytes (R160, R162, R430). Also says
whether its page is cacheable. -/
def readRender (addr : Int) (n : Nat) (use : Use) : M (Word × Bool) := do
  match ← engineAccess addr n false use with
  | some p => do pure (bytesWord (bytesAt (← get).renderRead p.addr n), p.cacheable)
  | none => do pure (bytesWord (← freeBytes n), false)

/-- Bytes of a pattern or a monochrome source read through the texture cache, which may keep them; they may not be in
cacheable memory (R160 to R162). -/
def readTexture (addr : Int) (n : Nat) (use : Use) : M Word := do
  match ← engineAccess addr n false use with
  | some p => do
    require (!p.cacheable) .cacheability
    let s ← get
    modify fun s => s.noteTexture ((List.range n).map (p.addr + ·))
    pure (bytesWord (bytesAt s.textureRead p.addr n))
  | none => do pure (bytesWord (← freeBytes n))

/-- The pattern operand of pixel (x, y) and its write enable (R230); memory is read only when the operation uses P. -/
def patternOperand (j : Job) (x y : Int) : M (Word × Bool) := do
  let n := bpp j.depth
  let (px, py) := patPixel x y j.hseed j.vseed
  match j.pat with
  | .absent => pure (0, true)
  | .solid c => pure (c, true)
  | .memory addr =>
    if (ropUses j.rop).p then do pure (← readTexture (addr + (8 * py + px) * n) n (.pattern x y), true) else pure (0, true)
  | .immediate data =>
    pure (bytesWord ((List.range n).map fun k => immByte data ((8 * py + px) * n + k)), true)
  | .mono p0 p1 fg bg transparent => pure (expand (monoPat p0 p1 px py) fg bg transparent)

/-- A tiled surface may not be in cacheable memory (R161). -/
def checkTiled (f : Surface) (cacheable : Bool) : M Unit := require (!(f.tile.isSome && cacheable)) .cacheability

/-- The source operand of pixel (x, y), its write enable, and whether it came from a cacheable page (R231). Memory is
read only when the operation, the transparency or the range mode needs the source (R255). DESIGN CHOICE: a monochrome source
that overlaps the destination, which R332 forbids, is read like any other, so it sees the command's own writes only once they
have reached memory (log 43, log 61). -/
def sourceOperand (j : Job) (x y : Int) : M (Word × Bool × Bool) := do
  let n := bpp j.depth
  match j.src with
  | .absent => pure (0, true, false)
  | .color f ox oy =>
    if (ropUses j.rop).s || sourceMode j.mode then do
      let (v, c) ← readRender (f.addr n (x + ox) (y + oy)) n (.source x y)
      checkTiled f c
      pure (v, true, c)
    else pure (0, true, false)
  | .mono l w addr x1 y1 fg bg transparent =>
    if (ropUses j.rop).s || transparent then do
      let k := l.bitIndex w (x - x1).toNat (y - y1).toNat
      let b ← readTexture (addr + (k / 8 : Nat)) 1 (.source x y)
      let (v, e) := expand (bit b (7 - k % 8)) fg bg transparent
      pure (v, e, false)
    else pure (0, true, false)
  | .monoImm l w data x1 y1 fg bg transparent =>
    let k := l.bitIndex w (x - x1).toNat (y - y1).toNat
    let (v, e) := expand ((immByte data (k / 8)).getLsbD (7 - k % 8)) fg bg transparent
    pure (v, e, false)

/-- The result bytes are written to the render cache under the byte mask (R241, R255). A byte whose graphics address, or whose
place in memory, lies in the source region of a non-conforming overlap receives a free value (R252, R486, U1). -/
def writePixel (overlapped : Nat → Nat → Bool) (a phys : Nat) (enabled : Nat → Bool) (v : Word) : List Nat → M Unit
  | [] => pure ()
  | k :: ks => do
    onlyIf (enabled k) do
      let b ← if overlapped (a + k) (phys + k) then freeByte else pure (byteOf v k)
      modify fun s => s.renderWrite (phys + k) b
    writePixel overlapped a phys enabled v ks

/-- One access to the destination obeys the rules for cacheable memory (R161): not tiled, and not from a cacheable
source. -/
def checkDest (j : Job) (srcCacheable : Bool) (c : Bool) : M Unit := do
  checkTiled j.dst c
  require (!(srcCacheable && c)) .cacheability

/-- The destination operand of pixel (x, y), read only when the operation or the range mode needs it (R226, R255). -/
def destOperand (j : Job) (srcCacheable : Bool) (x y : Int) : M Word :=
  if destRead j.rop j.mode then do
    let (v, c) ← readRender (j.dst.addr (bpp j.depth) x y) (bpp j.depth) (.dest x y)
    checkDest j srcCacheable c
    pure v
  else pure 0

/-- The byte mask enables some byte of a pixel (R241); at 32 bpp mask 00b does not. -/
def Job.writesBytes (j : Job) : Bool := (List.range (bpp j.depth)).any (byteEnable j.depth j.mask)

/-- The result of pixel (x, y) is written (R255). With no byte enabled there is no access at all (R206, R241). -/
def writeDest (j : Job) (overlapped : Nat → Nat → Bool) (srcCacheable : Bool) (x y : Int) (v : Word) : M Unit :=
  onlyIf j.writesBytes do
    let n := bpp j.depth
    let a := j.dst.addr n x y
    match ← engineAccess a n true (.dest x y) with
    | some ph => do
      checkDest j srcCacheable ph.cacheable
      writePixel overlapped a.toNat ph.addr (byteEnable j.depth j.mask) v (List.range n)
    | none => pure ()

/-- `DrawPixel` (R255). DESIGN CHOICE: the destination of a pixel that then proves transparent is read as R255 has it, and the
read can fault, although R240 has no read of an unwritten pixel but for the comparison (log 51); in an overlap that leaves bytes
open, those of a pixel that a key or a transparency keeps, judged by the operands as read in pixel order, and those its mask
disables keep their values (log 15). -/
def drawPixel (j : Job) (overlapped : Nat → Nat → Bool) (x y : Int) : M Unit := do
  let (p, enableP) ← patternOperand j x y
  let (s, enableS, srcCacheable) ← sourceOperand j x y
  let d ← destOperand j srcCacheable x y
  onlyIf (enableS && enableP && rangeEnable j.depth j.mode j.lo j.hi s d)
    (writeDest j overlapped srcCacheable x y (rop3 j.rop p s d))

/-- The pixels of a command, one at a time, each fully before the next (R252, D23). -/
def drawPixels (j : Job) (overlapped : Nat → Nat → Bool) : List (Int × Int) → M Unit
  | [] => pure ()
  | (x, y) :: l => do
    drawPixel j overlapped x y
    drawPixels j overlapped l

/-! ## Overlap (R252, R486) -/

/-- The translation of an operand access of the engine, if it lies in the address space and has one (R121, R150). -/
def State.phys (s : State) (a : Int) (n : Nat) (write : Bool) (use : Use) : Option Phys :=
  if 0 ≤ a ∧ a + n ≤ 0x100000000 then (s.translate .blb s.engine.space a.toNat write use).toOption else none

/-- Whether graphics address `a` belongs to the pixels a colour source reads for these destination pixels. -/
def inSource (f : Surface) (n : Nat) (ox oy : Int) (px : List (Int × Int)) (a : Nat) : Bool :=
  px.any fun (x, y) =>
    decide (f.addr n (x + ox) (y + oy) ≤ (a : Int)) && decide ((a : Int) < f.addr n (x + ox) (y + oy) + n)

/-- Whether the byte of memory at physical address `a` belongs to the pixels a colour source reads for these destination
pixels, whatever graphics address names it (R330). -/
def State.inSourceMemory (s : State) (f : Surface) (n : Nat) (ox oy : Int) (px : List (Int × Int)) (a : Nat) : Bool :=
  px.any fun (x, y) =>
    match s.phys (f.addr n (x + ox) (y + oy)) n false (.source x y) with
    | some p => decide (p.addr ≤ a) && decide (a < p.addr + n)
    | none => false

/-- A conforming overlap of an XY command, done in the order of R252: the same base and pitches of multiples of 64 bytes
(R486). R252 asks for the same pitch as well; where pitches or layouts differ, which of the two rules holds is open
(log 15). -/
def conformingXY (dst src : Surface) : Bool :=
  dst.base == src.base && dst.pitch % 64 == 0 && src.pitch % 64 == 0 &&
    ((dst.pitch == src.pitch && dst.tile == src.tile) || Config.pitchOverlapInOrder)

/-- A conforming overlap of a linear copy: pitches of multiples of 64 bytes and the same address (R486). R281 and its vectors
do without the same address; where the addresses differ, which of the two rules holds is open (log 15). -/
def conformingLinear (dst src : Surface) : Bool :=
  dst.pitch % 64 == 0 && src.pitch % 64 == 0 && (dst.base == src.base || Config.linearOverlapInOrder)

/-- The destination bytes, by graphics and by physical address, that receive free values: those of the source region, when the
source is read and the overlap does not conform. Where the footprints are disjoint no destination byte is among them. -/
def overlapOf (j : Job) (conforming : Surface → Surface → Bool) (px : List (Int × Int)) (s : State) : Nat → Nat → Bool :=
  match j.src with
  | .color f ox oy => fun a phys =>
    (inSource f (bpp j.depth) ox oy px a || s.inSourceMemory f (bpp j.depth) ox oy px phys) &&
      ((ropUses j.rop).s || sourceMode j.mode) && !conforming j.dst f
  | _ => fun _ _ => false

/-! ## Checks (R224, R251, R258) -/

/-- The raster operation uses no operand the command lacks (R224, M1). -/
def checkRop (rop : BitVec 8) (hasPattern hasSource : Bool) : M Unit :=
  require ((hasPattern || !(ropUses rop).p) && (hasSource || !(ropUses rop).s)) .ropOperand

/-- Whether the command has a pattern operand at all. -/
def Pattern.isPresent : Pattern → Bool
  | .absent => false
  | _ => true

/-- Whether the command has a source operand at all. -/
def Source.isPresent : Source → Bool
  | .absent => false
  | _ => true

/-- The restrictions on the source: a colour surface must be aligned, a monochrome one at most 32,745 pixels wide (R126,
R136). -/
def checkSource (j : Job) : M Unit :=
  match j.src with
  | .absent => pure ()
  | .color f _ _ => checkSurface f (bpp j.depth)
  | .mono _ w _ _ _ _ _ _ => require (decide (w ≤ 32745)) .widthLimit
  | .monoImm _ w _ _ _ _ _ _ => require (decide (w ≤ 32745)) .widthLimit

/-- A monochrome source forbids a negative destination pitch (R251, M2). -/
def Source.isMono : Source → Bool
  | .mono .. => true
  | .monoImm .. => true
  | _ => false

/-- The immediate data has the amount the operand needs (R137, R296, R313, R333). -/
def immediateOk (j : Job) (height : Nat) : Bool :=
  (match j.pat with
    | .immediate data => data.length == 16 * bpp j.depth
    | _ => true) &&
  (match j.src with
    | .monoImm l w data _ _ _ _ _ => (data.length : Int) == neededDwords (l.bytes w height)
    | _ => true)

/-- An immediate monochrome source has at most 128 bytes (R137, R185). -/
def immediateFits (j : Job) (height : Nat) : Bool :=
  match j.src with
  | .monoImm l w _ _ _ _ _ _ => decide (l.bytes w height ≤ 128)
  | _ => true

/-! ## The commands -/

/-- `DrawXY` after the latching (R256): the restrictions, the data hang of a wrong immediate amount, then the pixels of
the region in order. DESIGN CHOICE: an immediate monochrome source of more than 128 bytes is refused only when its amount
is exact; any other amount hangs (log 42). -/
def drawXY (j : Job) (clip : Option Box) (box : Box) (xBack yBack : Bool) : M Unit := do
  let height := (box.bottom - box.top).toNat
  checkRop j.rop j.pat.isPresent j.src.isPresent
  require (!j.src.isMono || decide (0 ≤ j.dst.pitch)) .negativePitch
  checkSurface j.dst (bpp j.depth)
  checkSource j
  if immediateOk j height then do
    require (immediateFits j height) .immediateTooLarge
    let r := region box clip
    let px := if r.isEmpty then [] else pixels r xBack yBack
    drawPixels j (overlapOf j conformingXY px (← get)) px
  else dataHang

/-- `DrawLinear` (R257): width and height in 13 bits unless `BR14_16BIT`, everything aligned to whole pixels, the pitch to
DWords (R126, M5; log 47); line `y`, pixel `x` of the destination lies at `dst.base + y * dst.pitch + x * bpp`. -/
def drawLinear (j : Job) (height width : BitVec 16) (xBack : Bool) : M Unit := do
  let n := bpp j.depth
  checkRop j.rop j.pat.isPresent j.src.isPresent
  require (Config.br14SixteenBit || (decide (height.toNat ≤ 0x1FFF) && decide (width.toNat ≤ 0x1FFF))) .br14Range
  if height = 0 ∨ width = 0 then pure ()
  else do
    require (width.toNat % n == 0 && j.dst.base % n == 0 && j.dst.pitch % 4 == 0) .misaligned
    let px := pixels ⟨0, 0, (width.toNat / n : Nat), height.toNat⟩ xBack false
    drawPixels j (overlapOf j conformingLinear px (← get)) px

/-! ## Latching (R30, R38, R52) -/

/-- BR13 or BR01 from DWord 1, with the byte mask of DWord 0 in bits 27:26 (R38). -/
def latchPen (pen : Pen) (mask : BitVec 2) (solid clip srcTransp patTransp : Bool) : Word :=
  putBit (putBit (putBit (putBit (put (penWord pen) 26 mask) 31 solid) 30 clip) 29 srcTransp) 28 patTransp

/-- BR00 of a command (R30): its opcode and decode bits, everything else 0. -/
def br00Of (o : Op) (clips dstRead : Bool) : Br00 :=
  { Br00.reset with
    opcode := BitVec.ofNat 7 o.row.code
    clips := clips
    dstRead := dstRead
    colorSrc := (operandBits o).1
    monoSrc := (operandBits o).2.1
    colorPat := (operandBits o).2.2.1
    monoPat := (operandBits o).2.2.2 }

/-- DWords 0 to 4 of an XY drawing command in BR00, BR13, BR22, BR23 and BR09 (R52, R258). DESIGN CHOICE: BR09, a working
register (R35), keeps its DWord after the command (log 41). -/
def Br.withDraw (b : Br) (o : Op) (d : Draw) (mode : BitVec 3) (solid srcTransp patTransp : Bool) : Br :=
  { b with
    br00 := { br00Of o d.clip (destRead d.pen.rop mode) with mask := d.mask, dstTiled := d.tiled, rangeMode := mode }
    br13 := latchPen d.pen d.mask solid d.clip srcTransp patTransp
    br22 := pointWord d.rect.x1 d.rect.y1
    br23 := pointWord d.rect.x2 d.rect.y2
    br09 := d.base }

/-- The pattern seeds in BR00 (R30). -/
def Br.withSeeds (b : Br) (h v : BitVec 3) : Br := { b with br00 := { b.br00 with hseed := h, vseed := v } }

/-- A colour source in BR11, BR12, BR26 and BR00 bit 15 (R36, R37, R51). -/
def Br.withSource (b : Br) (c : ColorSrc) : Br :=
  { b with
    br00 := { b.br00 with srcTiled := c.tiled }
    br11 := put 0 0 c.pitch
    br12 := c.base
    br26 := pointWord c.x1 c.y1 }

/-- The source start bit in BR00 (R30). -/
def Br.withStart (b : Br) (start : BitVec 3) : Br := { b with br00 := { b.br00 with monoStart := start } }

/-- Latch DWords 0 to 4 of an XY drawing command. -/
def latchDraw (o : Op) (d : Draw) (mode : BitVec 3) (solid srcTransp patTransp : Bool) : M Unit :=
  onBr fun b => b.withDraw o d mode solid srcTransp patTransp

/-- Latch the pattern seeds. -/
def latchSeeds (h v : BitVec 3) : M Unit := onBr fun b => b.withSeeds h v

/-- Latch a colour source. -/
def latchSource (c : ColorSrc) : M Unit := onBr fun b => b.withSource c

/-- Latch the source start bit. -/
def latchStart (start : BitVec 3) : M Unit := onBr fun b => b.withStart start

/-- BR20S and BR21S are open once a per-command monochrome pattern is loaded (R22, D3). -/
def freeSetupPattern : M Unit := do
  let p0 ← freeWord
  let p1 ← freeWord
  onSetup fun u => { u with br20 := p0, br21 := p1 }

/-- Load a per-command monochrome pattern into BR20 and BR21 (R45, R46). -/
def latchMonoPattern (p0 p1 : Word) : M Unit := do
  onBr fun b => { b with br20 := p0, br21 := p1 }
  freeSetupPattern

/-- The job of a drawing command before its operands are filled in; the destination tiling follows BCS_SWCTRL (R104). -/
def drawJob (d : Draw) (swctrl : Word) : Job where
  depth := d.pen.depth
  rop := d.pen.rop
  mask := d.mask
  mode := 0
  lo := 0
  hi := 0
  dst := xySurface d.tiled (bit swctrl 1) d.base d.pen.pitch
  pat := .absent
  hseed := 0
  vseed := 0
  src := .absent

/-- The clip rectangle of a command whose Clipping Enabled is `on` (R250). -/
def clipOf (u : Setup) (on : Bool) : Option Box := if on then some (clipBox u.br24 u.br25) else none

/-- Run the job of a command without a colour source: always forward (R252). -/
def runDraw (d : Draw) (j : Word → Job) : M Unit := do
  let s ← get
  drawXY (j s.regs.swctrl) (clipOf s.setup d.clip) (rectBox d.rect) false false

/-- The rectangle of a copy: a negative source coordinate has moved its corner (R250 step 1). -/
def copyBox (r : Rect) (c : ColorSrc) : Box :=
  ⟨(adjust r.x1.toInt c.x1.toInt).1, (adjust r.y1.toInt c.y1.toInt).1, r.x2.toInt, r.y2.toInt⟩

/-- The source operand of a copy: the source pixel of (X, Y) is (X, Y) shifted from the rectangle's corner to the
source's (R231, R250). -/
def copySource (r : Rect) (c : ColorSrc) (swctrl : Word) : Source :=
  .color (xySurface c.tiled (bit swctrl 0) c.base c.pitch)
    ((adjust r.x1.toInt c.x1.toInt).2 - (adjust r.x1.toInt c.x1.toInt).1)
    ((adjust r.y1.toInt c.y1.toInt).2 - (adjust r.y1.toInt c.y1.toInt).1)

/-- Within one surface a copy walks X backwards when its source starts left of its destination (R252). -/
def copyBackX (d : Draw) (c : ColorSrc) : Bool := c.base == d.base && decide (c.x1.toInt < d.rect.x1.toInt)

/-- Within one surface a copy walks Y backwards when its source starts above its destination (R252). -/
def copyBackY (d : Draw) (c : ColorSrc) : Bool := c.base == d.base && decide (c.y1.toInt < d.rect.y1.toInt)

/-- Run the job of a command with a colour source: the negative-source adjustment of R250, then the direction of R252
from the coordinates as given. -/
def runCopy (d : Draw) (c : ColorSrc) (j : Word → Job) : M Unit := do
  let s ← get
  drawXY { j s.regs.swctrl with src := copySource d.rect c s.regs.swctrl } (clipOf s.setup d.clip) (copyBox d.rect c)
    (copyBackX d c) (copyBackY d c)

end Sys2Proof.Machine
end

