-- ==== Sys2Proof/Machine/FillMove.lean ====
section
/-! DEFINITION. The linear commands (spec/41_fill_move.md): COLOR_BLT and SRC_COPY_BLT. A BLT meaning is the work of the BLT
engine alone; the parser moves `pc` past the command when it hands it over (R370). -/

namespace Sys2Proof.Machine

/-- The job of a linear command: no coordinates, a linear destination from the lowest byte of line 0 (R257). -/
def linearJob (pen : Pen) (mask : BitVec 2) (d0 : Int) : Job where
  depth := pen.depth
  rop := pen.rop
  mask := mask
  mode := 0
  lo := 0
  hi := 0
  dst := ⟨none, d0, pen.pitch.toInt⟩
  pat := .absent
  hseed := 0
  vseed := 0
  src := .absent

/-- BR00, BR13, BR14 and BR09 of a linear command (R52); BR13 bit 30 is the X Direction of SRC_COPY_BLT (R38, R281). DESIGN
CHOICE: BR09 and BR14, working registers (R35, R39), keep their DWords after the command (log 41). -/
def Br.withLinear (b : Br) (o : Op) (pen : Pen) (mask : BitVec 2) (xdir : Bool) (height width : BitVec 16) (dst : Word) :
    Br :=
  { b with
    br00 := { br00Of o false (destRead pen.rop 0) with mask := mask }
    br13 := latchPen pen mask false xdir false false
    br14 := put (put 0 16 height) 0 width
    br09 := dst }

/-- Latch BR00, BR13, BR14 and BR09 of a linear command. -/
def latchLinear (o : Op) (pen : Pen) (mask : BitVec 2) (xdir : Bool) (height width : BitVec 16) (dst : Word) : M Unit :=
  onBr fun b => b.withLinear o pen mask xdir height width dst

/-- COLOR_BLT (R280). -/
def execColorBlt (_len : BitVec 8) (mask : BitVec 2) (pen : Pen) (height width : BitVec 16) (dst color : Word)
    (s : State) : Host.Outcome State Fault Refusal :=
  M.outcome (do
    latchLinear .colorBlt pen mask false height width dst
    onBr fun b => { b with br16 := color }
    let n := bpp pen.depth
    require (width.toNat % n == 0 && dst.toNat % n == 0 && pen.pitch.toInt % 4 == 0) .misaligned
    drawLinear { linearJob pen mask dst.toNat with pat := .solid color } height width false) s

/-- SRC_COPY_BLT (R281): with X Direction 1 the addresses name the highest byte of the first scan line (D24). -/
def execSrcCopyBlt (_len : BitVec 8) (mask : BitVec 2) (xdir : Bool) (pen : Pen) (height width : BitVec 16) (dst : Word)
    (spitch : BitVec 16) (src : Word) (s : State) : Host.Outcome State Fault Refusal :=
  M.outcome (do
    latchLinear .srcCopyBlt pen mask xdir height width dst
    onBr fun b => { b with br11 := put 0 0 spitch, br12 := src }
    require (spitch.toInt % 4 == 0) .misaligned
    let back : Int := if xdir then (width.toNat : Int) - 1 else 0
    require (height == 0 || width == 0 || (src.toNat - back) % bpp pen.depth == 0) .misaligned
    drawLinear
      { linearJob pen mask (dst.toNat - back) with
        src := .color ⟨none, src.toNat - back, spitch.toInt⟩ 0 0 }
      height width xdir) s

end Sys2Proof.Machine
end

