-- ==== Sys2Proof/Machine/SourceBlt.lean ====
section
/-! DEFINITION. XY commands with a source and no pattern (spec/44_xy_source.md). -/

namespace Sys2Proof.Machine

/-- XY_SRC_COPY_BLT (R330). -/
def execXySrcCopyBlt (_len : BitVec 8) (d : Draw) (src : ColorSrc) (s : State) : Host.Outcome State Fault Refusal :=
  M.outcome (do
    latchDraw .xySrcCopyBlt d 0 false false false
    latchSource src
    runCopy d src fun sw => drawJob d sw) s

/-- XY_SRC_COPY_CHROMA_BLT (R331). -/
def execXySrcCopyChromaBlt (_len : BitVec 8) (d : Draw) (mode : BitVec 3) (src : ColorSrc) (lo hi : Word) (s : State) :
    Host.Outcome State Fault Refusal :=
  M.outcome (do
    latchDraw .xySrcCopyChromaBlt d mode false false false
    latchSource src
    onBr fun b => { b with br18 := lo, br19 := hi }
    runCopy d src fun sw => { drawJob d sw with mode := mode, lo := lo, hi := hi }) s

/-- The word-aligned monochrome source of a command (R332): its data corresponds to the unclipped rectangle. -/
def wordSource (r : Rect) (start : BitVec 3) (src fg bg : Word) (transp : Bool) : Source :=
  .mono (.wordAligned start.toNat) (rectWidth r) src.toNat r.x1.toInt r.y1.toInt fg bg transp

/-- XY_MONO_SRC_COPY_BLT (R332). -/
def execXyMonoSrcCopyBlt (_len : BitVec 8) (d : Draw) (transp : Bool) (start : BitVec 3) (src bg fg : Word)
    (s : State) : Host.Outcome State Fault Refusal :=
  M.outcome (do
    latchDraw .xyMonoSrcCopyBlt d 0 false transp false
    latchStart start
    onBr fun b => { b with br12 := src, br18 := bg, br19 := fg }
    runDraw d fun sw => { drawJob d sw with src := wordSource d.rect start src fg bg transp }) s

/-- XY_MONO_SRC_COPY_IMMEDIATE_BLT (R333). -/
def execXyMonoSrcCopyImmediateBlt (_len : BitVec 8) (d : Draw) (transp : Bool) (start : BitVec 3) (bg fg : Word)
    (data : List Word) (s : State) : Host.Outcome State Fault Refusal :=
  M.outcome (do
    latchDraw .xyMonoSrcCopyImmediateBlt d 0 false transp false
    latchStart start
    onBr fun b => { b with br18 := bg, br19 := fg }
    runDraw d fun sw =>
      { drawJob d sw with
        src := .monoImm (.wordAligned start.toNat) (rectWidth d.rect) data d.rect.x1.toInt
          d.rect.y1.toInt fg bg transp }) s

end Sys2Proof.Machine
end

