-- ==== Sys2Proof/Machine/FullBlt.lean ====
section
/-! DEFINITION. XY full commands: source, pattern and destination (spec/45_xy_full.md). -/

namespace Sys2Proof.Machine

/-- XY_FULL_BLT (R350). -/
def execXyFullBlt (_len : BitVec 8) (d : Draw) (seeds : Seeds) (src : ColorSrc) (pat : Word) (s : State) :
    Host.Outcome State Fault Refusal :=
  M.outcome (do
    latchDraw .xyFullBlt d 0 false false false
    latchSeeds seeds.h seeds.v
    latchSource src
    onBr fun b => { b with br15 := pat }
    checkPattern pat (bpp d.pen.depth)
    runCopy d src fun sw =>
      { drawJob d sw with pat := .memory (patAddr pat), hseed := seeds.h.toNat, vseed := seeds.v.toNat }) s

/-- XY_FULL_IMMEDIATE_PATTERN_BLT (R351): no vertical seed (C17). -/
def execXyFullImmediatePatternBlt (_len : BitVec 8) (d : Draw) (hseed : BitVec 3) (src : ColorSrc) (data : List Word)
    (s : State) : Host.Outcome State Fault Refusal :=
  M.outcome (do
    latchDraw .xyFullImmediatePatternBlt d 0 false false false
    latchSeeds hseed 0
    latchSource src
    runCopy d src fun sw => { drawJob d sw with pat := .immediate data, hseed := hseed.toNat }) s

/-- XY_FULL_MONO_SRC_BLT (R352). -/
def execXyFullMonoSrcBlt (_len : BitVec 8) (d : Draw) (transp : Bool) (start : BitVec 3) (seeds : Seeds)
    (src bg fg pat : Word) (s : State) : Host.Outcome State Fault Refusal :=
  M.outcome (do
    latchDraw .xyFullMonoSrcBlt d 0 false transp false
    latchSeeds seeds.h seeds.v
    latchStart start
    onBr fun b => { b with br12 := src, br18 := bg, br19 := fg, br15 := pat }
    checkPattern pat (bpp d.pen.depth)
    runDraw d fun sw =>
      { drawJob d sw with
        pat := .memory (patAddr pat)
        hseed := seeds.h.toNat
        vseed := seeds.v.toNat
        src := wordSource d.rect start src fg bg transp }) s

/-- XY_FULL_MONO_SRC_IMMEDIATE_PATTERN_BLT (R353): no vertical seed (C17). -/
def execXyFullMonoSrcImmediatePatternBlt (_len : BitVec 8) (d : Draw) (transp : Bool) (start hseed : BitVec 3)
    (src bg fg : Word) (data : List Word) (s : State) : Host.Outcome State Fault Refusal :=
  M.outcome (do
    latchDraw .xyFullMonoSrcImmediatePatternBlt d 0 false transp false
    latchSeeds hseed 0
    latchStart start
    onBr fun b => { b with br12 := src, br18 := bg, br19 := fg }
    runDraw d fun sw =>
      { drawJob d sw with
        pat := .immediate data
        hseed := hseed.toNat
        src := wordSource d.rect start src fg bg transp }) s

/-- The monochrome pattern of a command with a Solid Pattern Select: selected, every bit is 0 (R227). -/
def solidOr (solid : Bool) (p0 p1 fg bg : Word) (transp : Bool) : Pattern :=
  if solid then .mono 0 0 fg bg transp else .mono p0 p1 fg bg transp

/-- XY_FULL_MONO_PATTERN_BLT (R354). -/
def execXyFullMonoPatternBlt (_len : BitVec 8) (d : Draw) (solid transp : Bool) (seeds : Seeds) (src : ColorSrc)
    (bg fg p0 p1 : Word) (s : State) : Host.Outcome State Fault Refusal :=
  M.outcome (do
    latchDraw .xyFullMonoPatternBlt d 0 solid false transp
    latchSeeds seeds.h seeds.v
    latchSource src
    onBr fun b => { b with br16 := bg, br17 := fg }
    latchMonoPattern p0 p1
    if solid && transp then pure ()
    else
      runCopy d src fun sw =>
        { drawJob d sw with
          pat := solidOr solid p0 p1 fg bg transp
          hseed := seeds.h.toNat
          vseed := seeds.v.toNat }) s

/-- XY_FULL_MONO_PATTERN_MONO_SRC_BLT (R355). -/
def execXyFullMonoPatternMonoSrcBlt (_len : BitVec 8) (d : Draw) (solid stransp ptransp : Bool) (start : BitVec 3)
    (seeds : Seeds) (src sbg sfg pbg pfg p0 p1 : Word) (s : State) : Host.Outcome State Fault Refusal :=
  M.outcome (do
    latchDraw .xyFullMonoPatternMonoSrcBlt d 0 solid stransp ptransp
    latchSeeds seeds.h seeds.v
    latchStart start
    onBr fun b => { b with br12 := src, br18 := sbg, br19 := sfg, br16 := pbg, br17 := pfg }
    latchMonoPattern p0 p1
    require (decide (0 ≤ d.pen.pitch.toInt)) .negativePitch
    if solid && ptransp then pure ()
    else
      runDraw d fun sw =>
        { drawJob d sw with
          pat := solidOr solid p0 p1 pfg pbg ptransp
          hseed := seeds.h.toNat
          vseed := seeds.v.toNat
          src := wordSource d.rect start src sfg sbg stransp }) s

end Sys2Proof.Machine
end

