-- ==== Sys2Proof/Machine/MiControl.lean ====
section
/-! DEFINITION. MI commands that steer the parser: padding, batch buffers, waits, semaphores, interrupts, head report
(spec/46_mi_commands.md). An MI meaning moves `pc` itself. -/

namespace Sys2Proof.Machine

/-- MI_NOOP (R376): NOPID is written only with the write enable. -/
def execMiNoop (writeId : Bool) (ident : BitVec 22) (s : State) : Host.Outcome State Fault Refusal :=
  M.outcome (do
    onlyIf writeId (onRegs fun r => { r with nopid := ident })
    finish 1) s

/-- MI_USER_INTERRUPT (R384, R427). -/
def execMiUserInterrupt (s : State) : Host.Outcome State Fault Refusal :=
  M.outcome (do
    raiseInt 22
    finish 1) s

/-- Record the wait in BCS_SYNC_FLIP_STATUS, and in RBWait when the wait is in the ring (R385). DESIGN CHOICE: it is then the
only one recorded, whatever the host wrote there (log 44). -/
def recordWait (e : WaitEvent) : M Unit := do
  let s ← get
  onRegs fun r =>
    { r with
      syncFlip := (r.syncFlip &&& ~~~waitRecords) ||| e.record
      ctl := if s.parser.inBatch then r.ctl else setBit r.ctl 11 true }

/-- MI_WAIT_FOR_EVENT (R385): a no-operation when the condition does not hold; otherwise the parser waits on it. The wait
is re-evaluated by the parser, and ends by clearing its records. -/
def execMiWaitForEvent (spriteC : Bool) (cc : BitVec 4) (planeC spriteB planeB spriteA planeA : Bool) (s : State) :
    Host.Outcome State Fault Refusal :=
  M.outcome (do
    require (decide (eventCount spriteC cc planeC spriteB planeB spriteA planeA ≤ 1) && decide (cc.toNat < 6)) .waitForm
    let e := waitEvent spriteC cc planeC spriteB planeB spriteA planeA
    let cmd := Instr.miWaitForEvent spriteC cc planeC spriteB planeB spriteA planeA
    if e.holds s.regs then do
      recordWait e
      setRun (.waitEvent cmd)
    else if s.parser.run = .waitEvent cmd then endEventWait
    else finish 1) s

/-- MI_ARB_CHECK (R371): a valid pending head pointer is taken and its valid bit reset; a jump that goes over a multiple of
the report interval is reported (R370, R377; log 24). -/
def execMiArbCheck (s : State) : Host.Outcome State Fault Refusal :=
  M.outcome (do
    require (!s.parser.inBatch) .placement
    if bit s.regs.uhptr 0 then do
      let off := (field s.regs.uhptr 3 29).toNat * 8
      require (decide (off < 0x200000) && decide (off < s.regs.ringSize)) .uhptrRange
      setRun .running
      onRegs fun r =>
        { r with
          head := put (put 0 21 (field r.head 21 11)) 2 (BitVec.ofNat 19 (off / 4))
          uhptr := setBit r.uhptr 0 false }
      onlyIf (s.regs.jumpReports off) (reportHead .report)
    else finish 1) s

/-- MI_REPORT_HEAD (R377): the head already past the command is posted to the status page (D29). -/
def execMiReportHead (s : State) : Host.Outcome State Fault Refusal :=
  M.outcome (do
    require (!s.parser.inBatch) .placement
    finishWith 1 reportHead) s

/-- MI_BATCH_BUFFER_END (R372): back to the ring; no operation there (D27). -/
def execMiBatchBufferEnd (s : State) : Host.Outcome State Fault Refusal :=
  M.outcome (do
    if s.parser.inBatch then onParser fun p => { p with run := .running, inBatch := false }
    else finish 1) s

/-- MI_SUSPEND_FLUSH (R382): BCS_MI_MODE bit 15. -/
def execMiSuspendFlush (on : Bool) (s : State) : Host.Outcome State Fault Refusal :=
  M.outcome (do
    onRegs fun r => { r with miMode := setBit r.miMode 15 on }
    finish 1) s

/-- The space a chained or first batch buffer is fetched through (R373): a PPGTT batch keeps its space (log 58). -/
def batchSpaceOf (p : Parser) (asi : Bool) : Space :=
  if p.inBatch ∧ p.batchSpace = .ppgtt then .ppgtt else if asi then .ppgtt else .ggtt

/-- The parser goes to a batch buffer (R373); what was read ahead in another one, or on an earlier way through this one, runs
no more (R167). -/
def enterBatch (asi : Bool) (addr : BitVec 30) : M Unit := do
  modify fun s => { s with readAhead := s.readAhead.filter fun e => e.ring }
  onParser fun p =>
    { p with
      run := .running
      inBatch := true
      batchAddr := put 0 2 addr
      batchSpace := batchSpaceOf p asi }

/-- MI_BATCH_BUFFER_START (R373): from the ring the head is left behind the command as the return point (D7), an automatic
head report following once the parser is in the batch (R370); in a batch it chains. DESIGN CHOICE: a chained start with
indicator 0 in a PPGTT batch goes on in the PPGTT, as the pseudocode of R373 has it, where R485 item 24 makes it illegal and M13
of spec/93 refuses it; the opposite difference, indicator 1 in a GGTT batch, all of them refuse (log 58). -/
def execMiBatchBufferStart (_len : BitVec 8) (asi : Bool) (addr : BitVec 30) (s : State) :
    Host.Outcome State Fault Refusal :=
  M.outcome (do
    require (!asi || s.ppgttEnabled) .addressSpace
    require (!s.parser.inBatch || s.parser.batchSpace == .ppgtt || !asi) .placement
    if s.parser.inBatch then enterBatch asi addr else finishWith 2 (enterBatch asi addr)) s

/-- The value a register semaphore compares: BRSYNC or BVSYNC (R378, D30). -/
def semaphoreReg (r : Regs) (sel : BitVec 2) : Word := if sel = 0 then r.brsync else r.bvsync

/-- The memory comparison of a semaphore: strictly greater passes; without Compare everything does (R378). -/
def semaphoreMemory (compare : Bool) (sp : Space) (a : Nat) (data : Word) : M Bool :=
  if compare then do
    let w ← parserRead sp a
    pure (decide (data.toNat < w.toNat))
  else pure true

/-- The semaphore passes: the command is done, and Semaphore Wait ends (R378). -/
def semaphoreDone : M Unit := do
  onRegs fun r => { r with ctl := setBit r.ctl 10 false }
  finish 3

/-- MI_SEMAPHORE_MBOX (R378): unsigned, strictly greater passes (D30). DESIGN CHOICE: Semaphore Wait is set by a wait of the
register form alone, as R90 and R378 have it, and not by one of the memory form, as R26 and R27 would (log 57). DESIGN CHOICE:
Register Select 1 or 3 is refused in the register form alone, as the pseudocode of R378 has it; the memory form, which selects no
register, runs with any Register Select, although R205 and E7 of spec/93 refuse 1 and 3 without condition (log 59). -/
def execMiSemaphoreMbox (len : BitVec 8) (ggtt update compare cmpReg : Bool) (sel : BitVec 2) (data : Word)
    (addr : BitVec 30) (s : State) : Host.Outcome State Fault Refusal :=
  let cmd := Instr.miSemaphoreMbox len ggtt update compare cmpReg sel data addr
  M.outcome (do
    require (update || compare) .semaphoreForm
    if cmpReg then do
      require (!update && (sel == 0 || sel == 2)) .semaphoreForm
      if data.toNat < (semaphoreReg s.regs sel).toNat then semaphoreDone
      else do
        onRegs fun r => { r with ctl := setBit r.ctl 10 true }
        setRun (.waitSemaphore cmd)
    else do
      let sp : Space := if ggtt && s.secure then .ggtt else .ppgtt
      let a := (put 0 2 addr : Word).toNat
      let pass ← semaphoreMemory compare sp a data
      if pass then do
        onlyIf update (post false sp a (wordBytes data))
        semaphoreDone
      else setRun (.waitSemaphore cmd)) s

end Sys2Proof.Machine
end

