-- ==== Sys2Proof/Machine/MiMemory.lean ====
section
/-! DEFINITION. MI commands that move data between registers, memory, page tables and the display engine, and the flush
(spec/46_mi_commands.md). -/

namespace Sys2Proof.Machine

/-- MI_LOAD_REGISTER_IMM (R375): all byte write disables 0 write the register, all 1 write nothing. -/
def execMiLoadRegisterImm (_len : BitVec 8) (disables : BitVec 4) (reg : BitVec 30) (data : Word) (s : State) :
    Host.Outcome State Fault Refusal :=
  let off := (put 0 2 reg : Word).toNat
  M.outcome (do
    if disables = 15 ∨ protectedFrom s.secure off then pure ()
    else if disables = 0 then mmioWrite off data
    else refuse .byteWriteDisables
    finish 3) s

/-- The space "Use Global GTT" selects (R150). -/
def spaceOf (ggtt : Bool) : Space := if ggtt then .ggtt else .ppgtt

/-- A privileged use of the global GTT in a non-secure batch: the command is consumed without effect (R440, D35). -/
def violates (s : State) (ggtt : Bool) : Bool := ggtt && !s.secure

/-- "This bit must be '1' if the Per Process GTT Enable bit is clear" (R379, R380, R386; M15). -/
def checkGlobal (s : State) (ggtt : Bool) : M Unit := require (ggtt || s.ppgttEnabled) .addressSpace

/-- MI_STORE_REGISTER_MEM (R379). -/
def execMiStoreRegisterMem (_len : BitVec 8) (ggtt : Bool) (reg : BitVec 21) (addr : BitVec 30) (s : State) :
    Host.Outcome State Fault Refusal :=
  M.outcome (do
    checkGlobal s ggtt
    if violates s ggtt then finish 3
    else do
      let v ← mmioRead (reg.toNat * 4)
      post false (spaceOf ggtt) (put 0 2 addr : Word).toNat (wordBytes v)
      finish 3) s

/-- MI_STORE_DATA_IMM (R380): a DWord, or a QWord at a QWord address. -/
def execMiStoreDataImm (len : BitVec 10) (ggtt : Bool) (addr : BitVec 30) (d0 d1 : Word) (s : State) :
    Host.Outcome State Fault Refusal :=
  M.outcome (do
    checkGlobal s ggtt
    if violates s ggtt then finish (len.toNat + 2)
    else do
      let a := (put 0 2 addr : Word).toNat
      if len = 3 then do
        require (a % 8 == 0) .qwordAlignment
        post false (spaceOf ggtt) a (qwordBytes d0 d1)
      else post false (spaceOf ggtt) a (wordBytes d0)
      finish (len.toNat + 2)) s

/-- MI_STORE_DATA_INDEX (R381): a DWord or QWord of the hardware status page, not one of the first sixteen DWords. -/
def execMiStoreDataIndex (len : BitVec 8) (offset : BitVec 10) (d0 d1 : Word) (s : State) :
    Host.Outcome State Fault Refusal :=
  M.outcome (do
    require s.regs.hwsPgaWritten .statusPageUnset
    require (decide (16 ≤ offset.toNat)) .statusPageReserved
    let a := s.regs.hwsp + 4 * offset.toNat
    if len = 2 then do
      require (a % 8 == 0) .qwordAlignment
      post true .ggtt a (qwordBytes d0 d1)
    else post true .ggtt a (wordBytes d0)
    finish (len.toNat + 2)) s

/-- Consecutive GGTT entries from page `p` become these DWords (R383, R153). DESIGN CHOICE: those past the last page,
FFFFFh, are kept where no access reaches them (log 45). -/
def writeEntries (t : List (Nat × PageEntry)) (p : Nat) : List Word → List (Nat × PageEntry)
  | [] => t
  | w :: ws => writeEntries (insert t p (.raw w)) (p + 1) ws

/-- MI_UPDATE_GTT (R383): privileged; the TLBs keep what they hold (R166). -/
def execMiUpdateGtt (_len : BitVec 6) (ggtt : Bool) (entry : BitVec 20) (data : List Word) (s : State) :
    Host.Outcome State Fault Refusal :=
  M.outcome (do
    if !s.secure then finish (2 + data.length)
    else do
      require ggtt .addressSpace
      require (decide (1 ≤ data.length)) .illegalLength
      modify fun s => { s with ggtt := writeEntries s.ggtt entry.toNat data }
      finish (2 + data.length)) s

/-- The registers MI_LOAD_REGISTER_MEM may not name (R386, M17). -/
def loadForbidden (off : Nat) : Bool := (decide (0x8800 ≤ off) && decide (off ≤ 0x88FF)) || decide (0xC0000 ≤ off)

/-- MI_LOAD_REGISTER_MEM (R386): at once, or at some later moment in asynchronous mode. A prohibited one reads nothing
(R432, R440, R441). -/
def execMiLoadRegisterMem (_len : BitVec 8) (ggtt async : Bool) (reg : BitVec 21) (addr : BitVec 30) (s : State) :
    Host.Outcome State Fault Refusal :=
  let off := reg.toNat * 4
  M.outcome (do
    if violates s ggtt || protectedFrom s.secure off then finish 3
    else do
      checkGlobal s ggtt
      require (!loadForbidden off) .registerRange
      if async then
        modify fun s => { s with
          asyncLoads := s.asyncLoads ++ [⟨spaceOf ggtt, put 0 2 addr, BitVec.ofNat 32 off, s.secure⟩] }
      else do
        let v ← parserRead (spaceOf ggtt) (put 0 2 addr : Word).toNat
        mmioWrite off v
      finish 3) s

/-- The space of the post-sync write (R374, C27): PPGTT in a non-secure batch, otherwise as DWord 1 bit 2 says. -/
def flushSpace (s : State) (toGgtt : Bool) : Space := if s.secure && toGgtt then .ggtt else .ppgtt

/-- The post-sync write of MI_FLUSH_DW (R374): none, the immediate data, or the timestamp. DESIGN CHOICE: with Store Data
Index it is made although BCS_HWS_PGA has never been written, to the page at 0 the register then names (log 23). -/
def postSync (len : BitVec 6) (index : Bool) (op : BitVec 2) (addr : Word) (toGgtt : Bool) (d0 d1 : Word) : M Unit := do
  let s ← get
  let sp := if index then .ggtt else flushSpace s toGgtt
  let a := if index then s.regs.hwsp + (addr &&& 0xFF8).toNat else addr.toNat
  if op = 1 then
    if len = 2 then post index sp a (qwordBytes d0 d1) else post index sp a (wordBytes d0)
  else if op = 3 then
    post index sp a (qwordBytes (s.regs.timestamp.setWidth 32) ((s.regs.timestamp >>> 32).setWidth 32))
  else pure ()

/-- MI_FLUSH_DW (R374, R163): wait for the engine, flush the caches, invalidate the TLBs if asked, write, notify once the
write is in memory (R428). DESIGN CHOICE: the notification comes after every posted write, those of earlier commands too and
also where the command itself writes nothing (log 54). DESIGN CHOICE: the timestamp, always 8 bytes, is written at an address with
bit 5 set too, as R374's pseudocode has it, where item 15 of R485 and H6 let no QWord write go; the QWord of immediate data is refused
there (log 63). -/
def execMiFlushDw (len : BitVec 6) (spare index tlbInv gfdt : Bool) (op : BitVec 2) (notify : Bool) (addr : BitVec 29)
    (toGgtt : Bool) (d0 d1 : Word) (s : State) : Host.Outcome State Fault Refusal :=
  let a : Word := put 0 3 addr
  M.outcome (do
    require (op != 2) .reservedValue
    require (!(tlbInv && op == 0) && !(gfdt && op == 0)) .flushForm
    require (!(op == 1 && len == 2 && bit a 5)) .flushForm
    require (!(index && op != 0 && !s.secure && s.ppgttEnabled)) .perProcessStatusPage
    if s.engineBusy then setRun (.waitFlush (.miFlushDw len spare index tlbInv gfdt op notify addr toGgtt d0 d1))
    else do
      modify State.flushCaches
      onlyIf tlbInv (modify State.invalidateTlbs)
      postSync len index op a toGgtt d0 d1
      onlyIf notify do
        modify fun s => { s with mem := drainAll s.mem s.posted, posted := [] }
        raiseInt 26
      finish (len.toNat + 2)) s

/-- The packet of MI_DISPLAY_FLIP lies in one 64-byte cache line (R207). -/
def flipInLine (s : State) : Bool :=
  decide ((if s.parser.inBatch then s.parser.batchAddr.toNat else s.regs.headOff) % 64 ≤ 52)

/-- A command must follow in the ring before the tail (R207, M11): `pc` is already past the command. DESIGN CHOICE: any DWord
before the tail counts as the "valid command following", it is not looked at, and in a batch buffer one always follows
(log 50). -/
def checkFollowing : M Unit := do
  let s ← get
  require (s.parser.inBatch || decide (s.regs.headOff ≠ s.regs.tailOff)) .noFollowingCommand

/-- MI_DISPLAY_FLIP (R387): the request goes to the display engine, dropping a synchronous flip of the plane that is not
yet done, and the plane's pending flag is set. -/
def execMiDisplayFlip (_len : BitVec 8) (async : Bool) (plane : BitVec 3) (pitch : BitVec 10) (tiled : Bool)
    (base : BitVec 20) (kind : BitVec 2) (s : State) : Host.Outcome State Fault Refusal :=
  M.outcome (do
    require (decide (kind.toNat < 2) && decide (plane.toNat < 6)) .reservedValue
    require (async == (kind == 1)) .flipForm
    require (!async || tiled) .flipForm
    require (!async || plane == 0 || plane == 1 || plane == 4) .flipForm
    require (flipInLine s) .flipCacheLine
    modify fun s => { s with
      flips := (s.flips.filter fun f => f.plane != plane || f.async) ++ [⟨plane, async, tiled, pitch, base⟩] }
    onRegs fun r => { r with syncFlip := r.syncFlip ||| flipPendingBit plane.toNat async }
    finishWith 3 checkFollowing) s

end Sys2Proof.Machine
end

