-- ==== Sys2Proof/Machine/PatternBlt.lean ====
section
/-! DEFINITION. XY commands with a pattern and no source (spec/43_xy_pattern.md). -/

namespace Sys2Proof.Machine

/-- XY_COLOR_BLT (R310). -/
def execXyColorBlt (_len : BitVec 8) (d : Draw) (color : Word) (s : State) : Host.Outcome State Fault Refusal :=
  M.outcome (do
    latchDraw .xyColorBlt d 0 false false false
    onBr fun b => { b with br16 := color }
    runDraw d fun sw => { drawJob d sw with pat := .solid color }) s

/-- XY_PAT_BLT (R311). -/
def execXyPatBlt (_len : BitVec 8) (d : Draw) (seeds : Seeds) (pat : Word) (s : State) :
    Host.Outcome State Fault Refusal :=
  M.outcome (do
    latchDraw .xyPatBlt d 0 false false false
    latchSeeds seeds.h seeds.v
    onBr fun b => { b with br15 := pat }
    checkPattern pat (bpp d.pen.depth)
    runDraw d fun sw =>
      { drawJob d sw with pat := .memory (patAddr pat), hseed := seeds.h.toNat, vseed := seeds.v.toNat }) s

/-- A pattern command may not select a source range mode (R312, E5). -/
def checkPatMode (mode : BitVec 3) : M Unit := require (chromaPatModeOk mode) .reservedValue

/-- The key range in BR18 and BR19 (R43, R44). -/
def latchKey (lo hi : Word) : M Unit := onBr fun b => { b with br18 := lo, br19 := hi }

/-- XY_PAT_CHROMA_BLT (R312). -/
def execXyPatChromaBlt (_len : BitVec 8) (d : Draw) (mode : BitVec 3) (seeds : Seeds) (pat lo hi : Word) (s : State) :
    Host.Outcome State Fault Refusal :=
  M.outcome (do
    latchDraw .xyPatChromaBlt d mode false false false
    latchSeeds seeds.h seeds.v
    onBr fun b => { b with br15 := pat }
    latchKey lo hi
    checkPatMode mode
    checkPattern pat (bpp d.pen.depth)
    runDraw d fun sw =>
      { drawJob d sw with
        pat := .memory (patAddr pat)
        hseed := seeds.h.toNat
        vseed := seeds.v.toNat
        mode := mode
        lo := lo
        hi := hi }) s

/-- XY_PAT_BLT_IMMEDIATE (R313). -/
def execXyPatBltImmediate (_len : BitVec 8) (d : Draw) (seeds : Seeds) (data : List Word) (s : State) :
    Host.Outcome State Fault Refusal :=
  M.outcome (do
    latchDraw .xyPatBltImmediate d 0 false false false
    latchSeeds seeds.h seeds.v
    runDraw d fun sw =>
      { drawJob d sw with pat := .immediate data, hseed := seeds.h.toNat, vseed := seeds.v.toNat }) s

/-- XY_PAT_CHROMA_BLT_IMMEDIATE (R314). -/
def execXyPatChromaBltImmediate (_len : BitVec 8) (d : Draw) (mode : BitVec 3) (seeds : Seeds) (lo hi : Word)
    (data : List Word) (s : State) : Host.Outcome State Fault Refusal :=
  M.outcome (do
    latchDraw .xyPatChromaBltImmediate d mode false false false
    latchSeeds seeds.h seeds.v
    latchKey lo hi
    checkPatMode mode
    runDraw d fun sw =>
      { drawJob d sw with
        pat := .immediate data
        hseed := seeds.h.toNat
        vseed := seeds.v.toNat
        mode := mode
        lo := lo
        hi := hi }) s

/-- XY_MONO_PAT_BLT (R315). -/
def execXyMonoPatBlt (_len : BitVec 8) (d : Draw) (transp : Bool) (seeds : Seeds) (bg fg p0 p1 : Word) (s : State) :
    Host.Outcome State Fault Refusal :=
  M.outcome (do
    latchDraw .xyMonoPatBlt d 0 false false transp
    latchSeeds seeds.h seeds.v
    onBr fun b => { b with br16 := bg, br17 := fg }
    latchMonoPattern p0 p1
    runDraw d fun sw =>
      { drawJob d sw with
        pat := .mono p0 p1 fg bg transp
        hseed := seeds.h.toNat
        vseed := seeds.v.toNat }) s

/-- XY_MONO_PAT_FIXED_BLT (R316): BR20 and BR21 take the fixed pattern, as R45 has it (log 48); no later command reads
them. -/
def execXyMonoPatFixedBlt (_len : BitVec 8) (d : Draw) (transp : Bool) (fixed : BitVec 4) (seeds : Seeds) (bg fg : Word)
    (s : State) : Host.Outcome State Fault Refusal :=
  M.outcome (do
    latchDraw .xyMonoPatFixedBlt d 0 false false transp
    latchSeeds seeds.h seeds.v
    onBr fun b => { b with br16 := bg, br17 := fg, br20 := (fixedPattern fixed).1, br21 := (fixedPattern fixed).2 }
    require (fixedPatternOk fixed) .reservedValue
    runDraw d fun sw =>
      { drawJob d sw with
        pat := .mono (fixedPattern fixed).1 (fixedPattern fixed).2 fg bg transp
        hseed := seeds.h.toNat
        vseed := seeds.v.toNat }) s

end Sys2Proof.Machine
end

