-- ==== Sys2Proof/Machine/Setup.lean ====
section
/-! DEFINITION. The setup commands and the commands that draw from the setup set (spec/42_xy_setup_stateful.md). -/

namespace Sys2Proof.Machine

/-- BR00 of a command without operand fields but its tiling bit. -/
def latchPlain (o : Op) (mask : BitVec 2) (tiled clips : Bool) : M Unit := onBr fun b =>
  { b with br00 := { br00Of o clips false with mask := mask, dstTiled := tiled } }

/-- XY_SETUP_BLT (R290). -/
def execXySetupBlt (_len : BitVec 8) (mask : BitVec 2) (tiled clip transp : Bool) (pen : Pen) (rect : Clip)
    (base bg fg pat : Word) (s : State) : Host.Outcome State Fault Refusal :=
  M.outcome (do
    latchPlain .xySetupBlt mask tiled clip
    onSetup fun u => { u with
      br01 := latchPen pen mask false clip transp false
      br24 := clipWord rect.x1 rect.y1
      br25 := clipWord rect.x2 rect.y2
      br09 := base
      br05 := bg
      br06 := fg
      br07 := pat
      monoPattern := false }) s

/-- XY_SETUP_MONO_PATTERN_SL_BLT (R291). -/
def execXySetupMonoPatternSlBlt (_len : BitVec 8) (mask : BitVec 2) (tiled solid clip transp : Bool) (pen : Pen)
    (rect : Clip) (base bg fg p0 p1 : Word) (s : State) : Host.Outcome State Fault Refusal :=
  M.outcome (do
    latchPlain .xySetupMonoPatternSlBlt mask tiled clip
    onSetup fun u => { u with
      br01 := latchPen pen mask solid clip false transp
      br24 := clipWord rect.x1 rect.y1
      br25 := clipWord rect.x2 rect.y2
      br09 := base
      br05 := bg
      br06 := fg
      br20 := p0
      br21 := p1
      monoPattern := true }) s

/-- XY_SETUP_CLIP_BLT (R292): only the clip rectangle changes. -/
def execXySetupClipBlt (_len : BitVec 8) (tiled : Bool) (rect : Clip) (s : State) : Host.Outcome State Fault Refusal :=
  M.outcome (do
    latchPlain .xySetupClipBlt 0 tiled false
    onSetup fun u => { u with br24 := clipWord rect.x1 rect.y1, br25 := clipWord rect.x2 rect.y2 }) s

/-- The depth, operation and pitch in BR01 (R31). -/
def setupPen (u : Setup) : Pen := readPen u.br01

/-- The job of a setup-dependent command (D25): everything from the setup set but the tiling bit, which is the
command's own. -/
def setupJob (u : Setup) (swctrl : Word) (tiled : Bool) : Job where
  depth := (setupPen u).depth
  rop := (setupPen u).rop
  mask := field u.br01 26 2
  mode := 0
  lo := 0
  hi := 0
  dst := xySurface tiled (bit swctrl 1) u.br09 (setupPen u).pitch
  pat := .absent
  hseed := 0
  vseed := 0
  src := .absent

/-- BR00 of a setup-dependent command (R30): the clip bit and the mask are those of BR01 (D22, R241). -/
def Br.withDependent (b : Br) (u : Setup) (o : Op) (tiled packed : Bool) : Br :=
  { b with
    br00 := { br00Of o (bit u.br01 30) (destRead (setupPen u).rop 0) with
      mask := field u.br01 26 2
      dstTiled := tiled
      packed := packed } }

/-- The rectangle of a setup-dependent command in BR22 and BR23 (R47, R48). -/
def Br.withRect (b : Br) (r : Rect) : Br := { b with br22 := pointWord r.x1 r.y1, br23 := pointWord r.x2 r.y2 }

/-- The kind of pattern an XY_SCANLINES_BLT draws with, in BR00 bits 1:0 (R294). -/
def Br.withPatternKind (b : Br) (mono : Bool) : Br := { b with br00 := { b.br00 with colorPat := !mono, monoPat := mono } }

/-- Latch BR00 of a setup-dependent command. -/
def latchDependent (o : Op) (tiled packed : Bool) : M Unit := do
  let s ← get
  onBr fun b => b.withDependent s.setup o tiled packed

/-- Latch the rectangle of a setup-dependent command. -/
def latchRect (r : Rect) : M Unit := onBr fun b => b.withRect r

/-- Draw with the clip enable of BR01 bit 30 (D22). -/
def drawDependent (tiled : Bool) (b : Box) (j : Setup → Job → Job) : M Unit := do
  let s ← get
  drawXY (j s.setup (setupJob s.setup s.regs.swctrl tiled)) (clipOf s.setup (bit s.setup.br01 30)) b false false

/-- XY_PIXEL_BLT (R293): the one pixel (x, y) in the solid colour BR05. -/
def execXyPixelBlt (_len : BitVec 8) (tiled : Bool) (x y : BitVec 16) (s : State) : Host.Outcome State Fault Refusal :=
  M.outcome (do
    latchDependent .xyPixelBlt tiled false
    onBr fun b => { b with br22 := pointWord x y }
    require (decide (0 ≤ (setupPen s.setup).pitch.toInt)) .negativePitch
    drawDependent tiled ⟨x.toInt, y.toInt, x.toInt + 1, y.toInt + 1⟩ fun u j => { j with pat := .solid u.br05 }) s

/-- The pattern of an XY_SCANLINES_BLT (R294): monochrome from BR20S and BR21S, the zeros of a Solid Pattern Select, or
colour from memory. -/
def scanlinePattern (u : Setup) : Pattern :=
  if u.monoPattern then
    if bit u.br01 31 then .mono 0 0 u.br06 u.br05 (bit u.br01 28) else .mono u.br20 u.br21 u.br06 u.br05 (bit u.br01 28)
  else .memory (patAddr u.br07)

/-- XY_SCANLINES_BLT (R294). -/
def execXyScanlinesBlt (_len : BitVec 8) (tiled : Bool) (seeds : Seeds) (rect : Rect) (s : State) :
    Host.Outcome State Fault Refusal :=
  M.outcome (do
    latchDependent .xyScanlinesBlt tiled false
    latchRect rect
    latchSeeds seeds.h seeds.v
    let u := s.setup
    onBr fun b => b.withPatternKind u.monoPattern
    onlyIf (!u.monoPattern) (checkPattern u.br07 (bpp (setupPen u).depth))
    drawDependent tiled (rectBox rect) fun u j =>
      { j with pat := scanlinePattern u, hseed := seeds.h.toNat, vseed := seeds.v.toNat }) s

/-- XY_TEXT_BLT (R295). -/
def execXyTextBlt (_len : BitVec 8) (tiled packed : Bool) (rect : Rect) (src : Word) (s : State) :
    Host.Outcome State Fault Refusal :=
  M.outcome (do
    latchDependent .xyTextBlt tiled packed
    latchRect rect
    onBr fun b => { b with br12 := src }
    drawDependent tiled (rectBox rect) fun u j =>
      { j with
        src := .mono (if packed then .bytePacked else .bitPacked) (rectWidth rect) src.toNat rect.x1.toInt rect.y1.toInt
          u.br06 u.br05 (bit u.br01 29) }) s

/-- XY_TEXT_IMMEDIATE_BLT (R296). -/
def execXyTextImmediateBlt (_len : BitVec 8) (tiled packed : Bool) (rect : Rect) (data : List Word) (s : State) :
    Host.Outcome State Fault Refusal :=
  M.outcome (do
    latchDependent .xyTextImmediateBlt tiled packed
    latchRect rect
    drawDependent tiled (rectBox rect) fun u j =>
      { j with
        src := .monoImm (if packed then .bytePacked else .bitPacked) (rectWidth rect) data rect.x1.toInt rect.y1.toInt
          u.br06 u.br05 (bit u.br01 29) }) s

end Sys2Proof.Machine
end

