-- ==== Sys2Proof/Machine/Dispatch.lean ====
section
/-! DEFINITION. The meaning of every command: one arm per constructor, one direct call of the meaning. -/

namespace Sys2Proof.Machine

def exec (i : Instr) (s : State) : Host.Outcome State Fault Refusal :=
  match i with
  | .colorBlt len mask pen height width dst color => Sys2Proof.Machine.execColorBlt len mask pen height width dst color s
  | .srcCopyBlt len mask xdir pen height width dst spitch src => Sys2Proof.Machine.execSrcCopyBlt len mask xdir pen height width dst spitch src s
  | .xySetupBlt len mask tiled clip transp pen rect base bg fg pat => Sys2Proof.Machine.execXySetupBlt len mask tiled clip transp pen rect base bg fg pat s
  | .xySetupMonoPatternSlBlt len mask tiled solid clip transp pen rect base bg fg p0 p1 => Sys2Proof.Machine.execXySetupMonoPatternSlBlt len mask tiled solid clip transp pen rect base bg fg p0 p1 s
  | .xySetupClipBlt len tiled rect => Sys2Proof.Machine.execXySetupClipBlt len tiled rect s
  | .xyPixelBlt len tiled x y => Sys2Proof.Machine.execXyPixelBlt len tiled x y s
  | .xyScanlinesBlt len tiled seeds rect => Sys2Proof.Machine.execXyScanlinesBlt len tiled seeds rect s
  | .xyTextBlt len tiled packed rect src => Sys2Proof.Machine.execXyTextBlt len tiled packed rect src s
  | .xyTextImmediateBlt len tiled packed rect data => Sys2Proof.Machine.execXyTextImmediateBlt len tiled packed rect data s
  | .xyColorBlt len d color => Sys2Proof.Machine.execXyColorBlt len d color s
  | .xyPatBlt len d seeds pat => Sys2Proof.Machine.execXyPatBlt len d seeds pat s
  | .xyPatChromaBlt len d mode seeds pat lo hi => Sys2Proof.Machine.execXyPatChromaBlt len d mode seeds pat lo hi s
  | .xyPatBltImmediate len d seeds data => Sys2Proof.Machine.execXyPatBltImmediate len d seeds data s
  | .xyPatChromaBltImmediate len d mode seeds lo hi data => Sys2Proof.Machine.execXyPatChromaBltImmediate len d mode seeds lo hi data s
  | .xyMonoPatBlt len d transp seeds bg fg p0 p1 => Sys2Proof.Machine.execXyMonoPatBlt len d transp seeds bg fg p0 p1 s
  | .xyMonoPatFixedBlt len d transp fixed seeds bg fg => Sys2Proof.Machine.execXyMonoPatFixedBlt len d transp fixed seeds bg fg s
  | .xySrcCopyBlt len d src => Sys2Proof.Machine.execXySrcCopyBlt len d src s
  | .xySrcCopyChromaBlt len d mode src lo hi => Sys2Proof.Machine.execXySrcCopyChromaBlt len d mode src lo hi s
  | .xyMonoSrcCopyBlt len d transp start src bg fg => Sys2Proof.Machine.execXyMonoSrcCopyBlt len d transp start src bg fg s
  | .xyMonoSrcCopyImmediateBlt len d transp start bg fg data => Sys2Proof.Machine.execXyMonoSrcCopyImmediateBlt len d transp start bg fg data s
  | .xyFullBlt len d seeds src pat => Sys2Proof.Machine.execXyFullBlt len d seeds src pat s
  | .xyFullImmediatePatternBlt len d hseed src data => Sys2Proof.Machine.execXyFullImmediatePatternBlt len d hseed src data s
  | .xyFullMonoSrcBlt len d transp start seeds src bg fg pat => Sys2Proof.Machine.execXyFullMonoSrcBlt len d transp start seeds src bg fg pat s
  | .xyFullMonoSrcImmediatePatternBlt len d transp start hseed src bg fg data => Sys2Proof.Machine.execXyFullMonoSrcImmediatePatternBlt len d transp start hseed src bg fg data s
  | .xyFullMonoPatternBlt len d solid transp seeds src bg fg p0 p1 => Sys2Proof.Machine.execXyFullMonoPatternBlt len d solid transp seeds src bg fg p0 p1 s
  | .xyFullMonoPatternMonoSrcBlt len d solid stransp ptransp start seeds src sbg sfg pbg pfg p0 p1 => Sys2Proof.Machine.execXyFullMonoPatternMonoSrcBlt len d solid stransp ptransp start seeds src sbg sfg pbg pfg p0 p1 s
  | .miNoop writeId ident => Sys2Proof.Machine.execMiNoop writeId ident s
  | .miUserInterrupt => Sys2Proof.Machine.execMiUserInterrupt s
  | .miWaitForEvent spriteC cc planeC spriteB planeB spriteA planeA => Sys2Proof.Machine.execMiWaitForEvent spriteC cc planeC spriteB planeB spriteA planeA s
  | .miArbCheck => Sys2Proof.Machine.execMiArbCheck s
  | .miReportHead => Sys2Proof.Machine.execMiReportHead s
  | .miBatchBufferEnd => Sys2Proof.Machine.execMiBatchBufferEnd s
  | .miSuspendFlush on => Sys2Proof.Machine.execMiSuspendFlush on s
  | .miDisplayFlip len async plane pitch tiled base kind => Sys2Proof.Machine.execMiDisplayFlip len async plane pitch tiled base kind s
  | .miSemaphoreMbox len ggtt update compare cmpReg sel data addr => Sys2Proof.Machine.execMiSemaphoreMbox len ggtt update compare cmpReg sel data addr s
  | .miStoreDataImm len ggtt addr d0 d1 => Sys2Proof.Machine.execMiStoreDataImm len ggtt addr d0 d1 s
  | .miStoreDataIndex len offset d0 d1 => Sys2Proof.Machine.execMiStoreDataIndex len offset d0 d1 s
  | .miLoadRegisterImm len disables reg data => Sys2Proof.Machine.execMiLoadRegisterImm len disables reg data s
  | .miUpdateGtt len ggtt entry data => Sys2Proof.Machine.execMiUpdateGtt len ggtt entry data s
  | .miStoreRegisterMem len ggtt reg addr => Sys2Proof.Machine.execMiStoreRegisterMem len ggtt reg addr s
  | .miFlushDw len spare index tlbInv gfdt op notify addr toGgtt d0 d1 => Sys2Proof.Machine.execMiFlushDw len spare index tlbInv gfdt op notify addr toGgtt d0 d1 s
  | .miLoadRegisterMem len ggtt async reg addr => Sys2Proof.Machine.execMiLoadRegisterMem len ggtt async reg addr s
  | .miBatchBufferStart len asi addr => Sys2Proof.Machine.execMiBatchBufferStart len asi addr s

end Sys2Proof.Machine
end

