-- ==== Sys2Proof/Machine/Fetch.lean ====
section
/-! DEFINITION. Fetching a command (R24, R210): where `pc` points, how many DWords can be read there, and the reads. -/

namespace Sys2Proof.Machine

/-- Where the parser fetches: the space, the graphics address of DWord 0, and how many DWords lie before the tail, the
ring end or the end of the address space (R24). -/
structure FetchPoint where
  space : Space
  addr : Nat
  room : Nat
deriving DecidableEq, Repr

/-- The ring registers describe a ring: start below 2^29, head and tail inside (R87, R89; 93 M9). -/
def Regs.ringOk (r : Regs) : Bool :=
  field r.start 29 3 == 0 && decide (r.headOff < r.ringSize) && decide (r.tailOff < r.ringSize)

/-- How many DWords of the ring can be read from the head on without passing the tail or the ring end (R24). -/
def Regs.ringRoom (r : Regs) : Nat :=
  if r.headOff < r.tailOff then (r.tailOff - r.headOff) / 4 else (r.ringSize - r.headOff) / 4

/-- The fetch point of `pc` (R24, R25): the ring through the GGTT, a batch through its own space. -/
def State.fetchPoint (s : State) : FetchPoint :=
  if s.parser.inBatch then
    ⟨s.parser.batchSpace, s.parser.batchAddr.toNat, (0x100000000 - s.parser.batchAddr.toNat) / 4⟩
  else ⟨.ggtt, (s.regs.start &&& 0xFFFFF000).toNat + s.regs.headOff, s.regs.ringRoom⟩

/-- How many bytes of commands lie between the head and the tail, around the ring end (R24). -/
def Regs.ringPending (r : Regs) : Nat := (r.tailOff + r.ringSize - r.headOff) % r.ringSize

/-- Where the DWord `n` DWords behind `pc` lies, when the parser may read it already (R167): before the tail of an enabled
ring, or in the batch buffer in execution. -/
def State.aheadPoint (s : State) (ring : Bool) (n : Nat) : Option (Space × Nat) :=
  if ring then
    if s.ringEnabled && s.regs.ringOk && decide (4 * n < s.regs.ringPending) then
      some (.ggtt, (s.regs.start &&& 0xFFFFF000).toNat + (s.regs.headOff + 4 * n) % s.regs.ringSize)
    else none
  else if s.parser.inBatch && decide (s.parser.batchAddr.toNat + 4 * n < 0x100000000) then
    some (s.parser.batchSpace, s.parser.batchAddr.toNat + 4 * n)
  else none

/-- A DWord that was read from this place. -/
def ReadAhead.isAt (e : ReadAhead) (ring : Bool) (sp : Space) (addr : Nat) : Bool :=
  e.ring == ring && e.space == sp && e.addr == addr

/-- The parser reads one command DWord before it gets there (R167). DESIGN CHOICE: a place without a translation is not read,
and raises no page fault then; the parser takes it if it gets there (R430, log 60). -/
def State.takeAhead (s : State) (ring : Bool) (n : Nat) : State :=
  match s.aheadPoint ring n with
  | none => s
  | some (sp, addr) =>
    match s.translate .bcs sp addr false .fetch with
    | .error _ => s
    | .ok p =>
      let t := s.noteXlat .bcs sp addr false .fetch
      { t with readAhead := ⟨ring, sp, addr, bytesWord (bytesAt (Memory.read s.mem) p.addr 4)⟩ ::
        s.readAhead.filter fun e => !e.isAt ring sp addr }

/-- A DWord read ahead may still run while its place lies between head and tail of the enabled ring, or while the batch buffer
it came from is in execution (R167). -/
def State.stillAhead (s : State) (e : ReadAhead) : Bool :=
  let base := (s.regs.start &&& 0xFFFFF000).toNat
  if e.ring then
    s.ringEnabled && s.regs.ringOk && decide (base ≤ e.addr) && decide (e.addr < base + s.regs.ringSize) &&
      decide ((e.addr - base + s.regs.ringSize - s.regs.headOff) % s.regs.ringSize < s.regs.ringPending)
  else s.parser.inBatch

/-- What can run no more of the DWords read ahead is forgotten (R167). -/
def State.keepAhead (s : State) : State := { s with readAhead := s.readAhead.filter s.stillAhead }

/-- One DWord of the command stream: what was read ahead, which is used up, else memory (R167). -/
def commandWord (ring : Bool) (sp : Space) (addr : Nat) : M Word := do
  let s ← get
  match s.readAhead.find? fun e => e.isAt ring sp addr with
  | some e => do
    set { s with readAhead := s.readAhead.filter fun e => !e.isAt ring sp addr }
    pure e.word
  | none => parserRead sp addr .fetch

/-- `n` DWords of the command stream from an address on. -/
def fetchWords (ring : Bool) (sp : Space) (addr : Nat) : Nat → M (List Word)
  | 0 => pure []
  | n + 1 => do
    let w ← commandWord ring sp addr
    let ws ← fetchWords ring sp (addr + 4) n
    pure (w :: ws)

/-- Fetch a command (R210, R432): DWord 0, its decoding, the length check, the further DWords. `none` is an undefined
client or opcode (R200). A wrong length is refused for a command of fixed length (R181, D17; 93 E3, E10); in an immediate
command it is a wrong amount of data, and the command goes on. -/
def fetchCommand : M (Option (Op × List Word)) := do
  let s ← get
  if !s.parser.inBatch && !s.regs.ringOk then stop .ringMisprogrammed
  else do
    let p := s.fetchPoint
    let ring := !s.parser.inBatch
    let w ← commandWord ring p.space p.addr
    match Op.ofHeader w with
    | none => pure none
    | some o =>
      require (o.lengthOk w || o.underfed w) .illegalLength
      if p.room < o.dwords w then stop (if s.parser.inBatch then .batchOverrun else .commandStraddles)
      else do
        let ws ← fetchWords ring p.space (p.addr + 4) (o.dwords w - 1)
        pure (some (o, w :: ws))

end Sys2Proof.Machine
end

