-- ==== Sys2Proof/Machine/Parser.lean ====
section
/-! DEFINITION. The agents and their steps (R8, R370): the parser loop, the BLT engine taking a command it was handed, the
sync flush (R164), the default progress of the environment, and the events of the schedule (R450). -/

namespace Sys2Proof.Machine

/-- Whether the immediate form of a BLT command (R207): its data comes through the command stream. -/
def isImmediate : Op → Bool
  | .xyTextImmediateBlt | .xyPatBltImmediate | .xyPatChromaBltImmediate | .xyMonoSrcCopyImmediateBlt
  | .xyFullImmediatePatternBlt | .xyFullMonoSrcImmediatePatternBlt => true
  | _ => false

/-- Asynchronous load number `k` reads memory and writes its register; the loads are in no order (R386, M18). -/
def landAsyncLoad (k : Nat) : M Unit := do
  let s ← get
  match s.asyncLoads[k]? with
  | none => pure ()
  | some l => do
    set { s with asyncLoads := s.asyncLoads.eraseIdx k }
    let v ← parserRead l.space l.addr.toNat .load
    loadRegister l.secure l.reg.toNat v

/-- What happens while the parser has nothing to do: one posted write reaches memory, else one asynchronous load is
done, else nothing. -/
def background : M Unit := do
  let s ← get
  if s.posted.isEmpty then landAsyncLoad 0 else set s.drainOne

/-- The wait of a waiting parser is given up: what it recorded in the registers is cleared (log 46). -/
def endWait : M Unit := do
  match (← get).parser.run with
  | .waitEvent _ | .waitSemaphore _ => onRegs Regs.waitOver
  | _ => pure ()

/-- The parser is in a state it does not leave by itself in this step. -/
def rest (r : RunState) : M Unit := do
  endWait
  setRun r
  background

/-- The engine executes the command it holds (R28). -/
def engineStep : M Unit := do
  let s ← get
  match s.engine.run with
  | .pending i => do
    set { s with engine := { s.engine with run := .idle } }
    M.ofOutcome (exec i)
  | _ => pure ()

/-- The space the command at `pc` comes from, in which the engine works (R150, D14). -/
def Parser.space (p : Parser) : Space := if p.inBatch then p.batchSpace else .ggtt

/-- The engine takes a BLT command, and `pc` moves past it (R28, R370). After one with immediate data another command must
follow (R207). -/
def handTo (run : EngineRun) (o : Op) (n : Nat) : M Unit := do
  modify fun s => { s with engine := ⟨run, s.parser.space⟩ }
  finishWith n (onlyIf (isImmediate o) checkFollowing)

/-- A BLT command in an idle engine (R28, R370): handed over, and executed unless `defer` leaves that to a later step. -/
def handOver (i : Instr) (n : Nat) (defer : Bool) : M Unit := do
  handTo (.pending i) i.op n
  onlyIf (!defer) engineStep

/-- An immediate command whose DWord Length does not even cover its fixed DWords (R181, D17): its amount of data is wrong, so
the engine that takes it hangs, then the parser (R435). No register is loaded (log 34). -/
def starve (o : Op) (n : Nat) : M Unit := do
  handTo .hung o n
  dataHang

/-- A BLT command waits at its place while the engine is busy (R28, R370). -/
def whenIdle (m : M Unit) : M Unit := do
  setRun .running
  if (← get).engineBusy then background else m

/-- The command holds up the parser for a read (R27): MI_STORE_REGISTER_MEM, and MI_LOAD_REGISTER_MEM unless asynchronous.
One that protection drops reads nothing (R440). -/
def readsSlowly (s : State) : Instr → Bool
  | .miStoreRegisterMem _ ggtt _ _ => !violates s ggtt
  | .miLoadRegisterMem _ ggtt async reg _ => !async && !violates s ggtt && !protectedFrom s.secure (reg.toNat * 4)
  | _ => false

/-- An MI command runs at once (R370); with `defer` one that reads begins to wait for its read (R27). -/
def runMi (i : Instr) (defer : Bool) : M Unit := do
  setRun .running
  if defer && readsSlowly (← get) i then setRun (.waitRead i) else M.ofOutcome (exec i)

/-- The command at `pc`: fetched, checked, and executed or handed over (R210, R370). DESIGN CHOICE: a command with a reserved
field set is refused before its privilege is checked, as R432 orders the two, where D34 has privilege before the refuse conditions;
what else a meaning refuses comes after privilege, as D34 has it (log 62). -/
def runCommand (defer : Bool) : M Unit := do
  match ← fetchCommand with
  | none => takeInstructionError
  | some (o, ws) =>
    if !o.reservedOk (fun k => ws.getD k 0) then refuse .reservedField
    else
      match decode ws with
      | .error _ => whenIdle (starve o ws.length)
      | .ok i => if o.isBlt then whenIdle (handOver i ws.length defer) else runMi i defer

/-- Stop Ring ends the wait for an event or a semaphore (R435): `pc` stays on the command, which runs again once the ring
does (log 46). A flush and a read are waited for (R27). -/
def stopsWait (s : State) : Bool :=
  bit s.regs.miMode 8 && (match s.parser.run with
    | .waitEvent _ | .waitSemaphore _ => true
    | _ => false)

/-- A waiting command is re-evaluated (R370); while it goes on waiting the rest of the machine goes on, unless Stop Ring ends
the wait. -/
def rewait (cmd : Instr) : M Unit := do
  let r := (← get).parser.run
  M.ofOutcome (exec cmd)
  let s ← get
  if s.parser.run == r then if stopsWait s then rest .stopped else background else pure ()

/-- `ParserStep` (R370). A hung parser makes no further step, whatever the enable bit says (R27, R435). -/
def parserStep (defer : Bool) : M Unit := do
  let s ← get
  if s.parser.run = .hung then background
  else if !s.ringEnabled then rest .disabled
  else
    match s.parser.run with
    | .waitEvent cmd => rewait cmd
    | .waitSemaphore cmd => rewait cmd
    | .waitFlush cmd => rewait cmd
    | .waitRead cmd => rewait cmd
    | _ =>
      if bit s.regs.miMode 8 then rest .stopped
      else if !s.parser.inBatch && decide (s.regs.headOff = s.regs.tailOff) then rest .idle
      else runCommand defer

/-- A sync flush requested in BCS_INSTPM bit 5 can be done: not held off by MI_SUSPEND_FLUSH, and the engine has finished
(R164, R382). -/
def State.syncFlushReady (s : State) : Bool :=
  bit s.regs.instpm 5 && !(bit s.regs.miMode 15) && s.engine.run == .idle

/-- Whether raising Sync Status makes a hardware status write, which makes the CPU's view of memory coherent (R93, R164,
R424). -/
def State.syncWrites (s : State) : Bool := needsStatusWrite s.regs s.regs.isr (setBit s.regs.isr 24 true)

/-- The sync flush (R164, R429): caches written out when bit 6 is set or when Sync Status makes a status write (R93), TLBs
invalidated when bit 9 is set, bits 5 and 6 cleared, Sync Status raised. -/
def syncFlush : M Unit := do
  let s ← get
  onlyIf (bit s.regs.instpm 6 || s.syncWrites) (modify State.flushCaches)
  onlyIf (bit s.regs.instpm 9) (modify State.invalidateTlbs)
  onRegs fun r => { r with instpm := setBit (setBit r.instpm 5 false) 6 false }
  raiseInt 24

/-- With nothing scheduled: a sync flush that is due, else the engine's command, else the parser. DESIGN CHOICE: a parser
that has hung holds up neither a sync flush nor an asynchronous load (log 32). -/
def defaultStep : M Unit := do
  let s ← get
  if s.syncFlushReady then syncFlush
  else if s.engineBusy && s.engine.run != .hung then engineStep
  else parserStep false

/-- A TLB holds what a translation returned (R155): the pair of that number in the record joins those it holds. -/
def State.fillTlb (s : State) (k : Nat) : State :=
  match s.xlats[k]? with
  | some e => if s.tlb.contains e then s else { s with tlb := s.tlb ++ [e] }
  | none => s

/-- The PD TLB holds a page directory entry, when a translation of the record went through it (R155): each covers 1024
pages. -/
def State.fillPd (s : State) (i : Nat) : State :=
  if s.xlats.any fun e => e.space == .ppgtt && e.page / 1024 == i then { s with pdTlb := i :: s.pdTlb.filter (· != i) } else s

/-- One entry of the arbiter's table of pending translations changes (R57, R71 to R74). -/
def Regs.pend (r : Regs) (k : Nat) (valid ready : Bool) (sec1 : Word) : Regs :=
  { r with
    pendValid := if valid then r.pendValid ||| (1#64 <<< k) else r.pendValid &&& ~~~(1#64 <<< k)
    pendReady := if ready then r.pendReady ||| (1#64 <<< k) else r.pendReady &&& ~~~(1#64 <<< k)
    pendSec1 := r.pendSec1.setIfInBounds k sec1 }

/-- One event of the schedule. -/
def runEvent : EnvEvent → M Unit
  | .parser => parserStep false
  | .parserDefer => parserStep true
  | .engine => engineStep
  | .readAhead ring n => modify fun s => s.takeAhead ring n
  | .drain => modify State.drainOne
  | .evict a => modify fun s => s.evictByte a
  | .texFill a => modify fun s => s.fillTexture a
  | .midEvents l => modify fun s => { s with midEvents := l }
  | .tlbFill k => modify fun s => s.fillTlb k
  | .tlbDrop u sp page => modify fun s => { s with
      tlb := s.tlb.filter fun e => !(e.unit == u && e.space == sp && e.page == page) }
  | .pdFill i => modify fun s => s.fillPd i
  | .pdDrop i => modify fun s => { s with pdTlb := s.pdTlb.filter (· != i) }
  | .tlbPick n => modify fun s => { s with tlbPick := n }
  | .tlbPend k valid ready sec1 => onRegs fun r => r.pend k valid ready sec1
  | .asyncLoad k => landAsyncLoad k
  | .syncFlush => do
    let s ← get
    onlyIf s.syncFlushReady syncFlush
  | .hostWrite off v => mmioWrite off v
  | .hostClearIir v => do
    onRegs fun r => { r with iir := r.iir &&& ~~~v }
    refresh
  | .hostStore a b => modify fun s => s.hostStore a b
  | .setPage .ggtt page e => modify fun s => { s with ggtt := insert s.ggtt page e }
  | .setPage .ppgtt page e => modify fun s => { s with ppgtt := insert s.ppgtt page e }
  | .setDirectory i valid => modify fun s => { s with
      pdInvalid := if valid then s.pdInvalid.filter (· != i) else i :: s.pdInvalid.filter (· != i) }
  | .csSemaphore v => onRegs fun r => { r with brsync := v }
  | .vcsSemaphore v => onRegs fun r => { r with bvsync := v }
  | .flipDone plane async => do
    modify fun s => { s with flips := s.flips.filter fun f => f.plane != plane || f.async != async }
    onRegs fun r => { r with syncFlip := r.syncFlip &&& ~~~flipPendingBit plane.toNat async }
  | .tick n => onRegs fun r => { r with timestamp := r.timestamp + BitVec.ofNat 36 n }
  | .reset full => modify fun s => s.afterReset full

/-- What ends with the last step: the use of DWords read ahead that can run no more (R167), and the pulses of the ISR
(R422). -/
def beginStep : M Unit := do
  modify State.keepAhead
  dropPulses

/-- One step of the machine: what ends with the last one; then the next event of the schedule, or the default step. -/
def stepM : M Unit := do
  beginStep
  let s ← get
  match s.schedule with
  | [] => defaultStep
  | e :: es => do
    set { s with schedule := es }
    runEvent e

end Sys2Proof.Machine
end

