-- ==== Sys2Proof/Machine/Step.lean ====
section
/-! DEFINITION. The step function, and the state whose very next step runs a given instruction word. -/

namespace Sys2Proof.Machine

/-- One step: a next state, a fault, or a refusal. -/
def step (s : State) : Host.Outcome State Fault Refusal := M.outcome stepM s

/-- The physical cells of a list of DWords stored from a graphics address of the GGTT; where a page does not translate,
from the same physical address. -/
def fetchCells (s : State) : Nat → List Word → List Host.Cell
  | _, [] => []
  | a, w :: ws =>
    cellsAt (match s.translate .bcs .ggtt a false .fetch with
      | .ok p => p.addr
      | .error _ => a) (wordBytes w) ++ fetchCells s (a + 4) ws

/-- The state with an instruction word, numbered as the opcode table numbers it, stored at the start of an enabled 4 KB
ring whose head points at it and whose tail lies 1 KB behind it, the parser running, the engine idle, nothing
read ahead or scheduled: all that running it in the very next step takes (log 21). -/
def State.withFetchWord (s : State) (nbits w : Nat) : State :=
  let s' := { s with
    regs := { s.regs with
      head := 0
      tail := 0x400
      ctl := 1
      start := s.regs.start &&& 0x1FFFF000
      miMode := setBit s.regs.miMode 8 false
      instpm := setBit s.regs.instpm 5 false
      isr := s.regs.isr &&& ~~~pulseInts }
    parser := { s.parser with run := .running, inBatch := false }
    engine := { s.engine with run := .idle }
    readAhead := []
    schedule := [] }
  { s' with mem := Memory.writeAll s'.mem (fetchCells s' (s'.regs.start &&& 0xFFFFF000).toNat (tableWords nbits w)) }

end Sys2Proof.Machine
end

