-- ==== Sys2Proof/Safety.lean ====
section
/-! DEFINITION. The terms statements use: where `pc` goes, which accesses reach memory, what a legal drawing job is and
what it paints, when a step begins with a given command, and the invariant of the machine. -/

namespace Sys2Proof

/-! ## Commands as syntax -/

/-- The bits of DWord 0 that select a command: client and opcode (R180). -/
def Op.headerMask (o : Op) : Word := if o.isBlt then 0xFFC00000 else 0xFF800000

/-- The commands that write the setup set: the setup commands, and those that load a monochrome pattern of their own, after
which BR20S and BR21S are open (R22, D3). -/
def Instr.loadsSetup (i : Instr) : Bool :=
  i.op == .xySetupBlt || i.op == .xySetupMonoPatternSlBlt || i.op == .xySetupClipBlt || i.op == .xyMonoPatBlt ||
  i.op == .xyFullMonoPatternBlt || i.op == .xyFullMonoPatternMonoSrcBlt

end Sys2Proof

namespace Sys2Proof.Machine

/-! ## The advance of `pc` -/

/-- Moving `pc` on by `n` DWords stays in the batch buffer's address space and causes no automatic head report. -/
def State.canAdvance (s : State) (n : Nat) : Bool :=
  if s.parser.inBatch then decide (s.parser.batchAddr.toNat + 4 * n < 0x100000000)
  else !crossesReport s.regs.reportInterval s.regs.headOff n s.regs.ringSize

/-- The registers once the ring head has moved on by `n` DWords (R24, R371). -/
def Regs.moved (r : Regs) (n : Nat) : Regs := { r with head := advanceHead r.head r.ringSize n }.uhptrCheck

/-- The parser running with `pc` moved on by `n` DWords (R24). -/
def State.advanced (s : State) (n : Nat) : State :=
  if s.parser.inBatch then
    { s with parser := { s.parser with
        run := .running, batchAddr := s.parser.batchAddr + BitVec.ofNat 32 (4 * n) } }
  else { s with parser := { s.parser with run := .running }, regs := s.regs.moved n }

/-! ## Accesses of the parser -/

/-- The translation of an access of the parser, of the operand of an MI command unless another use is named, if it has
one. -/
def State.parserPhys (s : State) (sp : Space) (a : Nat) (write : Bool) (use : Use := .operand) : Option Phys :=
  (s.translate .bcs sp a write use).toOption

/-- The physical address of an access of the parser that translates. -/
def State.parserAddr (s : State) (sp : Space) (a : Nat) (write : Bool) (use : Use := .operand) : Nat :=
  ((s.parserPhys sp a write use).map Phys.addr).getD 0

/-- A write of the parser has been translated and has joined the FIFO (R155, R165). -/
def State.posting (s : State) (sp : Space) (a : Nat) (bytes : List Byte) (use : Use := .operand) : State :=
  let t := s.noteXlat .bcs sp a true use
  { t with posted := s.posted ++ [cellsAt (s.parserAddr sp a true use) bytes] }

/-- A read of the parser has been translated (R155). -/
def State.reading (s : State) (sp : Space) (a : Nat) (use : Use := .operand) : State := s.noteXlat .bcs sp a false use

/-- So have the reads of `n` command DWords from an address on. -/
def State.fetched (s : State) (sp : Space) : Nat → Nat → State
  | _, 0 => s
  | a, n + 1 => (s.reading sp a .fetch).fetched sp (a + 4) n

/-- The first `n` DWords of the command at `pc` have been fetched (R210). -/
def State.taken (s : State) (n : Nat) : State := s.fetched s.fetchPoint.space s.fetchPoint.addr n

/-- The DWord of memory the parser reads at an address that translates. -/
def State.memWord (s : State) (sp : Space) (a : Nat) (use : Use := .operand) : Word :=
  bytesWord (bytesAt (Memory.read s.mem) (s.parserAddr sp a false use) 4)

/-- The parser fetches these DWords from an address on. -/
def State.holdsAt (s : State) (sp : Space) : Nat → List Word → Bool
  | _, [] => true
  | a, w :: ws => (s.parserPhys sp a false .fetch).isSome && s.memWord sp a .fetch == w && s.holdsAt sp (a + 4) ws

/-! ## Interrupts -/

/-- Nothing is left from the last step that ends with it: no pulse bit of the ISR, and no DWord read ahead that can run no
more. -/
def State.quiet (s : State) : Bool := s.regs.isr &&& pulseInts == 0 && s.readAhead.all s.stillAhead

/-- A change of ISR bit `b` causes no hardware status write. -/
def State.silent (s : State) (b : Nat) : Bool := bit s.regs.hwstam b || bit s.regs.imr b

/-- The ISR and IIR once the ISR has become `new` (R421). -/
def Regs.withIsr (r : Regs) (new : Word) : Regs := { r with isr := new, iir := r.iir ||| (new &&& ~~~r.imr) }

/-- The ISR becoming `new` causes a hardware status write (R424). -/
def State.signals (s : State) (new : Word) : Bool := needsStatusWrite s.regs s.regs.isr new

/-- The ISR has become `new`, and where that causes a hardware status write the whole ISR is posted to its DWord of the status
page (R421, R424). -/
def State.signalled (s : State) (new : Word) (use : Use) : State :=
  { s with
    regs := s.regs.withIsr new
    posted := if s.signals new then
      s.posted ++ [cellsAt (s.parserAddr .ggtt s.regs.statusAddr true use) (wordBytes new)] else s.posted
    xlats := if s.signals new then (s.noteXlat .bcs .ggtt s.regs.statusAddr true use).xlats else s.xlats }

/-- The status write that the ISR becoming `new` causes, if it causes one, reaches memory. -/
def State.statusOpen (s : State) (new : Word) (use : Use) : Bool :=
  !s.signals new || (s.parserPhys .ggtt s.regs.statusAddr true use).isSome

/-- Where EIR and the level bits of the ISR have yet to follow their conditions: the EIR has (R425). -/
def State.withEir (s : State) : State := { s with regs := { s.regs with eir := eirOf s.regs } }

/-- EIR and the level bits of the ISR have followed their conditions, with the status write this causes, if it causes one
(R421, R424, R425). -/
def State.settled (s : State) : State := s.withEir.signalled (levels s.withEir.regs s.regs.isr) .event

/-- The status write that settling causes, if it causes one, reaches memory. -/
def State.settleOpen (s : State) : Bool := s.withEir.statusOpen (levels s.withEir.regs s.regs.isr) .event

/-- What a page fault records before the ISR changes (R430, R431): its GAB error bit and, when it hangs, that a fault is pending
and that the agent has hung. -/
def State.faulted (s : State) (a : Agent) (gab : Nat) (hangs : Bool) : State :=
  let r : Regs := { s.regs with gabErr := setBit s.regs.gabErr gab true }
  if hangs then
    match a with
    | .parser => { s with regs := { r with faultPending := true }, parser := { s.parser with run := .hung } }
    | .engine => { s with regs := { r with faultPending := true }, engine := { s.engine with run := .hung } }
  else { s with regs := r }

/-- A page fault that hangs (R430, R431): recorded, the agent hung, and ISR bit 29 standing. -/
def State.faultHung (s : State) (a : Agent) (gab : Nat) (use : Bool → Use) : State :=
  (s.faulted a gab true).signalled (setBit s.regs.isr 29 true) (use true)

/-- The status write of a page fault that hangs, if it causes one, reaches memory. -/
def State.faultHungOpen (s : State) (a : Agent) (gab : Nat) (use : Bool → Use) : Bool :=
  (s.faulted a gab true).statusOpen (setBit s.regs.isr 29 true) (use true)

/-- A page fault that goes on (R430), in its middle: recorded, and ISR bit 29 risen. -/
def State.faultRisen (s : State) (a : Agent) (gab : Nat) (use : Bool → Use) : State :=
  (s.faulted a gab false).signalled (setBit s.regs.isr 29 true) (use true)

/-- A page fault that goes on (R430): ISR bit 29 has risen and is again what the pending faults make it. -/
def State.faultPassed (s : State) (a : Agent) (gab : Nat) (use : Bool → Use) : State :=
  let r := s.faultRisen a gab use
  r.signalled (setBit r.regs.isr 29 r.regs.faultPending) (use false)

/-- The status writes of a page fault that goes on, if it causes any, reach memory. -/
def State.faultPassedOpen (s : State) (a : Agent) (gab : Nat) (use : Bool → Use) : Bool :=
  let r := s.faultRisen a gab use
  (s.faulted a gab false).statusOpen (setBit s.regs.isr 29 true) (use true) &&
    r.statusOpen (setBit r.regs.isr 29 r.regs.faultPending) (use false)

/-! ## Register writes -/

/-- The masked registers (R61) and the bits they have: EXCC, 22050h, MI_MODE, GAB_MODE, INSTPM, SWCTRL, BLT_MODE. Only the
bits whose mask bit is set change. -/
def Regs.writeMasked (r : Regs) (off : Nat) (w : Word) : Option Regs :=
  match off with
  | 0x22028 => some { r with excc := maskedWrite r.excc w 0x1F }
  | 0x22050 => some { r with r22050 := maskedWrite r.r22050 w 0xFFFF }
  | 0x2209C => some { r with miMode := maskedWrite r.miMode w 0xF9FD }
  | 0x220A0 => some { r with gabMode := maskedWrite r.gabMode w 0xFFFF }
  | 0x220C0 => some { r with instpm := maskedWrite r.instpm w 0xFFFF }
  | 0x22200 => some { r with swctrl := maskedWrite r.swctrl w 0x3 }
  | 0x2229C => some { r with bltMode := maskedWrite r.bltMode w 0x0200 }
  | _ => none

/-- The registers once the EIR and the level bits of the ISR follow their conditions (R421, R425). -/
def Regs.following (r : Regs) : Regs := { r with eir := eirOf r }.withIsr (levels { r with eir := eirOf r } r.isr)

/-- Following its conditions changes a bit of the ISR that causes a hardware status write (R424). -/
def Regs.followingWrites (r : Regs) : Bool := needsStatusWrite r r.isr (levels { r with eir := eirOf r } r.isr)

/-- The bits `impl` of an old value replaced by those of a written one. -/
def takeBits (old w impl : Word) : Word := (old &&& ~~~impl) ||| (w &&& impl)

/-- The interrupt masks and errors (R95, R98, R99): IMR takes the DWord, the EMR its low half, writing ones clears bits 15:1 of the EIR. -/
def Regs.writeErrors (r : Regs) (off : Nat) (w : Word) : Option Regs :=
  match off with
  | 0x220A8 => some { r with imr := w }
  | 0x220B0 => some { r with eir := r.eir &&& ~~~(w &&& 0xFFFE) }
  | 0x220B4 => some { r with emr := takeBits r.emr w 0xFFFF }
  | _ => none

/-- The plain read/write registers (R60, R61): HWS_PGA, TLBPEND_SEC0, the ring registers, BRSYNC, BVSYNC, HWSTAM, UHPTR,
CTR_THRSH, CXT_SIZE, PP_DCLV, SYNC_FLIP_STATUS, GAB_CTL. Their implemented bits take the DWord; reserved bits stay. The tail
may neither move back nor lie outside, and the head not be written, while the ring is enabled, BCS_HWSTAM may unmask one bit, and the condition
code select must exist; BCS_RING_BUFFER_CTL here without a one to RBWait. -/
def Regs.writePlain (r : Regs) (off : Nat) (w : Word) : Option Regs :=
  match off with
  | 0x04280 => some { r with hwsPga := takeBits r.hwsPga w 0xFFFFF000, hwsPgaWritten := true }
  | 0x22030 =>
    let t : Regs := { r with tail := takeBits r.tail w 0x001FFFF8 }
    if t.tailOutside || (bit r.ctl 0 && tailMovesBack r w) then none else some t
  | 0x22034 => if bit r.ctl 0 then none else some { r with head := takeBits r.head w 0xFFFFFFFC }
  | 0x22038 => some { r with start := takeBits r.start w 0xFFFFF000 }
  | 0x2203C =>
    let t : Regs := { r with ctl := takeBits r.ctl w 0x001FF007 }
    if bit w 11 || t.tailOutside then none else some t
  | 0x22040 => some { r with brsync := w }
  | 0x22044 => some { r with bvsync := w }
  | 0x22098 => if hwstamOk (w ||| ~~~definedInts) then some { r with hwstam := w ||| ~~~definedInts } else none
  | 0x22134 => some { r with uhptr := takeBits r.uhptr w 0xFFFFFFF9 }
  | 0x2217C => some { r with ctrThrsh := w }
  | 0x221A8 => some { r with cxtSize := takeBits r.cxtSize w 0x00001F00 }
  | 0x22220 => some { r with ppDclv := w }
  | 0x222D0 => if (field w 0 5).toNat < 6 then some { r with syncFlip := takeBits r.syncFlip w 0x77707FDF } else none
  | 0x24000 => some { r with gabCtl := takeBits r.gabCtl w 0x1FF }
  | _ =>
    if 0x04400 ≤ off ∧ off < 0x04500 then some { r with tlbpendSec0 := r.tlbpendSec0.setIfInBounds ((off - 0x04400) / 4) w }
    else none

/-- What a register write leaves, by a host write, MI_LOAD_REGISTER_IMM or MI_LOAD_REGISTER_MEM: a masked register, a plain
one, or an interrupt mask or error register when the bits that follow it cause no hardware status write. -/
def Regs.written (r : Regs) (off : Nat) (w : Word) : Option Regs :=
  match r.writeMasked off w, r.writePlain off w, r.writeErrors off w with
  | some r', _, _ => some r'
  | none, some r', _ => some r'
  | none, none, some r' => if r'.followingWrites then none else some r'.following
  | none, none, none => none

/-- The register writes the spec forbids (R87, R88, R90, R94, R103; 93 M9, U2, M20). -/
def Regs.writeRefused (r : Regs) (off : Nat) (w : Word) : Option Refusal :=
  match off with
  | 0x22030 =>
    if ({ r with tail := takeBits r.tail w 0x001FFFF8 } : Regs).tailOutside then some .tailOutside
    else if bit r.ctl 0 && tailMovesBack r w then some .tailBackwards else none
  | 0x2203C => if ({ r with ctl := takeBits r.ctl w 0x001FF007 } : Regs).tailOutside then some .tailOutside else none
  | 0x22034 => if bit r.ctl 0 then some .headWhileEnabled else none
  | 0x22098 => if hwstamOk (w ||| ~~~definedInts) then none else some .hwstamMask
  | 0x222D0 => if (field w 0 5).toNat < 6 then none else some .syncFlipSelect
  | _ => none

/-- The read-only registers (R60, R61): ESR, BB_ADDR, TIMESTAMP, GAB Error Reporting, and the debug registers of the TLBs and
of the pending translations. -/
def readOnlyReg (off : Nat) : Bool :=
  [0x220B8, 0x22140, 0x22358, 0x2235C, 0x24094, 0x24700, 0x24708, 0x24780, 0x24784, 0x24788, 0x2478C].contains off ||
  (decide (0x24500 ≤ off) && decide (off < 0x24600)) || (decide (0x24800 ≤ off) && decide (off < 0x24C00))

/-! ## A command about to run -/

/-- The next step takes the command `ws` at `pc`: nothing is scheduled, read ahead or due before it, the parser runs, the engine has
nothing to do, and the DWords are there. -/
def State.atCommand (s : State) (ws : List Word) : Bool :=
  s.schedule.isEmpty && s.readAhead.isEmpty && s.quiet && !s.syncFlushReady && s.ringEnabled && !bit s.regs.miMode 8 &&
  (s.parser.run == .running || s.parser.run == .idle || s.parser.run == .disabled || s.parser.run == .stopped) &&
  (s.parser.inBatch || (s.regs.ringOk && decide (s.regs.headOff ≠ s.regs.tailOff))) &&
  decide (ws.length ≤ s.fetchPoint.room) && s.holdsAt s.fetchPoint.space s.fetchPoint.addr ws

/-- The DWords are a whole command: their number is what DWord 0 announces, and legal (R181). -/
def wholeCommand (o : Op) (ws : List Word) : Bool :=
  decide (Op.ofHeader (ws.getD 0 0) = some o) && o.lengthOk (ws.getD 0 0) && decide (ws.length = o.dwords (ws.getD 0 0))

/-! ## Accesses of the engine -/

/-- The physical address of an operand access that translates. -/
def State.physAddr (s : State) (a : Int) (n : Nat) (write : Bool) (use : Use) : Nat :=
  ((s.phys a n write use).map Phys.addr).getD 0

/-- An operand access of the engine has been made: before it has happened what was to happen in the middle of the command (R162,
R165), and its translation is noted (R155). -/
def State.reached (s : State) (a : Int) (write : Bool) (use : Use) : State :=
  (s.midway use write).noteXlat .blb s.engine.space a.toNat write use

/-- What happens in the middle of a command, other than the render cache reaching memory, may change this byte: a store of the
host, or one of these posted writes. -/
def MidAct.disturbs (e : MidAct) (posted : List (List Host.Cell)) (a : Nat) : Bool :=
  match e with
  | .hostStore x _ => x == a
  | .drain => posted.any fun p => p.any fun c => c.1 == a
  | _ => false

/-- What is to happen in the middle of commands may change this byte. -/
def State.disturbs (s : State) (a : Nat) : Bool := s.midEvents.any fun e => e.act.disturbs s.posted a

/-- Whether the page of an operand access is cacheable. -/
def State.physCached (s : State) (a : Int) (n : Nat) (write : Bool) (use : Use) : Bool :=
  ((s.phys a n write use).map Phys.cacheable).getD false

/-! ## Legal jobs -/

/-- The alignment rules of an XY surface (R126, R132, R251). -/
def Surface.legal (f : Surface) (n : Nat) : Bool :=
  match f.tile with
  | none => f.base % n == 0 && f.pitch % 4 == 0
  | some .tileX => decide (0 ≤ f.pitch) && f.base % 4096 == 0 && f.pitch % 512 == 0
  | some .tileY => decide (0 ≤ f.pitch) && f.base % 4096 == 0 && f.pitch % 128 == 0

/-- The restrictions on the source operand (R126, R136). -/
def Job.sourceLegal (j : Job) : Bool :=
  match j.src with
  | .absent => true
  | .color f _ _ => f.legal (bpp j.depth)
  | .mono _ w _ _ _ _ _ _ => decide (w ≤ 32745)
  | .monoImm _ w _ _ _ _ _ _ => decide (w ≤ 32745)

/-- The raster operation uses only operands the command has (R224). -/
def Job.ropLegal (j : Job) : Bool :=
  (j.pat.isPresent || !(ropUses j.rop).p) && (j.src.isPresent || !(ropUses j.rop).s)

/-- A job of an XY command that draws, for a rectangle `height` lines high (R137, R224, R251, R258): what it breaks otherwise
is refused, or hangs the engine. -/
def Job.legal (j : Job) (height : Nat) : Bool :=
  j.ropLegal && (!j.src.isMono || decide (0 ≤ j.dst.pitch)) && j.dst.legal (bpp j.depth) && j.sourceLegal &&
  immediateOk j height && immediateFits j height

/-- A job of an XY command that is legal but for the amount of its immediate data (R137, R435). -/
def Job.wrongAmount (j : Job) (height : Nat) : Bool :=
  j.ropLegal && (!j.src.isMono || decide (0 ≤ j.dst.pitch)) && j.dst.legal (bpp j.depth) && j.sourceLegal &&
  !immediateOk j height

/-- The engine has hung, and with it the parser (R435). -/
def State.dataHung (s : State) : State :=
  { s with engine := { s.engine with run := .hung }, parser := { s.parser with run := .hung } }

/-! ## What a job paints -/

/-- The pattern operand of a pixel and its write enable (R230). -/
def Job.patternAt (j : Job) (s : State) (x y : Int) : Word × Bool :=
  let n := bpp j.depth
  let q := patPixel x y j.hseed j.vseed
  match j.pat with
  | .absent => (0, true)
  | .solid c => (c, true)
  | .memory addr =>
    if (ropUses j.rop).p then
      (bytesWord (bytesAt (s.midway (.pattern x y) false).textureRead
        (s.physAddr (addr + (8 * q.2 + q.1) * n) n false (.pattern x y)) n), true)
    else (0, true)
  | .immediate data => (bytesWord ((List.range n).map fun k => immByte data ((8 * q.2 + q.1) * n + k)), true)
  | .mono p0 p1 fg bg transparent => expand (monoPat p0 p1 q.1 q.2) fg bg transparent

/-- The source operand of a pixel and its write enable (R231). -/
def Job.sourceAt (j : Job) (s : State) (x y : Int) : Word × Bool :=
  let n := bpp j.depth
  match j.src with
  | .absent => (0, true)
  | .color f ox oy =>
    if (ropUses j.rop).s || sourceMode j.mode then
      (bytesWord (bytesAt (s.midway (.source x y) false).renderRead
        (s.physAddr (f.addr n (x + ox) (y + oy)) n false (.source x y)) n), true)
    else (0, true)
  | .mono l w addr x1 y1 fg bg transparent =>
    let k := l.bitIndex w (x - x1).toNat (y - y1).toNat
    if (ropUses j.rop).s || transparent then
      expand (bit (bytesWord (bytesAt (s.midway (.source x y) false).textureRead
        (s.physAddr (addr + (k / 8 : Nat)) 1 false (.source x y)) 1)) (7 - k % 8)) fg bg transparent
    else (0, true)
  | .monoImm l w data x1 y1 fg bg transparent =>
    let k := l.bitIndex w (x - x1).toNat (y - y1).toNat
    expand ((immByte data (k / 8)).getLsbD (7 - k % 8)) fg bg transparent

/-- The destination operand of a pixel, 0 where it is not read (R226). -/
def Job.destAt (j : Job) (s : State) (x y : Int) : Word :=
  let n := bpp j.depth
  if destRead j.rop j.mode then
    bytesWord (bytesAt (s.midway (.dest x y) false).renderRead (s.physAddr (j.dst.addr n x y) n false (.dest x y)) n) else 0

/-- Whether the source of a pixel is read from a cacheable page (R161). -/
def Job.sourceCached (j : Job) (s : State) (x y : Int) : Bool :=
  match j.src with
  | .color f ox oy =>
    ((ropUses j.rop).s || sourceMode j.mode) && s.physCached (f.addr (bpp j.depth) (x + ox) (y + oy)) (bpp j.depth) false
      (.source x y)
  | _ => false

/-- The pattern of a pixel can be read: in range, translated, not cacheable (R121, R161). -/
def Job.patternReady (j : Job) (s : State) (x y : Int) : Bool :=
  let n := bpp j.depth
  let q := patPixel x y j.hseed j.vseed
  match j.pat with
  | .memory addr =>
    !(ropUses j.rop).p || ((s.phys (addr + (8 * q.2 + q.1) * n) n false (.pattern x y)).isSome &&
      !s.physCached (addr + (8 * q.2 + q.1) * n) n false (.pattern x y))
  | _ => true

/-- The source of a pixel can be read (R121, R161). -/
def Job.sourceReady (j : Job) (s : State) (x y : Int) : Bool :=
  let n := bpp j.depth
  match j.src with
  | .color f ox oy =>
    !((ropUses j.rop).s || sourceMode j.mode) || ((s.phys (f.addr n (x + ox) (y + oy)) n false
        (.source x y)).isSome &&
      !(f.tile.isSome && s.physCached (f.addr n (x + ox) (y + oy)) n false (.source x y)))
  | .mono l w addr x1 y1 _ _ transparent =>
    let k := l.bitIndex w (x - x1).toNat (y - y1).toNat
    !((ropUses j.rop).s || transparent) || ((s.phys (addr + (k / 8 : Nat)) 1 false (.source x y)).isSome &&
      !s.physCached (addr + (k / 8 : Nat)) 1 false (.source x y))
  | _ => true

/-- The destination of a pixel can be accessed in one direction (R121, R161). -/
def Job.destOpen (j : Job) (s : State) (x y : Int) (write : Bool) : Bool :=
  let n := bpp j.depth
  let a := j.dst.addr n x y
  (s.phys a n write (.dest x y)).isSome && !(j.dst.tile.isSome && s.physCached a n write (.dest x y)) &&
    !(j.sourceCached s x y && s.physCached a n write (.dest x y))

/-- Every access of a pixel reaches memory it may reach; it is written only when the byte mask enables a byte (R241). -/
def Job.pixelReady (j : Job) (s : State) (p : Int × Int) : Bool :=
  j.patternReady s p.1 p.2 && j.sourceReady s p.1 p.2 &&
    (!destRead j.rop j.mode || j.destOpen s p.1 p.2 false) && (!j.writesBytes || j.destOpen s p.1 p.2 true)

/-- Every access of a job reaches memory it may reach. -/
def Job.ready (j : Job) (s : State) (px : List (Int × Int)) : Bool := px.all (j.pixelReady s)

/-- The bytes of memory the pattern of a pixel is read from, through the texture cache (R160). -/
def Job.patternBytes (j : Job) (s : State) (x y : Int) : List Nat :=
  let n := bpp j.depth
  let q := patPixel x y j.hseed j.vseed
  match j.pat with
  | .memory addr =>
    if (ropUses j.rop).p then
      (List.range n).map (s.physAddr (addr + (8 * q.2 + q.1) * n) n false (.pattern x y) + ·)
    else []
  | _ => []

/-- The byte of memory the monochrome source of a pixel is read from, through the texture cache (R160). -/
def Job.monoBytes (j : Job) (s : State) (x y : Int) : List Nat :=
  match j.src with
  | .mono l w addr x1 y1 _ _ transparent =>
    let k := l.bitIndex w (x - x1).toNat (y - y1).toNat
    if (ropUses j.rop).s || transparent then
      (List.range 1).map (s.physAddr (addr + (k / 8 : Nat)) 1 false (.source x y) + ·)
    else []
  | _ => []

/-- The pattern of a pixel has been read, where it is in memory and used; what the texture cache may keep is noted (R162). -/
def Job.afterPattern (j : Job) (s : State) (x y : Int) : State :=
  let n := bpp j.depth
  let q := patPixel x y j.hseed j.vseed
  match j.pat with
  | .memory addr =>
    if (ropUses j.rop).p then
      (s.reached (addr + (8 * q.2 + q.1) * n) false (.pattern x y)).noteTexture (j.patternBytes s x y)
    else s
  | _ => s

/-- The source of a pixel has been read, where it is in memory and used (R255). -/
def Job.afterSource (j : Job) (s : State) (x y : Int) : State :=
  let n := bpp j.depth
  match j.src with
  | .color f ox oy =>
    if (ropUses j.rop).s || sourceMode j.mode then s.reached (f.addr n (x + ox) (y + oy)) false (.source x y) else s
  | .mono l w addr x1 y1 _ _ transparent =>
    let k := l.bitIndex w (x - x1).toNat (y - y1).toNat
    if (ropUses j.rop).s || transparent then
      (s.reached (addr + (k / 8 : Nat)) false (.source x y)).noteTexture (j.monoBytes s x y)
    else s
  | _ => s

/-- The destination of a pixel has been read, where it is used (R226). -/
def Job.afterDest (j : Job) (s : State) (x y : Int) : State :=
  if destRead j.rop j.mode then s.reached (j.dst.addr (bpp j.depth) x y) false (.dest x y) else s

/-- The operands of a pixel have been read, in the order of R255. -/
def Job.noted (j : Job) (s : State) (x y : Int) : State := j.afterDest (j.afterSource (j.afterPattern s x y) x y) x y

/-- The bytes of one pixel go to the render cache; an overlapped byte is a free value (R241, R486). -/
def putPixel (overlapped : Nat → Nat → Bool) (a phys : Nat) (enabled : Nat → Bool) (v : Word) : List Nat → State → State
  | [], s => s
  | k :: ks, s => putPixel overlapped a phys enabled v ks
      (if enabled k then
        if overlapped (a + k) (phys + k) then
          { s.renderWrite (phys + k) (Config.freeByte s.freeCount) with freeCount := s.freeCount + 1 }
        else s.renderWrite (phys + k) (byteOf v k)
      else s)

/-- The operands of a pixel, each as it is when it is read (R255): the pattern, the source and its write enables, the
destination. -/
def Job.operandsAt (j : Job) (s : State) (x y : Int) : (Word × Bool) × (Word × Bool) × Word :=
  (j.patternAt s x y, j.sourceAt (j.afterPattern s x y) x y, j.destAt (j.afterSource (j.afterPattern s x y) x y) x y)

/-- Whether a pixel is written: no transparency and no range mode keeps it (R225, R245). -/
def Job.enabledAt (j : Job) (s : State) (x y : Int) : Bool :=
  let o := j.operandsAt s x y
  o.2.1.2 && o.1.2 && rangeEnable j.depth j.mode j.lo j.hi o.2.1.1 o.2.2

/-- What a pixel becomes (R222, R255). -/
def Job.resultAt (j : Job) (s : State) (x y : Int) : Word :=
  let o := j.operandsAt s x y
  rop3 j.rop o.1.1 o.2.1.1 o.2.2

/-- One pixel, fully (R255); one whose mask enables no byte is not written (R241). -/
def Job.paintPixel (j : Job) (overlapped : Nat → Nat → Bool) (s : State) (p : Int × Int) : State :=
  let n := bpp j.depth
  let a := j.dst.addr n p.1 p.2
  if j.enabledAt s p.1 p.2 && j.writesBytes then
    putPixel overlapped a.toNat (s.physAddr a n true (.dest p.1 p.2)) (byteEnable j.depth j.mask) (j.resultAt s p.1 p.2)
      (List.range n) ((j.noted s p.1 p.2).reached a true (.dest p.1 p.2))
  else j.noted s p.1 p.2

/-- The pixels of a job one after the other, each fully before the next (R252). -/
def Job.paint (j : Job) (overlapped : Nat → Nat → Bool) (s : State) (px : List (Int × Int)) : State :=
  px.foldl (j.paintPixel overlapped) s

/-- The pixels of an XY command: its region (R250) in the order of R252. -/
def drawnPixels (b : Box) (clip : Option Box) (xBack yBack : Bool) : List (Int × Int) :=
  if (region b clip).isEmpty then [] else pixels (region b clip) xBack yBack

/-- The state an XY job leaves (R256). -/
def Job.drawn (j : Job) (px : List (Int × Int)) (s : State) : State := j.paint (overlapOf j conformingXY px s) s px

/-- A job of a linear command that the spec gives a meaning: width and height in 13 bits (log 17), everything aligned to
whole pixels and the pitch to DWords (R39, R126, R224, R257). -/
def Job.linearLegal (j : Job) (height width : BitVec 16) : Bool :=
  j.ropLegal && decide (height.toNat ≤ 0x1FFF) && decide (width.toNat ≤ 0x1FFF) &&
  (height == 0 || width == 0 ||
    (width.toNat % bpp j.depth == 0 && j.dst.base % bpp j.depth == 0 && j.dst.pitch % 4 == 0))

/-- The pixels of a linear command: line after line, `width` bytes each (R257). -/
def linearPixels (depth : Depth) (height width : BitVec 16) (xBack : Bool) : List (Int × Int) :=
  if height = 0 ∨ width = 0 then []
  else pixels ⟨0, 0, (width.toNat / bpp depth : Nat), height.toNat⟩ xBack false

/-- The state a linear job leaves (R257). -/
def Job.linearDrawn (j : Job) (px : List (Int × Int)) (s : State) : State :=
  j.paint (overlapOf j conformingLinear px s) s px

/-- The height of a rectangle in lines before clipping; 0 when it is inverted. -/
def rectHeight (r : Rect) : Nat := (r.y2.toInt - r.y1.toInt).toNat

/-- The height of a copy's rectangle once its corner has moved. -/
def copyHeight (r : Rect) (c : ColorSrc) : Nat := ((copyBox r c).bottom - (copyBox r c).top).toNat

/-- The pixels of a copy: within one surface from the far corner when the source lies before the destination (R252). -/
def copyPixels (d : Draw) (c : ColorSrc) (u : Setup) : List (Int × Int) :=
  drawnPixels (copyBox d.rect c) (clipOf u d.clip) (copyBackX d c) (copyBackY d c)

/-- The state after a command has loaded a monochrome pattern of its own: BR20S and BR21S are two free values (D3). -/
def State.patternLoaded (s : State) : State :=
  { s with
    setup := { s.setup with br20 := Config.freeWord s.freeCount, br21 := Config.freeWord (s.freeCount + 1) }
    freeCount := s.freeCount + 2 }

/-- The physical bytes the pixels of a job lie in. -/
def Job.footprint (j : Job) (s : State) (px : List (Int × Int)) (a : Nat) : Bool :=
  px.any fun p => decide (s.physAddr (j.dst.addr (bpp j.depth) p.1 p.2) (bpp j.depth) true (.dest p.1 p.2) ≤ a) &&
    decide (a < s.physAddr (j.dst.addr (bpp j.depth) p.1 p.2) (bpp j.depth) true (.dest p.1 p.2) + bpp j.depth)

/-- A job writes this byte: one of the bytes its mask enables of a pixel whose write has a translation (R150, R241). -/
def Job.writes (j : Job) (s : State) (px : List (Int × Int)) (a : Nat) : Bool :=
  px.any fun p =>
    match s.phys (j.dst.addr (bpp j.depth) p.1 p.2) (bpp j.depth) true (.dest p.1 p.2) with
    | some q => (List.range (bpp j.depth)).any fun k => byteEnable j.depth j.mask k && decide (q.addr + k = a)
    | none => false

/-- The destination of a BLT command: a job with its surface, depth and mask, and its pixels. The setup commands draw
nothing (R290 to R292), nor does an MI command. -/
def State.target (s : State) (i : Instr) : Option (Job × List (Int × Int)) :=
  let at' (tiled : Bool) (b : Box) : Option (Job × List (Int × Int)) :=
    some (setupJob s.setup s.regs.swctrl tiled, drawnPixels b (clipOf s.setup (bit s.setup.br01 30)) false false)
  let draw (d : Draw) : Option (Job × List (Int × Int)) :=
    some (drawJob d s.regs.swctrl, drawnPixels (rectBox d.rect) (clipOf s.setup d.clip) false false)
  let copy (d : Draw) (c : ColorSrc) : Option (Job × List (Int × Int)) :=
    some (drawJob d s.regs.swctrl, copyPixels d c s.setup)
  match i with
  | .colorBlt _ mask pen height width dst _ => some (linearJob pen mask dst.toNat, linearPixels pen.depth height width false)
  | .srcCopyBlt _ mask xdir pen height width dst _ _ =>
    some (linearJob pen mask (dst.toNat - if xdir then (width.toNat : Int) - 1 else 0), linearPixels pen.depth height width xdir)
  | .xyPixelBlt _ tiled x y => at' tiled ⟨x.toInt, y.toInt, x.toInt + 1, y.toInt + 1⟩
  | .xyScanlinesBlt _ tiled _ r | .xyTextBlt _ tiled _ r _ | .xyTextImmediateBlt _ tiled _ r _ => at' tiled (rectBox r)
  | .xyColorBlt _ d _ | .xyPatBlt _ d _ _ | .xyPatChromaBlt _ d _ _ _ _ _ | .xyPatBltImmediate _ d _ _
  | .xyPatChromaBltImmediate _ d _ _ _ _ _ | .xyMonoPatBlt _ d _ _ _ _ _ _ | .xyMonoPatFixedBlt _ d _ _ _ _ _
  | .xyMonoSrcCopyBlt _ d _ _ _ _ _ | .xyMonoSrcCopyImmediateBlt _ d _ _ _ _ _ | .xyFullMonoSrcBlt _ d _ _ _ _ _ _ _
  | .xyFullMonoSrcImmediatePatternBlt _ d _ _ _ _ _ _ _ | .xyFullMonoPatternMonoSrcBlt _ d _ _ _ _ _ _ _ _ _ _ _ _ => draw d
  | .xySrcCopyBlt _ d c | .xySrcCopyChromaBlt _ d _ c _ _ | .xyFullBlt _ d _ c _ | .xyFullImmediatePatternBlt _ d _ c _
  | .xyFullMonoPatternBlt _ d _ _ _ c _ _ _ _ => copy d c
  | .xySetupBlt .. | .xySetupMonoPatternSlBlt .. | .xySetupClipBlt .. => none
  | .miNoop .. | .miUserInterrupt | .miWaitForEvent .. | .miArbCheck | .miReportHead | .miBatchBufferEnd | .miSuspendFlush ..
  | .miDisplayFlip .. | .miSemaphoreMbox .. | .miStoreDataImm .. | .miStoreDataIndex .. | .miLoadRegisterImm ..
  | .miUpdateGtt .. | .miStoreRegisterMem .. | .miFlushDw .. | .miLoadRegisterMem .. | .miBatchBufferStart .. => none

/-- The bytes of memory a BLT command may write, through the render cache. -/
def State.draws (s : State) (i : Instr) (a : Nat) : Bool :=
  match s.target i with
  | some (j, px) => j.writes s px a
  | none => false

/-- A status write of a page fault of the engine (R424, R430): an access of the engine has no translation, a change of ISR
bit 29 is not masked, and the ISR with that bit risen or fallen goes to its DWord of the status page. -/
def State.faultWrite (s : State) (cells : List Host.Cell) : Prop :=
  ∃ (rise : Bool) (a : Nat) (write : Bool) (of : Use),
    (s.translate .blb s.engine.space a write of).toOption = none ∧ s.silent 29 = false ∧
    (s.parserPhys .ggtt s.regs.statusAddr true (.fault rise a write of)).isSome ∧
    cells = cellsAt (s.parserAddr .ggtt s.regs.statusAddr true (.fault rise a write of)) (wordBytes (setBit s.regs.isr 29 rise))

/-! ## The invariant -/

/-- The reserved bits of the registers read as the spec says (R61, R94): zero, one in BCS_HWSTAM. -/
def Regs.reservedOk (r : Regs) : Bool :=
  r.hwsPga &&& 0x00000FFF == 0 && r.excc &&& 0xFFFFFFE0 == 0 && r.tail &&& 0xFFE00007 == 0 && r.head &&& 3 == 0 &&
  r.start &&& 0x00000FFF == 0 && r.ctl &&& 0xFFE003F8 == 0 && r.r22050 &&& 0xFFFF0000 == 0 &&
  r.hwstam ||| definedInts == 0xFFFFFFFF && r.miMode &&& 0xFFFF0602 == 0 && r.gabMode &&& 0xFFFF0000 == 0 &&
  r.eir &&& 0xFFFF0000 == 0 && r.emr &&& 0xFFFF0000 == 0 && r.esr &&& 0xFFFFFFFE == 0 && r.instpm &&& 0xFFFF0000 == 0 &&
  r.uhptr &&& 0x00000006 == 0 && r.cxtSize &&& 0xFFFFE0FF == 0 && r.swctrl &&& 0xFFFFFFFC == 0 &&
  r.bltMode &&& 0xFFFFFDFF == 0 && r.syncFlip &&& 0x888F8020 == 0 && r.gabCtl &&& 0xFFFFFE00 == 0 &&
  r.gabErr &&& 0xFFFFFF63 == 0 && r.isr &&& ~~~definedInts == 0 && r.iir &&& ~~~definedInts == 0

/-- The level bits of the ISR follow their conditions (R421, R426, R430). -/
def Regs.levelsOk (r : Regs) : Bool := bit r.isr 25 == (r.eir != 0) && bit r.isr 29 == r.faultPending

/-- A wait state holds a command of its own kind (R27), and the engine only BLT commands (R28). -/
def State.heldOk (s : State) : Bool :=
  (match s.parser.run with
    | .waitEvent i => i.op == .miWaitForEvent
    | .waitSemaphore i => i.op == .miSemaphoreMbox
    | .waitFlush i => i.op == .miFlushDw
    | .waitRead i => i.op == .miStoreRegisterMem || i.op == .miLoadRegisterMem
    | _ => true) &&
  (match s.engine.run with
    | .pending i => i.op.isBlt
    | _ => true)

/-- Of a byte with an earlier write in the render cache the last one is there too (R162). -/
def State.rcOk (s : State) : Bool := s.rcPast.all fun c => (lookup s.rc c.1).isSome

/-- The invariant: memory, caches and page tables in canonical form, reserved bits as specified, level bits at their
conditions, `pc` DWord aligned, held commands of the right kind, the tail of an enabled ring inside it (R87). -/
def State.inv (s : State) : Bool :=
  Memory.wf s.mem && sorted s.rc && s.rcOk && sorted s.tc && sorted s.tcRead && sorted s.ggtt && sorted s.ppgtt &&
  s.regs.reservedOk && s.regs.levelsOk && s.parser.batchAddr &&& 3 == 0 && s.heldOk && !s.regs.tailOutside

end Sys2Proof.Machine
end

