-- ==== Sys2Proof/Certificates/Slice0/Obligations.lean ====
section
/-! DEFINITION. The statements for the provers: what each command does and leaves alone, where it stops, how the machine
runs commands, takes its exceptions and resets, and the headline properties. -/

open Sys2Proof Sys2Proof.Machine

/-! ## Drawing commands -/

/-- COLOR_BLT (R280). For a legal fill (R224, R257) whose accesses reach memory, the command completes: BR00, BR13, BR14,
BR09 and BR16 are loaded, and every pixel becomes the raster operation of the colour and its old value, in order, under
the byte mask; nothing else changes. The model's choices: the bytes the mask gates (log 8), 13 bits of height and width
(log 17), BR09 and BR14 as loaded (log 41), and the pitch a multiple of 4 as R126 has it (log 47). -/
def Obligations.ColorBltDraws : Prop :=
  ∀ (len : BitVec 8) (mask : BitVec 2) (pen : Pen) (height width : BitVec 16) (dst color : Word) (s : State),
    let j : Job := { linearJob pen mask dst.toNat with pat := .solid color }
    let px := linearPixels pen.depth height width false
    width.toNat % bpp pen.depth = 0 → dst.toNat % bpp pen.depth = 0 → pen.pitch.toInt % 4 = 0 →
    j.linearLegal height width → j.ready s px →
    exec (.colorBlt len mask pen height width dst color) s = .next (j.linearDrawn px { s with
      br := { s.br.withLinear .colorBlt pen mask false height width dst with br16 := color } })

/-- SRC_COPY_BLT (R281). With X Direction 1 the addresses name the last byte of the first line (D24): both surfaces begin
`width - 1` bytes lower and each line is walked backwards; BR13 bit 30 is the X Direction (R38). The source pitch is a
multiple of 4 (R281), the source as aligned as the destination (R257). For every such command whose accesses reach memory
it completes. The model's choices: an overlap at one address with pitches of multiples of 64 bytes is done pixel by pixel; one
at different addresses either so too, as R281 has it, or the destination bytes in the source region are free values, as R486
has it, which of the two being open (`Config.linearOverlapInOrder`, log 15); in any other they are free values; the bytes the
mask gates (log 8), 13 bits of height and width (log 17), BR09 and BR14 as loaded (log 41), the pitches multiples of 4
(log 47). -/
def Obligations.SrcCopyBltDraws : Prop :=
  ∀ (len : BitVec 8) (mask : BitVec 2) (xdir : Bool) (pen : Pen) (height width : BitVec 16) (dst : Word)
    (spitch : BitVec 16) (src : Word) (s : State),
    let back : Int := if xdir then (width.toNat : Int) - 1 else 0
    let j : Job := { linearJob pen mask (dst.toNat - back) with
      src := .color ⟨none, src.toNat - back, spitch.toInt⟩ 0 0 }
    let px := linearPixels pen.depth height width xdir
    spitch.toInt % 4 = 0 → (height = 0 ∨ width = 0 ∨ (src.toNat - back) % bpp pen.depth = 0) →
    j.linearLegal height width → j.ready s px →
    exec (.srcCopyBlt len mask xdir pen height width dst spitch src) s = .next (j.linearDrawn px { s with
      br := { s.br.withLinear .srcCopyBlt pen mask xdir height width dst with br11 := put 0 0 spitch, br12 := src } }) ∧
    bit (s.br.withLinear .srcCopyBlt pen mask xdir height width dst).br13 30 = xdir

/-- The three setup commands (R290 to R292) complete in every state and load the setup set from their DWords, and BR00;
nothing else changes. XY_SETUP_CLIP_BLT changes the clip rectangle alone. -/
def Obligations.SetupLoads : Prop :=
  (∀ (len : BitVec 8) (mask : BitVec 2) (tiled clip transp : Bool) (pen : Pen) (r : Clip) (base bg fg pat : Word)
    (s : State),
    exec (.xySetupBlt len mask tiled clip transp pen r base bg fg pat) s = .next { s with
      br := { s.br with br00 := { br00Of .xySetupBlt clip false with mask := mask, dstTiled := tiled } }
      setup := { s.setup with
        br01 := latchPen pen mask false clip transp false
        br24 := clipWord r.x1 r.y1
        br25 := clipWord r.x2 r.y2
        br09 := base
        br05 := bg
        br06 := fg
        br07 := pat
        monoPattern := false } }) ∧
  (∀ (len : BitVec 8) (mask : BitVec 2) (tiled solid clip transp : Bool) (pen : Pen) (r : Clip)
    (base bg fg p0 p1 : Word) (s : State),
    exec (.xySetupMonoPatternSlBlt len mask tiled solid clip transp pen r base bg fg p0 p1) s = .next { s with
      br := { s.br with br00 := { br00Of .xySetupMonoPatternSlBlt clip false with mask := mask, dstTiled := tiled } }
      setup := { s.setup with
        br01 := latchPen pen mask solid clip false transp
        br24 := clipWord r.x1 r.y1
        br25 := clipWord r.x2 r.y2
        br09 := base
        br05 := bg
        br06 := fg
        br20 := p0
        br21 := p1
        monoPattern := true } }) ∧
  (∀ (len : BitVec 8) (tiled : Bool) (r : Clip) (s : State),
    exec (.xySetupClipBlt len tiled r) s = .next { s with
      br := { s.br with br00 := { br00Of .xySetupClipBlt false false with dstTiled := tiled } }
      setup := { s.setup with br24 := clipWord r.x1 r.y1, br25 := clipWord r.x2 r.y2 } })

/-- XY_PIXEL_BLT (R293): the one pixel (x, y), in the colour BR05, with depth, raster operation, pitch, mask and clip
enable from BR01 and the base from BR09S. The bytes the mask gates are the model's choice (log 8). -/
def Obligations.XyPixelBltDraws : Prop :=
  ∀ (len : BitVec 8) (tiled : Bool) (x y : BitVec 16) (s : State),
    let j : Job := { setupJob s.setup s.regs.swctrl tiled with pat := .solid s.setup.br05 }
    let px := drawnPixels ⟨x.toInt, y.toInt, x.toInt + 1, y.toInt + 1⟩ (clipOf s.setup (bit s.setup.br01 30)) false false
    0 ≤ (setupPen s.setup).pitch.toInt → j.legal 1 → j.ready s px →
    exec (.xyPixelBlt len tiled x y) s = .next (j.drawn px { s with
      br := { s.br.withDependent s.setup .xyPixelBlt tiled false with br22 := pointWord x y } })

/-- XY_SCANLINES_BLT (R294): a pattern fill with the monochrome pattern of the setup set, the background for a Solid
Pattern Select, or the colour pattern BR07 names. The model's choices: the bytes the mask gates (log 8); a colour pattern in
memory that overlaps the destination is read like any other (log 43); the destination of a transparent pixel is read as R255
has it (log 51). -/
def Obligations.XyScanlinesBltDraws : Prop :=
  ∀ (len : BitVec 8) (tiled : Bool) (seeds : Seeds) (r : Rect) (s : State),
    let j : Job := { setupJob s.setup s.regs.swctrl tiled with
      pat := scanlinePattern s.setup, hseed := seeds.h.toNat, vseed := seeds.v.toNat }
    let px := drawnPixels (rectBox r) (clipOf s.setup (bit s.setup.br01 30)) false false
    (s.setup.monoPattern ∨ patAddr s.setup.br07 % (64 * bpp (setupPen s.setup).depth) = 0) →
    j.legal (rectHeight r) → j.ready s px →
    exec (.xyScanlinesBlt len tiled seeds r) s = .next (j.drawn px { s with
      br := (((s.br.withDependent s.setup .xyScanlinesBlt tiled false).withRect r).withSeeds seeds.h seeds.v).withPatternKind
        s.setup.monoPattern })

/-- XY_TEXT_BLT and XY_TEXT_IMMEDIATE_BLT (R295, R296): a monochrome source, bit or byte packed, in the colours BR06 and
BR05, transparent as BR01 bit 29 says. The model's choices: the bytes the mask gates (log 8); a source in memory that overlaps
the destination is read like any other (log 43); an immediate source of more than 128 bytes does not draw (log 42); the
destination of a transparent pixel is read as R255 has it (log 51). -/
def Obligations.XyTextDraws : Prop :=
  (∀ (len : BitVec 8) (tiled packed : Bool) (r : Rect) (src : Word) (s : State),
    let j : Job := { setupJob s.setup s.regs.swctrl tiled with
      src := .mono (if packed then .bytePacked else .bitPacked) (rectWidth r) src.toNat r.x1.toInt r.y1.toInt
        s.setup.br06 s.setup.br05 (bit s.setup.br01 29) }
    let px := drawnPixels (rectBox r) (clipOf s.setup (bit s.setup.br01 30)) false false
    j.legal (rectHeight r) → j.ready s px →
    exec (.xyTextBlt len tiled packed r src) s = .next (j.drawn px { s with
      br := { (s.br.withDependent s.setup .xyTextBlt tiled packed).withRect r with br12 := src } })) ∧
  (∀ (len : BitVec 8) (tiled packed : Bool) (r : Rect) (data : List Word) (s : State),
    let j : Job := { setupJob s.setup s.regs.swctrl tiled with
      src := .monoImm (if packed then .bytePacked else .bitPacked) (rectWidth r) data r.x1.toInt r.y1.toInt
        s.setup.br06 s.setup.br05 (bit s.setup.br01 29) }
    let px := drawnPixels (rectBox r) (clipOf s.setup (bit s.setup.br01 30)) false false
    j.legal (rectHeight r) → j.ready s px →
    exec (.xyTextImmediateBlt len tiled packed r data) s = .next (j.drawn px { s with
      br := (s.br.withDependent s.setup .xyTextImmediateBlt tiled packed).withRect r }))

/-- XY_COLOR_BLT (R310): a rectangle in one colour, in the region of R250 (D22), pixel by pixel as R255 and R256 have it,
under the byte mask (R241), whose bytes are the model's choice (log 8); BR09 stays as loaded (log 41). -/
def Obligations.XyColorBltDraws : Prop :=
  ∀ (len : BitVec 8) (d : Draw) (color : Word) (s : State),
    let j : Job := { drawJob d s.regs.swctrl with pat := .solid color }
    let px := drawnPixels (rectBox d.rect) (clipOf s.setup d.clip) false false
    j.legal (rectHeight d.rect) → j.ready s px →
    exec (.xyColorBlt len d color) s = .next (j.drawn px { s with
      br := { s.br.withDraw .xyColorBlt d 0 false false false with br16 := color } })

/-- XY_PAT_BLT and XY_PAT_CHROMA_BLT (R311, R312): an 8x8 colour pattern in memory; the second one, in modes
101b and 111b, only where the destination lies in the key range (R245). The model's choices: the places of the colour
components and of the bytes the mask gates (log 8); modes xx0b write every pixel (log 27); BR09, a working register (R35),
keeps its DWord (log 41); a pattern that overlaps the destination is read like any other (log 43). -/
def Obligations.XyPatternMemoryDraws : Prop :=
  (∀ (len : BitVec 8) (d : Draw) (seeds : Seeds) (pat : Word) (s : State),
    let j : Job := { drawJob d s.regs.swctrl with
      pat := .memory (patAddr pat), hseed := seeds.h.toNat, vseed := seeds.v.toNat }
    let px := drawnPixels (rectBox d.rect) (clipOf s.setup d.clip) false false
    patAddr pat % (64 * bpp d.pen.depth) = 0 → j.legal (rectHeight d.rect) → j.ready s px →
    exec (.xyPatBlt len d seeds pat) s = .next (j.drawn px { s with
      br := { (s.br.withDraw .xyPatBlt d 0 false false false).withSeeds seeds.h seeds.v with br15 := pat } })) ∧
  (∀ (len : BitVec 8) (d : Draw) (mode : BitVec 3) (seeds : Seeds) (pat lo hi : Word) (s : State),
    let j : Job := { drawJob d s.regs.swctrl with
      pat := .memory (patAddr pat), hseed := seeds.h.toNat, vseed := seeds.v.toNat, mode := mode, lo := lo, hi := hi }
    let px := drawnPixels (rectBox d.rect) (clipOf s.setup d.clip) false false
    chromaPatModeOk mode → patAddr pat % (64 * bpp d.pen.depth) = 0 → j.legal (rectHeight d.rect) → j.ready s px →
    exec (.xyPatChromaBlt len d mode seeds pat lo hi) s = .next (j.drawn px { s with
      br := { (s.br.withDraw .xyPatChromaBlt d mode false false false).withSeeds seeds.h seeds.v with br15 := pat, br18 := lo, br19 := hi } }))

/-- XY_PAT_BLT_IMMEDIATE and XY_PAT_CHROMA_BLT_IMMEDIATE (R313, R314): the pattern is the immediate data; the
second one, in modes 101b and 111b, writes only where the destination lies in the key range (R245). The model's choices:
the places of the colour components and of the bytes the mask gates (log 8); modes xx0b write every pixel (log 27); BR09, a
working register (R35), keeps its DWord (log 41). -/
def Obligations.XyPatternImmediateDraws : Prop :=
  (∀ (len : BitVec 8) (d : Draw) (seeds : Seeds) (data : List Word) (s : State),
    let j : Job := { drawJob d s.regs.swctrl with
      pat := .immediate data, hseed := seeds.h.toNat, vseed := seeds.v.toNat }
    let px := drawnPixels (rectBox d.rect) (clipOf s.setup d.clip) false false
    j.legal (rectHeight d.rect) → j.ready s px →
    exec (.xyPatBltImmediate len d seeds data) s = .next (j.drawn px { s with
      br := (s.br.withDraw .xyPatBltImmediate d 0 false false false).withSeeds seeds.h seeds.v })) ∧
  (∀ (len : BitVec 8) (d : Draw) (mode : BitVec 3) (seeds : Seeds) (lo hi : Word) (data : List Word) (s : State),
    let j : Job := { drawJob d s.regs.swctrl with
      pat := .immediate data, hseed := seeds.h.toNat, vseed := seeds.v.toNat, mode := mode, lo := lo, hi := hi }
    let px := drawnPixels (rectBox d.rect) (clipOf s.setup d.clip) false false
    chromaPatModeOk mode → j.legal (rectHeight d.rect) → j.ready s px →
    exec (.xyPatChromaBltImmediate len d mode seeds lo hi data) s = .next (j.drawn px { s with
      br := { (s.br.withDraw .xyPatChromaBltImmediate d mode false false false).withSeeds seeds.h seeds.v with br18 := lo, br19 := hi } }))

/-- XY_MONO_PAT_BLT and XY_MONO_PAT_FIXED_BLT (R315, R316): an 8x8 monochrome pattern in two colours, from the command or
one of the ten fixed ones. The model's choices: after XY_MONO_PAT_BLT, BR20S and BR21S are two free values (R22, D3,
log 16); XY_MONO_PAT_FIXED_BLT loads BR20 and BR21 as R45 says, not R316 (log 48); the bytes the mask gates (log 8); BR09, a
working register (R35), keeps its DWord (log 41); the destination of a transparent pixel is read as R255 has it (log 51). -/
def Obligations.XyMonoPatternDraws : Prop :=
  (∀ (len : BitVec 8) (d : Draw) (transp : Bool) (seeds : Seeds) (bg fg p0 p1 : Word) (s : State),
    let j : Job := { drawJob d s.regs.swctrl with
      pat := .mono p0 p1 fg bg transp, hseed := seeds.h.toNat, vseed := seeds.v.toNat }
    let px := drawnPixels (rectBox d.rect) (clipOf s.setup d.clip) false false
    j.legal (rectHeight d.rect) → j.ready s px →
    exec (.xyMonoPatBlt len d transp seeds bg fg p0 p1) s = .next (j.drawn px (State.patternLoaded { s with
      br := { (s.br.withDraw .xyMonoPatBlt d 0 false false transp).withSeeds seeds.h seeds.v with
        br16 := bg, br17 := fg, br20 := p0, br21 := p1 } }))) ∧
  (∀ (len : BitVec 8) (d : Draw) (transp : Bool) (fixed : BitVec 4) (seeds : Seeds) (bg fg : Word) (s : State),
    let j : Job := { drawJob d s.regs.swctrl with
      pat := .mono (fixedPattern fixed).1 (fixedPattern fixed).2 fg bg transp
      hseed := seeds.h.toNat, vseed := seeds.v.toNat }
    let px := drawnPixels (rectBox d.rect) (clipOf s.setup d.clip) false false
    fixedPatternOk fixed → j.legal (rectHeight d.rect) → j.ready s px →
    exec (.xyMonoPatFixedBlt len d transp fixed seeds bg fg) s = .next (j.drawn px { s with
      br := { (s.br.withDraw .xyMonoPatFixedBlt d 0 false false transp).withSeeds seeds.h seeds.v with
        br16 := bg, br17 := fg, br20 := (fixedPattern fixed).1, br21 := (fixedPattern fixed).2 } }))

/-- XY_SRC_COPY_BLT and XY_SRC_COPY_CHROMA_BLT (R330, R331): a colour source, walked in the direction of R252; the second
one writes only where the key range allows (R245). The model's choices: an overlap, by graphics or by physical addresses, that
does not conform puts free values into the destination bytes of the source region (R486); whether one of the same base but
different pitches or layouts conforms is open (`Config.pitchOverlapInOrder`, log 15); the places of the colour components and
of the bytes the mask gates (log 8); modes xx0b write every pixel (log 27); BR09, a working register (R35), keeps its DWord
(log 41); the destination of a pixel the key range keeps is read as R255 has it (log 51). -/
def Obligations.XySourceCopyDraws : Prop :=
  (∀ (len : BitVec 8) (d : Draw) (c : ColorSrc) (s : State),
    let j : Job := { drawJob d s.regs.swctrl with src := copySource d.rect c s.regs.swctrl }
    let px := copyPixels d c s.setup
    j.legal (copyHeight d.rect c) → j.ready s px →
    exec (.xySrcCopyBlt len d c) s = .next (j.drawn px { s with
      br := (s.br.withDraw .xySrcCopyBlt d 0 false false false).withSource c })) ∧
  (∀ (len : BitVec 8) (d : Draw) (mode : BitVec 3) (c : ColorSrc) (lo hi : Word) (s : State),
    let j : Job := { drawJob d s.regs.swctrl with
      src := copySource d.rect c s.regs.swctrl, mode := mode, lo := lo, hi := hi }
    let px := copyPixels d c s.setup
    j.legal (copyHeight d.rect c) → j.ready s px →
    exec (.xySrcCopyChromaBlt len d mode c lo hi) s = .next (j.drawn px { s with
      br := { (s.br.withDraw .xySrcCopyChromaBlt d mode false false false).withSource c with
        br18 := lo, br19 := hi } }))

/-- XY_MONO_SRC_COPY_BLT and XY_MONO_SRC_COPY_IMMEDIATE_BLT (R332, R333): a word-aligned monochrome source in two colours,
from memory or from the command. The model's choices: a source that overlaps the destination is read like any other
(log 43); an immediate source of more than 128 bytes does not draw (log 42); the bytes the mask gates (log 8); BR09, a working
register (R35), keeps its DWord (log 41); the destination of a transparent pixel is read as R255 has it (log 51). -/
def Obligations.XyMonoSourceDraws : Prop :=
  (∀ (len : BitVec 8) (d : Draw) (transp : Bool) (start : BitVec 3) (src bg fg : Word) (s : State),
    let j : Job := { drawJob d s.regs.swctrl with src := wordSource d.rect start src fg bg transp }
    let px := drawnPixels (rectBox d.rect) (clipOf s.setup d.clip) false false
    j.legal (rectHeight d.rect) → j.ready s px →
    exec (.xyMonoSrcCopyBlt len d transp start src bg fg) s = .next (j.drawn px { s with
      br := { (s.br.withDraw .xyMonoSrcCopyBlt d 0 false transp false).withStart start with
        br12 := src, br18 := bg, br19 := fg } })) ∧
  (∀ (len : BitVec 8) (d : Draw) (transp : Bool) (start : BitVec 3) (bg fg : Word) (data : List Word) (s : State),
    let j : Job := { drawJob d s.regs.swctrl with
      src := .monoImm (.wordAligned start.toNat) (rectWidth d.rect) data d.rect.x1.toInt d.rect.y1.toInt fg bg transp }
    let px := drawnPixels (rectBox d.rect) (clipOf s.setup d.clip) false false
    j.legal (rectHeight d.rect) → j.ready s px →
    exec (.xyMonoSrcCopyImmediateBlt len d transp start bg fg data) s = .next (j.drawn px { s with
      br := { (s.br.withDraw .xyMonoSrcCopyImmediateBlt d 0 false transp false).withStart start with
        br18 := bg, br19 := fg } }))

/-- XY_FULL_BLT and XY_FULL_IMMEDIATE_PATTERN_BLT (R350, R351): colour source and colour pattern; the immediate form has no
vertical seed. The direction is that of R252, the region that of R250. The model's choices: an overlap that does not conform
puts free values into the destination bytes of the source region (R486); whether one of the same base but different pitches or
layouts conforms is open (log 15); the bytes the mask gates (log 8); BR09, a working register (R35), keeps its DWord (log 41);
a pattern in memory that overlaps the destination is read like any other (log 43). -/
def Obligations.XyFullColorDraws : Prop :=
  (∀ (len : BitVec 8) (d : Draw) (seeds : Seeds) (c : ColorSrc) (pat : Word) (s : State),
    let j : Job := { drawJob d s.regs.swctrl with
      pat := .memory (patAddr pat), hseed := seeds.h.toNat, vseed := seeds.v.toNat
      src := copySource d.rect c s.regs.swctrl }
    let px := copyPixels d c s.setup
    patAddr pat % (64 * bpp d.pen.depth) = 0 → j.legal (copyHeight d.rect c) → j.ready s px →
    exec (.xyFullBlt len d seeds c pat) s = .next (j.drawn px { s with
      br := { ((s.br.withDraw .xyFullBlt d 0 false false false).withSeeds seeds.h seeds.v).withSource c with br15 := pat } })) ∧
  (∀ (len : BitVec 8) (d : Draw) (hseed : BitVec 3) (c : ColorSrc) (data : List Word) (s : State),
    let j : Job := { drawJob d s.regs.swctrl with
      pat := .immediate data, hseed := hseed.toNat, src := copySource d.rect c s.regs.swctrl }
    let px := copyPixels d c s.setup
    j.legal (copyHeight d.rect c) → j.ready s px →
    exec (.xyFullImmediatePatternBlt len d hseed c data) s = .next (j.drawn px { s with
      br := ((s.br.withDraw .xyFullImmediatePatternBlt d 0 false false false).withSeeds hseed 0).withSource c }))

/-- XY_FULL_MONO_SRC_BLT and XY_FULL_MONO_SRC_IMMEDIATE_PATTERN_BLT (R352, R353): monochrome source and colour pattern. The
model's choices: a source or a pattern in memory that overlaps the destination is read like any other (log 43); the bytes the
mask gates (log 8); BR09, a working register (R35), keeps its DWord (log 41); the destination of a transparent pixel is read
as R255 has it (log 51). -/
def Obligations.XyFullMonoSourceDraws : Prop :=
  (∀ (len : BitVec 8) (d : Draw) (transp : Bool) (start : BitVec 3) (seeds : Seeds) (src bg fg pat : Word) (s : State),
    let j : Job := { drawJob d s.regs.swctrl with
      pat := .memory (patAddr pat), hseed := seeds.h.toNat, vseed := seeds.v.toNat
      src := wordSource d.rect start src fg bg transp }
    let px := drawnPixels (rectBox d.rect) (clipOf s.setup d.clip) false false
    patAddr pat % (64 * bpp d.pen.depth) = 0 → j.legal (rectHeight d.rect) → j.ready s px →
    exec (.xyFullMonoSrcBlt len d transp start seeds src bg fg pat) s = .next (j.drawn px { s with
      br := { ((s.br.withDraw .xyFullMonoSrcBlt d 0 false transp false).withSeeds seeds.h seeds.v).withStart start with
        br12 := src, br18 := bg, br19 := fg, br15 := pat } })) ∧
  (∀ (len : BitVec 8) (d : Draw) (transp : Bool) (start hseed : BitVec 3) (src bg fg : Word) (data : List Word) (s : State),
    let j : Job := { drawJob d s.regs.swctrl with
      pat := .immediate data, hseed := hseed.toNat, src := wordSource d.rect start src fg bg transp }
    let px := drawnPixels (rectBox d.rect) (clipOf s.setup d.clip) false false
    j.legal (rectHeight d.rect) → j.ready s px →
    exec (.xyFullMonoSrcImmediatePatternBlt len d transp start hseed src bg fg data) s = .next (j.drawn px { s with
      br := { ((s.br.withDraw .xyFullMonoSrcImmediatePatternBlt d 0 false transp false).withSeeds hseed 0).withStart start with
        br12 := src, br18 := bg, br19 := fg } }))

/-- XY_FULL_MONO_PATTERN_BLT and XY_FULL_MONO_PATTERN_MONO_SRC_BLT (R354, R355): a monochrome pattern, all background when
Solid Pattern Select is set; with pattern transparency as well no pixel is drawn (R227). The model's choices: BR20S and
BR21S are then two free values (R22, D3, log 16); an overlap with a colour source that does not conform puts free values into
the destination bytes of the source region (R252, R486, log 15), a monochrome one is read like any other (log 43); the bytes
the mask gates (log 8); BR09, a working register (R35), keeps its DWord (log 41); the destination of a transparent pixel is
read as R255 has it (log 51). -/
def Obligations.XyFullMonoPatternDraws : Prop :=
  (∀ (len : BitVec 8) (d : Draw) (solid transp : Bool) (seeds : Seeds) (c : ColorSrc) (bg fg p0 p1 : Word) (s : State),
    let j : Job := { drawJob d s.regs.swctrl with
      pat := if solid then .mono 0 0 fg bg transp else .mono p0 p1 fg bg transp
      hseed := seeds.h.toNat, vseed := seeds.v.toNat, src := copySource d.rect c s.regs.swctrl }
    let px := copyPixels d c s.setup
    let t := State.patternLoaded { s with
      br := { ((s.br.withDraw .xyFullMonoPatternBlt d 0 solid false transp).withSeeds seeds.h seeds.v).withSource c with
      br16 := bg, br17 := fg, br20 := p0, br21 := p1 } }
    (solid → transp → exec (.xyFullMonoPatternBlt len d solid transp seeds c bg fg p0 p1) s = .next t) ∧
    (¬(solid ∧ transp) → j.legal (copyHeight d.rect c) → j.ready s px →
      exec (.xyFullMonoPatternBlt len d solid transp seeds c bg fg p0 p1) s = .next (j.drawn px t))) ∧
  (∀ (len : BitVec 8) (d : Draw) (solid stransp ptransp : Bool) (start : BitVec 3) (seeds : Seeds)
    (src sbg sfg pbg pfg p0 p1 : Word) (s : State),
    let j : Job := { drawJob d s.regs.swctrl with
      pat := if solid then .mono 0 0 pfg pbg ptransp else .mono p0 p1 pfg pbg ptransp
      hseed := seeds.h.toNat, vseed := seeds.v.toNat, src := wordSource d.rect start src sfg sbg stransp }
    let px := drawnPixels (rectBox d.rect) (clipOf s.setup d.clip) false false
    let t := State.patternLoaded { s with
      br := { ((s.br.withDraw .xyFullMonoPatternMonoSrcBlt d 0 solid stransp ptransp).withSeeds seeds.h seeds.v).withStart start with
        br12 := src, br18 := sbg, br19 := sfg, br16 := pbg, br17 := pfg, br20 := p0, br21 := p1 } }
    (solid → ptransp → 0 ≤ d.pen.pitch.toInt →
      exec (.xyFullMonoPatternMonoSrcBlt len d solid stransp ptransp start seeds src sbg sfg pbg pfg p0 p1) s = .next t) ∧
    (¬(solid ∧ ptransp) → 0 ≤ d.pen.pitch.toInt → j.legal (rectHeight d.rect) → j.ready s px →
      exec (.xyFullMonoPatternMonoSrcBlt len d solid stransp ptransp start seeds src sbg sfg pbg pfg p0 p1) s =
        .next (j.drawn px t)))

/-! ## MI commands that steer the parser -/

/-- MI_NOOP (R376): NOPID takes the identification number only with the write enable; `pc` moves on. -/
def Obligations.MiNoopCompletes : Prop :=
  ∀ (writeId : Bool) (ident : BitVec 22) (s : State), s.canAdvance 1 →
    exec (.miNoop writeId ident) s =
      .next ((if writeId then { s with regs := { s.regs with nopid := ident } } else s).advanced 1)

/-- MI_USER_INTERRUPT (R384, R427): ISR bit 22 is set, the IIR takes it when the IMR lets it, and when BCS_HWSTAM and the
IMR both let the change through, the ISR is posted to the status page (R421, R424). The model's choices: the ISR's DWord in
the status page (log 12), that the status write is done although BCS_HWS_PGA has never been written (log 23), and that the
bit lasts one step (D32, log 40). -/
def Obligations.MiUserInterruptCompletes : Prop :=
  ∀ s : State,
    let new := setBit s.regs.isr 22 true
    let u : State := { s with regs := s.regs.withIsr new }
    s.canAdvance 1 →
    (needsStatusWrite s.regs s.regs.isr new = false → exec .miUserInterrupt s = .next (u.advanced 1)) ∧
    (needsStatusWrite s.regs s.regs.isr new → (s.parserPhys .ggtt s.regs.statusAddr true .event).isSome →
      exec .miUserInterrupt s = .next ((u.posting .ggtt s.regs.statusAddr (wordBytes new) .event).advanced 1))

/-- MI_WAIT_FOR_EVENT (R385) with one event or none: a no-operation when the condition does not hold; when it holds the
parser waits with the wait recorded in BCS_SYNC_FLIP_STATUS and, in the ring, in RBWait; once it holds no more the
records are cleared and `pc` moves on. That every wait record is cleared, whatever else the host wrote there, is the model's
choice (log 44). -/
def Obligations.MiWaitForEventCompletes : Prop :=
  ∀ (sc : Bool) (cc : BitVec 4) (pc sb pb sa pa : Bool) (s : State),
    let e := waitEvent sc cc pc sb pb sa pa
    let cmd := Instr.miWaitForEvent sc cc pc sb pb sa pa
    cmd.wf →
    (e.holds s.regs = false → s.parser.run ≠ .waitEvent cmd → s.canAdvance 1 → exec cmd s = .next (s.advanced 1)) ∧
    (e.holds s.regs → exec cmd s = .next { s with
      regs := { s.regs with
        syncFlip := (s.regs.syncFlip &&& ~~~waitRecords) ||| e.record
        ctl := if s.parser.inBatch then s.regs.ctl else setBit s.regs.ctl 11 true }
      parser := { s.parser with run := .waitEvent cmd } }) ∧
    (e.holds s.regs = false → s.parser.run = .waitEvent cmd → s.canAdvance 1 →
      exec cmd s = .next ({ s with
        regs := { s.regs with
          syncFlip := s.regs.syncFlip &&& ~~~waitRecords
          ctl := setBit s.regs.ctl 11 false } }.advanced 1))

/-- MI_ARB_CHECK (R371): with a valid pending head pointer inside the ring the head goes there, keeping its wrap count,
and the valid bit is reset; without one `pc` moves on. A jump over a multiple of the report interval is reported, once the head
is there (R370, R377), or refused without a status page (U6). In a batch buffer the command has no meaning, nor has it with a
pending head pointer beyond the ring. The model's choices: a jump in either direction is reported, and none is a wrap (log 24);
UHPTR bits 31:3 are the offset in the ring (D26). -/
def Obligations.MiArbCheckCompletes : Prop :=
  ∀ s : State,
    let off := (field s.regs.uhptr 3 29).toNat * 8
    (s.parser.inBatch → exec .miArbCheck s = .refused .placement) ∧
    (s.parser.inBatch = false → bit s.regs.uhptr 0 → s.regs.ringSize ≤ off → exec .miArbCheck s = .refused .uhptrRange) ∧
    (s.parser.inBatch = false → bit s.regs.uhptr 0 = false → s.canAdvance 1 →
      exec .miArbCheck s = .next (s.advanced 1)) ∧
    (s.parser.inBatch = false → bit s.regs.uhptr 0 → off < s.regs.ringSize →
      let t : State := { s with
        regs := { s.regs with
          head := put (put 0 21 (field s.regs.head 21 11)) 2 (BitVec.ofNat 19 (off / 4))
          uhptr := setBit s.regs.uhptr 0 false }
        parser := { s.parser with run := .running } }
      let k := s.regs.reportInterval
      let a := s.regs.hwsp + 0x10
      ((k = 0 ∨ off / k = s.regs.headOff / k) → exec .miArbCheck s = .next t) ∧
      (k ≠ 0 → off / k ≠ s.regs.headOff / k →
        (s.regs.hwsPgaWritten → (s.parserPhys .ggtt a true .report).isSome →
          exec .miArbCheck s = .next (t.posting .ggtt a (wordBytes t.regs.head) .report)) ∧
        (s.regs.hwsPgaWritten = false → exec .miArbCheck s = .refused .statusPageUnset)))

/-- The head report (R377): MI_REPORT_HEAD posts the ring head, already past the command (D29), to DWord 4 of the status
page. The same report is made by hardware when moving past a command, here MI_NOOP, crosses the interval of
BCS_RING_BUFFER_CTL bits 2:1 or wraps; an MI_REPORT_HEAD that itself crosses it makes both. Without a programmed status page
either is refused (U6), and in a batch buffer the command is. The model's choice: the UHPTR invalidation of R371 comes before
the automatic report (log 52). -/
def Obligations.MiReportHeadCompletes : Prop :=
  ∀ s : State,
    let a := s.regs.hwsp + 0x10
    let bytes := wordBytes (s.advanced 1).regs.head
    let crosses := crossesReport s.regs.reportInterval s.regs.headOff 1 s.regs.ringSize
    (s.parser.inBatch = false → s.regs.hwsPgaWritten →
      (s.canAdvance 1 → (s.parserPhys .ggtt a true).isSome →
        exec .miReportHead s = .next ((s.advanced 1).posting .ggtt a bytes)) ∧
      (crosses → (s.parserPhys .ggtt a true .report).isSome →
        exec (.miNoop false 0) s = .next ((s.advanced 1).posting .ggtt a bytes .report) ∧
        ((s.parserPhys .ggtt a true).isSome → exec .miReportHead s =
          .next (((s.advanced 1).posting .ggtt a bytes).posting .ggtt a bytes .report)))) ∧
    (s.parser.inBatch = false → s.regs.hwsPgaWritten = false →
      (s.canAdvance 1 → exec .miReportHead s = .refused .statusPageUnset) ∧
      (crosses → exec .miReportHead s = .refused .statusPageUnset ∧
        exec (.miNoop false 0) s = .refused .statusPageUnset)) ∧
    (s.parser.inBatch → exec .miReportHead s = .refused .placement)

/-- MI_BATCH_BUFFER_END (R372): back to the ring, whose head still points behind the start command; BCS_BB_ADDR shows no
valid batch address and the parser is secure again. In the ring a no-operation (D27). -/
def Obligations.MiBatchBufferEndCompletes : Prop :=
  ∀ s : State,
    (s.parser.inBatch →
      let t : State := { s with parser := { s.parser with run := .running, inBatch := false } }
      exec .miBatchBufferEnd s = .next t ∧ bit t.bbAddr 0 = false ∧ t.secure) ∧
    (s.parser.inBatch = false → s.canAdvance 1 → exec .miBatchBufferEnd s = .next (s.advanced 1))

/-- MI_SUSPEND_FLUSH (R382): BCS_MI_MODE bit 15 becomes the command's bit, and while it is 1 no sync flush is done
(R164). -/
def Obligations.MiSuspendFlushCompletes : Prop :=
  ∀ (on : Bool) (s : State), s.canAdvance 1 →
    let t : State := { s with regs := { s.regs with miMode := setBit s.regs.miMode 15 on } }.advanced 1
    exec (.miSuspendFlush on) s = .next t ∧ (on → t.syncFlushReady = false)

/-- MI_BATCH_BUFFER_START (R373): from the ring the head stays behind the command as the return point (D7); the parser
goes to the buffer, in the space the indicator selects, or in the PPGTT when it is already in a PPGTT buffer. A PPGTT
buffer needs the PPGTT enabled. What was read ahead of another batch buffer is forgotten (R167, log 35). The model's choice: a
chained start with indicator 0 in a PPGTT buffer stays in the PPGTT, as R373's pseudocode has it, where M13 of spec/93 refuses
every indicator that differs from the buffer's (R485 item 24; log 58). -/
def Obligations.MiBatchBufferStartCompletes : Prop :=
  ∀ (len : BitVec 8) (asi : Bool) (addr : BitVec 30) (s : State),
    (asi = false ∨ s.ppgttEnabled) → (s.parser.inBatch = false ∨ s.parser.batchSpace = .ppgtt ∨ asi = false) →
    (s.parser.inBatch ∨ s.canAdvance 2) →
    exec (.miBatchBufferStart len asi addr) s = .next { (if s.parser.inBatch then s else s.advanced 2) with
      parser := {
        run := .running
        inBatch := true
        batchAddr := put 0 2 addr
        batchSpace := if s.parser.inBatch ∧ s.parser.batchSpace = .ppgtt then .ppgtt
          else if asi then .ppgtt else .ggtt }
      readAhead := s.readAhead.filter fun e => e.ring }

/-- MI_SEMAPHORE_MBOX, register form (R378): the unsigned comparison is strict; when it passes, Semaphore Wait is cleared
and `pc` moves on; when it fails, Semaphore Wait is set and the parser waits on the command. The registers compared are those
the render and the video command streamer write (R84, R85, R450), which is all such a write does. -/
def Obligations.MiSemaphoreRegisterCompletes : Prop :=
  (∀ (len : BitVec 8) (ggtt : Bool) (sel : BitVec 2) (data : Word) (addr : BitVec 30) (s : State),
    let cmd := Instr.miSemaphoreMbox len ggtt false true true sel data addr
    let r := if sel = 0 then s.regs.brsync else s.regs.bvsync
    (sel = 0 ∨ sel = 2) →
    (data.toNat < r.toNat → s.canAdvance 3 →
      exec cmd s = .next ({ s with regs := { s.regs with ctl := setBit s.regs.ctl 10 false } }.advanced 3)) ∧
    (r.toNat ≤ data.toNat → exec cmd s = .next { s with
      regs := { s.regs with ctl := setBit s.regs.ctl 10 true }
      parser := { s.parser with run := .waitSemaphore cmd } })) ∧
  ∀ (s : State) (v : Word) (es : List EnvEvent), s.quiet →
    (s.schedule = .csSemaphore v :: es → step s = .next { s with regs := { s.regs with brsync := v }, schedule := es }) ∧
    (s.schedule = .vcsSemaphore v :: es → step s = .next { s with regs := { s.regs with bvsync := v }, schedule := es })

/-- MI_SEMAPHORE_MBOX, memory form (R378): with Compare it passes when the DWord in memory is greater than the data, else
the parser waits; with Update the data is posted to memory. The space is the global GTT only for a secure buffer that
asks for it (R440). The model's choice: waiting sets no Semaphore Wait in this form, as R90 and the text of R378 have it, where
R26 and R27 set it in every semaphore wait (log 57); Register Select 1 and 3, which R205 and E7 of spec/93 refuse without
condition, run in this form, as R378's pseudocode has it (log 59). -/
def Obligations.MiSemaphoreMemoryCompletes : Prop :=
  ∀ (len : BitVec 8) (ggtt update compare : Bool) (sel : BitVec 2) (data : Word) (addr : BitVec 30) (s : State),
    let cmd := Instr.miSemaphoreMbox len ggtt update compare false sel data addr
    let sp : Space := if ggtt ∧ s.secure then .ggtt else .ppgtt
    let a := (put 0 2 addr : Word).toNat
    let q := if compare then s.reading sp a else s
    (update ∨ compare) → (compare → (s.parserPhys sp a false).isSome) → (update → (s.parserPhys sp a true).isSome) →
    ((compare = false ∨ data.toNat < (s.memWord sp a).toNat) → s.canAdvance 3 →
      exec cmd s = .next ({ (if update then q.posting sp a (wordBytes data) else q) with
        regs := { s.regs with ctl := setBit s.regs.ctl 10 false } }.advanced 3)) ∧
    (compare → (s.memWord sp a).toNat ≤ data.toNat →
      exec cmd s = .next { q with parser := { s.parser with run := .waitSemaphore cmd } })

/-! ## MI commands that move data -/

/-- MI_LOAD_REGISTER_IMM (R375). With all byte write disables set, nothing is written; so too in a non-secure batch for a
register outside 22200h to 222FFh, whatever the disables (R441, D34). Otherwise the register is written as a host write
would write it (R61): `Regs.written` for the masked registers, 22050h among them (R107), the plain read/write registers and
the interrupt masks and errors, whose change of the ISR may be posted to the status page (R424); a read-only register keeps its
value; a forbidden write is refused (R87, R88, R94, R103). The model's choices: BCS_IMR and BCS_EMR store the reserved bits that
are written (log 39); the ISR's DWord in the status page (log 12, log 23); when a tail outside the ring is refused (log 55). -/
def Obligations.MiLoadRegisterImmCompletes : Prop :=
  ∀ (len : BitVec 8) (reg : BitVec 30) (data : Word) (s : State),
    let off := (put 0 2 reg : Word).toNat
    let open' := s.secure ∨ (0x22200 ≤ off ∧ off < 0x22300)
    (s.canAdvance 3 →
      exec (.miLoadRegisterImm len 15 reg data) s = .next (s.advanced 3) ∧
      (s.secure = false → (off < 0x22200 ∨ 0x22300 ≤ off) →
        ∀ disables, exec (.miLoadRegisterImm len disables reg data) s = .next (s.advanced 3)) ∧
      (open' → readOnlyReg off → exec (.miLoadRegisterImm len 0 reg data) s = .next (s.advanced 3))) ∧
    (∀ r, s.regs.written off data = some r → open' → ({ s with regs := r } : State).canAdvance 3 →
      exec (.miLoadRegisterImm len 0 reg data) s = .next ({ s with regs := r }.advanced 3)) ∧
    (∀ r, s.regs.writeErrors off data = some r → open' → ({ s with regs := r } : State).settleOpen → s.canAdvance 3 →
      exec (.miLoadRegisterImm len 0 reg data) s = .next (({ s with regs := r } : State).settled.advanced 3)) ∧
    (∀ f, s.regs.writeRefused off data = some f → open' →
      exec (.miLoadRegisterImm len 0 reg data) s = .refused f)

/-- MI_STORE_REGISTER_MEM (R379): the register's value is posted to memory, a free value for a register outside the map
(R107, U5); a privileged form in a non-secure batch is consumed without effect (R440). What registers read as (R61): Ring
Idle is a view of parser and engine (R80, D11), BCS_BB_ADDR of the batch address (R102), TIMESTAMP of the counter's two parts
(R460), BCS_TLBPEND_SEC1 has reserved bits 0 (R74); mask halves read 0 in every state that meets the invariant (D9,
log 39). That the value is read and posted within the command's step is the model's choice (log 7). -/
def Obligations.MiStoreRegisterMemCompletes : Prop :=
  (∀ (len : BitVec 8) (ggtt : Bool) (reg : BitVec 21) (addr : BitVec 30) (s : State),
    let sp : Space := if ggtt then .ggtt else .ppgtt
    let a := (put 0 2 addr : Word).toNat
    (ggtt ∨ s.ppgttEnabled) → s.canAdvance 3 →
    (ggtt → s.secure = false → exec (.miStoreRegisterMem len ggtt reg addr) s = .next (s.advanced 3)) ∧
    ((ggtt = false ∨ s.secure) → (s.parserPhys sp a true).isSome →
      (∀ v, regRead s (reg.toNat * 4) = some v →
        exec (.miStoreRegisterMem len ggtt reg addr) s = .next ((s.posting sp a (wordBytes v)).advanced 3)) ∧
      (regRead s (reg.toNat * 4) = none →
        exec (.miStoreRegisterMem len ggtt reg addr) s = .next
          (({ s with freeCount := s.freeCount + 1 }.posting sp a (wordBytes (Config.freeWord s.freeCount))).advanced 3)))) ∧
  (∀ (s : State) (v : Word),
    (regRead s 0x2209C = some v →
      bit v 9 = ((s.parser.run == .idle || s.parser.run == .stopped || s.parser.run == .disabled) &&
        s.engine.run == .idle) ∧
      ∀ i, i ≠ 9 → bit v i = bit s.regs.miMode i) ∧
    (regRead s 0x22140 = some v → bit v 0 = s.parser.inBatch ∧ bit v 1 = false ∧ bit v 2 = false ∧
      ∀ i, 3 ≤ i → bit v i = bit s.parser.batchAddr i) ∧
    (regRead s 0x22358 = some v → ∀ i, i < 32 → bit v i = s.regs.timestamp.getLsbD i) ∧
    (regRead s 0x2235C = some v → ∀ i, bit v i = (decide (i < 4) && s.regs.timestamp.getLsbD (32 + i))) ∧
    (∀ k, k < 64 → regRead s (0x24500 + 4 * k) = some v →
      v &&& 0x70C00000 = 0 ∧ v &&& 0x8F3FFFFF = s.regs.pendSec1.toList.getD k 0 &&& 0x8F3FFFFF) ∧
    (s.inv → ∀ off ∈ [0x22028, 0x22050, 0x2209C, 0x220A0, 0x220C0, 0x22200, 0x2229C], regRead s off = some v →
      field v 16 16 = 0)) ∧
  ∀ s : State,
    regRead s 0x04280 = some s.regs.hwsPga ∧ regRead s 0x22028 = some s.regs.excc ∧
    regRead s 0x22030 = some s.regs.tail ∧ regRead s 0x22034 = some s.regs.head ∧
    regRead s 0x22038 = some s.regs.start ∧ regRead s 0x2203C = some s.regs.ctl ∧
    regRead s 0x22040 = some s.regs.brsync ∧ regRead s 0x22044 = some s.regs.bvsync ∧
    regRead s 0x22050 = some s.regs.r22050 ∧ regRead s 0x22098 = some s.regs.hwstam ∧
    regRead s 0x220A0 = some s.regs.gabMode ∧ regRead s 0x220A8 = some s.regs.imr ∧
    regRead s 0x220B0 = some s.regs.eir ∧ regRead s 0x220B4 = some s.regs.emr ∧
    regRead s 0x220B8 = some s.regs.esr ∧ regRead s 0x220C0 = some s.regs.instpm ∧
    regRead s 0x22134 = some s.regs.uhptr ∧ regRead s 0x2217C = some s.regs.ctrThrsh ∧
    regRead s 0x221A8 = some s.regs.cxtSize ∧ regRead s 0x22200 = some s.regs.swctrl ∧
    regRead s 0x22220 = some s.regs.ppDclv ∧ regRead s 0x2229C = some s.regs.bltMode ∧
    regRead s 0x222D0 = some s.regs.syncFlip ∧ regRead s 0x24000 = some s.regs.gabCtl ∧
    regRead s 0x24094 = some s.regs.gabErr ∧
    (∀ k, k < 64 → regRead s (0x04400 + 4 * k) = some (s.regs.tlbpendSec0.toList.getD k 0)) ∧
    (regRead s 0x2209C).isSome ∧ (regRead s 0x22140).isSome ∧ (regRead s 0x22358).isSome ∧
    (regRead s 0x2235C).isSome ∧ ∀ k, k < 64 → (regRead s (0x24500 + 4 * k)).isSome

/-- MI_STORE_DATA_IMM (R380): a DWord, or a QWord at a QWord address, is posted to memory; a privileged form in a
non-secure batch is consumed without effect (R440). -/
def Obligations.MiStoreDataImmCompletes : Prop :=
  ∀ (ggtt : Bool) (addr : BitVec 30) (d0 d1 : Word) (s : State),
    let sp : Space := if ggtt then .ggtt else .ppgtt
    let a := (put 0 2 addr : Word).toNat
    (ggtt ∨ s.ppgttEnabled) →
    (ggtt → s.secure = false → (s.canAdvance 4 → exec (.miStoreDataImm 2 ggtt addr d0 d1) s = .next (s.advanced 4)) ∧
      (s.canAdvance 5 → exec (.miStoreDataImm 3 ggtt addr d0 d1) s = .next (s.advanced 5))) ∧
    ((ggtt = false ∨ s.secure) → (s.parserPhys sp a true).isSome →
      (s.canAdvance 4 →
        exec (.miStoreDataImm 2 ggtt addr d0 d1) s = .next ((s.posting sp a (wordBytes d0)).advanced 4)) ∧
      (a % 8 = 0 → s.canAdvance 5 →
        exec (.miStoreDataImm 3 ggtt addr d0 d1) s =
          .next ((s.posting sp a (wordBytes d0 ++ wordBytes d1)).advanced 5)))

/-- MI_STORE_DATA_INDEX (R381): a DWord, or a QWord at a QWord offset, is posted to the status page beyond its first
sixteen DWords; those sixteen and an unaligned QWord are refused. -/
def Obligations.MiStoreDataIndexCompletes : Prop :=
  ∀ (offset : BitVec 10) (d0 d1 : Word) (s : State),
    let a := s.regs.hwsp + 4 * offset.toNat
    (s.regs.hwsPgaWritten → 16 ≤ offset.toNat → (s.parserPhys .ggtt a true).isSome →
      (s.canAdvance 3 →
        exec (.miStoreDataIndex 1 offset d0 d1) s = .next ((s.posting .ggtt a (wordBytes d0)).advanced 3)) ∧
      (a % 8 = 0 → s.canAdvance 4 →
        exec (.miStoreDataIndex 2 offset d0 d1) s =
          .next ((s.posting .ggtt a (wordBytes d0 ++ wordBytes d1)).advanced 4))) ∧
    (s.regs.hwsPgaWritten → 16 ≤ offset.toNat → a % 8 ≠ 0 →
      exec (.miStoreDataIndex 2 offset d0 d1) s = .refused .qwordAlignment) ∧
    (s.regs.hwsPgaWritten → offset.toNat < 16 → ∀ len,
      exec (.miStoreDataIndex len offset d0 d1) s = .refused .statusPageReserved)

/-- MI_UPDATE_GTT (R383): from a secure buffer, consecutive GGTT entries become the command's DWords and no other entry,
and no TLB, changes (R166); in a non-secure batch it is consumed without effect (R440). The platform's own changes of one entry
of either table, or of one page directory entry, likewise change that entry alone and no TLB (R150, R151). The model's choice:
entries past page FFFFFh, of which R383 says nothing, are kept under the numbers that follow, where no access reaches them
(log 45). -/
def Obligations.MiUpdateGttCompletes : Prop :=
  (∀ (len : BitVec 6) (ggtt : Bool) (entry : BitVec 20) (data : List Word) (s : State), s.canAdvance (2 + data.length) →
    (s.secure = false → exec (.miUpdateGtt len ggtt entry data) s = .next (s.advanced (2 + data.length))) ∧
    (s.secure → ggtt → 1 ≤ data.length → ∃ t : List (Nat × PageEntry),
      exec (.miUpdateGtt len ggtt entry data) s = .next ({ s with ggtt := t }.advanced (2 + data.length)) ∧
      (∀ k, k < data.length → lookup t (entry.toNat + k) = (data[k]?).map PageEntry.raw) ∧
      (∀ p, p < entry.toNat ∨ entry.toNat + data.length ≤ p → lookup t p = lookup s.ggtt p))) ∧
  ∀ (s : State) (page : Nat) (e : PageEntry) (es : List EnvEvent), s.quiet →
    (s.schedule = .setPage .ggtt page e :: es → ∃ t, step s = .next { s with ggtt := t, schedule := es } ∧
      ∀ p, lookup t p = if p = page then some e else lookup s.ggtt p) ∧
    (s.schedule = .setPage .ppgtt page e :: es → ∃ t, step s = .next { s with ppgtt := t, schedule := es } ∧
      ∀ p, lookup t p = if p = page then some e else lookup s.ppgtt p) ∧
    (∀ i valid, s.schedule = .setDirectory i valid :: es → ∃ l, step s = .next { s with pdInvalid := l, schedule := es } ∧
      ∀ k, l.contains k = if k = i then !valid else s.pdInvalid.contains k)

/-- MI_LOAD_REGISTER_MEM (R386). A prohibited one, by its address space or by its register, is consumed before it reads
anything (R432, R440, R441, D34). Synchronous: the register is written with the DWord in memory as a host write would write
it (`Regs.written`: masked, plain, interrupt mask and error registers; 22050h by R107), a read-only one keeps its value, a
forbidden write is refused. Asynchronous: the load is queued, to land at any later moment and in any order; when it lands, the
register is written in the same way with what memory then holds, but a load protection forbids writes nothing (R441). The
model's choices: the synchronous read completes within the step (log 7), BCS_IMR and BCS_EMR store the reserved bits they are
given (log 39), the ISR's DWord in the status page (log 12, log 23), when a tail outside the ring is refused (log 55). -/
def Obligations.MiLoadRegisterMemCompletes : Prop :=
  (∀ (len : BitVec 8) (ggtt : Bool) (reg : BitVec 21) (addr : BitVec 30) (s : State),
    let sp : Space := if ggtt then .ggtt else .ppgtt
    let a : Word := put 0 2 addr
    let off := reg.toNat * 4
    let open' := s.secure ∨ (ggtt = false ∧ 0x22200 ≤ off ∧ off < 0x22300)
    let q := s.reading sp a.toNat
    (s.canAdvance 3 → ∀ async, s.secure = false → (ggtt ∨ off < 0x22200 ∨ 0x22300 ≤ off) →
      exec (.miLoadRegisterMem len ggtt async reg addr) s = .next (s.advanced 3)) ∧
    (open' → (ggtt ∨ s.ppgttEnabled) → (off < 0x8800 ∨ 0x88FF < off) → off < 0xC0000 →
      (s.canAdvance 3 → exec (.miLoadRegisterMem len ggtt true reg addr) s = .next ({ s with
        asyncLoads := s.asyncLoads ++ [(⟨sp, a, BitVec.ofNat 32 off, s.secure⟩ : AsyncLoad)] }.advanced 3)) ∧
      ((s.parserPhys sp a.toNat false).isSome →
        (s.canAdvance 3 → readOnlyReg off →
          exec (.miLoadRegisterMem len ggtt false reg addr) s = .next (q.advanced 3)) ∧
        (∀ r, s.regs.written off (s.memWord sp a.toNat) = some r → ({ s with regs := r } : State).canAdvance 3 →
          exec (.miLoadRegisterMem len ggtt false reg addr) s = .next ({ q with regs := r }.advanced 3)) ∧
        (∀ r, s.regs.writeErrors off (s.memWord sp a.toNat) = some r → ({ s with regs := r } : State).settleOpen →
          s.canAdvance 3 → exec (.miLoadRegisterMem len ggtt false reg addr) s =
            .next (({ q with regs := r } : State).settled.advanced 3)) ∧
        (∀ f, s.regs.writeRefused off (s.memWord sp a.toNat) = some f →
          exec (.miLoadRegisterMem len ggtt false reg addr) s = .refused f)))) ∧
  (∀ (s : State) (k : Nat) (l : AsyncLoad) (es : List EnvEvent), s.quiet → s.schedule = .asyncLoad k :: es →
    s.asyncLoads[k]? = some l → (s.parserPhys l.space l.addr.toNat false .load).isSome →
    let v := s.memWord l.space l.addr.toNat .load
    let off := l.reg.toNat
    let q := s.reading l.space l.addr.toNat .load
    let t : State := { q with asyncLoads := s.asyncLoads.eraseIdx k, schedule := es }
    let forbidden := l.secure = false ∧ (off < 0x22200 ∨ 0x22300 ≤ off)
    ((forbidden ∨ readOnlyReg off) → step s = .next t) ∧
    (¬forbidden →
      (∀ r, s.regs.written off v = some r → step s = .next { t with regs := r }) ∧
      (∀ r, s.regs.writeErrors off v = some r → ({ t with regs := r } : State).settleOpen →
        step s = .next ({ t with regs := r } : State).settled) ∧
      (∀ f, s.regs.writeRefused off v = some f → step s = .refused f)))

/-- MI_FLUSH_DW (R374, R163, R428). While the engine is busy the parser waits. Then the render cache is written to memory,
both caches are emptied, the TLBs too if asked, and the post-sync write is posted: nothing, the data, or the timestamp;
to the status page with Store Data Index. With Notify, ISR bit 26 is set once every posted write is in memory, and the ISR
posted to the status page if HWSTAM and IMR let the change through (R424). The model's choices: Store Data Index without a
write has no effect, in any buffer (log 31); with Notify every posted write, of earlier commands too and without one of its own,
is put into memory first (log 54); the page is written although BCS_HWS_PGA never was (log 23); the ISR's DWord in
the page (log 12); the timestamp is written at an address with bit 5 set too, where R374's pseudocode and item 15 of R485 differ
(log 63). -/
def Obligations.MiFlushDwCompletes : Prop :=
  ∀ (len : BitVec 6) (spare index tlbInv gfdt : Bool) (op : BitVec 2) (notify : Bool) (addr : BitVec 29) (toGgtt : Bool)
    (d0 d1 : Word) (s : State),
    let cmd := Instr.miFlushDw len spare index tlbInv gfdt op notify addr toGgtt d0 d1
    let w : Word := put 0 3 addr
    let u : State := if tlbInv then { s.flushCaches with tlb := [], pdTlb := [], xlats := [] } else s.flushCaches
    let sp : Space := if index ∨ (s.secure ∧ toGgtt) then .ggtt else .ppgtt
    let a := if index then s.regs.hwsp + (w &&& 0xFF8).toNat else w.toNat
    let bytes : List Byte :=
      if op = 1 then if len = 2 then wordBytes d0 ++ wordBytes d1 else wordBytes d0
      else wordBytes (s.regs.timestamp.setWidth 32) ++ wordBytes ((s.regs.timestamp >>> 32).setWidth 32)
    let v : State := if op = 0 then u else u.posting sp a bytes
    op ≠ 2 → (op = 0 → tlbInv = false ∧ gfdt = false) → ¬(op = 1 ∧ len = 2 ∧ bit w 5) →
    ¬(index ∧ op ≠ 0 ∧ s.secure = false ∧ s.ppgttEnabled) →
    (s.engineBusy → exec cmd s = .next { s with parser := { s.parser with run := .waitFlush cmd } }) ∧
    (s.engineBusy = false → (op = 0 ∨ (u.parserPhys sp a true).isSome) → s.canAdvance (len.toNat + 2) →
      (notify = false → exec cmd s = .next (v.advanced (len.toNat + 2))) ∧
      (notify → u.statusOpen (setBit s.regs.isr 26 true) .event → exec cmd s = .next (({ v with
        mem := drainAll v.mem v.posted
        posted := [] }.signalled (setBit s.regs.isr 26 true) .event).advanced (len.toNat + 2))))

/-- MI_DISPLAY_FLIP (R387): the request joins those of the display engine, dropping synchronous ones of the same plane not
yet done, and the plane's pending flag is set; the packet lies in one cache line and a command follows (R207). That a dropped
request leaves the plane's pending flag as it is, is the model's choice (log 30), and that any DWord before the tail, or a batch
buffer, counts as the command that follows (log 50). -/
def Obligations.MiDisplayFlipCompletes : Prop :=
  ∀ (len : BitVec 8) (async : Bool) (plane : BitVec 3) (pitch : BitVec 10) (tiled : Bool) (base : BitVec 20)
    (s : State),
    plane.toNat < 6 → (async → tiled ∧ (plane = 0 ∨ plane = 1 ∨ plane = 4)) → flipInLine s → s.canAdvance 3 →
    (s.parser.inBatch ∨ (s.advanced 3).regs.headOff ≠ s.regs.tailOff) →
    exec (.miDisplayFlip len async plane pitch tiled base (if async then 1 else 0)) s = .next ({ s with
      flips := (s.flips.filter fun f : Flip => f.plane != plane || f.async) ++ [(⟨plane, async, tiled, pitch, base⟩ : Flip)]
      regs := { s.regs with syncFlip := s.regs.syncFlip ||| flipPendingBit plane.toNat async } }.advanced 3)

/-! ## Encoding -/

/-- DWord 0 selects a command by its client and opcode fields alone (R180, R210). -/
def Obligations.HeaderSelectsCommand : Prop :=
  ∀ (w : Word) (o : Op), Op.ofHeader w = some o ↔ w &&& o.headerMask = o.header

/-- Every well-formed command is read back from its DWords, with every operand at every value its field admits. -/
def Obligations.DecodeOfEncode : Prop := ∀ i : Instr, i.wf → decode (encode i) = .ok i

/-- Every DWord sequence that decodes, with a legal DWord Length, is the encoding of what it decodes to: no bit of a
command is dropped (R181, R205). -/
def Obligations.EncodeOfDecode : Prop :=
  ∀ (ws : List Word) (i : Instr), decode ws = .ok i → i.op.lengthOk (ws.getD 0 0) →
    encode i = ws.take (i.op.dwords (ws.getD 0 0))

/-- A few commands of each family, their DWords written out from the encoding tables (R280, R292, R316, R330, R352, R376,
R378). -/
def Obligations.SampleWordsDecode : Prop :=
  decode [0x50300003, 0x03F01000, 0x00100020, 0x00010000, 0xAABBCCDD] =
    .ok (.colorBlt 3 3 ⟨.c32, 0xF0, 0x1000⟩ 0x10 0x20 0x10000 0xAABBCCDD) ∧
  decode [0x40C00801, 0x00020001, 0x7FFF7FFE] = .ok (.xySetupClipBlt 1 true ⟨1, 2, 0x7FFE, 0x7FFF⟩) ∧
  decode [0x56549605, 0x51F00100, 0x00020001, 0xFFFF0003, 0x2000, 7, 8] =
    .ok (.xyMonoPatFixedBlt 5 ⟨1, false, true, ⟨.c565, 0xF0, 0x100⟩, ⟨1, 2, 3, 0xFFFF⟩, 0x2000⟩ true 9 ⟨1, 6⟩ 7 8) ∧
  decode [0x54F08006, 0x03CCFFC0, 0x00020001, 0x00040003, 0x1000, 0x00060005, 0x00000040, 0x3000] =
    .ok (.xySrcCopyBlt 6 ⟨3, false, false, ⟨.c32, 0xCC, 0xFFC0⟩, ⟨1, 2, 3, 4⟩, 0x1000⟩ ⟨true, 0x40, 5, 6, 0x3000⟩) ∧
  decode [0x558A1707, 0x20CA0004, 0, 0x00010001, 1, 2, 3, 4, 0x40] =
    .ok (.xyFullMonoSrcBlt 7 ⟨0, false, false, ⟨.c8, 0xCA, 4⟩, ⟨0, 0, 1, 1⟩, 1⟩ true 5 ⟨1, 7⟩ 2 3 4 0x40) ∧
  decode [0x00400001] = .ok (.miNoop true 1) ∧
  decode [0x0B540001, 5, 0x1004] = .ok (.miSemaphoreMbox 1 true false true true 0 5 0x401)

/-! ## The machine -/

/-- The invariant: memory, caches and page tables stay in canonical form, a byte with an earlier write in the render cache keeps a
last one there (R162), reserved bits stay as specified (R61, R94), the
level bits of the ISR follow their conditions (R421, R426, R430), `pc` stays DWord aligned (R24), what an agent holds
is of its own kind (R27, R28), and the tail of an enabled ring stays inside it (R87). Every step keeps it. The model's choices:
which reserved bits a register does not store; BCS_IMR stores all that are written to it and is not among them, nor are bits 15:1
of BCS_EMR (log 39); a tail outside the ring is refused when the ring is enabled or becomes so (log 55). -/
def Obligations.StepKeepsInv : Prop := ∀ s t : State, s.inv → step s = .next t → t.inv

/-- The machine after reset meets the invariant. -/
def Obligations.ResetMeetsInv : Prop := State.reset.inv

/-- RESET (R480): taken from the schedule it acts at once, whatever the machine was doing; the one premise is that the status
write which ends a pulse of the last step, if there is one, does not fault first. Every register then holds its printed
default (R60), or 0 where R480 or D10 says so, the parser is disabled, the engine idle, the caches, the posted writes and the
pulses gone; memory and page tables stay, and after a graphics reset the timestamp and the TLBs, with what they may have kept.
The model's choices: the values the spec does not print (log 1), the empty schedule (log 5), memory of which nothing is listed
(log 2, log 3) and the model's own fields (log 4, log 18, log 61) in the machine as it starts; that flip requests,
asynchronous loads and DWords read ahead are dropped, and that a chipset reset too leaves memory and tables as they are (log
49). -/
def Obligations.ResetActs : Prop :=
  (∀ (s : State) (full : Bool) (es : List EnvEvent), s.statusOpen (s.regs.isr &&& ~~~pulseInts) .pulse →
    s.schedule = .reset full :: es →
    step s = .next { State.reset with
      regs := { Regs.reset with timestamp := if full then 0 else s.regs.timestamp }
      mem := s.mem
      ggtt := s.ggtt
      ppgtt := s.ppgtt
      pdInvalid := s.pdInvalid
      tlb := if full then [] else s.tlb
      pdTlb := if full then [] else s.pdTlb
      xlats := if full then [] else (s.signalled (s.regs.isr &&& ~~~pulseInts) .pulse).xlats
      tlbPick := s.tlbPick
      midEvents := s.midEvents
      freeCount := s.freeCount
      schedule := es }) ∧
  (State.reset : State) = {
    br := {
      br00 := {
        opcode := 0, mask := 0, monoStart := 0, packed := false, srcTiled := false, hseed := 0, dstTiled := false,
        vseed := 0, rangeMode := 0, clips := false, dstRead := false, colorSrc := false, monoSrc := false,
        colorPat := false, monoPat := false },
      br09 := 0, br11 := 0, br12 := 0, br13 := 0, br14 := 0, br15 := 0, br16 := 0, br17 := 0, br18 := 0, br19 := 0,
      br20 := 0, br21 := 0, br22 := 0, br23 := 0, br26 := 0 },
    setup := {
      br01 := 0, br05 := 0, br06 := 0, br07 := 0, br09 := 0, br20 := 0, br21 := 0, br24 := 0, br25 := 0,
      monoPattern := false },
    regs := {
      hwsPga := 0x00000000, hwsPgaWritten := false, excc := 0x00000000, tail := 0x00000000, head := 0x00000000,
      start := 0x00000000, ctl := 0x00000000, brsync := 0x00000000, bvsync := 0x00000000, r22050 := 0,
      hwstam := 0xFFFFFFFF, miMode := 0x00000000, gabMode := 0x00000000, imr := 0xFFFFFFFF, eir := 0x00000000,
      emr := 0x0000FFFF, esr := 0x00000000, instpm := 0x00000000, uhptr := 0x00000000, ctrThrsh := 0x00150000,
      cxtSize := 0x00000400, swctrl := 0x00000000, ppDclv := 0x00000000, bltMode := 0x00000000, syncFlip := 0x00000000,
      timestamp := 0, gabCtl := 0x000000BF, gabErr := 0x00000000, isr := 0, iir := 0, nopid := 0, faultPending := false,
      tlbpendSec0 := Vector.replicate 64 0x00000000, pendValid := 0, pendReady := 0,
      pendSec1 := Vector.replicate 64 0x00000000 },
    parser := { run := .disabled, inBatch := false, batchAddr := 0, batchSpace := .ggtt },
    engine := { run := .idle, space := .ggtt },
    mem := [], rc := [], rcPast := [], tc := [], tcRead := [], posted := [], asyncLoads := [], ggtt := [], ppgtt := [], pdInvalid := [], tlb := [],
    pdTlb := [], xlats := [], flips := [], readAhead := [], freeCount := 0, tlbPick := 0, midEvents := [], schedule := [] } ∧
  (∀ off, (off = 0x22140 ∨ (0x24500 ≤ off ∧ off < 0x24600) ∨ off ∈ [0x24700, 0x24708, 0x24780, 0x24784, 0x24788, 0x2478C] ∨
    (0x24800 ≤ off ∧ off < 0x24C00)) → off % 4 = 0 → regRead State.reset off = some 0)

/-- A step runs the MI command at `pc` (R210, R370): the step is its meaning, which moves `pc` itself, in the state with
the parser running. The parser may have read a DWord of the commands before it gets there, from the ring before the tail or from
the batch buffer in execution (R167): the event keeps what memory holds then, and the fetch of that DWord uses it up in place of
what memory holds later. A DWord outside that window is forgotten before the next step does anything: one of the ring when the
ring is disabled or its head has met the tail, one of a batch buffer when no batch buffer is in execution. The form of this
record is the model's choice (log 35), and that a place which does not translate is not read ahead and raises no fault then
(R430, log 60). -/
def Obligations.StepRunsMiCommand : Prop :=
  (∀ (s : State) (ws : List Word) (i : Instr), s.atCommand ws → wholeCommand i.op ws → decode ws = .ok i →
    i.op.isBlt = false → (s.engine.run = .idle ∨ s.engine.run = .hung) →
    step s = exec i { s.taken ws.length with parser := { s.parser with run := .running } }) ∧
  (∀ (s : State) (ring : Bool) (n : Nat) (sp : Space) (a : Nat) (es : List EnvEvent), s.quiet →
    s.schedule = .readAhead ring n :: es →
    (s.aheadPoint ring n = some (sp, a) → (s.parserPhys sp a false .fetch).isSome →
      step s = .next { s.reading sp a .fetch with
        readAhead := ⟨ring, sp, a, s.memWord sp a .fetch⟩ :: s.readAhead.filter fun e => !e.isAt ring sp a
        schedule := es }) ∧
    (s.aheadPoint ring n = some (sp, a) → (s.parserPhys sp a false .fetch).isNone → step s = .next { s with schedule := es }) ∧
    (s.aheadPoint ring n = none → step s = .next { s with schedule := es })) ∧
  (∀ (s : State) (e : ReadAhead) (l : List ReadAhead), s.readAhead = e :: l →
    commandWord e.ring e.space e.addr s =
      .ok (e.word, { s with readAhead := l.filter fun d => !d.isAt e.ring e.space e.addr })) ∧
  (∀ (s : State) (n : Nat) (es : List EnvEvent), s.schedule = .tick n :: es → s.regs.isr &&& pulseInts = 0 →
    step s = .next { s with
      readAhead := s.readAhead.filter s.stillAhead
      regs := { s.regs with timestamp := s.regs.timestamp + BitVec.ofNat 36 n }
      schedule := es }) ∧
  ∀ (s : State) (e : ReadAhead),
    (e.ring → (s.ringEnabled = false ∨ s.regs.headOff = s.regs.tailOff) → s.stillAhead e = false) ∧
    (e.ring = false → s.parser.inBatch = false → s.stillAhead e = false) ∧
    (∀ n, s.aheadPoint e.ring n = some (e.space, e.addr) → s.stillAhead e)

/-- A step runs the BLT command at `pc` in an idle engine (R28, R370): `pc` has moved past it, and the engine works in the
space of the buffer it was fetched from (D14). A busy engine keeps it waiting at its place. The model's choice: the command is
executed within the step that hands it over, where R370 only hands it over (log 6); the command that follows immediate data is
not looked at (log 50). -/
def Obligations.StepRunsBltCommand : Prop :=
  ∀ (s : State) (ws : List Word) (i : Instr), s.atCommand ws → wholeCommand i.op ws → decode ws = .ok i → i.op.isBlt →
    (s.engine.run = .idle → s.canAdvance ws.length →
      (isImmediate i.op → s.parser.inBatch = false → (s.advanced ws.length).regs.headOff ≠ s.regs.tailOff) →
      step s = exec i { (s.taken ws.length).advanced ws.length with
        engine := ⟨.idle, if s.parser.inBatch then s.parser.batchSpace else .ggtt⟩ }) ∧
    (s.engine.run = .hung → s.posted = [] → s.asyncLoads = [] →
      step s = .next { s.taken ws.length with parser := { s.parser with run := .running } })

/-- A waiting command is re-evaluated by each step of the parser, and the step in which it stops waiting is its meaning
(R27, R370). While it goes on waiting, Stop Ring ends a wait for an event or a semaphore (R435): the parser is stopped on the
command, its wait records cleared, which is the model's choice (log 46). -/
def Obligations.StepResumesWait : Prop :=
  ∀ (s t : State) (i : Instr), s.quiet → s.schedule = [] → s.syncFlushReady = false → s.ringEnabled →
    (s.engine.run = .idle ∨ s.engine.run = .hung) →
    (s.parser.run = .waitEvent i ∨ s.parser.run = .waitSemaphore i ∨ s.parser.run = .waitFlush i ∨
      s.parser.run = .waitRead i) →
    exec i s = .next t → (t.parser.run ≠ s.parser.run → step s = .next t) ∧
    (t.parser.run = s.parser.run → t.posted = [] → t.asyncLoads = [] →
      ((bit t.regs.miMode 8 = false ∨ s.parser.run = .waitFlush i ∨ s.parser.run = .waitRead i) → step s = .next t) ∧
      (bit t.regs.miMode 8 → (s.parser.run = .waitEvent i ∨ s.parser.run = .waitSemaphore i) →
        step s = .next { t with
          parser := { t.parser with run := .stopped }
          regs := { t.regs with
            syncFlip := t.regs.syncFlip &&& ~~~waitRecords
            ctl := setBit (setBit t.regs.ctl 11 false) 10 false } }))

/-- A hung agent makes no further step: in a state that meets the invariant only RESET ends a hang (R435). The model's choice:
clearing Ring Buffer Enable does not end the parser's hang either, where R370 tests the enable bit first (log 22). -/
def Obligations.HungStaysHung : Prop :=
  ∀ s t : State, s.inv → (∀ full, s.schedule.head? ≠ some (.reset full)) → step s = .next t →
    (s.parser.run = .hung → t.parser.run = .hung) ∧ (s.engine.run = .hung → t.engine.run = .hung)

/-- What a BLT command can change at all, faulting or not. It writes the bytes of its job alone (`State.draws`: those its mask
enables of the pixels of its region whose write translates), through the render cache (R162, R241, R250): with nothing to happen in
the middle of commands the cache's entry of every other byte stays, and so do memory and the texture cache; otherwise every other byte
still reads the same, unless what happens then or one of the posted writes changes it (R165, log 61). The writes it posts are the
status writes of its page faults (`State.faultWrite`): to the ISR's DWord of the status page, by the parser's translation,
the ISR with bit 29 risen or fallen (R424, R430, log 12, log 40); some writes of the FIFO may be made in the middle. Of the ISR
it changes bit 29 alone, of the IIR the bits an unmasked ISR with bit 29 set has, of GAB Error Reporting the page fault bits. The record
of translations grows by what the page tables say (R155), an agent stays as it was or hangs (R431, R435), and the setup set changes only for the
setup commands and those that load a monochrome pattern of their own (R22). Page tables, TLBs, `pc` and every other register stay. -/
def Obligations.BltChangesOnly : Prop :=
  ∀ (i : Instr) (s t : State), i.op.isBlt → exec i s = .next t →
    t = { s with
      br := t.br
      setup := t.setup
      regs := { s.regs with
        isr := t.regs.isr, iir := t.regs.iir, gabErr := t.regs.gabErr, faultPending := t.regs.faultPending }
      parser := { s.parser with run := t.parser.run }
      engine := { s.engine with run := t.engine.run }
      mem := t.mem
      rc := t.rc
      rcPast := t.rcPast
      tc := t.tc
      tcRead := t.tcRead
      posted := t.posted
      xlats := t.xlats
      freeCount := t.freeCount } ∧
    (∃ p : List (List Host.Cell), (∀ c ∈ p, s.faultWrite c) ∧ t.posted <:+ s.posted ++ p ∧
      (s.midEvents = [] → t.posted = s.posted ++ p ∧ t.mem = s.mem ∧ t.tc = s.tc ∧ ∀ a, s.draws i a = false →
        lookup t.rc a = lookup s.rc a ∧ t.rcPast.filter (·.1 == a) = s.rcPast.filter (·.1 == a)) ∧
      (Memory.wf s.mem → sorted s.rc → s.rcOk → ∀ a, s.draws i a = false → s.disturbs a = false →
        (∀ c ∈ p, ∀ x ∈ c, x.1 ≠ a) → t.renderRead a = s.renderRead a)) ∧
    t.regs.isr = setBit s.regs.isr 29 (bit t.regs.isr 29) ∧
    t.regs.iir ||| (setBit s.regs.isr 29 true &&& ~~~s.regs.imr) = s.regs.iir ||| (setBit s.regs.isr 29 true &&& ~~~s.regs.imr) ∧
    t.regs.gabErr ||| 0x9C = s.regs.gabErr ||| 0x9C ∧
    s.xlats <+: t.xlats ∧ (∀ e ∈ t.xlats, e ∈ s.xlats ∨ e.entry = tableEntry (s.table e.space) e.page) ∧
    (t.parser.run = s.parser.run ∨ t.parser.run = .hung) ∧ (t.engine.run = s.engine.run ∨ t.engine.run = .hung) ∧
    (i.loadsSetup = false → t.setup = s.setup)

/-- Privilege (R440, R441, D35): a command of a non-secure batch buffer changes no page table, and no register outside 22200h
to 222FFh that only a privileged command or the host may write: HWS_PGA, TLBPEND_SEC0, the ring registers but for the status
bits RBWait and Semaphore Wait, BRSYNC, BVSYNC, 22050h, HWSTAM, GAB_MODE, IMR, EMR, INSTPM, UHPTR, CTR_THRSH, CXT_SIZE,
GAB_CTL, and every bit of MI_MODE but bit 15, which MI_SUSPEND_FLUSH writes in any buffer (R382). -/
def Obligations.NonSecureKeepsPrivilege : Prop :=
  ∀ (i : Instr) (s t : State), s.secure = false → exec i s = .next t →
    t.ggtt = s.ggtt ∧ t.ppgtt = s.ppgtt ∧ t.pdInvalid = s.pdInvalid ∧
    t.regs.hwsPga = s.regs.hwsPga ∧ t.regs.excc = s.regs.excc ∧ t.regs.tail = s.regs.tail ∧ t.regs.head = s.regs.head ∧
    t.regs.start = s.regs.start ∧ t.regs.ctl ||| 0xC00 = s.regs.ctl ||| 0xC00 ∧ t.regs.hwstam = s.regs.hwstam ∧
    t.regs.gabMode = s.regs.gabMode ∧ t.regs.imr = s.regs.imr ∧ t.regs.emr = s.regs.emr ∧
    t.regs.instpm = s.regs.instpm ∧ t.regs.uhptr = s.regs.uhptr ∧ t.regs.ctrThrsh = s.regs.ctrThrsh ∧
    t.regs.cxtSize = s.regs.cxtSize ∧ t.regs.gabCtl = s.regs.gabCtl ∧ t.regs.brsync = s.regs.brsync ∧
    t.regs.bvsync = s.regs.bvsync ∧ t.regs.r22050 = s.regs.r22050 ∧ t.regs.tlbpendSec0 = s.regs.tlbpendSec0 ∧
    t.regs.hwsPgaWritten = s.regs.hwsPgaWritten ∧ t.regs.miMode ||| 0x8000 = s.regs.miMode ||| 0x8000

/-! ## Exceptions -/

/-- Instruction Error (R200, R425, R426): an undefined client or opcode sets ESR bit 0; unmasked in the EMR it reaches the
EIR, and with it Master Error, ISR bit 25, stands; the parser hangs with `pc` on the command. A change of the ISR that HWSTAM and
IMR let through is posted to the status page (R424), to the DWord the platform gives it and although BCS_HWS_PGA may never have
been written, which is the model's choice (log 12, log 23). -/
def Obligations.UndefinedOpcodeHangs : Prop :=
  ∀ (s : State) (w : Word), s.atCommand [w] → Op.ofHeader w = none → (s.engine.run = .idle ∨ s.engine.run = .hung) →
    let r : Regs := { s.regs with esr := s.regs.esr ||| 1 }
    let r' : Regs := { r with eir := eirOf r }
    let new := levels r' s.regs.isr
    let t : State := { s.taken 1 with regs := r', parser := { s.parser with run := .hung } }
    (t.statusOpen new .event → step s = .next (t.signalled new .event)) ∧
    (bit s.regs.emr 0 = false → bit r'.eir 0 ∧ bit new 25) ∧
    (bit s.regs.emr 0 → bit r'.eir 0 = bit s.regs.eir 0)

/-- A page fault (R430, R431) of the parser, shown on MI_STORE_DATA_IMM, on MI_STORE_DATA_INDEX, whose status page fault has
GAB error bit 7, and on the fetch of a command's DWord 0; and of the engine, shown on a one-pixel XY_PIXEL_BLT whose raster
operation reads no destination. The GAB error bit names the kind. Unless GAB_CTL_REG bit 8 lets it continue, ISR bit 29 stands
and the agent that made the access hangs; a fault that continues leaves ISR bit 29 as the pending faults have it, and the write
goes nowhere. Each change of the ISR that HWSTAM and IMR let through is posted to the status page (R424). The model's choices:
that a write which faults and continues is lost and the machine goes on (log 14; R430's own decision D33), the ISR's DWord in the
status page (log 12, log 23). -/
def Obligations.PageFaultTaken : Prop :=
  (∀ (ggtt : Bool) (addr : BitVec 30) (d0 d1 : Word) (s : State) (f : XlatFault),
    let sp : Space := if ggtt then .ggtt else .ppgtt
    let a := (put 0 2 addr : Word).toNat
    let use (rise : Bool) : Use := .fault rise a true .operand
    (ggtt = false ∨ s.secure) → (ggtt ∨ s.ppgttEnabled) → s.translate .bcs sp a true .operand = .error f →
    ((bit s.regs.gabCtl 8 = false ∨ f = .directorySet) → s.faultHungOpen .parser (gabBit false f) use →
      exec (.miStoreDataImm 2 ggtt addr d0 d1) s = .next (s.faultHung .parser (gabBit false f) use)) ∧
    (bit s.regs.gabCtl 8 → f ≠ .directorySet → s.faultPassedOpen .parser (gabBit false f) use → s.canAdvance 4 →
      exec (.miStoreDataImm 2 ggtt addr d0 d1) s = .next ((s.faultPassed .parser (gabBit false f) use).advanced 4))) ∧
  (∀ (offset : BitVec 10) (d0 d1 : Word) (s : State) (f : XlatFault),
    let a := s.regs.hwsp + 4 * offset.toNat
    let gab := if f = .page then 7 else gabBit false f
    let use (rise : Bool) : Use := .fault rise a true .operand
    s.regs.hwsPgaWritten → 16 ≤ offset.toNat → s.translate .bcs .ggtt a true .operand = .error f →
    ((bit s.regs.gabCtl 8 = false ∨ f = .directorySet) → s.faultHungOpen .parser gab use →
      exec (.miStoreDataIndex 1 offset d0 d1) s = .next (s.faultHung .parser gab use)) ∧
    (bit s.regs.gabCtl 8 → f ≠ .directorySet → s.faultPassedOpen .parser gab use → s.canAdvance 3 →
      exec (.miStoreDataIndex 1 offset d0 d1) s = .next ((s.faultPassed .parser gab use).advanced 3))) ∧
  (∀ (s : State) (f : XlatFault),
    let use (rise : Bool) : Use := .fault rise s.fetchPoint.addr false .fetch
    s.atCommand [] → (s.engine.run = .idle ∨ s.engine.run = .hung) →
    s.translate .bcs s.fetchPoint.space s.fetchPoint.addr false .fetch = .error f →
    (bit s.regs.gabCtl 8 = false ∨ f = .directorySet) → s.faultHungOpen .parser (gabBit false f) use →
    step s = .next (s.faultHung .parser (gabBit false f) use)) ∧
  (∀ (len : BitVec 8) (tiled : Bool) (x y : BitVec 16) (s : State) (f : XlatFault),
    let j : Job := { setupJob s.setup s.regs.swctrl tiled with pat := .solid s.setup.br05 }
    let a := j.dst.addr (bpp j.depth) x.toInt y.toInt
    let use (rise : Bool) : Use := .fault rise a.toNat true (.dest x.toInt y.toInt)
    let t : State := State.midway { s with
      br := { s.br.withDependent s.setup .xyPixelBlt tiled false with br22 := pointWord x y } } (.dest x.toInt y.toInt) true
    0 ≤ (setupPen s.setup).pitch.toInt → j.legal 1 → (ropUses j.rop).d = false → j.writesBytes →
    drawnPixels ⟨x.toInt, y.toInt, x.toInt + 1, y.toInt + 1⟩ (clipOf s.setup (bit s.setup.br01 30)) false false =
      [(x.toInt, y.toInt)] →
    0 ≤ a → a + bpp j.depth ≤ 0x100000000 →
    s.translate .blb s.engine.space a.toNat true (.dest x.toInt y.toInt) = .error f →
    ((bit s.regs.gabCtl 8 = false ∨ f = .directorySet) → t.faultHungOpen .engine (gabBit false f) use →
      exec (.xyPixelBlt len tiled x y) s = .next (t.faultHung .engine (gabBit false f) use)) ∧
    (bit s.regs.gabCtl 8 → f ≠ .directorySet → t.faultPassedOpen .engine (gabBit false f) use →
      exec (.xyPixelBlt len tiled x y) s = .next (t.faultPassed .engine (gabBit false f) use)))

/-- The data hang (R435, D5): each of the six immediate commands, legal but for the amount of its immediate data (R137), hangs
the engine and then the parser, and nothing is drawn. So does, at its place in the stream, an immediate command whose DWord
Length does not even cover its fixed DWords (R181, D17). The model's choices: nothing at all is drawn, and the parser hangs in
the same step (log 19); the short command loads no register (log 34); BR09, a working register, keeps its DWord (log 41); a
wrong amount above the 128 bytes of R137 hangs as well, the amount being checked before that limit (log 42). -/
def Obligations.WrongDataAmountHangs : Prop :=
  (∀ (len : BitVec 8) (tiled packed : Bool) (r : Rect) (data : List Word) (s : State),
    let j : Job := { setupJob s.setup s.regs.swctrl tiled with
      src := .monoImm (if packed then .bytePacked else .bitPacked) (rectWidth r) data r.x1.toInt r.y1.toInt
        s.setup.br06 s.setup.br05 (bit s.setup.br01 29) }
    j.wrongAmount (rectHeight r) → exec (.xyTextImmediateBlt len tiled packed r data) s = .next (State.dataHung { s with
      br := (s.br.withDependent s.setup .xyTextImmediateBlt tiled packed).withRect r })) ∧
  (∀ (len : BitVec 8) (d : Draw) (seeds : Seeds) (data : List Word) (s : State),
    let j : Job := { drawJob d s.regs.swctrl with
      pat := .immediate data, hseed := seeds.h.toNat, vseed := seeds.v.toNat }
    j.wrongAmount (rectHeight d.rect) → exec (.xyPatBltImmediate len d seeds data) s = .next (State.dataHung { s with
      br := (s.br.withDraw .xyPatBltImmediate d 0 false false false).withSeeds seeds.h seeds.v })) ∧
  (∀ (len : BitVec 8) (d : Draw) (mode : BitVec 3) (seeds : Seeds) (lo hi : Word) (data : List Word) (s : State),
    let j : Job := { drawJob d s.regs.swctrl with
      pat := .immediate data, hseed := seeds.h.toNat, vseed := seeds.v.toNat, mode := mode, lo := lo, hi := hi }
    chromaPatModeOk mode → j.wrongAmount (rectHeight d.rect) →
    exec (.xyPatChromaBltImmediate len d mode seeds lo hi data) s = .next (State.dataHung { s with
      br := { (s.br.withDraw .xyPatChromaBltImmediate d mode false false false).withSeeds seeds.h seeds.v with
        br18 := lo, br19 := hi } })) ∧
  (∀ (len : BitVec 8) (d : Draw) (transp : Bool) (start : BitVec 3) (bg fg : Word) (data : List Word) (s : State),
    let j : Job := { drawJob d s.regs.swctrl with
      src := .monoImm (.wordAligned start.toNat) (rectWidth d.rect) data d.rect.x1.toInt d.rect.y1.toInt fg bg transp }
    j.wrongAmount (rectHeight d.rect) →
    exec (.xyMonoSrcCopyImmediateBlt len d transp start bg fg data) s = .next (State.dataHung { s with
      br := { (s.br.withDraw .xyMonoSrcCopyImmediateBlt d 0 false transp false).withStart start with
        br18 := bg, br19 := fg } })) ∧
  (∀ (len : BitVec 8) (d : Draw) (hseed : BitVec 3) (c : ColorSrc) (data : List Word) (s : State),
    let j : Job := { drawJob d s.regs.swctrl with
      pat := .immediate data, hseed := hseed.toNat, src := copySource d.rect c s.regs.swctrl }
    j.wrongAmount (copyHeight d.rect c) →
    exec (.xyFullImmediatePatternBlt len d hseed c data) s = .next (State.dataHung { s with
      br := ((s.br.withDraw .xyFullImmediatePatternBlt d 0 false false false).withSeeds hseed 0).withSource c })) ∧
  (∀ (len : BitVec 8) (d : Draw) (transp : Bool) (start hseed : BitVec 3) (src bg fg : Word) (data : List Word) (s : State),
    let j : Job := { drawJob d s.regs.swctrl with
      pat := .immediate data, hseed := hseed.toNat, src := wordSource d.rect start src fg bg transp }
    j.wrongAmount (rectHeight d.rect) →
    exec (.xyFullMonoSrcImmediatePatternBlt len d transp start hseed src bg fg data) s = .next (State.dataHung { s with
      br := { ((s.br.withDraw .xyFullMonoSrcImmediatePatternBlt d 0 false transp false).withSeeds hseed 0).withStart start with
        br12 := src, br18 := bg, br19 := fg } })) ∧
  (∀ (s : State) (o : Op) (ws : List Word), s.atCommand ws → Op.ofHeader (ws.getD 0 0) = some o →
    o.underfed (ws.getD 0 0) → ws.length = o.dwords (ws.getD 0 0) → o.reservedOk (fun k => ws.getD k 0) →
    s.engine.run = .idle → s.canAdvance ws.length →
    (s.parser.inBatch ∨ (s.advanced ws.length).regs.headOff ≠ s.regs.tailOff) →
    step s = .next { (s.taken ws.length).advanced ws.length with
      engine := ⟨.hung, if s.parser.inBatch then s.parser.batchSpace else .ggtt⟩
      parser := { (s.advanced ws.length).parser with run := .hung } })

/-! ## Forms without a meaning -/

/-- The MI forms the spec gives no meaning are refused, each by its name (R207, R373 to R387); the fault of a fetch, the
refusals of a register write and those of MI_ARB_CHECK and of the head report are in other statements. Privilege is checked
before these refusals (D34), so a form that a non-secure buffer drops is not among them. The model's choices: reserved fields come before
privilege (log 62), a timestamp is written at an address with bit 5 set too (log 63), any DWord before the
tail counts as the command that must follow MI_DISPLAY_FLIP (log 50). -/
def Obligations.IllegalMiFormsStop : Prop :=
  ∀ s : State,
    (∀ len ggtt cmpReg sel data addr,
      exec (.miSemaphoreMbox len ggtt false false cmpReg sel data addr) s = .refused .semaphoreForm) ∧
    (∀ len ggtt update sel data addr, (update = true ∨ sel = 1 ∨ sel = 3) →
      exec (.miSemaphoreMbox len ggtt update true true sel data addr) s = .refused .semaphoreForm) ∧
    (∀ len ggtt compare sel data addr,
      exec (.miSemaphoreMbox len ggtt true compare true sel data addr) s = .refused .semaphoreForm) ∧
    (∀ len disables reg data, disables ≠ 0 → disables ≠ 15 →
      protectedFrom s.secure (put 0 2 (reg : BitVec 30) : Word).toNat = false →
      exec (.miLoadRegisterImm len disables reg data) s = .refused .byteWriteDisables) ∧
    (∀ sc cc pc sb pb sa pa, (2 ≤ eventCount sc cc pc sb pb sa pa ∨ 6 ≤ cc.toNat) →
      exec (.miWaitForEvent sc cc pc sb pb sa pa) s = .refused .waitForm) ∧
    (∀ len spare index tlbInv gfdt notify addr toGgtt d0 d1,
      exec (.miFlushDw len spare index tlbInv gfdt 2 notify addr toGgtt d0 d1) s = .refused .reservedValue) ∧
    (∀ len spare index tlbInv gfdt notify addr toGgtt d0 d1, (tlbInv = true ∨ gfdt = true) →
      exec (.miFlushDw len spare index tlbInv gfdt 0 notify addr toGgtt d0 d1) s = .refused .flushForm) ∧
    (∀ len async plane pitch tiled base kind, (2 ≤ kind.toNat ∨ 6 ≤ plane.toNat) →
      exec (.miDisplayFlip len async plane pitch tiled base kind) s = .refused .reservedValue) ∧
    (∀ len plane pitch tiled base, plane.toNat < 6 → (tiled = false ∨ (plane ≠ 0 ∧ plane ≠ 1 ∧ plane ≠ 4)) →
      exec (.miDisplayFlip len true plane pitch tiled base 1) s = .refused .flipForm) ∧
    (∀ spare index tlbInv gfdt notify addr toGgtt d0 d1, bit (put 0 3 (addr : BitVec 29)) 5 →
      exec (.miFlushDw 2 spare index tlbInv gfdt 1 notify addr toGgtt d0 d1) s = .refused .flushForm) ∧
    (∀ len spare tlbInv gfdt op notify addr toGgtt d0 d1, s.secure = false → s.ppgttEnabled →
      (op = 3 ∨ (op = 1 ∧ (len ≠ 2 ∨ bit (put 0 3 (addr : BitVec 29)) 5 = false))) →
      exec (.miFlushDw len spare true tlbInv gfdt op notify addr toGgtt d0 d1) s = .refused .perProcessStatusPage) ∧
    (∀ len async plane pitch tiled base, plane.toNat < 6 →
      exec (.miDisplayFlip len async plane pitch tiled base (if async then 0 else 1)) s = .refused .flipForm) ∧
    (∀ len pitch tiled base, flipInLine s → s.canAdvance 3 → s.parser.inBatch = false →
      (s.advanced 3).regs.headOff = s.regs.tailOff →
      exec (.miDisplayFlip len false 0 pitch tiled base 0) s = .refused .noFollowingCommand) ∧
    (∀ len pitch tiled base, flipInLine s = false →
      exec (.miDisplayFlip len false 0 pitch tiled base 0) s = .refused .flipCacheLine) ∧
    (∀ ggtt addr d0 d1, (if ggtt then s.secure else s.ppgttEnabled) → (put 0 2 (addr : BitVec 30) : Word).toNat % 8 ≠ 0 →
      exec (.miStoreDataImm 3 ggtt addr d0 d1) s = .refused .qwordAlignment) ∧
    (∀ len ggtt async reg addr, s.secure → (ggtt = true ∨ s.ppgttEnabled) →
      ((0x8800 ≤ reg.toNat * 4 ∧ reg.toNat * 4 ≤ 0x88FF) ∨ 0xC0000 ≤ reg.toNat * 4) →
      exec (.miLoadRegisterMem len ggtt async reg addr) s = .refused .registerRange) ∧
    (∀ len addr, s.parser.inBatch → s.parser.batchSpace = .ggtt → s.ppgttEnabled →
      exec (.miBatchBufferStart len true addr) s = .refused .placement) ∧
    (∀ len offset d0 d1, s.regs.hwsPgaWritten = false →
      exec (.miStoreDataIndex len offset d0 d1) s = .refused .statusPageUnset) ∧
    (∀ len offset d0 d1, s.regs.hwsPgaWritten → offset.toNat < 16 →
      exec (.miStoreDataIndex len offset d0 d1) s = .refused .statusPageReserved) ∧
    (∀ offset d0 d1, s.regs.hwsPgaWritten → 16 ≤ offset.toNat → (s.regs.hwsp + 4 * offset.toNat) % 8 ≠ 0 →
      exec (.miStoreDataIndex 2 offset d0 d1) s = .refused .qwordAlignment) ∧
    (∀ len entry data, s.secure → exec (.miUpdateGtt len false entry data) s = .refused .addressSpace) ∧
    (∀ len entry, s.secure → exec (.miUpdateGtt len true entry []) s = .refused .illegalLength) ∧
    (s.ppgttEnabled = false →
      (∀ len addr, exec (.miBatchBufferStart len true addr) s = .refused .addressSpace) ∧
      (∀ len addr d0 d1, exec (.miStoreDataImm len false addr d0 d1) s = .refused .addressSpace) ∧
      (∀ len reg addr, exec (.miStoreRegisterMem len false reg addr) s = .refused .addressSpace) ∧
      (∀ len async reg addr, protectedFrom s.secure (reg.toNat * 4) = false →
        exec (.miLoadRegisterMem len false async reg addr) s = .refused .addressSpace))

/-- The BLT forms the spec gives no meaning are refused, each by its name: reserved enumeration values (R312, R316), a
pattern off its boundary (R40), a raster operation that uses an operand the command lacks (R224), misaligned surfaces and
negative pitches (R251, R257), sizes beyond a limit (R39, R136, R137), addresses outside 32 bits (R121), a cacheable
destination that is tiled or whose source is cacheable too (R161). Each is shown on a command that can meet it. The
model's choices: heights and widths above 13 bits are refused (log 17), cacheable memory is judged at each access (log 25),
an immediate source of more than 128 bytes is refused only when its amount is exact (log 42), linear pitches are multiples
of 4 (log 47). -/
def Obligations.IllegalBltFormsStop : Prop :=
  ∀ s : State,
    (∀ len d mode seeds pat lo hi, chromaPatModeOk mode = false →
      exec (.xyPatChromaBlt len d mode seeds pat lo hi) s = .refused .reservedValue) ∧
    (∀ len d mode seeds lo hi data, chromaPatModeOk mode = false →
      exec (.xyPatChromaBltImmediate len d mode seeds lo hi data) s = .refused .reservedValue) ∧
    (∀ len d transp fixed seeds bg fg, fixedPatternOk fixed = false →
      exec (.xyMonoPatFixedBlt len d transp fixed seeds bg fg) s = .refused .reservedValue) ∧
    (∀ len d seeds pat, patAddr pat % (64 * bpp d.pen.depth) ≠ 0 →
      exec (.xyPatBlt len d seeds pat) s = .refused .patternMisaligned) ∧
    (∀ len d seeds c pat, patAddr pat % (64 * bpp d.pen.depth) ≠ 0 →
      exec (.xyFullBlt len d seeds c pat) s = .refused .patternMisaligned) ∧
    (∀ len d color, (ropUses d.pen.rop).s → exec (.xyColorBlt len d color) s = .refused .ropOperand) ∧
    (∀ len d c, (ropUses d.pen.rop).p → exec (.xySrcCopyBlt len d c) s = .refused .ropOperand) ∧
    (∀ len d color, (ropUses d.pen.rop).s = false → d.tiled = false →
      (d.base.toNat % bpp d.pen.depth ≠ 0 ∨ d.pen.pitch.toInt % 4 ≠ 0) →
      exec (.xyColorBlt len d color) s = .refused .misaligned) ∧
    (∀ len d color, (ropUses d.pen.rop).s = false → d.tiled = true → d.pen.pitch.toInt < 0 →
      exec (.xyColorBlt len d color) s = .refused .negativePitch) ∧
    (∀ len d transp start src bg fg, (ropUses d.pen.rop).p = false → d.pen.pitch.toInt < 0 →
      exec (.xyMonoSrcCopyBlt len d transp start src bg fg) s = .refused .negativePitch) ∧
    (∀ len d transp start src bg fg, (ropUses d.pen.rop).p = false → 0 ≤ d.pen.pitch.toInt →
      (drawJob d s.regs.swctrl).dst.legal (bpp d.pen.depth) → 32745 < rectWidth d.rect →
      exec (.xyMonoSrcCopyBlt len d transp start src bg fg) s = .refused .widthLimit) ∧
    (∀ len d transp start bg fg data, (ropUses d.pen.rop).p = false → 0 ≤ d.pen.pitch.toInt →
      (drawJob d s.regs.swctrl).dst.legal (bpp d.pen.depth) → rectWidth d.rect ≤ 32745 →
      (data.length : Int) = neededDwords ((MonoLayout.wordAligned start.toNat).bytes (rectWidth d.rect) (rectHeight d.rect)) →
      128 < (MonoLayout.wordAligned start.toNat).bytes (rectWidth d.rect) (rectHeight d.rect) →
      exec (.xyMonoSrcCopyImmediateBlt len d transp start bg fg data) s = .refused .immediateTooLarge) ∧
    (∀ len mask pen height width dst color, (dst.toNat % bpp pen.depth ≠ 0 ∨ pen.pitch.toInt % 4 ≠ 0) →
      exec (.colorBlt len mask pen height width dst color) s = .refused .misaligned) ∧
    (∀ len mask xdir pen height width dst spitch src, spitch.toInt % 4 ≠ 0 →
      exec (.srcCopyBlt len mask xdir pen height width dst spitch src) s = .refused .misaligned) ∧
    (∀ len mask rop pitch height width dst color, (ropUses rop).s = false → pitch.toInt % 4 = 0 → 0x1FFF < height.toNat →
      exec (.colorBlt len mask ⟨.c8, rop, pitch⟩ height width dst color) s = .refused .br14Range) ∧
    (∀ len tiled x y, (setupPen s.setup).pitch.toInt < 0 →
      exec (.xyPixelBlt len tiled x y) s = .refused .negativePitch) ∧
    (∀ len tiled x y, 0 ≤ (setupPen s.setup).pitch.toInt → (ropUses (setupPen s.setup).rop).s →
      exec (.xyPixelBlt len tiled x y) s = .refused .ropOperand) ∧
    (∀ len tiled packed r src, (ropUses (setupPen s.setup).rop).p →
      exec (.xyTextBlt len tiled packed r src) s = .refused .ropOperand) ∧
    (∀ len tiled seeds r, s.setup.monoPattern = false → patAddr s.setup.br07 % (64 * bpp (setupPen s.setup).depth) ≠ 0 →
      exec (.xyScanlinesBlt len tiled seeds r) s = .refused .patternMisaligned) ∧
    (∀ len tiled x y,
      let j : Job := { setupJob s.setup s.regs.swctrl tiled with pat := .solid s.setup.br05 }
      let n := bpp j.depth
      let a := j.dst.addr n x.toInt y.toInt
      0 ≤ (setupPen s.setup).pitch.toInt → j.legal 1 → (ropUses j.rop).d = false → j.writesBytes →
      drawnPixels ⟨x.toInt, y.toInt, x.toInt + 1, y.toInt + 1⟩ (clipOf s.setup (bit s.setup.br01 30)) false false =
        [(x.toInt, y.toInt)] →
      (a < 0 ∨ 0x100000000 < a + n) → exec (.xyPixelBlt len tiled x y) s = .refused .addressOutOfRange) ∧
    (∀ len d c p,
      let j : Job := { drawJob d s.regs.swctrl with src := copySource d.rect c s.regs.swctrl }
      j.legal (copyHeight d.rect c) → (ropUses j.rop).d = false → j.writesBytes → copyPixels d c s.setup = [p] →
      j.sourceReady s p.1 p.2 → s.physCached (j.dst.addr (bpp j.depth) p.1 p.2) (bpp j.depth) true (.dest p.1 p.2) →
      (d.tiled ∨ j.sourceCached s p.1 p.2) →
      exec (.xySrcCopyBlt len d c) s = .refused .cacheability)

/-! ## Registers, interrupts, `pc` -/

/-- What the host and the environment do between commands. A register write by the host (R61): `Regs.written` for the masked
registers, the plain read/write ones and the interrupt masks and errors; the read-only registers keep their value, 22224h too,
the reserved half of BCS_PP_DCLV (R78, D9, log 39); a forbidden write is refused (R87, R88, R94, R103); a one written to
RBWait clears it (R90) and ends the wait of a waiting parser (R385); when a mask or error changes an unmasked ISR bit, rising
or falling, the ISR is posted to the status page (R424; log 12, log 23). Clearing IIR bits leaves, or sets again, those whose
ISR bit is 1 and unmasked (R421). A byte of the render cache that is written out leaves the cache and is the byte of memory,
no other changing, and of a byte written again the earlier write goes first (R162); the oldest posted write reaches memory
(R165); a TLB takes what a translation has returned since the last invalidation, and a directory entry one went through, and
nothing else, an access that faults leaving nothing to take (R155); the display engine completes the flips of one kind on one
plane and their flag ends (R387). The model's choices: the end of a wait clears every wait record (log 44), a TLB is filled by
an event of its own (log 18), a flip's flag ends with the event alone (log 30), BCS_IMR and BCS_EMR store the reserved bits
they are given (log 39), a write to RBWait ends the wait by the old fields before it changes them (log 53), and a tail outside
the ring is refused when the ring is enabled or becomes so (log 55). -/
def Obligations.HostWritesRegisters : Prop :=
  ∀ (s : State) (es : List EnvEvent), s.quiet →
    (∀ off w r, s.schedule = .hostWrite off w :: es → s.regs.written off w = some r →
      step s = .next { s with regs := r, schedule := es }) ∧
    (∀ off w, s.schedule = .hostWrite off w :: es → (readOnlyReg off ∨ off = 0x22224) →
      step s = .next { s with schedule := es }) ∧
    (∀ off w f, s.schedule = .hostWrite off w :: es → s.regs.writeRefused off w = some f → step s = .refused f) ∧
    (∀ w, s.schedule = .hostWrite 0x2203C w :: es → bit w 11 → s.regs.writeRefused 0x2203C w = none →
      ((∀ i, s.parser.run ≠ .waitEvent i) → step s = .next { s with
        regs := { s.regs with ctl := setBit (takeBits s.regs.ctl w 0x001FF007) 11 false }, schedule := es }) ∧
      (∀ i, s.parser.run = .waitEvent i → s.canAdvance 1 →
        ∃ t, step s = .next t ∧ t.parser.run = .running ∧ bit t.regs.ctl 11 = false ∧
          t.regs.ctl = setBit (takeBits s.regs.ctl w 0x001FF007) 11 false ∧
          t.regs.syncFlip = s.regs.syncFlip &&& ~~~waitRecords ∧ t.parser.batchAddr = (s.advanced 1).parser.batchAddr ∧
          t.regs.head = (s.advanced 1).regs.head)) ∧
    (∀ off w r, s.schedule = .hostWrite off w :: es → s.regs.writeErrors off w = some r → r.followingWrites →
      (s.parserPhys .ggtt s.regs.statusAddr true .event).isSome →
      step s = .next { s with
        regs := r.following
        posted := s.posted ++ [cellsAt (s.parserAddr .ggtt s.regs.statusAddr true .event) (wordBytes r.following.isr)]
        xlats := (s.noteXlat .bcs .ggtt s.regs.statusAddr true .event).xlats
        schedule := es }) ∧
    (∀ w, s.schedule = .hostClearIir w :: es → eirOf s.regs = s.regs.eir → levels s.regs s.regs.isr = s.regs.isr →
      step s = .next { s with
        regs := { s.regs with iir := (s.regs.iir &&& ~~~w) ||| (s.regs.isr &&& ~~~s.regs.imr) }
        schedule := es }) ∧
    (∀ a b, s.schedule = .evict a :: es → Memory.wf s.mem → sorted s.rc →
      (lookup s.rcPast a = none → lookup s.rc a = some b →
        ∃ t, step s = .next t ∧ Memory.read t.mem a = b ∧ lookup t.rc a = none ∧ t.renderRead a = b ∧
          ∀ x, x ≠ a → Memory.read t.mem x = Memory.read s.mem x ∧ lookup t.rc x = lookup s.rc x) ∧
      (lookup s.rcPast a = some b → step s = .next { s with
        mem := Memory.write s.mem a b, rcPast := erase s.rcPast a, schedule := es })) ∧
    (∀ p ps, s.schedule = .drain :: es → s.posted = p :: ps →
      step s = .next { s with mem := Memory.writeAll s.mem p, posted := ps, schedule := es }) ∧
    (∀ k, s.schedule = .tlbFill k :: es →
      (∀ e, s.xlats[k]? = some e → ∃ l, step s = .next { s with tlb := l, schedule := es } ∧ e ∈ l ∧
        ∀ d, d ∈ l ↔ d = e ∨ d ∈ s.tlb) ∧
      (s.xlats[k]? = none → step s = .next { s with schedule := es })) ∧
    (∀ i, s.schedule = .pdFill i :: es →
      ((∃ e ∈ s.xlats, e.space = .ppgtt ∧ e.page / 1024 = i) → ∃ l, step s = .next { s with pdTlb := l, schedule := es } ∧
        ∀ k, l.contains k = (k == i || s.pdTlb.contains k)) ∧
      ((∀ e ∈ s.xlats, e.space = .ppgtt → e.page / 1024 ≠ i) → step s = .next { s with schedule := es })) ∧
    (∀ u sp a w use p, s.translate u sp a w use = .ok p → s.tlb = [] →
      (⟨u, s.effective sp, a / 4096, tableEntry (s.table (s.effective sp)) (a / 4096)⟩ : TlbEntry) ∈
        (s.noteXlat u sp a w use).xlats) ∧
    (∀ u sp a w use e, s.translate u sp a w use = .error e → s.noteXlat u sp a w use = s) ∧
    (∀ plane async, s.schedule = .flipDone plane async :: es →
      step s = .next { s with
        flips := s.flips.filter fun f : Flip => f.plane != plane || f.async != async
        regs := { s.regs with syncFlip := s.regs.syncFlip &&& ~~~flipPendingBit plane.toNat async }
        schedule := es })

/-- The ring head (R24, R88): moving on inside the ring keeps the wrap count; passing the end of the ring goes on at its
start and counts one wrap. -/
def Obligations.HeadWrapsAtRingEnd : Prop :=
  ∀ (head : Word) (size n : Nat), size ≤ 0x200000 → size % 4 = 0 →
    let off := (field head 2 19).toNat * 4
    let head' := advanceHead head size n
    field head' 0 2 = 0 ∧
    (off + 4 * n < size → (field head' 2 19).toNat * 4 = off + 4 * n ∧ field head' 21 11 = field head 21 11) ∧
    (size ≤ off + 4 * n → off + 4 * n < 2 * size →
      (field head' 2 19).toNat * 4 = off + 4 * n - size ∧ field head' 21 11 = field head 21 11 + 1)

/-- A sync flush (R164, R429), by itself or as an event: once requested in BCS_INSTPM bit 5 and the engine is done, the
caches are written out if bit 6 asks or the change of Sync Status makes a hardware status write (R93), the TLBs invalidated
if bit 9 asks, bits 5 and 6 cleared, and Sync Status raised in the ISR, which is posted if it is a change that HWSTAM and IMR
let through (R424). When the pulse ends with the next step, its fall is posted in the same way. The model's choices: it waits
for an idle engine, no cache is touched otherwise, posted writes stay and so does bit 9 (log 32); the pulse lasts until the
next step (D32, log 40); the ISR's DWord in the status page (log 12), written although BCS_HWS_PGA never was (log 23). -/
def Obligations.SyncFlushActs : Prop :=
  (∀ (s : State) (es : List EnvEvent), s.quiet → s.syncFlushReady →
    (s.schedule = [] ∧ es = [] ∨ s.schedule = .syncFlush :: es) →
    let writes := needsStatusWrite s.regs s.regs.isr (setBit s.regs.isr 24 true)
    let u : State := if bit s.regs.instpm 6 ∨ writes then s.flushCaches else s
    let v : State := if bit s.regs.instpm 9 then { u with tlb := [], pdTlb := [], xlats := [] } else u
    let r : Regs := { s.regs with instpm := setBit (setBit s.regs.instpm 5 false) 6 false }
    let t : State := { v with regs := r.withIsr (setBit s.regs.isr 24 true), schedule := es }
    (writes = false → step s = .next t) ∧
    (writes → (v.parserPhys .ggtt s.regs.statusAddr true .event).isSome →
      step s = .next { t with
        posted := s.posted ++
          [cellsAt (v.parserAddr .ggtt s.regs.statusAddr true .event) (wordBytes (setBit s.regs.isr 24 true))]
        xlats := (v.noteXlat .bcs .ggtt s.regs.statusAddr true .event).xlats })) ∧
  (∀ (s : State) (n : Nat) (es : List EnvEvent), s.schedule = .tick n :: es → s.regs.isr &&& pulseInts ≠ 0 →
    let new := s.regs.isr &&& ~~~pulseInts
    let r : Regs := s.regs.withIsr new
    let t : State := { s with
      regs := { r with timestamp := r.timestamp + BitVec.ofNat 36 n }
      readAhead := s.readAhead.filter s.stillAhead
      schedule := es }
    (needsStatusWrite s.regs s.regs.isr new = false → step s = .next t) ∧
    (needsStatusWrite s.regs s.regs.isr new → (s.parserPhys .ggtt s.regs.statusAddr true .pulse).isSome →
      step s = .next { t with
        posted := s.posted ++ [cellsAt (s.parserAddr .ggtt s.regs.statusAddr true .pulse) (wordBytes new)]
        xlats := (s.noteXlat .bcs .ggtt s.regs.statusAddr true .pulse).xlats }))

/-! ## Memory and pixels -/

/-- What the caches show (R162, R163). A flush makes the render cache visible: afterwards every byte of memory is what a BLT
would have read, and both caches read the same. A byte the host writes goes to memory and changes neither cache, so a BLT sees
it only where no cache holds an older one. The texture cache keeps only a byte that a texture read has returned since the last
flush, and only where it holds none; patterns then read that byte there, whatever memory holds later. That the keeping is
settled after the read, by an event, is the model's choice of form (log 56). In the middle of a command, right before any access
of the engine, a byte of the render cache may reach memory, and the texture read there sees it (R162); that this is planned by an
event beforehand is the model's choice of form (log 61). -/
def Obligations.FlushMakesWritesVisible : Prop :=
  (∀ s : State, Memory.wf s.mem → sorted s.rc → s.rcOk → ∀ a,
    Memory.read s.flushCaches.mem a = s.renderRead a ∧ s.flushCaches.renderRead a = s.renderRead a ∧
      s.flushCaches.textureRead a = s.renderRead a) ∧
  (∀ (s : State) (a : Nat) (b : Byte) (es : List EnvEvent), s.quiet → Memory.wf s.mem → s.schedule = .hostStore a b :: es →
    ∃ m, step s = .next { s with mem := m, schedule := es } ∧ Memory.read m a = b ∧
      (∀ x, x ≠ a → Memory.read m x = Memory.read s.mem x) ∧
      ({ s with mem := m } : State).renderRead a = (lookup s.rc a).getD b ∧
      ({ s with mem := m } : State).textureRead a = (lookup s.tc a).getD b) ∧
  (∀ (s : State) (a : Nat) (es : List EnvEvent), s.quiet → s.schedule = .texFill a :: es →
    (∀ b, lookup s.tcRead a = some b → lookup s.tc a = none →
      ∃ c, step s = .next { s with tc := c, schedule := es } ∧ lookup c a = some b ∧
        (∀ m, ({ s with tc := c, mem := m } : State).textureRead a = b) ∧ ∀ x, x ≠ a → lookup c x = lookup s.tc x) ∧
    ((lookup s.tcRead a = none ∨ lookup s.tc a ≠ none) → step s = .next { s with schedule := es })) ∧
  (∀ (s : State) (a : Nat), lookup s.flushCaches.tcRead a = none) ∧
  (∀ (s : State) (l : List MidEvent) (es : List EnvEvent), s.quiet → s.schedule = .midEvents l :: es →
    step s = .next { s with midEvents := l, schedule := es }) ∧
  ∀ (s : State) (use use' : Use) (w w' : Bool) (a : Nat) (b : Byte), s.midEvents = [⟨use, w, .evict a⟩] →
    Memory.wf s.mem → sorted s.rc → lookup s.rcPast a = none → lookup s.rc a = some b →
    (s.midway use w).renderRead a = b ∧ (lookup s.tc a = none → (s.midway use w).textureRead a = b) ∧
    lookup (s.midway use w).rc a = none ∧ ((use', w') ≠ (use, w) → s.midway use' w' = s)

/-- A raster operation (R222): bit `i` of the result is the bit of the code that the bits `i` of pattern, source and
destination select. -/
def Obligations.RopSelectsCodeBit : Prop :=
  ∀ (rop : BitVec 8) (p s d : Word) (i : Nat), i < 32 →
    (rop3 rop p s d).getLsbD i =
      rop.getLsbD (4 * (p.getLsbD i).toNat + 2 * (s.getLsbD i).toNat + (d.getLsbD i).toNat)

/-- An operand is used exactly when the result can depend on it (R223). -/
def Obligations.RopUsesExactly : Prop :=
  ∀ rop : BitVec 8,
    ((ropUses rop).d = false ↔ ∀ p s d d', rop3 rop p s d = rop3 rop p s d') ∧
    ((ropUses rop).s = false ↔ ∀ p s s' d, rop3 rop p s d = rop3 rop p s' d) ∧
    ((ropUses rop).p = false ↔ ∀ p p' s d, rop3 rop p s d = rop3 rop p' s d)

/-- What painting leaves alone (R162, R241, R255): memory and the texture cache, when nothing is to happen to them in the
middle of commands (log 61), and every byte outside the bytes of the pixels that this does not disturb; of one pixel, the
bytes its mask disables, while an enabled byte of no overlap becomes the result's and one of an overlap a free value (R486). A
byte of a copy is overlapped, where the overlap does not conform, exactly when its graphics address is one the source reads or
its place in memory is (R330). The model's choices, where R486 lets every overlapped destination byte take any value: a masked
byte keeps its value inside such an overlap, and these bytes are the overlapped ones, by graphics address or by place in
memory (log 15). Of texture reads a pixel records the bytes its pattern and monochrome source returned and no other, for the
texture cache to keep (log 56). -/
def Obligations.PaintTouchesItsPixels : Prop :=
  (∀ (j : Job) (overlapped : Nat → Nat → Bool) (px : List (Int × Int)) (s : State),
    (s.midEvents = [] → (j.paint overlapped s px).mem = s.mem ∧ (j.paint overlapped s px).tc = s.tc) ∧
    (Memory.wf s.mem → sorted s.rc → s.rcOk → ∀ a, j.footprint s px a = false → s.disturbs a = false →
      (j.paint overlapped s px).renderRead a = s.renderRead a)) ∧
  (∀ (j : Job) (overlapped : Nat → Nat → Bool) (x y : Int) (s : State) (a : Nat),
    lookup (j.paintPixel overlapped s (x, y)).tcRead a =
      if a ∈ j.monoBytes s x y then some (((j.afterPattern s x y).midway (.source x y) false).textureRead a)
      else if a ∈ j.patternBytes s x y then some ((s.midway (.pattern x y) false).textureRead a)
      else lookup s.tcRead a) ∧
  (∀ (overlapped : Nat → Nat → Bool) (a phys n : Nat) (enabled : Nat → Bool) (v : Word) (s : State) (k : Nat), k < n →
    (enabled k = false →
      (putPixel overlapped a phys enabled v (List.range n) s).renderRead (phys + k) = s.renderRead (phys + k)) ∧
    (enabled k → overlapped (a + k) (phys + k) = false →
      (putPixel overlapped a phys enabled v (List.range n) s).renderRead (phys + k) = byteOf v k) ∧
    (enabled k → overlapped (a + k) (phys + k) →
      ∃ m, (putPixel overlapped a phys enabled v (List.range n) s).renderRead (phys + k) = Config.freeByte m)) ∧
  (∀ (j : Job) (f : Surface) (ox oy : Int) (conforming : Surface → Surface → Bool) (px : List (Int × Int)) (s : State)
    (a phys : Nat), j.src = .color f ox oy → (ropUses j.rop).s →
    let n := bpp j.depth
    let at' (p : Int × Int) := f.addr n (p.1 + ox) (p.2 + oy)
    (overlapOf j conforming px s a phys = true ↔ conforming j.dst f = false ∧ ∃ p ∈ px,
      (at' p ≤ (a : Int) ∧ (a : Int) < at' p + n) ∨
      ((s.phys (at' p) n false (.source p.1 p.2)).isSome ∧ s.physAddr (at' p) n false (.source p.1 p.2) ≤ phys ∧
        phys < s.physAddr (at' p) n false (.source p.1 p.2) + n)))

/-- A solid fill (R310 with raster operation F0h, R222, R241, R250): in a linear surface every pixel of the region takes the
colour in its enabled bytes, and every other byte keeps its value, as later BLTs read them; but for bytes that the host or an
earlier posted write is to change in the middle of the command (log 61). Which bytes of a pixel the mask enables is PRESUMED
(log 8). -/
def Obligations.FillPaintsRegion : Prop :=
  ∀ (len : BitVec 8) (d : Draw) (color : Word) (s : State),
    let n := bpp d.pen.depth
    let j : Job := { drawJob d s.regs.swctrl with pat := .solid color }
    let px := drawnPixels (rectBox d.rect) (clipOf s.setup d.clip) false false
    d.tiled = false → d.pen.rop = 0xF0 → j.legal (rectHeight d.rect) → j.ready s px →
    Memory.wf s.mem → sorted s.rc → s.rcOk →
    ∃ t, exec (.xyColorBlt len d color) s = .next t ∧
      (∀ p ∈ px, ∀ k < n,
        let a := s.physAddr (d.base.toNat + p.2 * d.pen.pitch.toInt + p.1 * n) n true (.dest p.1 p.2)
        s.disturbs (a + k) = false →
        t.renderRead (a + k) = if byteEnable d.pen.depth d.mask k then byteOf color k else s.renderRead (a + k)) ∧
      (∀ a, j.footprint s px a = false → s.disturbs a = false → t.renderRead a = s.renderRead a)

/-- A copy inside one surface (R252, R330 with raster operation CCh): whatever the overlap, every pixel of the region takes
the value its source pixel had before the command. The surface is linear, source and destination have the same base and
the same pitch of a positive multiple of 64 bytes, no line of either runs over into the next, addresses map to
themselves, and neither the host nor an earlier posted write is to change the byte in the middle of the command (log 61). -/
def Obligations.OverlappingCopyIsSnapshot : Prop :=
  ∀ (len : BitVec 8) (d : Draw) (c : ColorSrc) (s : State),
    let n := bpp d.pen.depth
    let pitch := d.pen.pitch.toInt
    let j : Job := { drawJob d s.regs.swctrl with src := copySource d.rect c s.regs.swctrl }
    let px := copyPixels d c s.setup
    let ox := c.x1.toInt - d.rect.x1.toInt
    let oy := c.y1.toInt - d.rect.y1.toInt
    d.tiled = false → c.tiled = false → c.base = d.base → c.pitch = d.pen.pitch → 0 < pitch → pitch % 64 = 0 →
    d.pen.rop = 0xCC → (∀ k < n, byteEnable d.pen.depth d.mask k) →
    (∀ p ∈ px, (p.1 + 1) * n ≤ pitch ∧ (p.1 + ox + 1) * n ≤ pitch) →
    (∀ (a : Int) (w : Bool) (use : Use), 0 ≤ a → a + n ≤ 0x100000000 → s.physAddr a n w use = a.toNat) →
    j.legal (copyHeight d.rect c) → j.ready s px → Memory.wf s.mem → sorted s.rc → s.rcOk →
    ∃ t, exec (.xySrcCopyBlt len d c) s = .next t ∧
      ∀ p ∈ px, ∀ k < n,
        let dest := (d.base.toNat + p.2 * pitch + p.1 * n).toNat + k
        let source := (d.base.toNat + (p.2 + oy) * pitch + (p.1 + ox) * n).toNat + k
        s.disturbs dest = false → s.disturbs source = false → t.renderRead dest = s.renderRead source
end

