-- ==== Sys2Proof/Laws/Bits.lean ====
section
/-! SUPPORT. Small lemmas about bit fields: a field put at its place is read back, and no other field sees it. -/

namespace Sys2Proof

theorem field_put_same {n : Nat} (w : Word) (lo : Nat) (v : BitVec n) (h : lo + n ≤ 32) :
    field (put w lo v) lo n = field w lo n ||| v := by
  ext i hi
  simp only [field, put, BitVec.getElem_extractLsb', BitVec.getLsbD_or, BitVec.getLsbD_shiftLeft,
    BitVec.getLsbD_setWidth, BitVec.getElem_or]
  have h1 : lo + i < 32 := by omega
  have h2 : i < 32 := by omega
  simp [h1, h2, BitVec.getLsbD_eq_getElem hi]

theorem field_put_other {n : Nat} (w : Word) (lo lo' m : Nat) (v : BitVec n) (h : lo' + m ≤ lo ∨ lo + n ≤ lo') :
    field (put w lo v) lo' m = field w lo' m := by
  ext i hi
  simp only [field, put, BitVec.getElem_extractLsb', BitVec.getLsbD_or, BitVec.getLsbD_shiftLeft,
    BitVec.getLsbD_setWidth]
  rcases h with h | h
  · have h1 : lo' + i < lo := by omega
    simp [h1]
  · have h1 : n ≤ lo' + i - lo := by omega
    rw [BitVec.getLsbD_of_ge v _ h1]
    simp

theorem bit_put_other {n : Nat} (w : Word) (lo j : Nat) (v : BitVec n) (h : j < lo ∨ lo + n ≤ j) :
    bit (put w lo v) j = bit w j := by
  simp only [bit, put, BitVec.getLsbD_or, BitVec.getLsbD_shiftLeft, BitVec.getLsbD_setWidth]
  rcases h with h | h
  · simp [h]
  · rw [BitVec.getLsbD_of_ge v _ (by omega)]
    simp

theorem bit_putBit_same (w : Word) (i : Nat) (b : Bool) (h : i < 32) : bit (putBit w i b) i = (bit w i || b) := by
  simp [bit, putBit, put, h]

theorem field_putBit_other (w : Word) (i lo m : Nat) (b : Bool) (h : lo + m ≤ i ∨ i + 1 ≤ lo) :
    field (putBit w i b) lo m = field w lo m :=
  field_put_other w i lo m (BitVec.ofBool b) h

theorem bit_putBit_other (w : Word) (i j : Nat) (b : Bool) (h : j < i ∨ i + 1 ≤ j) : bit (putBit w i b) j = bit w j :=
  bit_put_other w i j (BitVec.ofBool b) h

@[simp] theorem field_zero (lo n : Nat) : field 0 lo n = 0 := by
  ext i hi
  simp [field]

@[simp] theorem bit_zero (i : Nat) : bit 0 i = false := by simp [bit]

theorem bit_setBit_same (w : Word) (i : Nat) (b : Bool) (h : i < 32) : bit (setBit w i b) i = b := by
  cases b <;> simp [bit, setBit, h]

theorem bit_setBit_other (w : Word) (i j : Nat) (b : Bool) (h : j ≠ i) : bit (setBit w i b) j = bit w j := by
  have : ¬ (j - i = 0 ∧ i ≤ j) := by omega
  cases b
  · simp only [bit, setBit, Bool.false_eq_true, if_false, BitVec.getLsbD_and, BitVec.getLsbD_not,
      BitVec.getLsbD_shiftLeft]
    by_cases h32 : j < 32
    · simp [h32]
      omega
    · rw [BitVec.getLsbD_of_ge w j (by omega)]
      simp
  · simp only [bit, setBit, if_true, BitVec.getLsbD_or, BitVec.getLsbD_shiftLeft]
    simp
    omega

/-- A field that does not hold bit `i` does not see it set or cleared. -/
theorem field_setBit_other (w : Word) (i lo n : Nat) (b : Bool) (h : i < lo ∨ lo + n ≤ i) :
    field (setBit w i b) lo n = field w lo n := by
  ext k hk
  simp only [field, BitVec.getElem_extractLsb']
  exact bit_setBit_other w i (lo + k) b (by omega)

/-- Setting a bit to what it is changes nothing. -/
theorem setBit_self (w : Word) (i : Nat) (b : Bool) (h : bit w i = b) : setBit w i b = w := by
  apply BitVec.eq_of_getLsbD_eq
  intro j hj
  by_cases hji : j = i
  · subst hji
    have := bit_setBit_same w j b hj
    simp only [bit] at this h
    rw [this, h]
  · exact bit_setBit_other w i j b hji

theorem bytesWord_wordBytes (w : Word) : bytesWord (wordBytes w) = w := by
  simp only [bytesWord, wordBytes, byteOf]
  apply BitVec.eq_of_getLsbD_eq
  intro j hj
  interval_cases j <;> simp

@[simp] theorem wordBytes_length (w : Word) : (wordBytes w).length = 4 := rfl

end Sys2Proof
end

