-- ==== Sys2Proof/Laws/State.lean ====
section
/-! SUPPORT. One lemma per field per update of the state: no later proof unfolds a record update. -/

namespace Sys2Proof.Machine

/-! ## `renderWrite` -/

@[simp] theorem State.renderWrite_br (s : State) (a : Nat) (b : Byte) : (s.renderWrite a b).br = s.br := rfl
@[simp] theorem State.renderWrite_setup (s : State) (a : Nat) (b : Byte) : (s.renderWrite a b).setup = s.setup := rfl
@[simp] theorem State.renderWrite_regs (s : State) (a : Nat) (b : Byte) : (s.renderWrite a b).regs = s.regs := rfl
@[simp] theorem State.renderWrite_parser (s : State) (a : Nat) (b : Byte) : (s.renderWrite a b).parser = s.parser := rfl
@[simp] theorem State.renderWrite_engine (s : State) (a : Nat) (b : Byte) : (s.renderWrite a b).engine = s.engine := rfl
@[simp] theorem State.renderWrite_mem (s : State) (a : Nat) (b : Byte) : (s.renderWrite a b).mem = s.mem := rfl
@[simp] theorem State.renderWrite_rc (s : State) (a : Nat) (b : Byte) : (s.renderWrite a b).rc = insert s.rc a b := rfl
@[simp] theorem State.renderWrite_tc (s : State) (a : Nat) (b : Byte) : (s.renderWrite a b).tc = s.tc := rfl
@[simp] theorem State.renderWrite_tcRead (s : State) (a : Nat) (b : Byte) : (s.renderWrite a b).tcRead = s.tcRead := rfl
@[simp] theorem State.renderWrite_posted (s : State) (a : Nat) (b : Byte) : (s.renderWrite a b).posted = s.posted := rfl
@[simp] theorem State.renderWrite_freeCount (s : State) (a : Nat) (b : Byte) :
    (s.renderWrite a b).freeCount = s.freeCount := rfl

/-! ## `flushCaches` -/

@[simp] theorem State.flushCaches_regs (s : State) : s.flushCaches.regs = s.regs := rfl
@[simp] theorem State.flushCaches_parser (s : State) : s.flushCaches.parser = s.parser := rfl
@[simp] theorem State.flushCaches_engine (s : State) : s.flushCaches.engine = s.engine := rfl
@[simp] theorem State.flushCaches_mem (s : State) :
    s.flushCaches.mem = Memory.writeAll (Memory.writeAll s.mem s.rcPast) s.rc := rfl
@[simp] theorem State.flushCaches_rcPast (s : State) : s.flushCaches.rcPast = [] := rfl
@[simp] theorem State.flushCaches_xlats (s : State) : s.flushCaches.xlats = s.xlats := rfl
@[simp] theorem State.flushCaches_rc (s : State) : s.flushCaches.rc = [] := rfl
@[simp] theorem State.flushCaches_tc (s : State) : s.flushCaches.tc = [] := rfl
@[simp] theorem State.flushCaches_tcRead (s : State) : s.flushCaches.tcRead = [] := rfl
@[simp] theorem State.flushCaches_posted (s : State) : s.flushCaches.posted = s.posted := rfl

/-! ## `noteTexture`, `fillTexture` and `keepAhead` -/

@[simp] theorem State.noteTexture_br (s : State) (l : List Nat) : (s.noteTexture l).br = s.br := rfl
@[simp] theorem State.noteTexture_setup (s : State) (l : List Nat) : (s.noteTexture l).setup = s.setup := rfl
@[simp] theorem State.noteTexture_regs (s : State) (l : List Nat) : (s.noteTexture l).regs = s.regs := rfl
@[simp] theorem State.noteTexture_parser (s : State) (l : List Nat) : (s.noteTexture l).parser = s.parser := rfl
@[simp] theorem State.noteTexture_engine (s : State) (l : List Nat) : (s.noteTexture l).engine = s.engine := rfl
@[simp] theorem State.noteTexture_mem (s : State) (l : List Nat) : (s.noteTexture l).mem = s.mem := rfl
@[simp] theorem State.noteTexture_rc (s : State) (l : List Nat) : (s.noteTexture l).rc = s.rc := rfl
@[simp] theorem State.noteTexture_tc (s : State) (l : List Nat) : (s.noteTexture l).tc = s.tc := rfl
@[simp] theorem State.noteTexture_freeCount (s : State) (l : List Nat) : (s.noteTexture l).freeCount = s.freeCount := rfl
@[simp] theorem State.noteTexture_renderRead (s : State) (l : List Nat) (a : Nat) :
    (s.noteTexture l).renderRead a = s.renderRead a := rfl
@[simp] theorem State.noteTexture_textureRead (s : State) (l : List Nat) (a : Nat) :
    (s.noteTexture l).textureRead a = s.textureRead a := rfl
@[simp] theorem State.noteTexture_nil (s : State) : s.noteTexture [] = s := rfl
@[simp] theorem State.fillTexture_mem (s : State) (a : Nat) : (s.fillTexture a).mem = s.mem := by
  unfold State.fillTexture; split <;> rfl
@[simp] theorem State.fillTexture_rc (s : State) (a : Nat) : (s.fillTexture a).rc = s.rc := by
  unfold State.fillTexture; split <;> rfl
@[simp] theorem State.fillTexture_tcRead (s : State) (a : Nat) : (s.fillTexture a).tcRead = s.tcRead := by
  unfold State.fillTexture; split <;> rfl
@[simp] theorem State.fillTexture_regs (s : State) (a : Nat) : (s.fillTexture a).regs = s.regs := by
  unfold State.fillTexture; split <;> rfl
@[simp] theorem State.keepAhead_regs (s : State) : s.keepAhead.regs = s.regs := rfl
@[simp] theorem State.keepAhead_parser (s : State) : s.keepAhead.parser = s.parser := rfl
@[simp] theorem State.keepAhead_mem (s : State) : s.keepAhead.mem = s.mem := rfl
@[simp] theorem State.keepAhead_schedule (s : State) : s.keepAhead.schedule = s.schedule := rfl

@[simp] theorem State.noteTexture_rcPast (s : State) (l : List Nat) : (s.noteTexture l).rcPast = s.rcPast := rfl
@[simp] theorem State.noteTexture_posted (s : State) (l : List Nat) : (s.noteTexture l).posted = s.posted := rfl
@[simp] theorem State.noteTexture_xlats (s : State) (l : List Nat) : (s.noteTexture l).xlats = s.xlats := rfl
@[simp] theorem State.noteTexture_midEvents (s : State) (l : List Nat) : (s.noteTexture l).midEvents = s.midEvents := rfl

/-! ## `noteXlat`, `reading` and `hostStore` -/

@[simp] theorem State.noteXlat_br (s : State) (u : TlbUnit) (sp : Space) (a : Nat) (w : Bool) (use : Use) :
    (s.noteXlat u sp a w use).br = s.br := rfl
@[simp] theorem State.noteXlat_setup (s : State) (u : TlbUnit) (sp : Space) (a : Nat) (w : Bool) (use : Use) :
    (s.noteXlat u sp a w use).setup = s.setup := rfl
@[simp] theorem State.noteXlat_regs (s : State) (u : TlbUnit) (sp : Space) (a : Nat) (w : Bool) (use : Use) :
    (s.noteXlat u sp a w use).regs = s.regs := rfl
@[simp] theorem State.noteXlat_parser (s : State) (u : TlbUnit) (sp : Space) (a : Nat) (w : Bool) (use : Use) :
    (s.noteXlat u sp a w use).parser = s.parser := rfl
@[simp] theorem State.noteXlat_engine (s : State) (u : TlbUnit) (sp : Space) (a : Nat) (w : Bool) (use : Use) :
    (s.noteXlat u sp a w use).engine = s.engine := rfl
@[simp] theorem State.noteXlat_mem (s : State) (u : TlbUnit) (sp : Space) (a : Nat) (w : Bool) (use : Use) :
    (s.noteXlat u sp a w use).mem = s.mem := rfl
@[simp] theorem State.noteXlat_rc (s : State) (u : TlbUnit) (sp : Space) (a : Nat) (w : Bool) (use : Use) :
    (s.noteXlat u sp a w use).rc = s.rc := rfl
@[simp] theorem State.noteXlat_rcPast (s : State) (u : TlbUnit) (sp : Space) (a : Nat) (w : Bool) (use : Use) :
    (s.noteXlat u sp a w use).rcPast = s.rcPast := rfl
@[simp] theorem State.noteXlat_tc (s : State) (u : TlbUnit) (sp : Space) (a : Nat) (w : Bool) (use : Use) :
    (s.noteXlat u sp a w use).tc = s.tc := rfl
@[simp] theorem State.noteXlat_tcRead (s : State) (u : TlbUnit) (sp : Space) (a : Nat) (w : Bool) (use : Use) :
    (s.noteXlat u sp a w use).tcRead = s.tcRead := rfl
@[simp] theorem State.noteXlat_posted (s : State) (u : TlbUnit) (sp : Space) (a : Nat) (w : Bool) (use : Use) :
    (s.noteXlat u sp a w use).posted = s.posted := rfl
@[simp] theorem State.noteXlat_asyncLoads (s : State) (u : TlbUnit) (sp : Space) (a : Nat) (w : Bool) (use : Use) :
    (s.noteXlat u sp a w use).asyncLoads = s.asyncLoads := rfl
@[simp] theorem State.noteXlat_ggtt (s : State) (u : TlbUnit) (sp : Space) (a : Nat) (w : Bool) (use : Use) :
    (s.noteXlat u sp a w use).ggtt = s.ggtt := rfl
@[simp] theorem State.noteXlat_ppgtt (s : State) (u : TlbUnit) (sp : Space) (a : Nat) (w : Bool) (use : Use) :
    (s.noteXlat u sp a w use).ppgtt = s.ppgtt := rfl
@[simp] theorem State.noteXlat_pdInvalid (s : State) (u : TlbUnit) (sp : Space) (a : Nat) (w : Bool) (use : Use) :
    (s.noteXlat u sp a w use).pdInvalid = s.pdInvalid := rfl
@[simp] theorem State.noteXlat_tlb (s : State) (u : TlbUnit) (sp : Space) (a : Nat) (w : Bool) (use : Use) :
    (s.noteXlat u sp a w use).tlb = s.tlb := rfl
@[simp] theorem State.noteXlat_pdTlb (s : State) (u : TlbUnit) (sp : Space) (a : Nat) (w : Bool) (use : Use) :
    (s.noteXlat u sp a w use).pdTlb = s.pdTlb := rfl
@[simp] theorem State.noteXlat_tlbPick (s : State) (u : TlbUnit) (sp : Space) (a : Nat) (w : Bool) (use : Use) :
    (s.noteXlat u sp a w use).tlbPick = s.tlbPick := rfl
@[simp] theorem State.noteXlat_flips (s : State) (u : TlbUnit) (sp : Space) (a : Nat) (w : Bool) (use : Use) :
    (s.noteXlat u sp a w use).flips = s.flips := rfl
@[simp] theorem State.noteXlat_readAhead (s : State) (u : TlbUnit) (sp : Space) (a : Nat) (w : Bool) (use : Use) :
    (s.noteXlat u sp a w use).readAhead = s.readAhead := rfl
@[simp] theorem State.noteXlat_freeCount (s : State) (u : TlbUnit) (sp : Space) (a : Nat) (w : Bool) (use : Use) :
    (s.noteXlat u sp a w use).freeCount = s.freeCount := rfl
@[simp] theorem State.noteXlat_midEvents (s : State) (u : TlbUnit) (sp : Space) (a : Nat) (w : Bool) (use : Use) :
    (s.noteXlat u sp a w use).midEvents = s.midEvents := rfl
@[simp] theorem State.noteXlat_schedule (s : State) (u : TlbUnit) (sp : Space) (a : Nat) (w : Bool) (use : Use) :
    (s.noteXlat u sp a w use).schedule = s.schedule := rfl
@[simp] theorem State.noteXlat_renderRead (s : State) (u : TlbUnit) (sp : Space) (a : Nat) (w : Bool) (use : Use) :
    (s.noteXlat u sp a w use).renderRead = s.renderRead := rfl
@[simp] theorem State.noteXlat_textureRead (s : State) (u : TlbUnit) (sp : Space) (a : Nat) (w : Bool) (use : Use) :
    (s.noteXlat u sp a w use).textureRead = s.textureRead := rfl
@[simp] theorem State.hostStore_regs (s : State) (a : Nat) (b : Byte) : (s.hostStore a b).regs = s.regs := rfl
@[simp] theorem State.hostStore_parser (s : State) (a : Nat) (b : Byte) : (s.hostStore a b).parser = s.parser := rfl
@[simp] theorem State.hostStore_engine (s : State) (a : Nat) (b : Byte) : (s.hostStore a b).engine = s.engine := rfl
@[simp] theorem State.hostStore_rc (s : State) (a : Nat) (b : Byte) : (s.hostStore a b).rc = s.rc := rfl
@[simp] theorem State.hostStore_rcPast (s : State) (a : Nat) (b : Byte) : (s.hostStore a b).rcPast = s.rcPast := rfl
@[simp] theorem State.hostStore_tc (s : State) (a : Nat) (b : Byte) : (s.hostStore a b).tc = s.tc := rfl
@[simp] theorem State.hostStore_tcRead (s : State) (a : Nat) (b : Byte) : (s.hostStore a b).tcRead = s.tcRead := rfl
@[simp] theorem State.hostStore_posted (s : State) (a : Nat) (b : Byte) : (s.hostStore a b).posted = s.posted := rfl

/-! ## `invalidateTlbs`, `fillTlb` and `fillPd` -/

@[simp] theorem State.invalidateTlbs_xlats (s : State) : s.invalidateTlbs.xlats = [] := rfl
@[simp] theorem State.fillTlb_regs (s : State) (k : Nat) : (s.fillTlb k).regs = s.regs := by
  unfold State.fillTlb; split <;> (try split) <;> rfl
@[simp] theorem State.fillTlb_mem (s : State) (k : Nat) : (s.fillTlb k).mem = s.mem := by
  unfold State.fillTlb; split <;> (try split) <;> rfl
@[simp] theorem State.fillTlb_xlats (s : State) (k : Nat) : (s.fillTlb k).xlats = s.xlats := by
  unfold State.fillTlb; split <;> (try split) <;> rfl

@[simp] theorem State.invalidateTlbs_tlb (s : State) : s.invalidateTlbs.tlb = [] := rfl
@[simp] theorem State.invalidateTlbs_pdTlb (s : State) : s.invalidateTlbs.pdTlb = [] := rfl
@[simp] theorem State.invalidateTlbs_regs (s : State) : s.invalidateTlbs.regs = s.regs := rfl
@[simp] theorem State.invalidateTlbs_parser (s : State) : s.invalidateTlbs.parser = s.parser := rfl
@[simp] theorem State.invalidateTlbs_engine (s : State) : s.invalidateTlbs.engine = s.engine := rfl
@[simp] theorem State.invalidateTlbs_mem (s : State) : s.invalidateTlbs.mem = s.mem := rfl
@[simp] theorem State.invalidateTlbs_rc (s : State) : s.invalidateTlbs.rc = s.rc := rfl
@[simp] theorem State.invalidateTlbs_tc (s : State) : s.invalidateTlbs.tc = s.tc := rfl
@[simp] theorem State.invalidateTlbs_tcRead (s : State) : s.invalidateTlbs.tcRead = s.tcRead := rfl
@[simp] theorem State.invalidateTlbs_posted (s : State) : s.invalidateTlbs.posted = s.posted := rfl
@[simp] theorem State.fillPd_regs (s : State) (i : Nat) : (s.fillPd i).regs = s.regs := by
  unfold State.fillPd; split <;> rfl
@[simp] theorem State.fillPd_tlb (s : State) (i : Nat) : (s.fillPd i).tlb = s.tlb := by
  unfold State.fillPd; split <;> rfl
@[simp] theorem State.fillPd_mem (s : State) (i : Nat) : (s.fillPd i).mem = s.mem := by
  unfold State.fillPd; split <;> rfl

/-! ## `waitOver` and `pend` -/

@[simp] theorem Regs.waitOver_syncFlip (r : Regs) : r.waitOver.syncFlip = r.syncFlip &&& ~~~waitRecords := rfl
@[simp] theorem Regs.waitOver_ctl (r : Regs) : r.waitOver.ctl = setBit (setBit r.ctl 11 false) 10 false := rfl
@[simp] theorem Regs.waitOver_head (r : Regs) : r.waitOver.head = r.head := rfl
@[simp] theorem Regs.waitOver_tail (r : Regs) : r.waitOver.tail = r.tail := rfl
@[simp] theorem Regs.waitOver_isr (r : Regs) : r.waitOver.isr = r.isr := rfl
@[simp] theorem Regs.waitOver_eir (r : Regs) : r.waitOver.eir = r.eir := rfl
@[simp] theorem Regs.pend_isr (r : Regs) (k : Nat) (v d : Bool) (w : Word) : (r.pend k v d w).isr = r.isr := rfl
@[simp] theorem Regs.pend_eir (r : Regs) (k : Nat) (v d : Bool) (w : Word) : (r.pend k v d w).eir = r.eir := rfl
@[simp] theorem Regs.pend_pendSec1 (r : Regs) (k : Nat) (v d : Bool) (w : Word) :
    (r.pend k v d w).pendSec1 = r.pendSec1.setIfInBounds k w := rfl

/-! ## `posting` -/

@[simp] theorem State.posting_regs (s : State) (sp : Space) (a : Nat) (l : List Byte) : (s.posting sp a l).regs = s.regs := rfl
@[simp] theorem State.posting_parser (s : State) (sp : Space) (a : Nat) (l : List Byte) :
    (s.posting sp a l).parser = s.parser := rfl
@[simp] theorem State.posting_engine (s : State) (sp : Space) (a : Nat) (l : List Byte) :
    (s.posting sp a l).engine = s.engine := rfl
@[simp] theorem State.posting_mem (s : State) (sp : Space) (a : Nat) (l : List Byte) : (s.posting sp a l).mem = s.mem := rfl
@[simp] theorem State.posting_posted (s : State) (sp : Space) (a : Nat) (l : List Byte) :
    (s.posting sp a l).posted = s.posted ++ [cellsAt (s.parserAddr sp a true) l] := rfl

/-! ## `withIsr` -/

@[simp] theorem Regs.withIsr_isr (r : Regs) (w : Word) : (r.withIsr w).isr = w := rfl
@[simp] theorem Regs.withIsr_iir (r : Regs) (w : Word) : (r.withIsr w).iir = r.iir ||| (w &&& ~~~r.imr) := rfl
@[simp] theorem Regs.withIsr_imr (r : Regs) (w : Word) : (r.withIsr w).imr = r.imr := rfl
@[simp] theorem Regs.withIsr_hwstam (r : Regs) (w : Word) : (r.withIsr w).hwstam = r.hwstam := rfl
@[simp] theorem Regs.withIsr_head (r : Regs) (w : Word) : (r.withIsr w).head = r.head := rfl
@[simp] theorem Regs.withIsr_tail (r : Regs) (w : Word) : (r.withIsr w).tail = r.tail := rfl
@[simp] theorem Regs.withIsr_ctl (r : Regs) (w : Word) : (r.withIsr w).ctl = r.ctl := rfl
@[simp] theorem Regs.withIsr_eir (r : Regs) (w : Word) : (r.withIsr w).eir = r.eir := rfl
@[simp] theorem Regs.withIsr_esr (r : Regs) (w : Word) : (r.withIsr w).esr = r.esr := rfl
@[simp] theorem Regs.withIsr_faultPending (r : Regs) (w : Word) : (r.withIsr w).faultPending = r.faultPending := rfl
@[simp] theorem Regs.withIsr_statusAddr (r : Regs) (w : Word) : (r.withIsr w).statusAddr = r.statusAddr := rfl

/-! ## `moved` and `advanced` -/

@[simp] theorem Regs.uhptrCheck_head (r : Regs) : r.uhptrCheck.head = r.head := by unfold Regs.uhptrCheck; split <;> rfl
@[simp] theorem Regs.uhptrCheck_tail (r : Regs) : r.uhptrCheck.tail = r.tail := by unfold Regs.uhptrCheck; split <;> rfl
@[simp] theorem Regs.uhptrCheck_ctl (r : Regs) : r.uhptrCheck.ctl = r.ctl := by unfold Regs.uhptrCheck; split <;> rfl
@[simp] theorem Regs.uhptrCheck_hwsPga (r : Regs) : r.uhptrCheck.hwsPga = r.hwsPga := by
  unfold Regs.uhptrCheck; split <;> rfl
@[simp] theorem Regs.uhptrCheck_hwsPgaWritten (r : Regs) : r.uhptrCheck.hwsPgaWritten = r.hwsPgaWritten := by
  unfold Regs.uhptrCheck; split <;> rfl
@[simp] theorem Regs.uhptrCheck_isr (r : Regs) : r.uhptrCheck.isr = r.isr := by unfold Regs.uhptrCheck; split <;> rfl
@[simp] theorem Regs.uhptrCheck_iir (r : Regs) : r.uhptrCheck.iir = r.iir := by unfold Regs.uhptrCheck; split <;> rfl
@[simp] theorem Regs.uhptrCheck_eir (r : Regs) : r.uhptrCheck.eir = r.eir := by unfold Regs.uhptrCheck; split <;> rfl
@[simp] theorem Regs.uhptrCheck_bltMode (r : Regs) : r.uhptrCheck.bltMode = r.bltMode := by
  unfold Regs.uhptrCheck; split <;> rfl
@[simp] theorem Regs.uhptrCheck_ppDclv (r : Regs) : r.uhptrCheck.ppDclv = r.ppDclv := by
  unfold Regs.uhptrCheck; split <;> rfl
@[simp] theorem Regs.uhptrCheck_swctrl (r : Regs) : r.uhptrCheck.swctrl = r.swctrl := by
  unfold Regs.uhptrCheck; split <;> rfl
@[simp] theorem Regs.uhptrCheck_faultPending (r : Regs) : r.uhptrCheck.faultPending = r.faultPending := by
  unfold Regs.uhptrCheck; split <;> rfl

@[simp] theorem Regs.moved_head (r : Regs) (n : Nat) : (r.moved n).head = advanceHead r.head r.ringSize n := by
  simp [Regs.moved]
@[simp] theorem Regs.moved_tail (r : Regs) (n : Nat) : (r.moved n).tail = r.tail := by simp [Regs.moved]
@[simp] theorem Regs.moved_ctl (r : Regs) (n : Nat) : (r.moved n).ctl = r.ctl := by simp [Regs.moved]
@[simp] theorem Regs.moved_hwsPga (r : Regs) (n : Nat) : (r.moved n).hwsPga = r.hwsPga := by simp [Regs.moved]
@[simp] theorem Regs.moved_hwsPgaWritten (r : Regs) (n : Nat) : (r.moved n).hwsPgaWritten = r.hwsPgaWritten := by
  simp [Regs.moved]
@[simp] theorem Regs.moved_bltMode (r : Regs) (n : Nat) : (r.moved n).bltMode = r.bltMode := by simp [Regs.moved]
@[simp] theorem Regs.moved_ppDclv (r : Regs) (n : Nat) : (r.moved n).ppDclv = r.ppDclv := by simp [Regs.moved]
@[simp] theorem Regs.moved_hwsp (r : Regs) (n : Nat) : (r.moved n).hwsp = r.hwsp := by simp [Regs.hwsp]

@[simp] theorem State.advanced_mem (s : State) (n : Nat) : (s.advanced n).mem = s.mem := by
  unfold State.advanced; split <;> rfl
@[simp] theorem State.advanced_rc (s : State) (n : Nat) : (s.advanced n).rc = s.rc := by
  unfold State.advanced; split <;> rfl
@[simp] theorem State.advanced_posted (s : State) (n : Nat) : (s.advanced n).posted = s.posted := by
  unfold State.advanced; split <;> rfl
@[simp] theorem State.advanced_engine (s : State) (n : Nat) : (s.advanced n).engine = s.engine := by
  unfold State.advanced; split <;> rfl
@[simp] theorem State.advanced_inBatch (s : State) (n : Nat) : (s.advanced n).parser.inBatch = s.parser.inBatch := by
  unfold State.advanced; split <;> rfl
@[simp] theorem State.advanced_batchSpace (s : State) (n : Nat) :
    (s.advanced n).parser.batchSpace = s.parser.batchSpace := by
  unfold State.advanced; split <;> rfl
@[simp] theorem State.advanced_run (s : State) (n : Nat) : (s.advanced n).parser.run = .running := by
  unfold State.advanced; split <;> rfl

end Sys2Proof.Machine
end

