-- ==== Sys2Proof/Laws/Memory.lean ====
section
/-! SUPPORT. Sorted lists and graphics memory: a read after a write, and the canonical form kept by every operation. -/

namespace Sys2Proof.Machine

variable {α : Type}

/-! ## Read after write -/

@[simp] theorem lookup_nil (a : Nat) : lookup ([] : List (Nat × α)) a = none := rfl

/-- Inserting at one address reads back there and changes no other address. -/
theorem lookup_insert (l : List (Nat × α)) (a b : Nat) (x : α) :
    lookup (insert l a x) b = if a = b then some x else lookup l b := by
  induction l with
  | nil => simp [insert, lookup]
  | cons c l ih =>
    obtain ⟨k, v⟩ := c
    simp only [insert]
    split
    · simp [lookup]
    · split
      · subst_vars
        simp only [lookup]
        split <;> simp_all
      · simp only [lookup, ih]
        split
        · subst_vars
          rw [if_neg (by assumption)]
        · rfl

/-- Every listed address of a sorted list lies above the bound below the first one. -/
theorem sorted_head_lt (k : Nat) (v : α) (l : List (Nat × α)) (h : sorted ((k, v) :: l)) :
    ∀ c ∈ l, k < c.1 := by
  induction l generalizing k v with
  | nil => simp
  | cons c l ih =>
    obtain ⟨k', v'⟩ := c
    simp only [sorted, Bool.and_eq_true, decide_eq_true_eq] at h
    intro c hc
    rcases List.mem_cons.mp hc with rfl | hc
    · exact h.1
    · exact lt_trans h.1 (ih k' v' (by simp only [sorted, Bool.and_eq_true]; exact h.2) c hc)

theorem sorted_tail (c : Nat × α) (l : List (Nat × α)) (h : sorted (c :: l)) : sorted l := by
  obtain ⟨k, v⟩ := c
  simp only [sorted, Bool.and_eq_true] at h
  exact h.2

/-- What is not among the addresses of a list is not found. -/
theorem lookup_none (l : List (Nat × α)) (a : Nat) (h : ∀ c ∈ l, c.1 ≠ a) : lookup l a = none := by
  induction l with
  | nil => rfl
  | cons c l ih =>
    obtain ⟨k, v⟩ := c
    simp only [lookup]
    rw [if_neg (h (k, v) (by simp)), ih (fun c hc => h c (by simp [hc]))]

/-- Erasing one address of a sorted list leaves nothing there and changes no other address. -/
theorem lookup_erase (l : List (Nat × α)) (a b : Nat) (h : sorted l) :
    lookup (erase l a) b = if a = b then none else lookup l b := by
  induction l with
  | nil => simp [erase]
  | cons c l ih =>
    obtain ⟨k, v⟩ := c
    simp only [erase]
    split
    · subst_vars
      split
      · subst_vars
        exact lookup_none l _ (fun c hc => (sorted_head_lt _ v l h c hc).ne')
      · rw [lookup, if_neg (by assumption)]
    · simp only [lookup, ih (sorted_tail _ _ h)]
      split
      · subst_vars
        rw [if_neg (by tauto)]
      · rfl

/-! ## The canonical form -/

theorem sorted_cons (k : Nat) (v : α) (l : List (Nat × α)) (h : sorted l) (hk : ∀ c ∈ l, k < c.1) :
    sorted ((k, v) :: l) := by
  cases l with
  | nil => rfl
  | cons c l =>
    obtain ⟨k', v'⟩ := c
    simp only [sorted, Bool.and_eq_true, decide_eq_true_eq] at h ⊢
    exact ⟨hk (k', v') (by simp), h⟩

theorem mem_insert (l : List (Nat × α)) (a : Nat) (x : α) (c : Nat × α) (h : c ∈ insert l a x) : c = (a, x) ∨ c ∈ l := by
  induction l with
  | nil => simpa [insert] using h
  | cons d l ih =>
    obtain ⟨k, v⟩ := d
    simp only [insert] at h
    split at h
    · simpa using h
    · split at h
      · rcases List.mem_cons.mp h with h | h
        · exact .inl h
        · exact .inr (by simp [h])
      · rcases List.mem_cons.mp h with h | h
        · exact .inr (by simp [h])
        · rcases ih h with h | h
          · exact .inl h
          · exact .inr (by simp [h])

/-- Inserting keeps the addresses strictly rising. -/
theorem sorted_insert (l : List (Nat × α)) (a : Nat) (x : α) (h : sorted l) : sorted (insert l a x) := by
  induction l with
  | nil => rfl
  | cons c l ih =>
    obtain ⟨k, v⟩ := c
    have ht := sorted_tail _ _ h
    have hk := sorted_head_lt k v l h
    simp only [insert]
    split
    · refine sorted_cons a x _ h ?_
      intro c hc
      rcases List.mem_cons.mp hc with rfl | hc
      · assumption
      · exact lt_trans (by assumption) (hk c hc)
    · split
      · subst_vars
        exact sorted_cons _ x l ht hk
      · refine sorted_cons k v _ (ih ht) ?_
        intro c hc
        rcases mem_insert l a x c hc with rfl | hc
        · simp only
          omega
        · exact hk c hc

theorem mem_erase (l : List (Nat × α)) (a : Nat) (c : Nat × α) (h : c ∈ erase l a) : c ∈ l := by
  induction l with
  | nil => exact h
  | cons d l ih =>
    obtain ⟨k, v⟩ := d
    simp only [erase] at h
    split at h
    · simp [h]
    · rcases List.mem_cons.mp h with h | h
      · simp [h]
      · simp [ih h]

/-- Erasing keeps the addresses strictly rising. -/
theorem sorted_erase (l : List (Nat × α)) (a : Nat) (h : sorted l) : sorted (erase l a) := by
  induction l with
  | nil => rfl
  | cons c l ih =>
    obtain ⟨k, v⟩ := c
    have ht := sorted_tail _ _ h
    simp only [erase]
    split
    · exact ht
    · exact sorted_cons k v _ (ih ht) (fun c hc => sorted_head_lt k v l h c (mem_erase l a c hc))

theorem Memory.wf_sorted (m : List Host.Cell) (h : Memory.wf m) : sorted m := by
  simp only [Memory.wf, Bool.and_eq_true] at h
  exact h.1

/-- Writing a byte keeps memory canonical. -/
theorem Memory.wf_write (m : List Host.Cell) (a : Nat) (b : Byte) (h : Memory.wf m) : Memory.wf (Memory.write m a b) := by
  simp only [Memory.wf, Bool.and_eq_true, List.all_eq_true] at h ⊢
  unfold Memory.write
  split
  · exact ⟨sorted_erase m a h.1, fun c hc => h.2 c (mem_erase m a c hc)⟩
  · refine ⟨sorted_insert m a b h.1, fun c hc => ?_⟩
    rcases mem_insert m a b c hc with rfl | hc
    · simpa using by assumption
    · exact h.2 c hc

/-- Writing several bytes keeps memory canonical. -/
theorem Memory.wf_writeAll (l m : List Host.Cell) (h : Memory.wf m) : Memory.wf (Memory.writeAll m l) := by
  induction l generalizing m with
  | nil => exact h
  | cons c l ih =>
    obtain ⟨a, b⟩ := c
    exact ih _ (Memory.wf_write m a b h)

/-- Draining every posted write keeps memory canonical. -/
theorem wf_drainAll (p : List (List Host.Cell)) (m : List Host.Cell) (h : Memory.wf m) : Memory.wf (drainAll m p) := by
  induction p generalizing m with
  | nil => exact h
  | cons c p ih => exact ih _ (Memory.wf_writeAll c m h)

/-- A byte written is read back, and no other byte changes. -/
theorem Memory.read_write (m : List Host.Cell) (a b : Nat) (v : Byte) (h : Memory.wf m) :
    Memory.read (Memory.write m a v) b = if a = b then v else Memory.read m b := by
  unfold Memory.read Memory.write
  split
  · rw [lookup_erase m a b (Memory.wf_sorted m h)]
    split <;> simp_all
  · rw [lookup_insert]
    split <;> rfl

/-- Flushing, draining and evicting keep memory canonical. -/
theorem State.flushCaches_wf (s : State) (h : Memory.wf s.mem) : Memory.wf s.flushCaches.mem :=
  Memory.wf_writeAll s.rc _ (Memory.wf_writeAll s.rcPast s.mem h)

theorem State.drainOne_wf (s : State) (h : Memory.wf s.mem) : Memory.wf s.drainOne.mem := by
  unfold State.drainOne
  split
  · exact h
  · exact Memory.wf_writeAll _ s.mem h

theorem State.evictByte_wf (s : State) (a : Nat) (h : Memory.wf s.mem) : Memory.wf (s.evictByte a).mem := by
  unfold State.evictByte
  split
  · exact Memory.wf_write s.mem a _ h
  · exact Memory.wf_write s.mem a _ h
  · exact h

/-- Memory after reset is canonical. -/
theorem reset_memory_wf : Memory.wf State.reset.mem := rfl

/-- What a BLT reads after its own write (R162). -/
theorem State.renderRead_renderWrite (s : State) (a b : Nat) (v : Byte) :
    (s.renderWrite a v).renderRead b = if a = b then v else s.renderRead b := by
  unfold State.renderRead State.renderWrite
  simp only [lookup_insert]
  split <;> rfl

/-- A BLT's write is not seen by a texture read (R162). -/
@[simp] theorem State.textureRead_renderWrite (s : State) (a b : Nat) (v : Byte) :
    (s.renderWrite a v).textureRead b = s.textureRead b := rfl

/-- What is noted of texture reads is what they returned, or was noted before (R162). -/
theorem State.noteTexture_tcRead (s : State) (as : List Nat) (a : Nat) :
    lookup (s.noteTexture as).tcRead a = if a ∈ as then some (s.textureRead a) else lookup s.tcRead a := by
  unfold State.noteTexture
  simp only
  generalize s.tcRead = l
  induction as generalizing l with
  | nil => simp
  | cons b as ih =>
    rw [List.foldl_cons, ih, lookup_insert]
    by_cases h : a ∈ as
    · simp [h]
    · by_cases hb : b = a
      · simp [hb]
      · simp [h, hb, Ne.symm hb]

/-- The texture cache takes a byte that a texture read has returned, where it holds none (R162). -/
theorem State.fillTexture_tc (s : State) (a x : Nat) :
    lookup (s.fillTexture a).tc x = if x = a then (lookup s.tc a).or (lookup s.tcRead a) else lookup s.tc x := by
  unfold State.fillTexture
  split
  · rename_i h1 h2
    rw [lookup_insert, h1, h2]
    by_cases h : x = a
    · simp [h]
    · simp [h, Ne.symm h]
  · rename_i hn
    by_cases h : x = a
    · subst h
      rw [if_pos rfl]
      cases h1 : lookup s.tc x with
      | some b => rfl
      | none =>
        cases h2 : lookup s.tcRead x with
        | none => rfl
        | some b => exact absurd h1 (hn b h2)
    · rw [if_neg h]

/-- Bytes outside the written cells stay as they are. -/
theorem Memory.read_writeAll_other (l m : List Host.Cell) (b : Nat) (h : Memory.wf m) (hl : ∀ c ∈ l, c.1 ≠ b) :
    Memory.read (Memory.writeAll m l) b = Memory.read m b := by
  induction l generalizing m with
  | nil => rfl
  | cons c l ih =>
    obtain ⟨a, v⟩ := c
    simp only [Memory.writeAll]
    rw [ih _ (Memory.wf_write m a v h) (fun c hc => hl c (by simp [hc])), Memory.read_write m a b v h,
      if_neg (hl (a, v) (by simp))]

/-- The addresses of `cellsAt` are the ones from `a` on. -/
theorem mem_cellsAt (a : Nat) (bs : List Byte) (c : Host.Cell) (h : c ∈ cellsAt a bs) : a ≤ c.1 ∧ c.1 < a + bs.length := by
  induction bs generalizing a with
  | nil => simp [cellsAt] at h
  | cons b bs ih =>
    simp only [cellsAt] at h
    rcases List.mem_cons.mp h with rfl | h
    · simp
    · have := ih (a + 1) h
      simp only [List.length_cons]
      omega

/-- Writing the cells of a sorted cache makes memory read what the cache held (R163). -/
theorem Memory.read_writeAll_cache (l m : List Host.Cell) (b : Nat) (h : Memory.wf m) (hs : sorted l) :
    Memory.read (Memory.writeAll m l) b = (lookup l b).getD (Memory.read m b) := by
  induction l generalizing m with
  | nil => rfl
  | cons c l ih =>
    obtain ⟨a, v⟩ := c
    simp only [Memory.writeAll, lookup]
    rw [ih _ (Memory.wf_write m a v h) (sorted_tail _ _ hs)]
    split
    · subst_vars
      rw [lookup_none l _ (fun c hc => (sorted_head_lt _ v l hs c hc).ne')]
      simp [Memory.read_write m _ _ v h]
    · rw [Memory.read_write m a b v h, if_neg (by assumption)]

/-- What is looked up is listed. -/
theorem mem_of_lookup {α : Type} (l : List (Nat × α)) (a : Nat) (v : α) (h : lookup l a = some v) : (a, v) ∈ l := by
  induction l with
  | nil => cases h
  | cons c l ih =>
    obtain ⟨k, w⟩ := c
    simp only [lookup] at h
    split at h
    · cases h
      subst_vars
      simp
    · exact List.mem_cons_of_mem _ (ih h)

/-- What is listed at an address is looked up, or something listed before it. -/
theorem lookup_isSome_of_mem {α : Type} (l : List (Nat × α)) (c : Nat × α) (h : c ∈ l) : (lookup l c.1).isSome := by
  induction l with
  | nil => cases h
  | cons d l ih =>
    obtain ⟨k, w⟩ := d
    simp only [lookup]
    split
    · rfl
    · rename_i hk
      rcases List.mem_cons.mp h with rfl | h
      · exact absurd rfl hk
      · exact ih h

/-! ## What happens in the middle of a command -/

/-- Memory, the render cache and its earlier writes are in the form the invariant gives them (R162). -/
def State.cachesOk (s : State) : Prop := Memory.wf s.mem ∧ sorted s.rc ∧ s.rcOk

/-- Memory, render cache, texture cache and posted writes are all that changes in the middle of a command. -/
theorem State.midAct_eq (s : State) (e : MidAct) :
    ∃ m rc past tc p, s.midAct e = { s with mem := m, rc := rc, rcPast := past, tc := tc, posted := p } := by
  cases e with
  | evict a => simp only [State.midAct, State.evictByte]; split <;> exact ⟨_, _, _, _, _, rfl⟩
  | texFill a => simp only [State.midAct, State.fillTexture]; split <;> exact ⟨_, _, _, _, _, rfl⟩
  | drain => simp only [State.midAct, State.drainOne]; split <;> exact ⟨_, _, _, _, _, rfl⟩
  | hostStore a b => exact ⟨_, _, _, _, _, rfl⟩

/-- An eviction keeps memory and caches in their form. -/
theorem State.evictByte_cachesOk (s : State) (a : Nat) (h : s.cachesOk) : (s.evictByte a).cachesOk := by
  obtain ⟨h1, h2, h3⟩ := h
  refine ⟨s.evictByte_wf a h1, ?_, ?_⟩
  · unfold State.evictByte
    split
    · exact h2
    · exact sorted_erase _ _ h2
    · exact h2
  · simp only [State.rcOk, List.all_eq_true] at h3 ⊢
    unfold State.evictByte
    split
    · exact fun c hc => h3 c (mem_erase _ _ _ hc)
    · rename_i hn _
      intro c hc
      have hne : a ≠ c.1 := fun e => by
        have := lookup_isSome_of_mem _ c hc
        rw [← e, hn] at this
        cases this
      rw [lookup_erase _ _ _ h2, if_neg hne]
      exact h3 c hc
    · exact h3

/-- A write of a BLT keeps memory and caches in their form. -/
theorem State.renderWrite_cachesOk (s : State) (a : Nat) (b : Byte) (h : s.cachesOk) : (s.renderWrite a b).cachesOk := by
  obtain ⟨h1, h2, h3⟩ := h
  refine ⟨h1, sorted_insert _ _ _ h2, ?_⟩
  simp only [State.rcOk, State.renderWrite, List.all_eq_true] at h3 ⊢
  intro c hc
  rw [lookup_insert]
  split
  · rfl
  · split at hc
    · rcases List.mem_append.mp hc with hc | hc
      · exact h3 c hc
      · exact absurd (congrArg Prod.fst (List.mem_singleton.mp hc)).symm ‹¬a = c.1›
    · exact h3 c hc

/-- An eviction changes nothing that a BLT reads through the render cache (R162). -/
theorem State.evictByte_renderRead (s : State) (a x : Nat) (h : s.cachesOk) : (s.evictByte a).renderRead x = s.renderRead x := by
  obtain ⟨h1, h2, h3⟩ := h
  unfold State.evictByte State.renderRead
  split
  · rename_i hp
    simp only [Memory.read_write s.mem a x _ h1]
    split
    · subst_vars
      have := List.all_eq_true.mp h3 _ (mem_of_lookup _ _ _ hp)
      obtain ⟨b, hb⟩ := Option.isSome_iff_exists.mp this
      simp only at hb
      rw [hb]
      rfl
    · rfl
  · rename_i hb
    simp only [lookup_erase _ _ _ h2, Memory.read_write s.mem a x _ h1]
    split
    · subst_vars
      rw [hb]
      rfl
    · rfl
  · rfl

/-- What happens in the middle of a command keeps memory and caches in their form. -/
theorem State.midAct_cachesOk (s : State) (e : MidAct) (h : s.cachesOk) : (s.midAct e).cachesOk := by
  cases e with
  | evict a => exact s.evictByte_cachesOk a h
  | texFill a =>
    refine ⟨by simpa [State.midAct] using h.1, by simpa [State.midAct] using h.2.1, ?_⟩
    have := h.2.2
    simp only [State.midAct, State.fillTexture]
    split <;> exact this
  | drain =>
    refine ⟨s.drainOne_wf h.1, ?_, ?_⟩ <;> simp only [State.midAct, State.drainOne] <;> split
    exacts [h.2.1, h.2.1, h.2.2, h.2.2]
  | hostStore a b => exact ⟨Memory.wf_write _ _ _ h.1, h.2⟩

/-- Nor does it change what a BLT reads of a byte that it does not disturb. -/
theorem State.midAct_renderRead (s : State) (e : MidAct) (x : Nat) (h : s.cachesOk) (hd : e.disturbs s.posted x = false) :
    (s.midAct e).renderRead x = s.renderRead x := by
  cases e with
  | evict a => exact s.evictByte_renderRead a x h
  | texFill a => simp only [State.midAct, State.fillTexture]; split <;> rfl
  | drain =>
    simp only [State.midAct, State.drainOne]
    split
    · rfl
    · rename_i p ps hp
      simp only [MidAct.disturbs, hp, List.any_cons, Bool.or_eq_false_iff, List.any_eq_false, beq_iff_eq] at hd
      simp only [State.renderRead]
      rw [Memory.read_writeAll_other p s.mem x h.1 hd.1]
  | hostStore a b =>
    simp only [MidAct.disturbs, beq_eq_false_iff_ne] at hd
    simp only [State.midAct, State.hostStore, State.renderRead, Memory.read_write s.mem a x b h.1, if_neg hd]

/-- Of what was to disturb no byte, nothing more comes about. -/
theorem State.midAct_disturbs (s : State) (e d : MidAct) (x : Nat) (h : d.disturbs s.posted x = false) :
    d.disturbs (s.midAct e).posted x = false := by
  cases e with
  | evict a => simp only [State.midAct, State.evictByte]; split <;> exact h
  | texFill a => simp only [State.midAct, State.fillTexture]; split <;> exact h
  | drain =>
    simp only [State.midAct, State.drainOne]
    split
    · exact h
    · rename_i p ps hp
      rw [hp] at h
      cases d with
      | drain => simp only [MidAct.disturbs, List.any_cons, Bool.or_eq_false_iff] at h ⊢; exact h.2
      | _ => exact h
  | hostStore a b => exact h

/-- Memory, render cache, texture cache and posted writes are all that changes before an access. -/
theorem State.midway_eq (s : State) (use : Use) (w : Bool) :
    ∃ m rc past tc p, s.midway use w = { s with mem := m, rc := rc, rcPast := past, tc := tc, posted := p } := by
  unfold State.midway
  generalize s.midEvents.filter _ = l
  suffices h : ∀ t : State, (∃ m rc past tc p, t = { s with mem := m, rc := rc, rcPast := past, tc := tc, posted := p }) →
      ∃ m rc past tc p, l.foldl (fun s e => s.midAct e.act) t =
        { s with mem := m, rc := rc, rcPast := past, tc := tc, posted := p } from h s ⟨_, _, _, _, _, rfl⟩
  induction l with
  | nil => exact fun t h => h
  | cons e l ih =>
    rintro t ⟨_, _, _, _, _, rfl⟩
    refine ih _ ?_
    obtain ⟨_, _, _, _, _, h⟩ := State.midAct_eq _ e.act
    exact ⟨_, _, _, _, _, h⟩

/-- What happens before an access keeps memory and caches in their form, and what a BLT reads of undisturbed bytes. -/
theorem State.midway_keeps (s : State) (use : Use) (w : Bool) (x : Nat) (h : s.cachesOk) (hd : s.disturbs x = false) :
    (s.midway use w).cachesOk ∧ (s.midway use w).disturbs x = false ∧ (s.midway use w).renderRead x = s.renderRead x := by
  have hd' : ∀ e ∈ s.midEvents, e.act.disturbs s.posted x = false := by simpa [State.disturbs] using hd
  have hm : (s.midway use w).midEvents = s.midEvents := by
    obtain ⟨_, _, _, _, _, h⟩ := s.midway_eq use w
    rw [h]
  suffices hs : (s.midway use w).cachesOk ∧ (∀ e ∈ s.midEvents, e.act.disturbs (s.midway use w).posted x = false) ∧
      (s.midway use w).renderRead x = s.renderRead x by
    refine ⟨hs.1, ?_, hs.2.2⟩
    simpa [State.disturbs, hm] using hs.2.1
  unfold State.midway
  have hl : ∀ e ∈ s.midEvents.filter fun e => e.use == use && e.write == w, e ∈ s.midEvents :=
    fun e he => (List.mem_filter.mp he).1
  revert hl
  generalize s.midEvents.filter _ = l
  generalize s.midEvents = es at hd'
  intro hl
  suffices hs : ∀ t : State, t.cachesOk → (∀ e ∈ es, e.act.disturbs t.posted x = false) → t.renderRead x = s.renderRead x →
      (l.foldl (fun s e => s.midAct e.act) t).cachesOk ∧
      (∀ e ∈ es, e.act.disturbs (l.foldl (fun s e => s.midAct e.act) t).posted x = false) ∧
      (l.foldl (fun s e => s.midAct e.act) t).renderRead x = s.renderRead x from hs s h hd' rfl
  induction l with
  | nil => exact fun t h1 h2 h3 => ⟨h1, h2, h3⟩
  | cons e l ih =>
    intro t h1 h2 h3
    refine ih (fun d hd => hl d (List.mem_cons_of_mem _ hd)) (t.midAct e.act) (t.midAct_cachesOk _ h1)
      (fun d hd => t.midAct_disturbs _ _ x (h2 d hd)) ?_
    rw [t.midAct_renderRead _ x h1 (h2 e (hl e (by simp)))]
    exact h3

/-- What happens before an access keeps memory and caches in their form, whatever it disturbs. -/
theorem State.midway_cachesOk (s : State) (use : Use) (w : Bool) (h : s.cachesOk) : (s.midway use w).cachesOk := by
  unfold State.midway
  generalize s.midEvents.filter _ = l
  induction l generalizing s with
  | nil => exact h
  | cons e l ih => exact ih (s.midAct e.act) (s.midAct_cachesOk _ h)

/-- A flush keeps memory canonical and leaves nothing in the render cache. -/
theorem State.flushCaches_cachesOk (s : State) (h : Memory.wf s.mem) : s.flushCaches.cachesOk :=
  ⟨s.flushCaches_wf h, rfl, rfl⟩

/-- With nothing to happen in the middle of commands, nothing does. -/
theorem State.midway_none (s : State) (use : Use) (w : Bool) (h : s.midEvents = []) : s.midway use w = s := by
  unfold State.midway
  rw [h]
  rfl

end Sys2Proof.Machine
end

