-- ==== Sys2Proof/Laws/Ops.lean ====
section
/-! SUPPORT. What each shared operation does, said once: meanings are computed with these and not by unfolding. -/

namespace Sys2Proof.Machine

/-! ## The computation itself -/

variable {α β : Type}

@[simp] theorem run_pure (a : α) (s : State) : (pure a : M α) s = .ok (a, s) := rfl

theorem run_bind (m : M α) (f : α → M β) (s : State) :
    (m >>= f) s = match m s with
      | .ok (a, s') => f a s'
      | .error o => .error o := by
  change (Except.bind (m s) fun p => f p.1 p.2) = _
  cases m s <;> rfl

/-- A computation that goes on hands its value and state to the next one. -/
theorem bind_ok {m : M α} {f : α → M β} {s s' : State} {a : α} (h : m s = .ok (a, s')) : (m >>= f) s = f a s' := by
  rw [run_bind, h]

/-- A computation that ends the step ends everything after it. -/
theorem bind_error {m : M α} {f : α → M β} {s : State} {o : Host.Outcome State Fault Refusal} (h : m s = .error o) :
    (m >>= f) s = .error o := by
  rw [run_bind, h]

@[simp] theorem run_get_bind (f : State → M β) (s : State) : ((get : M State) >>= f) s = f s s := rfl
@[simp] theorem run_set_bind (t : State) (f : PUnit → M β) (s : State) : ((set t : M PUnit) >>= f) s = f ⟨⟩ t := rfl
@[simp] theorem run_modify_bind (g : State → State) (f : PUnit → M β) (s : State) :
    ((modify g : M PUnit) >>= f) s = f ⟨⟩ (g s) := rfl
@[simp] theorem run_pure_bind (a : α) (f : α → M β) (s : State) : ((pure a : M α) >>= f) s = f a s := rfl
@[simp] theorem run_set (t s : State) : (set t : M PUnit) s = .ok (⟨⟩, t) := rfl
@[simp] theorem run_get (s : State) : (get : M State) s = .ok (s, s) := rfl
@[simp] theorem run_modify (g : State → State) (s : State) : (modify g : M PUnit) s = .ok (⟨⟩, g s) := rfl
@[simp] theorem run_refuse (r : Refusal) (s : State) : (refuse r : M α) s = .error (.refused r) := rfl
@[simp] theorem run_stop (r : Fault) (s : State) : (stop r : M α) s = .error (.fault r) := rfl
@[simp] theorem run_halt (s : State) : (halt : M α) s = .error (.next s) := rfl

@[simp] theorem run_onRegs (f : Regs → Regs) (s : State) : onRegs f s = .ok (⟨⟩, { s with regs := f s.regs }) := rfl
@[simp] theorem run_onParser (f : Parser → Parser) (s : State) :
    onParser f s = .ok (⟨⟩, { s with parser := f s.parser }) := rfl
@[simp] theorem run_onBr (f : Br → Br) (s : State) : onBr f s = .ok (⟨⟩, { s with br := f s.br }) := rfl
@[simp] theorem run_onSetup (f : Setup → Setup) (s : State) : onSetup f s = .ok (⟨⟩, { s with setup := f s.setup }) := rfl
@[simp] theorem run_setRun (r : RunState) (s : State) :
    setRun r s = .ok (⟨⟩, { s with parser := { s.parser with run := r } }) := rfl
@[simp] theorem run_onRegs_bind (f : Regs → Regs) (g : PUnit → M β) (s : State) :
    (onRegs f >>= g) s = g ⟨⟩ { s with regs := f s.regs } := rfl
@[simp] theorem run_onParser_bind (f : Parser → Parser) (g : PUnit → M β) (s : State) :
    (onParser f >>= g) s = g ⟨⟩ { s with parser := f s.parser } := rfl
@[simp] theorem run_onBr_bind (f : Br → Br) (g : PUnit → M β) (s : State) :
    (onBr f >>= g) s = g ⟨⟩ { s with br := f s.br } := rfl
@[simp] theorem run_onSetup_bind (f : Setup → Setup) (g : PUnit → M β) (s : State) :
    (onSetup f >>= g) s = g ⟨⟩ { s with setup := f s.setup } := rfl
@[simp] theorem run_setRun_bind (r : RunState) (g : PUnit → M β) (s : State) :
    (setRun r >>= g) s = g ⟨⟩ { s with parser := { s.parser with run := r } } := rfl

theorem run_require (c : Bool) (r : Refusal) (s : State) :
    require c r s = if c then .ok (⟨⟩, s) else .error (.refused r) := by
  cases c <;> rfl

/-- A requirement that holds goes on. -/
theorem require_ok {c : Bool} {r : Refusal} {s : State} (h : c = true) : require c r s = .ok (⟨⟩, s) := by
  rw [run_require, h]
  rfl

theorem require_bind {c : Bool} {r : Refusal} {f : PUnit → M β} {s : State} (h : c = true) :
    (require c r >>= f) s = f ⟨⟩ s := bind_ok (require_ok h)

theorem require_bind_not {c : Bool} {r : Refusal} {f : PUnit → M β} {s : State} (h : c = false) :
    (require c r >>= f) s = .error (.refused r) := by
  subst h
  rfl

@[simp] theorem onlyIf_true (m : M Unit) : onlyIf true m = m := rfl
@[simp] theorem onlyIf_false (m : M Unit) : onlyIf false m = pure () := rfl

theorem outcome_ok {m : M Unit} {s s' : State} (h : m s = .ok (⟨⟩, s')) : M.outcome m s = .next s' := by
  simp [M.outcome, h]

theorem outcome_error {m : M Unit} {s : State} {o : Host.Outcome State Fault Refusal} (h : m s = .error o) :
    M.outcome m s = o := by
  simp [M.outcome, h]

theorem outcome_congr {m m' : M Unit} {s s' : State} (h : m s = m' s') : M.outcome m s = M.outcome m' s' := by
  unfold M.outcome
  rw [h]

theorem outcome_next_iff (m : M Unit) (s t : State) :
    M.outcome m s = .next t ↔ m s = .ok (⟨⟩, t) ∨ m s = .error (.next t) := by
  unfold M.outcome
  cases h : m s with
  | ok p => obtain ⟨⟨⟩, s'⟩ := p; simp
  | error o => simp

theorem ofOutcome_next {f : State → Host.Outcome State Fault Refusal} {s t : State} (h : f s = .next t) :
    M.ofOutcome f s = .ok (⟨⟩, t) := by
  simp [M.ofOutcome, h]

@[simp] theorem run_freeByte_bind (f : Byte → M β) (s : State) :
    (freeByte >>= f) s = f (Config.freeByte s.freeCount) { s with freeCount := s.freeCount + 1 } := rfl
@[simp] theorem run_freeWord_bind (f : Word → M β) (s : State) :
    (freeWord >>= f) s = f (Config.freeWord s.freeCount) { s with freeCount := s.freeCount + 1 } := rfl

/-! ## Translation does not see what it does not use -/

/-- All that translation depends on: the TLBs and their choice, the tables, the directory, BLT_MODE and BCS_PP_DCLV. -/
def State.xlatView (s : State) : (List TlbEntry × List Nat × Nat) × (List (Nat × PageEntry) × List (Nat × PageEntry) × List Nat) × Word × Word :=
  ((s.tlb, s.pdTlb, s.tlbPick), (s.ggtt, s.ppgtt, s.pdInvalid), s.regs.bltMode, s.regs.ppDclv)

theorem effective_congr {s t : State} (h : t.xlatView = s.xlatView) (sp : Space) : t.effective sp = s.effective sp := by
  simp only [State.xlatView, Prod.mk.injEq] at h
  unfold State.effective State.ppgttEnabled
  rw [h.2.2.1]

theorem table_congr {s t : State} (h : t.xlatView = s.xlatView) (sp : Space) : t.table sp = s.table sp := by
  simp only [State.xlatView, Prod.mk.injEq] at h
  cases sp
  · exact h.2.1.1
  · exact h.2.1.2.1

theorem tlbEntry_congr {s t : State} (h : t.xlatView = s.xlatView) (u : TlbUnit) (sp : Space) (a : Nat) (w : Bool) (use : Use) :
    t.tlbEntry u sp a w use = s.tlbEntry u sp a w use := by
  simp only [State.xlatView, Prod.mk.injEq] at h
  unfold State.tlbEntry
  rw [h.1.1, h.1.2.2]

/-- Translation depends on nothing else. -/
theorem translate_congr {s t : State} (h : t.xlatView = s.xlatView) (u : TlbUnit) (sp : Space) (a : Nat) (w : Bool) (use : Use) :
    t.translate u sp a w use = s.translate u sp a w use := by
  have hd : t.directoryFault a w use = s.directoryFault a w use := by
    simp only [State.xlatView, Prod.mk.injEq] at h
    unfold State.directoryFault State.pdServed
    rw [h.1.2.1, h.1.2.2, h.2.1.2.2, h.2.2.2]
  unfold State.translate
  simp only [effective_congr h, table_congr h, tlbEntry_congr h, hd]

/-- So does what a translation adds to the record. -/
theorem xlatPair_congr {s t : State} (h : t.xlatView = s.xlatView) (u : TlbUnit) (sp : Space) (a : Nat) (w : Bool) (use : Use) :
    t.xlatPair u sp a w use = s.xlatPair u sp a w use := by
  unfold State.xlatPair
  simp only [translate_congr h, effective_congr h, table_congr h, tlbEntry_congr h]

/-- Noting a translation gives the same record in states that translate alike and have the same record. -/
theorem noteXlat_congr {s t : State} (h : t.xlatView = s.xlatView) (hx : t.xlats = s.xlats) (u : TlbUnit) (sp : Space) (a : Nat)
    (w : Bool) (use : Use) : (t.noteXlat u sp a w use).xlats = (s.noteXlat u sp a w use).xlats := by
  unfold State.noteXlat
  rw [xlatPair_congr h, hx]

/-- What a translation leaves in the record (R155): what was there, and the pair it returned from the table, if it did. -/
theorem mem_noteXlat (s : State) (u : TlbUnit) (sp : Space) (a : Nat) (w : Bool) (use : Use) (e : TlbEntry) :
    e ∈ (s.noteXlat u sp a w use).xlats ↔ e ∈ s.xlats ∨ s.xlatPair u sp a w use = some e := by
  simp only [State.noteXlat]
  split
  · rename_i d hd
    rw [hd]
    split
    · rename_i hc
      simp only [List.contains_iff_mem] at hc
      constructor
      · exact .inl
      · rintro (h | h)
        · exact h
        · cases h
          exact hc
    · simp [eq_comm]
  · rename_i hn
    rw [hn]
    simp

/-! ## The accesses of the parser -/

theorem parserPhys_congr {s t : State} (h : t.xlatView = s.xlatView) (sp : Space) (a : Nat) (w : Bool) (use : Use) :
    t.parserPhys sp a w use = s.parserPhys sp a w use := by
  unfold State.parserPhys
  rw [translate_congr h]

theorem parserPhys_some {s : State} {sp : Space} {a : Nat} {w : Bool} {use : Use} (h : (s.parserPhys sp a w use).isSome) :
    ∃ p, s.translate .bcs sp a w use = .ok p ∧ s.parserAddr sp a w use = p.addr := by
  unfold State.parserAddr
  unfold State.parserPhys at h ⊢
  cases ht : s.translate .bcs sp a w use with
  | ok p => exact ⟨p, rfl, by simp [Except.toOption]⟩
  | error f => simp [ht, Except.toOption] at h

/-- An access of the parser that translates goes to its physical address, and its translation is noted. -/
theorem access_parser_ok {s : State} {sp : Space} {a : Nat} {st w : Bool} {use : Use} (h : (s.parserPhys sp a w use).isSome) :
    ∃ p, access .parser st sp a w use s = .ok (some p, s.noteXlat .bcs sp a w use) ∧ s.parserAddr sp a w use = p.addr := by
  obtain ⟨p, hp, ha⟩ := parserPhys_some h
  refine ⟨p, ?_, ha⟩
  simp only [access, run_get_bind, Agent.tlb, hp, run_set_bind, run_pure]

/-- `post` joins the FIFO (R165). -/
theorem post_ok {s : State} {st : Bool} {sp : Space} {a : Nat} {l : List Byte} {use : Use}
    (h : (s.parserPhys sp a true use).isSome) : post st sp a l use s = .ok (⟨⟩, s.posting sp a l use) := by
  obtain ⟨p, hp, ha⟩ := access_parser_ok (st := st) h
  unfold post
  rw [bind_ok hp]
  simp [State.posting, ha]

/-- A DWord the parser reads. -/
theorem parserRead_ok {s : State} {sp : Space} {a : Nat} {use : Use} (h : (s.parserPhys sp a false use).isSome) :
    parserRead sp a use s = .ok (s.memWord sp a use, s.reading sp a use) := by
  obtain ⟨p, hp, ha⟩ := access_parser_ok (st := false) h
  unfold parserRead
  rw [bind_ok hp]
  simp only [run_get_bind, run_pure, State.memWord, ha]
  rfl

/-- Reads of the parser change what translations see of the state in nothing. -/
theorem fetched_eq (s : State) (sp : Space) (a n : Nat) : ∃ l, s.fetched sp a n = { s with xlats := l } := by
  induction n generalizing s a with
  | zero => exact ⟨_, rfl⟩
  | succ n ih =>
    obtain ⟨l, hl⟩ := ih (s.reading sp a .fetch) (a + 4)
    exact ⟨l, hl⟩

/-- What lies in memory is there whatever has been read. -/
theorem holdsAt_reading (s : State) (sp sp' : Space) (a a' : Nat) (use : Use) (ws : List Word) :
    (s.reading sp' a' use).holdsAt sp a ws = s.holdsAt sp a ws := by
  induction ws generalizing a with
  | nil => rfl
  | cons w ws ih =>
    have h := parserPhys_congr (s := s) (t := s.reading sp' a' use) rfl sp a false .fetch
    simp only [State.holdsAt, State.memWord, State.parserAddr, h, ih]
    rfl

/-- A command DWord, when nothing was read ahead. -/
theorem commandWord_ok {s : State} {ring : Bool} {sp : Space} {a : Nat} (hr : s.readAhead = [])
    (h : (s.parserPhys sp a false .fetch).isSome) :
    commandWord ring sp a s = .ok (s.memWord sp a .fetch, s.reading sp a .fetch) := by
  simp only [commandWord, run_get_bind, hr, List.find?_nil]
  exact parserRead_ok h

/-- The DWords of a command, when nothing was read ahead. -/
theorem fetchWords_ok {s : State} {ring : Bool} {sp : Space} (hr : s.readAhead = []) (ws : List Word) (a : Nat)
    (h : s.holdsAt sp a ws) : fetchWords ring sp a ws.length s = .ok (ws, s.fetched sp a ws.length) := by
  induction ws generalizing a s with
  | nil => rfl
  | cons w ws ih =>
    simp only [State.holdsAt, Bool.and_eq_true, beq_iff_eq] at h
    simp only [List.length_cons, fetchWords]
    rw [bind_ok (commandWord_ok hr h.1.1),
      bind_ok (ih (s := s.reading sp a .fetch) hr (a + 4) (by rw [holdsAt_reading]; exact h.2)), h.1.2]
    rfl

/-! ## The advance of `pc` -/

/-- `pc` moves in a batch buffer, or in the ring without an automatic report, and the rest of the command follows. -/
theorem finishWith_ok {s : State} {n : Nat} {m : M Unit} (h : s.canAdvance n) : finishWith n m s = m (s.advanced n) := by
  have hr : s.reportDue n = false := by
    unfold State.canAdvance at h
    unfold State.reportDue
    split at h <;> simp_all
  have hm : movePc n { s with parser := { s.parser with run := .running } } = .ok (⟨⟩, s.advanced n) := by
    unfold State.canAdvance at h
    unfold movePc State.advanced
    simp only [run_get_bind]
    split at h
    · rename_i hb
      simp only [hb, if_true]
      rw [if_neg (by simpa using h)]
      rfl
    · rename_i hb
      simp only [hb, if_false, Bool.false_eq_true]
      rfl
  unfold finishWith
  simp only [run_get_bind, run_setRun_bind, hr, onlyIf_false]
  rw [bind_ok hm]
  change (m >>= fun _ => pure ()) _ = _
  rw [show (m >>= fun _ => (pure () : M Unit)) = m from bind_pure m]

/-- A command that only moves `pc`. -/
theorem finish_ok {s : State} {n : Nat} (h : s.canAdvance n) : finish n s = .ok (⟨⟩, s.advanced n) := finishWith_ok h

/-- Whether `pc` can move depends on the parser's batch state and the ring registers alone. -/
theorem canAdvance_congr {s t : State} {n : Nat} (h1 : t.parser.inBatch = s.parser.inBatch)
    (h2 : t.parser.batchAddr = s.parser.batchAddr) (h3 : t.regs.ctl = s.regs.ctl) (h4 : t.regs.head = s.regs.head) :
    t.canAdvance n = s.canAdvance n := by
  unfold State.canAdvance Regs.reportInterval Regs.headOff Regs.ringSize
  rw [h1, h2, h3, h4]

/-- The status bits 10 and 11 of BCS_RING_BUFFER_CTL play no part in the advance. -/
theorem canAdvance_ctl {s t : State} {n i : Nat} (b : Bool) (hi : i = 10 ∨ i = 11)
    (h1 : t.parser.inBatch = s.parser.inBatch) (h2 : t.parser.batchAddr = s.parser.batchAddr)
    (h3 : t.regs.ctl = setBit s.regs.ctl i b) (h4 : t.regs.head = s.regs.head) : t.canAdvance n = s.canAdvance n := by
  unfold State.canAdvance Regs.reportInterval Regs.headOff Regs.ringSize
  rw [h1, h2, h3, h4, field_setBit_other _ _ _ _ _ (by omega), field_setBit_other _ _ _ _ _ (by omega)]

theorem canAdvance_posting {s : State} {sp : Space} {a n : Nat} {l : List Byte} :
    (s.posting sp a l).canAdvance n = s.canAdvance n := rfl

/-! ## The interrupt chain -/

/-- The ISR changes silently when every changed bit is masked in BCS_HWSTAM or in BCS_IMR. -/
theorem signalled_silent {s : State} {use : Use} {new : Word} (h : s.signals new = false) :
    s.signalled new use = { s with regs := s.regs.withIsr new } := by
  simp [State.signalled, h]

/-- Where the ISR changes, the status write goes is the state's translation before the change. -/
theorem parserPhys_withIsr (s : State) (new : Word) (sp : Space) (a : Nat) (w : Bool) (use : Use) :
    ({ s with regs := s.regs.withIsr new } : State).parserPhys sp a w use = s.parserPhys sp a w use :=
  parserPhys_congr (s := s) (by rfl) sp a w use

/-- The ISR changes, and its DWord of the status page is posted where the change causes it (R421, R424). -/
theorem setIsr_ok {s : State} {use : Use} {new : Word} (h : s.statusOpen new use) :
    setIsr use new s = .ok (⟨⟩, s.signalled new use) := by
  unfold State.statusOpen at h
  have e : ∀ m : M Unit, (latchIsr new >>= fun _ => m) s = m ({ s with regs := s.regs.withIsr new } : State) := fun _ => rfl
  unfold setIsr
  simp only [run_get_bind, e]
  cases hn : s.signals new with
  | false =>
    rw [signalled_silent hn, show needsStatusWrite s.regs s.regs.isr new = false from hn]
    rfl
  | true =>
    rw [hn, Bool.not_true, Bool.false_or, ← parserPhys_withIsr s new] at h
    obtain ⟨p, hp, ha⟩ := parserPhys_some h
    rw [show needsStatusWrite s.regs s.regs.isr new = true from hn, onlyIf_true]
    simp only [statusWrite, run_get_bind]
    rw [show ({ s with regs := s.regs.withIsr new } : State).regs.statusAddr = s.regs.statusAddr from rfl, hp]
    have ha' : s.parserAddr .ggtt s.regs.statusAddr true use = p.addr := by
      rw [← ha]
      unfold State.parserAddr
      rw [parserPhys_withIsr]
    simp only [run_set, State.signalled, hn, if_true, ha']
    rw [← noteXlat_congr (s := s) (t := { s with regs := s.regs.withIsr new }) rfl rfl]
    rfl

/-- A change of one ISR bit that is masked is silent. -/
theorem signals_setBit {s : State} {b : Nat} (v : Bool) (h : s.silent b) : s.signals (setBit s.regs.isr b v) = false := by
  simp only [State.signals, needsStatusWrite, bne_eq_false_iff_eq]
  apply BitVec.eq_of_getLsbD_eq
  intro i hi
  simp only [BitVec.getLsbD_and, BitVec.getLsbD_xor, BitVec.getLsbD_not, hi, decide_true, Bool.true_and,
    BitVec.ofNat_eq_ofNat, BitVec.getLsbD_zero]
  by_cases hb : i = b
  · subst hb
    simp only [State.silent, bit, Bool.or_eq_true] at h
    rcases h with h | h <;> simp [h]
  · have := bit_setBit_other s.regs.isr b i v hb
    simp only [bit] at this
    simp [this]

/-- A page fault that hangs (R430): the agent hangs, ISR bit 29 stands, and the step ends. -/
theorem takePageFault_hangs {a : Agent} {st : Bool} {use : Bool → Use} {f : XlatFault} {s : State}
    (hf : faultHangs s.regs f) (h : s.faultHungOpen a (gabBit st f) use) :
    takePageFault a st use f s = .error (.next (s.faultHung a (gabBit st f) use)) := by
  unfold takePageFault
  simp only [run_onRegs_bind, run_get_bind]
  rw [if_pos (show faultHangs { s.regs with gabErr := setBit s.regs.gabErr (gabBit st f) true } f = true from hf)]
  cases a <;> simp only [run_onRegs_bind, hang, run_setRun_bind, run_modify_bind] <;>
    (rw [run_bind]; erw [setIsr_ok h]; rfl)

/-- A page fault that goes on (R430): it is recorded, ISR bit 29 rises and then is what the pending faults make it. -/
theorem takePageFault_continues {a : Agent} {st : Bool} {use : Bool → Use} {f : XlatFault} {s : State}
    (hf : faultHangs s.regs f = false) (h : s.faultPassedOpen a (gabBit st f) use) :
    takePageFault a st use f s = .ok (⟨⟩, s.faultPassed a (gabBit st f) use) := by
  simp only [State.faultPassedOpen, Bool.and_eq_true] at h
  unfold takePageFault
  simp only [run_onRegs_bind, run_get_bind]
  rw [if_neg (by rw [show faultHangs { s.regs with gabErr := setBit s.regs.gabErr (gabBit st f) true } f = false from hf]; simp)]
  rw [run_bind]
  erw [setIsr_ok h.1]
  simp only [run_get_bind]
  exact setIsr_ok h.2

/-- With no pulse left over, nothing happens before the step. -/
theorem dropPulses_quiet {s : State} (h : s.quiet) : dropPulses s = .ok (⟨⟩, s) := by
  simp only [State.quiet, Bool.and_eq_true, beq_iff_eq] at h
  simp [dropPulses, h.1]

/-- How a step begins: what is read ahead and can run no more is forgotten (R167), and the pulses fall (R422), with the status
write this causes, if it causes one. -/
theorem beginStep_ok {s : State} (h : s.statusOpen (s.regs.isr &&& ~~~pulseInts) .pulse) :
    beginStep s = .ok (⟨⟩, if s.regs.isr &&& pulseInts = 0 then s.keepAhead
      else s.keepAhead.signalled (s.regs.isr &&& ~~~pulseInts) .pulse) := by
  unfold beginStep dropPulses
  rw [run_modify_bind, run_get_bind]
  by_cases h0 : s.regs.isr &&& pulseInts = 0
  · rw [if_pos (c := s.keepAhead.regs.isr &&& pulseInts = 0) h0, if_pos h0]
    rfl
  · rw [if_neg (c := s.keepAhead.regs.isr &&& pulseInts = 0) h0, if_neg h0]
    exact setIsr_ok (s := s.keepAhead) h

/-- Where nothing is left from the last step, a step begins without a change. -/
theorem beginStep_quiet {s : State} (h : s.quiet) : beginStep s = .ok (⟨⟩, s) := by
  have hk : s.keepAhead = s := by
    simp only [State.quiet, Bool.and_eq_true, List.all_eq_true] at h
    unfold State.keepAhead
    rw [List.filter_eq_self.mpr h.2]
  unfold beginStep
  rw [run_modify_bind, hk]
  exact dropPulses_quiet h

end Sys2Proof.Machine
end

