-- ==== Sys2Proof/Laws/Raster.lean ====
section
/-! SUPPORT. Drawing, said once: when every access of a job reaches memory it may reach, the pixels are painted one after
the other (`Job.paint`), and painting changes the render cache and the free-value counter alone. -/

namespace Sys2Proof.Machine

/-! ## Tiled surfaces -/

/-- Two positions of a tiled surface never share a byte (R132). -/
theorem tileAddr_injective {m : TileMode} {base pitch x y x' y' : Nat} (hx : x < pitch) (hx' : x' < pitch)
    (h : Config.tileAddr m base pitch x y = Config.tileAddr m base pitch x' y') : x = x' ∧ y = y' := by
  unfold Config.tileAddr at h
  rw [if_pos hx, if_pos hx'] at h
  have hq : (y * pitch + x) / 4 = (y' * pitch + x') / 4 :=
    (Config.tileOrder m base pitch).injective (by omega)
  have he : y * pitch + x = y' * pitch + x' := by omega
  have hm := congrArg (· % pitch) he
  simp only [Nat.add_comm (_ * pitch), Nat.add_mul_mod_self_right, Nat.mod_eq_of_lt hx, Nat.mod_eq_of_lt hx'] at hm
  subst hm
  exact ⟨rfl, Nat.eq_of_mul_eq_mul_right (by omega) (Nat.add_right_cancel he)⟩

/-- Every byte from the base on belongs to a position of the tiled surface, which goes on downwards (R132). -/
theorem tileAddr_surjective {m : TileMode} {base pitch a : Nat} (hp : 0 < pitch) (ha : base ≤ a) :
    ∃ x y, x < pitch ∧ Config.tileAddr m base pitch x y = a := by
  obtain ⟨q, hq⟩ := (Config.tileOrder m base pitch).surjective ((a - base) / 4)
  refine ⟨(4 * q + (a - base) % 4) % pitch, (4 * q + (a - base) % 4) / pitch, Nat.mod_lt _ hp, ?_⟩
  unfold Config.tileAddr
  rw [if_pos (Nat.mod_lt _ hp), Nat.div_add_mod']
  have h1 : (4 * q + (a - base) % 4) / 4 = q := by omega
  have h2 : (4 * q + (a - base) % 4) % 4 = (a - base) % 4 := by omega
  rw [h1, h2, hq]
  omega

/-! ## What painting leaves alone -/

/-- `t` differs from `s` in memory, the caches, the posted writes, the records of texture reads and of translations and the
free-value counter alone. -/
def State.SameBut (s t : State) : Prop := ∃ m rc past tc l x p n,
  t = { s with mem := m, rc := rc, rcPast := past, tc := tc, tcRead := l, xlats := x, posted := p, freeCount := n }

theorem State.SameBut.refl (s : State) : s.SameBut s := ⟨_, _, _, _, _, _, _, _, rfl⟩

theorem State.SameBut.trans {s t u : State} (h1 : s.SameBut t) (h2 : t.SameBut u) : s.SameBut u := by
  obtain ⟨_, _, _, _, _, _, _, _, rfl⟩ := h1
  obtain ⟨_, _, _, _, _, _, _, _, rfl⟩ := h2
  exact ⟨_, _, _, _, _, _, _, _, rfl⟩

theorem State.SameBut.translate {s t : State} (h : s.SameBut t) (u : TlbUnit) (sp : Space) (a : Nat) (w : Bool) (use : Use) :
    t.translate u sp a w use = s.translate u sp a w use := by
  obtain ⟨_, _, _, _, _, _, _, _, rfl⟩ := h
  exact translate_congr rfl _ _ _ _ _

theorem State.SameBut.phys {s t : State} (h : s.SameBut t) (a : Int) (n : Nat) (w : Bool) (use : Use) :
    t.phys a n w use = s.phys a n w use := by
  have ht := h.translate
  obtain ⟨_, _, _, _, _, _, _, _, rfl⟩ := h
  unfold State.phys
  simp only [ht]

theorem State.SameBut.physAddr {s t : State} (h : s.SameBut t) (a : Int) (n : Nat) (w : Bool) (use : Use) :
    t.physAddr a n w use = s.physAddr a n w use := by
  unfold State.physAddr
  rw [h.phys]

/-- Whether a job's accesses reach memory depends on the engine's translations alone. -/
theorem ready_congr {s t : State} (h : ∀ a n w use, t.phys a n w use = s.phys a n w use) (j : Job) (px : List (Int × Int)) :
    j.ready t px = j.ready s px := by
  have hc : ∀ a n w use, t.physCached a n w use = s.physCached a n w use := by
    intro a n w use
    unfold State.physCached
    rw [h]
  have : j.pixelReady t = j.pixelReady s := by
    funext p
    simp only [Job.pixelReady, Job.patternReady, Job.sourceReady, Job.destOpen, Job.sourceCached, h, hc]
  unfold Job.ready
  rw [this]

theorem State.SameBut.ready {s t : State} (h : s.SameBut t) (j : Job) (px : List (Int × Int)) :
    j.ready t px = j.ready s px := ready_congr h.phys j px

/-- Loading registers moves no access. -/
theorem ready_br (j : Job) (s : State) (b : Br) (px : List (Int × Int)) :
    j.ready { s with br := b } px = j.ready s px := by
  refine ready_congr (fun a n w use => ?_) j px
  unfold State.phys
  simp only [translate_congr (s := s) (t := { s with br := b }) rfl]

/-- Loading a monochrome pattern moves no access. -/
theorem ready_patternLoaded (j : Job) (s : State) (px : List (Int × Int)) :
    j.ready s.patternLoaded px = j.ready s px := by
  refine ready_congr (fun a n w use => ?_) j px
  unfold State.phys
  rw [translate_congr (s := s) (t := s.patternLoaded) rfl]
  rfl

/-- BR20S and BR21S take two free values. -/
theorem freeSetupPattern_bind {β : Type} (f : PUnit → M β) (s : State) :
    (freeSetupPattern >>= f) s = f ⟨⟩ s.patternLoaded := rfl

theorem putPixel_sameBut (ov : Nat → Nat → Bool) (a ph : Nat) (en : Nat → Bool) (v : Word) (ks : List Nat) (s : State) :
    s.SameBut (putPixel ov a ph en v ks s) := by
  induction ks generalizing s with
  | nil => exact .refl s
  | cons k ks ih =>
    refine State.SameBut.trans ?_ (ih _)
    split
    · split
      · exact ⟨_, _, _, _, _, _, _, _, rfl⟩
      · exact ⟨_, _, _, _, _, _, _, _, rfl⟩
    · exact .refl s

@[simp] theorem putPixel_tcRead (ov : Nat → Nat → Bool) (a ph : Nat) (en : Nat → Bool) (v : Word) (ks : List Nat) (s : State) :
    (putPixel ov a ph en v ks s).tcRead = s.tcRead := by
  induction ks generalizing s with
  | nil => rfl
  | cons k ks ih =>
    simp only [putPixel]
    rw [ih]
    split
    · split <;> rfl
    · rfl

/-- The bytes of one pixel keep the caches in their form, and every byte outside them; memory, the texture cache, the posted
writes and what is to happen in the middle of commands are not touched. -/
theorem putPixel_keeps (ov : Nat → Nat → Bool) (a ph : Nat) (en : Nat → Bool) (v : Word) (ks : List Nat) (s : State) (x : Nat)
    (hx : ∀ k ∈ ks, ph + k ≠ x) (h : s.cachesOk) :
    (putPixel ov a ph en v ks s).cachesOk ∧ (putPixel ov a ph en v ks s).renderRead x = s.renderRead x ∧
      (putPixel ov a ph en v ks s).mem = s.mem ∧ (putPixel ov a ph en v ks s).tc = s.tc ∧
      (putPixel ov a ph en v ks s).posted = s.posted ∧ (putPixel ov a ph en v ks s).midEvents = s.midEvents := by
  induction ks generalizing s with
  | nil => exact ⟨h, rfl, rfl, rfl, rfl, rfl⟩
  | cons k ks ih =>
    have hk : ∀ b, (s.renderWrite (ph + k) b).renderRead x = s.renderRead x := fun b => by
      rw [State.renderRead_renderWrite, if_neg (hx k (by simp))]
    have step : ∀ t : State, t.cachesOk → t.renderRead x = s.renderRead x → t.mem = s.mem → t.tc = s.tc →
        t.posted = s.posted → t.midEvents = s.midEvents → _ := fun t ht h1 h2 h3 h4 h5 => by
      have := ih t (fun k hk => hx k (List.mem_cons_of_mem _ hk)) ht
      rw [h1, h2, h3, h4, h5] at this
      exact this
    simp only [putPixel]
    split
    · split
      · exact step { s.renderWrite (ph + k) (Config.freeByte s.freeCount) with freeCount := s.freeCount + 1 }
          (s.renderWrite_cachesOk (ph + k) _ h) (hk _) rfl rfl rfl rfl
      · exact step (s.renderWrite (ph + k) (byteOf v k)) (s.renderWrite_cachesOk (ph + k) _ h) (hk _) rfl rfl rfl rfl
    · exact step s h rfl rfl rfl rfl rfl

theorem noteTexture_sameBut (s : State) (l : List Nat) : s.SameBut (s.noteTexture l) := ⟨_, _, _, _, _, _, _, _, rfl⟩

theorem midway_sameBut (s : State) (use : Use) (w : Bool) : s.SameBut (s.midway use w) := by
  obtain ⟨_, _, _, _, _, h⟩ := s.midway_eq use w
  exact ⟨_, _, _, _, _, _, _, _, h⟩

theorem reached_sameBut (s : State) (a : Int) (w : Bool) (use : Use) : s.SameBut (s.reached a w use) :=
  (midway_sameBut s use w).trans ⟨_, _, _, _, _, _, _, _, rfl⟩

theorem afterPattern_sameBut (j : Job) (s : State) (x y : Int) : s.SameBut (j.afterPattern s x y) := by
  unfold Job.afterPattern
  simp only
  split
  · split
    · exact (reached_sameBut ..).trans (noteTexture_sameBut ..)
    · exact .refl s
  · exact .refl s

theorem afterSource_sameBut (j : Job) (s : State) (x y : Int) : s.SameBut (j.afterSource s x y) := by
  unfold Job.afterSource
  simp only
  split
  · split
    · exact reached_sameBut ..
    · exact .refl s
  · split
    · exact (reached_sameBut ..).trans (noteTexture_sameBut ..)
    · exact .refl s
  · exact .refl s

theorem afterDest_sameBut (j : Job) (s : State) (x y : Int) : s.SameBut (j.afterDest s x y) := by
  unfold Job.afterDest
  split
  · exact reached_sameBut ..
  · exact .refl s

theorem noted_sameBut (j : Job) (s : State) (x y : Int) : s.SameBut (j.noted s x y) :=
  ((afterPattern_sameBut ..).trans (afterSource_sameBut ..)).trans (afterDest_sameBut ..)

theorem paintPixel_sameBut (j : Job) (ov : Nat → Nat → Bool) (s : State) (p : Int × Int) : s.SameBut (j.paintPixel ov s p) := by
  unfold Job.paintPixel
  simp only
  split
  · exact ((noted_sameBut j s p.1 p.2).trans (reached_sameBut ..)).trans (putPixel_sameBut ..)
  · exact noted_sameBut ..

/-- Painting changes memory, the caches, the posted writes, the records and the free-value counter alone. -/
theorem paint_sameBut (j : Job) (ov : Nat → Nat → Bool) (px : List (Int × Int)) (s : State) : s.SameBut (j.paint ov s px) := by
  induction px generalizing s with
  | nil => exact .refl s
  | cons p px ih => exact (paintPixel_sameBut j ov s p).trans (ih _)

/-! ## One pixel -/

theorem phys_some {s : State} {a : Int} {n : Nat} {w : Bool} {use : Use} (h : (s.phys a n w use).isSome) :
    ∃ p : Phys, engineAccess a n w use s = .ok (some p, s.reached a w use) ∧ s.physAddr a n w use = p.addr ∧
      s.physCached a n w use = p.cacheable := by
  unfold State.physAddr State.physCached
  unfold State.phys at h ⊢
  split at h
  · rename_i hr
    rw [if_pos hr]
    cases ht : s.translate .blb s.engine.space a.toNat w use with
    | error f => simp [ht, Except.toOption] at h
    | ok p =>
      refine ⟨p, ?_, rfl, rfl⟩
      have he : (s.midway use w).engine = s.engine := by
        obtain ⟨_, _, _, _, _, h⟩ := s.midway_eq use w
        rw [h]
      have ht' := (midway_sameBut s use w).translate .blb s.engine.space a.toNat w use
      simp only [engineAccess, checkRange]
      rw [bind_ok (a := a.toNat) (s' := s) (by
        rw [require_bind (by simpa using hr)]
        rfl)]
      simp only [run_modify_bind, run_get_bind, access, Agent.tlb, he, ht', ht, run_set_bind, run_pure]
      rfl
  · simp at h

theorem readRender_ok {s : State} {a : Int} {n : Nat} {use : Use} (h : (s.phys a n false use).isSome) :
    readRender a n use s =
      .ok ((bytesWord (bytesAt (s.midway use false).renderRead (s.physAddr a n false use) n), s.physCached a n false use),
        s.reached a false use) := by
  obtain ⟨p, hp, ha, hc⟩ := phys_some h
  unfold readRender
  rw [bind_ok hp, ha, hc]
  rfl

theorem readTexture_ok {s : State} {a : Int} {n : Nat} {use : Use} (h : (s.phys a n false use).isSome)
    (hc : s.physCached a n false use = false) :
    readTexture a n use s = .ok (bytesWord (bytesAt (s.midway use false).textureRead (s.physAddr a n false use) n),
      (s.reached a false use).noteTexture ((List.range n).map (s.physAddr a n false use + ·))) := by
  obtain ⟨p, hp, ha, hc'⟩ := phys_some h
  unfold readTexture
  rw [bind_ok hp, ha]
  simp only
  rw [require_bind (by rw [← hc', hc]; rfl)]
  rfl

theorem patternOperand_ok {j : Job} {s : State} {x y : Int} (h : j.patternReady s x y) :
    patternOperand j x y s = .ok (j.patternAt s x y, j.afterPattern s x y) := by
  unfold patternOperand Job.patternAt Job.afterPattern Job.patternBytes
  unfold Job.patternReady at h
  cases hp : j.pat with
  | absent => rfl
  | solid c => rfl
  | immediate data => rfl
  | mono p0 p1 fg bg transparent => rfl
  | memory addr =>
    simp only [hp] at h ⊢
    by_cases hu : (ropUses j.rop).p
    · simp only [hu, Bool.not_true, Bool.false_or, Bool.and_eq_true, Bool.not_eq_true', if_true] at h ⊢
      rw [bind_ok (readTexture_ok h.1 h.2)]
      rfl
    · simp only [hu, if_false, Bool.false_eq_true]
      rfl

theorem checkTiled_ok {f : Surface} {c : Bool} {s : State} (h : (!(f.tile.isSome && c)) = true) :
    checkTiled f c s = .ok (⟨⟩, s) := require_ok h

theorem sourceOperand_ok {j : Job} {s : State} {x y : Int} (h : j.sourceReady s x y) :
    sourceOperand j x y s = .ok (((j.sourceAt s x y).1, (j.sourceAt s x y).2, j.sourceCached s x y),
      j.afterSource s x y) := by
  unfold sourceOperand Job.sourceAt Job.sourceCached Job.afterSource Job.monoBytes
  unfold Job.sourceReady at h
  cases hp : j.src with
  | absent => rfl
  | monoImm l w data x1 y1 fg bg transparent => rfl
  | mono l w addr x1 y1 fg bg transparent =>
    simp only [hp] at h ⊢
    by_cases hu : ((ropUses j.rop).s || transparent) = true
    · simp only [hu, Bool.not_true, Bool.false_or, Bool.and_eq_true, Bool.not_eq_true', if_true] at h ⊢
      rw [bind_ok (readTexture_ok h.1 h.2)]
      rfl
    · simp only [hu, if_false, Bool.false_eq_true]
      rfl
  | color f ox oy =>
    simp only [hp] at h ⊢
    by_cases hu : ((ropUses j.rop).s || sourceMode j.mode) = true
    · simp only [hu, Bool.not_true, Bool.false_or, Bool.and_eq_true, if_true, Bool.true_and] at h ⊢
      rw [bind_ok (readRender_ok h.1)]
      simp only
      rw [bind_ok (checkTiled_ok h.2)]
      rfl
    · simp only [hu, if_false, Bool.false_eq_true, Bool.false_and]
      rfl

theorem writePixel_ok (ov : Nat → Nat → Bool) (a ph : Nat) (en : Nat → Bool) (v : Word) (ks : List Nat) (s : State) :
    writePixel ov a ph en v ks s = .ok (⟨⟩, putPixel ov a ph en v ks s) := by
  induction ks generalizing s with
  | nil => rfl
  | cons k ks ih =>
    simp only [writePixel, putPixel]
    by_cases he : en k = true
    · by_cases ho : ov (a + k) (ph + k) = true
      · simp only [he, ho, if_true, onlyIf_true]
        exact ih _
      · simp only [he, ho, if_true, if_false, Bool.false_eq_true, onlyIf_true]
        exact ih _
    · simp only [he, if_false, Bool.false_eq_true, onlyIf_false]
      exact ih _

theorem checkDest_ok {j : Job} {sc c : Bool} {s : State} (h1 : (!(j.dst.tile.isSome && c)) = true)
    (h2 : (!(sc && c)) = true) : checkDest j sc c s = .ok (⟨⟩, s) := by
  unfold checkDest
  rw [bind_ok (checkTiled_ok h1), require_ok h2]

theorem destOperand_ok {j : Job} {s : State} {x y : Int} {c : Bool} (hc : c = j.sourceCached s x y)
    (h : (!destRead j.rop j.mode || j.destOpen s x y false) = true) :
    destOperand j c x y s = .ok (j.destAt s x y, j.afterDest s x y) := by
  subst hc
  unfold destOperand Job.destAt Job.afterDest
  by_cases hd : destRead j.rop j.mode = true
  · simp only [hd, Bool.not_true, Bool.false_or, Job.destOpen, Bool.and_eq_true, if_true] at h ⊢
    rw [bind_ok (readRender_ok h.1.1)]
    simp only
    rw [bind_ok (checkDest_ok h.1.2 h.2)]
    rfl
  · simp only [hd, if_false, Bool.false_eq_true]
    rfl

theorem writeDest_ok {j : Job} {ov : Nat → Nat → Bool} {s : State} {x y : Int} {v : Word} {c : Bool}
    (hc : c = j.sourceCached s x y) (h : (!j.writesBytes || j.destOpen s x y true) = true) :
    writeDest j ov c x y v s = .ok (⟨⟩, if j.writesBytes then
      putPixel ov (j.dst.addr (bpp j.depth) x y).toNat
        (s.physAddr (j.dst.addr (bpp j.depth) x y) (bpp j.depth) true (.dest x y)) (byteEnable j.depth j.mask) v
        (List.range (bpp j.depth)) (s.reached (j.dst.addr (bpp j.depth) x y) true (.dest x y))
      else s) := by
  subst hc
  unfold writeDest
  by_cases hb : j.writesBytes = true
  swap
  · rw [Bool.not_eq_true] at hb
    rw [hb]
    rfl
  simp only [hb, Bool.not_true, Bool.false_or, Job.destOpen, Bool.and_eq_true] at h
  obtain ⟨⟨h1, h2⟩, h3⟩ := h
  obtain ⟨p, hp, ha, hc⟩ := phys_some h1
  simp only [hb, onlyIf_true, if_true]
  rw [bind_ok hp]
  simp only
  rw [bind_ok (checkDest_ok (by rw [← hc]; exact h2) (by rw [← hc]; exact h3)), ha]
  exact writePixel_ok ..

/-! Reading the operands of a pixel moves no access. -/

theorem State.SameBut.sourceCached {s t : State} (h : s.SameBut t) (j : Job) (x y : Int) :
    j.sourceCached t x y = j.sourceCached s x y := by
  unfold Job.sourceCached State.physCached
  simp only [h.phys]

theorem State.SameBut.sourceReady {s t : State} (h : s.SameBut t) (j : Job) (x y : Int) :
    j.sourceReady t x y = j.sourceReady s x y := by
  unfold Job.sourceReady State.physCached
  simp only [h.phys]

theorem State.SameBut.destOpen {s t : State} (h : s.SameBut t) (j : Job) (x y : Int) (w : Bool) :
    j.destOpen t x y w = j.destOpen s x y w := by
  unfold Job.destOpen State.physCached
  simp only [h.phys, h.sourceCached]

/-- One pixel: its operands are read, combined and written (R255). -/
theorem drawPixel_ok {j : Job} {ov : Nat → Nat → Bool} {s : State} {x y : Int} (h : j.pixelReady s (x, y)) :
    drawPixel j ov x y s = .ok (⟨⟩, j.paintPixel ov s (x, y)) := by
  simp only [Job.pixelReady, Bool.and_eq_true] at h
  obtain ⟨⟨⟨hp, hs⟩, hd⟩, hw⟩ := h
  have e1 := afterPattern_sameBut j s x y
  have e2 := e1.trans (afterSource_sameBut j (j.afterPattern s x y) x y)
  have e3 : s.SameBut (j.noted s x y) := noted_sameBut j s x y
  unfold drawPixel
  rw [bind_ok (patternOperand_ok hp)]
  simp only
  rw [bind_ok (sourceOperand_ok (by rw [e1.sourceReady]; exact hs))]
  simp only
  rw [bind_ok (destOperand_ok (by rw [e2.sourceCached, e1.sourceCached]) (by rw [e2.destOpen]; exact hd))]
  unfold Job.paintPixel Job.enabledAt Job.resultAt Job.operandsAt
  simp only
  cases hen : (j.sourceAt (j.afterPattern s x y) x y).2 && (j.patternAt s x y).2 &&
      rangeEnable j.depth j.mode j.lo j.hi (j.sourceAt (j.afterPattern s x y) x y).1
        (j.destAt (j.afterSource (j.afterPattern s x y) x y) x y) with
  | false => rfl
  | true =>
    rw [onlyIf_true, Bool.true_and, ← e3.physAddr]
    exact writeDest_ok (s := j.noted s x y) (by rw [e3.sourceCached, e1.sourceCached]) (by rw [e3.destOpen]; exact hw)

/-- All the pixels (R252): when every access reaches memory it may reach, drawing is painting. -/
theorem drawPixels_ok {j : Job} {ov : Nat → Nat → Bool} (px : List (Int × Int)) {s : State} (h : j.ready s px) :
    drawPixels j ov px s = .ok (⟨⟩, j.paint ov s px) := by
  induction px generalizing s with
  | nil => rfl
  | cons p px ih =>
    obtain ⟨x, y⟩ := p
    have h' := h
    simp only [Job.ready, List.all_cons, Bool.and_eq_true] at h'
    simp only [drawPixels]
    rw [bind_ok (drawPixel_ok h'.1)]
    refine ih ?_
    rw [(paintPixel_sameBut j ov s (x, y)).ready]
    exact h'.2

/-! ## The commands -/

theorem checkSurface_ok {f : Surface} {n : Nat} {s : State} (h : f.legal n) : checkSurface f n s = .ok (⟨⟩, s) := by
  unfold checkSurface
  unfold Surface.legal at h
  cases ht : f.tile with
  | none =>
    simp only [ht] at h ⊢
    exact require_ok h
  | some m =>
    cases m <;>
    · simp only [ht, Bool.and_eq_true] at h ⊢
      rw [require_bind h.1.1]
      exact require_ok (by rw [Bool.and_eq_true]; exact ⟨h.1.2, h.2⟩)

theorem checkSource_ok {j : Job} {s : State} (h : j.sourceLegal) : checkSource j s = .ok (⟨⟩, s) := by
  unfold checkSource
  unfold Job.sourceLegal at h
  cases hs : j.src with
  | absent => rfl
  | color f ox oy =>
    simp only [hs] at h ⊢
    exact checkSurface_ok h
  | mono l w addr x1 y1 fg bg transparent =>
    simp only [hs] at h ⊢
    exact require_ok h
  | monoImm l w data x1 y1 fg bg transparent =>
    simp only [hs] at h ⊢
    exact require_ok h

/-- `drawXY` (R256): a legal job whose accesses reach memory is painted. -/
theorem drawXY_ok {j : Job} {clip : Option Box} {b : Box} {xb yb : Bool} {s : State}
    (hl : j.legal (b.bottom - b.top).toNat) (hr : j.ready s (drawnPixels b clip xb yb)) :
    drawXY j clip b xb yb s = .ok (⟨⟩, j.drawn (drawnPixels b clip xb yb) s) := by
  simp only [Job.legal, Bool.and_eq_true] at hl
  obtain ⟨⟨⟨⟨⟨h1, h2⟩, h3⟩, h4⟩, h5⟩, h6⟩ := hl
  unfold drawXY checkRop
  simp only
  rw [require_bind (by exact h1), require_bind h2, bind_ok (checkSurface_ok h3), bind_ok (checkSource_ok h4), if_pos h5,
    require_bind h6]
  exact drawPixels_ok _ hr

/-- The data hang of a wrong immediate amount (R435, D5): the engine and the parser hang, nothing is written. -/
theorem drawXY_hang {j : Job} {clip : Option Box} {b : Box} {xb yb : Bool} {s : State}
    (h : j.wrongAmount (b.bottom - b.top).toNat) : drawXY j clip b xb yb s = .error (.next s.dataHung) := by
  simp only [Job.wrongAmount, Bool.and_eq_true, Bool.not_eq_true'] at h
  obtain ⟨⟨⟨⟨h1, h2⟩, h3⟩, h4⟩, h5⟩ := h
  unfold drawXY checkRop
  simp only
  rw [require_bind (by exact h1), require_bind h2, bind_ok (checkSurface_ok h3), bind_ok (checkSource_ok h4), if_neg (by simp [h5])]
  rfl

/-! ### Loading registers -/

theorem latchDraw_bind {β : Type} (o : Op) (d : Draw) (mode : BitVec 3) (a b c : Bool) (f : PUnit → M β) (s : State) :
    (latchDraw o d mode a b c >>= f) s = f ⟨⟩ { s with br := s.br.withDraw o d mode a b c } := rfl
theorem latchSeeds_bind {β : Type} (h v : BitVec 3) (f : PUnit → M β) (s : State) :
    (latchSeeds h v >>= f) s = f ⟨⟩ { s with br := s.br.withSeeds h v } := rfl
theorem latchSource_bind {β : Type} (c : ColorSrc) (f : PUnit → M β) (s : State) :
    (latchSource c >>= f) s = f ⟨⟩ { s with br := s.br.withSource c } := rfl
theorem latchStart_bind {β : Type} (b : BitVec 3) (f : PUnit → M β) (s : State) :
    (latchStart b >>= f) s = f ⟨⟩ { s with br := s.br.withStart b } := rfl
theorem latchLinear_bind {β : Type} (o : Op) (pen : Pen) (mask : BitVec 2) (xdir : Bool) (height width : BitVec 16)
    (dst : Word) (f : PUnit → M β) (s : State) :
    (latchLinear o pen mask xdir height width dst >>= f) s =
      f ⟨⟩ { s with br := s.br.withLinear o pen mask xdir height width dst } := rfl
theorem latchDependent_bind {β : Type} (o : Op) (tiled packed : Bool) (f : PUnit → M β) (s : State) :
    (latchDependent o tiled packed >>= f) s = f ⟨⟩ { s with br := s.br.withDependent s.setup o tiled packed } := rfl
theorem latchRect_bind {β : Type} (r : Rect) (f : PUnit → M β) (s : State) :
    (latchRect r >>= f) s = f ⟨⟩ { s with br := s.br.withRect r } := rfl
theorem latchKey_bind {β : Type} (lo hi : Word) (f : PUnit → M β) (s : State) :
    (latchKey lo hi >>= f) s = f ⟨⟩ { s with br := { s.br with br18 := lo, br19 := hi } } := rfl
theorem latchMonoPattern_bind {β : Type} (p0 p1 : Word) (f : PUnit → M β) (s : State) :
    (latchMonoPattern p0 p1 >>= f) s =
      f ⟨⟩ (State.patternLoaded { s with br := { s.br with br20 := p0, br21 := p1 } }) := rfl

/-- `runDraw` in a state whose registers are already loaded. -/
theorem runDraw_ok {d : Draw} {f : Word → Job} {s : State} (hl : (f s.regs.swctrl).legal (rectHeight d.rect))
    (hr : (f s.regs.swctrl).ready s (drawnPixels (rectBox d.rect) (clipOf s.setup d.clip) false false)) :
    runDraw d f s = .ok (⟨⟩, (f s.regs.swctrl).drawn
      (drawnPixels (rectBox d.rect) (clipOf s.setup d.clip) false false) s) := by
  unfold runDraw
  rw [run_get_bind]
  exact drawXY_ok hl hr

/-- `runCopy` in a state whose registers are already loaded. -/
theorem runCopy_ok {d : Draw} {c : ColorSrc} {f : Word → Job} {s : State} {j : Job}
    (hj : j = { f s.regs.swctrl with src := copySource d.rect c s.regs.swctrl }) (hl : j.legal (copyHeight d.rect c))
    (hr : j.ready s (copyPixels d c s.setup)) :
    runCopy d c f s = .ok (⟨⟩, j.drawn (copyPixels d c s.setup) s) := by
  subst hj
  unfold runCopy
  rw [run_get_bind]
  exact drawXY_ok hl hr

/-- `drawDependent` in a state whose registers are already loaded. -/
theorem drawDependent_ok {tiled : Bool} {b : Box} {f : Setup → Job → Job} {s : State} {j : Job}
    (hj : j = f s.setup (setupJob s.setup s.regs.swctrl tiled)) (hl : j.legal (b.bottom - b.top).toNat)
    (hr : j.ready s (drawnPixels b (clipOf s.setup (bit s.setup.br01 30)) false false)) :
    drawDependent tiled b f s = .ok (⟨⟩, j.drawn
      (drawnPixels b (clipOf s.setup (bit s.setup.br01 30)) false false) s) := by
  subst hj
  unfold drawDependent
  rw [run_get_bind]
  exact drawXY_ok hl hr

/-- `drawLinear` (R257): a legal job whose accesses reach memory is painted. -/
theorem drawLinear_ok {j : Job} {height width : BitVec 16} {xb : Bool} {s : State}
    (hl : j.linearLegal height width) (hr : j.ready s (linearPixels j.depth height width xb)) :
    drawLinear j height width xb s = .ok (⟨⟩, j.linearDrawn (linearPixels j.depth height width xb) s) := by
  simp only [Job.linearLegal, Bool.and_eq_true] at hl
  obtain ⟨⟨⟨h1, h2⟩, h3⟩, h4⟩ := hl
  unfold drawLinear checkRop
  simp only
  rw [require_bind (by exact h1), require_bind (by rw [h2, h3]; rfl)]
  unfold linearPixels at hr ⊢
  by_cases h0 : height = 0 ∨ width = 0
  · simp only [h0, if_true]
    rfl
  · simp only [h0, if_false] at hr ⊢
    have h4' : (width.toNat % bpp j.depth == 0 && j.dst.base % bpp j.depth == 0 && j.dst.pitch % 4 == 0) = true := by
      rw [not_or] at h0
      simpa only [beq_eq_false_iff_ne.mpr h0.1, beq_eq_false_iff_ne.mpr h0.2, Bool.false_or] using h4
    rw [require_bind h4']
    exact drawPixels_ok _ hr

end Sys2Proof.Machine
end

