-- ==== Sys2Proof/Laws/Engine.lean ====
section
/-! SUPPORT. What the engine can change while it draws, said once and also where its accesses fault: `State.Drawing` holds after
every operation of a drawing command (`drawXY_draws`, `drawLinear_draws`). -/

namespace Sys2Proof.Machine

variable {α β : Type}

/-! ## What has changed -/

/-- From `s` to `t` the engine has drawn in the bytes `W` alone, its page faults have posted the status writes `p`, and what was
to happen in the middle of the command has happened. -/
structure State.Drawing (W : Nat → Bool) (s t : State) (p : List (List Host.Cell)) : Prop where
  frame : ∃ isr iir gab fp pr er m rc past tc l x q n, t = { s with
    regs := { s.regs with isr := isr, iir := iir, gabErr := gab, faultPending := fp }
    parser := { s.parser with run := pr }
    engine := { s.engine with run := er }
    mem := m, rc := rc, rcPast := past, tc := tc, tcRead := l, xlats := x, posted := q, freeCount := n }
  isr : ∃ b, t.regs.isr = setBit s.regs.isr 29 b
  iir : t.regs.iir ||| (setBit s.regs.isr 29 true &&& ~~~s.regs.imr) = s.regs.iir ||| (setBit s.regs.isr 29 true &&& ~~~s.regs.imr)
  gab : t.regs.gabErr ||| 0x9C = s.regs.gabErr ||| 0x9C
  writes : ∀ c ∈ p, s.faultWrite c
  posted : t.posted <:+ s.posted ++ p
  still : s.midEvents = [] → t.mem = s.mem ∧ t.tc = s.tc ∧ t.posted = s.posted ++ p
  cache : s.midEvents = [] → ∀ a, W a = false →
    lookup t.rc a = lookup s.rc a ∧ t.rcPast.filter (·.1 == a) = s.rcPast.filter (·.1 == a)
  caches : s.cachesOk → t.cachesOk ∧ ∀ a, W a = false → s.disturbs a = false → (∀ c ∈ p, ∀ x ∈ c, x.1 ≠ a) →
    t.renderRead a = s.renderRead a
  xlats : s.xlats <+: t.xlats ∧ ∀ e ∈ t.xlats, e ∈ s.xlats ∨ e.entry = tableEntry (s.table e.space) e.page

/-- No agent has hung yet, and no fault is newly pending. -/
def State.Going (s t : State) : Prop :=
  t.parser.run = s.parser.run ∧ t.engine.run = s.engine.run ∧ t.regs.faultPending = s.regs.faultPending

/-- Each run state is what it was, or hung. -/
def State.Ended (s t : State) : Prop :=
  (t.parser.run = s.parser.run ∨ t.parser.run = .hung) ∧ (t.engine.run = s.engine.run ∨ t.engine.run = .hung)

variable {W : Nat → Bool} {s t u : State} {p : List (List Host.Cell)}

theorem State.Drawing.refl (W : Nat → Bool) (s : State) : s.Drawing W s [] where
  frame := ⟨_, _, _, _, _, _, _, _, _, _, _, _, _, _, rfl⟩
  isr := ⟨_, (setBit_self _ _ _ rfl).symm⟩
  iir := rfl
  gab := rfl
  writes := by simp
  posted := by simp
  still := by simp
  cache := by simp
  caches := fun h => ⟨h, fun _ _ _ _ => rfl⟩
  xlats := ⟨List.prefix_rfl, fun _ h => .inl h⟩

theorem State.Going.ended (h : s.Going t) : s.Ended t := ⟨.inl h.1, .inl h.2.1⟩

theorem State.Drawing.xlatView (h : s.Drawing W t p) : t.xlatView = s.xlatView := by
  obtain ⟨_, _, _, _, _, _, _, _, _, _, _, _, _, _, rfl⟩ := h.frame
  rfl

theorem State.Drawing.statusAddr (h : s.Drawing W t p) : t.regs.statusAddr = s.regs.statusAddr := by
  obtain ⟨_, _, _, _, _, _, _, _, _, _, _, _, _, _, rfl⟩ := h.frame
  rfl

theorem State.Drawing.space (h : s.Drawing W t p) : t.engine.space = s.engine.space := by
  obtain ⟨_, _, _, _, _, _, _, _, _, _, _, _, _, _, rfl⟩ := h.frame
  rfl

theorem State.Drawing.imr (h : s.Drawing W t p) : t.regs.imr = s.regs.imr ∧ t.regs.hwstam = s.regs.hwstam := by
  obtain ⟨_, _, _, _, _, _, _, _, _, _, _, _, _, _, rfl⟩ := h.frame
  exact ⟨rfl, rfl⟩

theorem State.Drawing.phys (h : s.Drawing W t p) (a : Int) (n : Nat) (w : Bool) (use : Use) : t.phys a n w use = s.phys a n w use := by
  unfold State.phys
  rw [h.space, translate_congr h.xlatView]

/-! ## The single changes -/

/-- A change of the records and the counter alone, where the record of translations takes only what the tables say. -/
theorem State.Drawing.records (h : s.Drawing W t p) (l : List Host.Cell) (x : List TlbEntry) (n : Nat) (hp : t.xlats <+: x)
    (hx : ∀ e ∈ x, e ∈ t.xlats ∨ e.entry = tableEntry (s.table e.space) e.page) :
    s.Drawing W { t with tcRead := l, xlats := x, freeCount := n } p where
  frame := by
    obtain ⟨_, _, _, _, _, _, _, _, _, _, _, _, _, _, rfl⟩ := h.frame
    exact ⟨_, _, _, _, _, _, _, _, _, _, _, _, _, _, rfl⟩
  isr := h.isr
  iir := h.iir
  gab := h.gab
  writes := h.writes
  posted := h.posted
  still := h.still
  cache := h.cache
  caches := h.caches
  xlats := ⟨h.xlats.1.trans hp, fun e he => (hx e he).elim (h.xlats.2 e) .inr⟩

/-- A translation is noted. -/
theorem State.Drawing.noteXlat (h : s.Drawing W t p) (v : TlbUnit) (sp : Space) (a : Nat) (w : Bool) (use : Use) :
    s.Drawing W (t.noteXlat v sp a w use) p := by
  have hx := mem_noteXlat t v sp a w use
  have hp : t.xlats <+: (t.noteXlat v sp a w use).xlats := by
    simp only [State.noteXlat]
    split
    · split
      · exact List.prefix_rfl
      · exact List.prefix_append _ _
    · exact List.prefix_rfl
  refine h.records t.tcRead _ t.freeCount hp fun e he => ?_
  rcases (hx e).mp he with he | he
  · exact .inl he
  · right
    rw [xlatPair_congr h.xlatView] at he
    unfold State.xlatPair at he
    split at he
    · cases he
      rfl
    · cases he

/-- A write of a byte the command draws in. -/
theorem State.Drawing.renderWrite (h : s.Drawing W t p) (a : Nat) (b : Byte) (ha : W a) : s.Drawing W (t.renderWrite a b) p where
  frame := by
    obtain ⟨_, _, _, _, _, _, _, _, _, _, _, _, _, _, rfl⟩ := h.frame
    exact ⟨_, _, _, _, _, _, _, _, _, _, _, _, _, _, rfl⟩
  isr := h.isr
  iir := h.iir
  gab := h.gab
  writes := h.writes
  posted := h.posted
  still := h.still
  cache := fun hm x hx => by
    have hne : a ≠ x := fun e => by simp [e, hx] at ha
    refine ⟨?_, ?_⟩
    · simp only [State.renderWrite, lookup_insert, if_neg hne]
      exact (h.cache hm x hx).1
    · rw [← (h.cache hm x hx).2]
      simp only [State.renderWrite]
      split
      · simp [hne]
      · rfl
  caches := fun hc => by
    obtain ⟨h1, h2⟩ := h.caches hc
    refine ⟨t.renderWrite_cachesOk a b h1, fun x hx hd hp => ?_⟩
    have hne : a ≠ x := fun e => by simp [e, hx] at ha
    rw [State.renderRead_renderWrite, if_neg hne]
    exact h2 x hx hd hp
  xlats := h.xlats

theorem MidAct.disturbs_of_mem {e : MidAct} {q q' : List (List Host.Cell)} {x : Nat} (h : e.disturbs q x = false)
    (hq : ∀ c ∈ q', c ∈ q ∨ ∀ y ∈ c, y.1 ≠ x) : e.disturbs q' x = false := by
  cases e with
  | drain =>
    simp only [MidAct.disturbs, List.any_eq_false] at h ⊢
    intro c hc hy
    obtain ⟨y, hy, he⟩ := List.any_eq_true.mp hy
    rcases hq c hc with hc | hc
    · exact h c hc (List.any_eq_true.mpr ⟨y, hy, he⟩)
    · exact hc y hy (by simpa using he)
  | _ => exact h

/-- What was to happen in the middle of the command happens. -/
theorem State.Drawing.midway (h : s.Drawing W t p) (use : Use) (w : Bool) : s.Drawing W (t.midway use w) p := by
  have hm : t.midEvents = s.midEvents := by
    obtain ⟨_, _, _, _, _, _, _, _, _, _, _, _, _, _, rfl⟩ := h.frame
    rfl
  have hpost : (t.midway use w).posted <:+ t.posted := by
    unfold State.midway
    generalize t.midEvents.filter _ = l
    suffices hs : ∀ v : State, v.posted <:+ t.posted → (l.foldl (fun s e => s.midAct e.act) v).posted <:+ t.posted from
      hs t List.suffix_rfl
    induction l with
    | nil => exact fun v hv => hv
    | cons e l ih =>
      intro v hv
      refine ih (v.midAct e.act) (List.IsSuffix.trans ?_ hv)
      cases e.act with
      | evict a => simp only [State.midAct, State.evictByte]; split <;> exact List.suffix_rfl
      | texFill a => simp only [State.midAct, State.fillTexture]; split <;> exact List.suffix_rfl
      | hostStore a b => exact List.suffix_rfl
      | drain =>
        simp only [State.midAct, State.drainOne]
        split
        · exact List.suffix_rfl
        · rename_i c q hq
          rw [hq]
          exact List.suffix_cons _ _
  have hkeep := t.midway_keeps use w
  have hnone := t.midway_none use w
  obtain ⟨_, _, _, _, _, he⟩ := t.midway_eq use w
  refine {
    frame := ?_
    isr := by rw [he]; exact h.isr
    iir := by rw [he]; exact h.iir
    gab := by rw [he]; exact h.gab
    writes := h.writes
    posted := hpost.trans h.posted
    still := fun hs => by rw [hnone (hm.trans hs)]; exact h.still hs
    cache := fun hs => by rw [hnone (hm.trans hs)]; exact h.cache hs
    caches := fun hc => ?_
    xlats := by rw [he]; exact h.xlats }
  · rw [he]
    obtain ⟨_, _, _, _, _, _, _, _, _, _, _, _, _, _, rfl⟩ := h.frame
    exact ⟨_, _, _, _, _, _, _, _, _, _, _, _, _, _, rfl⟩
  · obtain ⟨h1, h2⟩ := h.caches hc
    refine ⟨t.midway_cachesOk use w h1, fun x hx hd hp => ?_⟩
    have hd' : t.disturbs x = false := by
      unfold State.disturbs at hd ⊢
      rw [hm]
      simp only [List.any_eq_false, Bool.not_eq_true] at hd ⊢
      intro e he
      refine MidAct.disturbs_of_mem (hd e he) fun c hc => ?_
      rcases List.mem_append.mp (h.posted.subset hc) with hc | hc
      · exact .inl hc
      · exact .inr (hp c hc)
    rw [(hkeep x h1 hd').2.2]
    exact h2 x hx hd hp

/-! ## Interrupts -/

/-- A page fault is recorded, and perhaps an agent hangs. -/
theorem State.Drawing.mark (h : s.Drawing W t p) (gab : Word) (fp : Bool) (pr : RunState) (er : EngineRun)
    (hg : gab ||| 0x9C = t.regs.gabErr ||| 0x9C) :
    s.Drawing W { t with
      regs := { t.regs with gabErr := gab, faultPending := fp }
      parser := { t.parser with run := pr }
      engine := { t.engine with run := er } } p where
  frame := by
    obtain ⟨_, _, _, _, _, _, _, _, _, _, _, _, _, _, rfl⟩ := h.frame
    exact ⟨_, _, _, _, _, _, _, _, _, _, _, _, _, _, rfl⟩
  isr := h.isr
  iir := h.iir
  gab := hg.trans h.gab
  writes := h.writes
  posted := h.posted
  still := h.still
  cache := h.cache
  caches := h.caches
  xlats := h.xlats

/-- Bit 29 of the ISR changes, and the IIR takes it in. -/
theorem State.Drawing.latch (h : s.Drawing W t p) (b : Bool) :
    s.Drawing W { t with regs := { t.regs with
      isr := setBit s.regs.isr 29 b, iir := t.regs.iir ||| (setBit s.regs.isr 29 b &&& ~~~t.regs.imr) } } p where
  frame := by
    obtain ⟨_, _, _, _, _, _, _, _, _, _, _, _, _, _, rfl⟩ := h.frame
    exact ⟨_, _, _, _, _, _, _, _, _, _, _, _, _, _, rfl⟩
  isr := ⟨b, rfl⟩
  iir := by
    rw [← h.iir, h.imr.1]
    apply BitVec.eq_of_getLsbD_eq
    intro i hi
    simp only [BitVec.getLsbD_or, BitVec.getLsbD_and, BitVec.getLsbD_not, hi, decide_true, Bool.true_and]
    by_cases hi9 : i = 29
    · subst hi9
      have := bit_setBit_same s.regs.isr 29 true (by decide)
      simp only [bit] at this
      rw [this]
      cases (setBit s.regs.isr 29 b).getLsbD 29 <;> cases t.regs.iir.getLsbD 29 <;> cases s.regs.imr.getLsbD 29 <;> rfl
    · have h1 := bit_setBit_other s.regs.isr 29 i true hi9
      have h2 := bit_setBit_other s.regs.isr 29 i b hi9
      simp only [bit] at h1 h2
      rw [h1, h2]
      cases s.regs.isr.getLsbD i <;> cases t.regs.iir.getLsbD i <;> cases s.regs.imr.getLsbD i <;> rfl
  gab := h.gab
  writes := h.writes
  posted := h.posted
  still := h.still
  cache := h.cache
  caches := h.caches
  xlats := h.xlats

/-- A status write of a page fault is posted. -/
theorem State.Drawing.post (h : s.Drawing W t p) {c : List Host.Cell} (hc : s.faultWrite c) :
    s.Drawing W { t with posted := t.posted ++ [c] } (p ++ [c]) where
  frame := by
    obtain ⟨_, _, _, _, _, _, _, _, _, _, _, _, _, _, rfl⟩ := h.frame
    exact ⟨_, _, _, _, _, _, _, _, _, _, _, _, _, _, rfl⟩
  isr := h.isr
  iir := h.iir
  gab := h.gab
  writes := by
    intro d hd
    rcases List.mem_append.mp hd with hd | hd
    · exact h.writes d hd
    · rw [List.mem_singleton.mp hd]
      exact hc
  posted := by
    obtain ⟨r, hr⟩ := h.posted
    exact ⟨r, by rw [← List.append_assoc, ← List.append_assoc, hr]⟩
  still := fun hm => by
    obtain ⟨h1, h2, h3⟩ := h.still hm
    exact ⟨h1, h2, by simp only [h3, List.append_assoc]⟩
  cache := h.cache
  caches := fun hs => by
    obtain ⟨h1, h2⟩ := h.caches hs
    exact ⟨h1, fun a ha hd hp => h2 a ha hd fun d hd => hp d (List.mem_append_left _ hd)⟩
  xlats := h.xlats

theorem gabBit_or (g : Word) (st : Bool) (f : XlatFault) : setBit g (gabBit st f) true ||| 0x9C = g ||| 0x9C := by
  cases f <;> cases st <;> simp only [gabBit, setBit, if_true, Bool.false_eq_true, if_false] <;> rw [BitVec.or_assoc] <;> rfl

theorem setBit_setBit (w : Word) (i : Nat) (a b : Bool) : setBit (setBit w i a) i b = setBit w i b := by
  apply BitVec.eq_of_getLsbD_eq
  intro j hj
  by_cases h : j = i
  · subst h
    exact (bit_setBit_same _ j b hj).trans (bit_setBit_same _ j b hj).symm
  · exact ((bit_setBit_other _ i j b h).trans (bit_setBit_other _ i j a h)).trans (bit_setBit_other _ i j b h).symm

/-- What a change of ISR bit 29 on a page fault of the engine leaves: the runs go on, or the status write has hung the parser. -/
def State.IsrDone (W : Nat → Bool) (s t : State) (b : Bool) : Except (Host.Outcome State Fault Refusal) (Unit × State) → Prop
  | .ok (_, u) => (∃ p, s.Drawing W u p) ∧ u.parser.run = t.parser.run ∧ u.engine.run = t.engine.run ∧
      u.regs.faultPending = t.regs.faultPending ∧ u.regs.isr = setBit s.regs.isr 29 b
  | .error (.next u) => (∃ p, s.Drawing W u p) ∧ u.parser.run = .hung ∧ u.engine.run = t.engine.run
  | .error _ => False

/-- ISR bit 29 changes on a page fault of the engine (R421, R424, R430). -/
theorem setIsr_drawing (h : s.Drawing W t p) {rise b w : Bool} {a : Nat} {use : Use}
    (hx : (s.translate .blb s.engine.space a w use).toOption = none) (hb : t.signals (setBit s.regs.isr 29 b) → b = rise) :
    s.IsrDone W t b (setIsr (.fault rise a w use) (setBit s.regs.isr 29 b) t) := by
  obtain ⟨b0, hb0⟩ := h.isr
  have hl := h.latch b
  unfold setIsr
  rw [run_get_bind]
  cases hn : t.signals (setBit s.regs.isr 29 b) with
  | false =>
    rw [show needsStatusWrite t.regs t.regs.isr (setBit s.regs.isr 29 b) = false from hn]
    exact ⟨⟨p, hl⟩, rfl, rfl, rfl, rfl⟩
  | true =>
    rw [show needsStatusWrite t.regs t.regs.isr (setBit s.regs.isr 29 b) = true from hn]
    have hbr := hb hn
    subst hbr
    have hs : s.silent 29 = false := by
      cases hs : s.silent 29 with
      | false => rfl
      | true =>
        have ht : t.silent 29 = true := by
          rw [← hs]
          simp only [State.silent, h.imr]
        have := signals_setBit (s := t) b ht
        rw [hb0, setBit_setBit, hn] at this
        cases this
    simp only [onlyIf_true, latchIsr, run_onRegs_bind, statusWrite, run_get_bind]
    have hv := hl.xlatView
    have hst := hl.statusAddr
    simp only at hst
    rw [hst, translate_congr hv]
    cases hp : s.translate .bcs .ggtt s.regs.statusAddr true (.fault b a w use) with
    | ok q =>
      have hpp : (s.parserPhys .ggtt s.regs.statusAddr true (.fault b a w use)).isSome := by
        simp [State.parserPhys, hp, Except.toOption]
      have ha : s.parserAddr .ggtt s.regs.statusAddr true (.fault b a w use) = q.addr := by
        simp [State.parserAddr, State.parserPhys, hp, Except.toOption]
      exact ⟨⟨_, (hl.noteXlat .bcs .ggtt s.regs.statusAddr true (.fault b a w use)).post
        ⟨b, a, w, use, hx, hs, hpp, by rw [ha]⟩⟩, rfl, rfl, rfl, rfl⟩
    | error f =>
      simp only [statusWriteFault, run_onRegs_bind, run_get_bind]
      split
      · simp only [latchIsr, run_onRegs_bind, hang, run_setRun_bind, run_halt]
        have := (hl.mark (setBit t.regs.gabErr (gabBit true f) true) true .hung t.engine.run (gabBit_or _ _ _)).latch true
        refine ⟨⟨p, ?_⟩, rfl, rfl⟩
        simpa only [setBit_setBit] using this
      · simp only [latchIsr, run_onRegs_bind, run_onRegs]
        have h1 := hl.mark (setBit t.regs.gabErr (gabBit true f) true) t.regs.faultPending t.parser.run t.engine.run
          (gabBit_or _ _ _)
        have h2 := (h1.latch true).latch b
        refine ⟨⟨p, ?_⟩, rfl, rfl, rfl, rfl⟩
        simpa only [setBit_setBit] using h2

/-! ## Operations of a drawing command -/

/-- What an operation of a drawing command may leave: it goes on, with a result as said, or ends with agents hung, or is
refused. -/
def State.Drawn (W : Nat → Bool) (s : State) (R : α → Prop) : Except (Host.Outcome State Fault Refusal) (α × State) → Prop
  | .ok (a, t) => R a ∧ (∃ p, s.Drawing W t p) ∧ s.Going t
  | .error (.next t) => (∃ p, s.Drawing W t p) ∧ s.Ended t
  | .error _ => True

/-- An operation of a drawing command: from wherever the command has got to it draws on, and gives such a result. -/
def Draws (W : Nat → Bool) (s : State) (m : M α) (R : α → Prop := fun _ => True) : Prop :=
  ∀ t p, s.Drawing W t p → s.Going t → s.Drawn W R (m t)

theorem Draws.pure {R : α → Prop} (a : α) (h : R a := by trivial) : Draws W s (pure a : M α) R := fun _ p hd hg =>
  ⟨h, ⟨p, hd⟩, hg⟩

theorem Draws.bind {m : M α} {f : α → M β} {R : α → Prop} {R' : β → Prop} (hm : Draws W s m R)
    (hf : ∀ a, R a → Draws W s (f a) R') : Draws W s (m >>= f) R' := by
  intro t p h hg
  have := hm t p h hg
  rw [run_bind]
  generalize m t = o at this ⊢
  rcases o with o | ⟨a, u⟩
  · cases o <;> exact this
  · obtain ⟨ha, ⟨p', h'⟩, hg'⟩ := this
    exact hf a ha u p' h' hg'

/-- An operation that looks at the state. -/
theorem Draws.get {f : State → M α} {R : α → Prop} (hf : ∀ t p, s.Drawing W t p → s.Going t → s.Drawn W R (f t t)) :
    Draws W s ((MonadState.get : M State) >>= f) R := hf

theorem Draws.refuse {R : α → Prop} (r : Refusal) : Draws W s (refuse r : M α) R := fun _ _ _ _ => trivial

theorem Draws.require (c : Bool) (r : Refusal) : Draws W s (require c r) := by
  unfold Machine.require
  split
  · exact .pure _
  · exact .refuse _

theorem Draws.onlyIf {c : Bool} {m : M Unit} (hm : c = true → Draws W s m) : Draws W s (onlyIf c m) := by
  cases c with
  | true => exact hm rfl
  | false => exact .pure _

theorem Draws.ite {c : Prop} [Decidable c] {m m' : M α} {R : α → Prop} (hm : Draws W s m R) (hm' : Draws W s m' R) :
    Draws W s (if c then m else m') R := by
  split
  · exact hm
  · exact hm'

/-- Going on after a change of ISR bit 29, where the agents are as they were. -/
theorem State.IsrDone.bind {b : Bool} {m : M Unit} {f : Unit → M β} {R : β → Prop} (h : s.IsrDone W t b (m t)) (hg : s.Going t)
    (hf : ∀ u p, s.Drawing W u p → s.Going u → u.regs.isr = setBit s.regs.isr 29 b → s.Drawn W R (f ⟨⟩ u)) :
    s.Drawn W R ((m >>= f) t) := by
  rw [run_bind]
  generalize m t = o at h ⊢
  rcases o with o | ⟨⟨⟩, u⟩
  · cases o with
    | next u => exact ⟨h.1, .inr h.2.1, .inl (h.2.2.trans hg.2.1)⟩
    | _ => exact h.elim
  · obtain ⟨⟨p, h'⟩, h1, h2, h3, h4⟩ := h
    exact hf u p h' ⟨h1.trans hg.1, h2.trans hg.2.1, h3.trans hg.2.2⟩ h4

/-- Halting after a change of ISR bit 29, where the engine has hung. -/
theorem State.IsrDone.halt {b : Bool} {m : M Unit} {R : β → Prop} (h : s.IsrDone W t b (m t)) (hg : s.Ended t) :
    s.Drawn W R ((m >>= fun _ => (Machine.halt : M β)) t) := by
  rw [run_bind]
  generalize m t = o at h ⊢
  rcases o with o | ⟨⟨⟩, u⟩
  · cases o with
    | next u => exact ⟨h.1, .inr h.2.1, by rw [h.2.2]; exact hg.2⟩
    | _ => exact h.elim
  · exact ⟨h.1, by rw [h.2.1]; exact hg.1, by rw [h.2.2.1]; exact hg.2⟩

/-- A page fault of the engine (R430, R431). -/
theorem takePageFault_draws {a : Nat} {w : Bool} {use : Use} (f : XlatFault)
    (hx : (s.translate .blb s.engine.space a w use).toOption = none) :
    Draws W s (takePageFault .engine false (fun rise => .fault rise a w use) f) := by
  intro t p h hg
  obtain ⟨b0, hb0⟩ := h.isr
  have e : setBit t.regs.isr 29 true = setBit s.regs.isr 29 true := by rw [hb0, setBit_setBit]
  have hl := fun fp er => h.mark (setBit t.regs.gabErr (gabBit false f) true) fp t.parser.run er (gabBit_or _ _ _)
  have h1 := fun fp er => setIsr_drawing (hl fp er) (rise := true) (b := true) hx (fun _ => rfl)
  unfold takePageFault
  rw [run_onRegs_bind, run_get_bind]
  simp only [e]
  split
  · exact (h1 true .hung).halt ⟨.inl hg.1, .inr rfl⟩
  · refine (h1 t.regs.faultPending t.engine.run).bind hg fun u p' h' hg' hi => ?_
    rw [run_get_bind, hi, setBit_setBit]
    have h2 := setIsr_drawing h' (rise := false) (b := u.regs.faultPending) hx fun hs => by
      cases hf : u.regs.faultPending with
      | false => rfl
      | true =>
        rw [hf, ← hi] at hs
        simp [State.signals, needsStatusWrite] at hs
    have := h2.bind (f := fun _ => (Pure.pure () : M Unit)) (R := fun _ => True) hg' fun v q hv hgv _ =>
      Draws.pure _ trivial v q hv hgv
    rwa [bind_pure] at this

theorem midway_going (use : Use) (w : Bool) (h : s.Going t) : s.Going (t.midway use w) := by
  obtain ⟨_, _, _, _, _, he⟩ := t.midway_eq use w
  rw [he]
  exact h

/-- An access of the engine gives the place its translation names, or nothing where it has none (R150, R430). -/
theorem engineAccess_draws (a : Int) (n : Nat) (w : Bool) (use : Use) :
    Draws W s (engineAccess a n w use) fun o => ∀ q, o = some q → s.phys a n w use = some q := by
  unfold engineAccess checkRange Machine.require
  split
  · rename_i hr
    intro t p h hg
    have hm := h.midway use w
    have hmg := midway_going use w hg
    have hphys : s.phys a n w use = (s.translate .blb s.engine.space a.toNat w use).toOption := by
      unfold State.phys
      rw [if_pos (by simpa using hr)]
    change s.Drawn W _ (access .engine false (t.midway use w).engine.space a.toNat w use (t.midway use w))
    rw [hm.space]
    unfold access
    rw [run_get_bind, show Agent.tlb .engine = .blb from rfl, translate_congr hm.xlatView]
    cases hx : s.translate .blb s.engine.space a.toNat w use with
    | ok q =>
      refine ⟨fun q' hq => ?_, ⟨p, hm.noteXlat _ _ _ _ _⟩, hmg⟩
      cases hq
      rw [hphys, hx]
      rfl
    | error f =>
      refine Draws.bind (takePageFault_draws f (by rw [hx]; rfl)) (fun _ _ => .pure _ ?_) _ p hm hmg
      simp
  · exact .bind (R := fun _ => False) (.bind (R := fun _ => False) (.refuse _) fun _ h => h.elim) fun _ h => h.elim

theorem freeByte_draws : Draws W s freeByte := fun t p h hg =>
  ⟨trivial, ⟨p, h.records t.tcRead t.xlats (t.freeCount + 1) List.prefix_rfl fun _ he => .inl he⟩, hg⟩

theorem freeBytes_draws (n : Nat) : Draws W s (freeBytes n) := by
  induction n with
  | zero => exact .pure _
  | succ n ih => exact .bind freeByte_draws fun _ _ => .bind ih fun _ _ => .pure _

theorem noteTexture_draws (l : List Nat) : Draws W s (modify fun s => s.noteTexture l : M PUnit) := fun t p h hg =>
  ⟨trivial, ⟨p, h.records _ t.xlats t.freeCount List.prefix_rfl fun _ he => .inl he⟩, hg⟩

theorem readRender_draws (a : Int) (n : Nat) (use : Use) : Draws W s (readRender a n use) := by
  refine .bind (engineAccess_draws a n false use) fun o _ => ?_
  cases o with
  | none => exact .bind (freeBytes_draws n) fun _ _ => .pure _
  | some q => exact .get fun t p h hg => Draws.pure _ trivial t p h hg

theorem readTexture_draws (a : Int) (n : Nat) (use : Use) : Draws W s (readTexture a n use) := by
  refine .bind (engineAccess_draws a n false use) fun o _ => ?_
  cases o with
  | none => exact .bind (freeBytes_draws n) fun _ _ => .pure _
  | some q =>
    exact .bind (.require _ _) fun _ _ => .get fun t p h hg =>
      Draws.bind (noteTexture_draws _) (fun _ _ => .pure _) t p h hg

theorem patternOperand_draws (j : Job) (x y : Int) : Draws W s (patternOperand j x y) := by
  unfold patternOperand
  simp only
  split
  · exact .pure _
  · exact .pure _
  · exact .ite (.bind (readTexture_draws _ _ _) fun _ _ => .pure _) (.pure _)
  · exact .pure _
  · exact .pure _

theorem checkTiled_draws (f : Surface) (c : Bool) : Draws W s (checkTiled f c) := .require _ _

theorem sourceOperand_draws (j : Job) (x y : Int) : Draws W s (sourceOperand j x y) := by
  unfold sourceOperand
  rcases j.src with _ | ⟨f, ox, oy⟩ | ⟨l, w, a, x1, y1, fg, bg, tr⟩ | ⟨l, w, d, x1, y1, fg, bg, tr⟩
  · exact .pure _
  · exact .ite (.bind (readRender_draws _ _ _) fun _ _ => .bind (checkTiled_draws _ _) fun _ _ => .pure _) (.pure _)
  · generalize 1 = n
    exact .ite (.bind (readTexture_draws _ n _) fun _ _ => .pure _) (.pure _)
  · exact .pure _

theorem checkDest_draws (j : Job) (sc c : Bool) : Draws W s (checkDest j sc c) :=
  .bind (checkTiled_draws _ _) fun _ _ => .require _ _

theorem destOperand_draws (j : Job) (sc : Bool) (x y : Int) : Draws W s (destOperand j sc x y) := by
  unfold destOperand
  split
  · exact .bind (readRender_draws _ _ _) fun _ _ => .bind (checkDest_draws _ _ _) fun _ _ => .pure _
  · exact .pure _

/-- The bytes of one pixel go to places the command draws in (R241). -/
theorem writePixel_draws (ov : Nat → Nat → Bool) (a ph : Nat) (en : Nat → Bool) (v : Word) (ks : List Nat)
    (hk : ∀ k ∈ ks, en k → W (ph + k)) : Draws W s (writePixel ov a ph en v ks) := by
  induction ks with
  | nil => exact .pure _
  | cons k ks ih =>
    refine .bind (.onlyIf fun he => ?_) fun _ _ => ih fun k h => hk k (List.mem_cons_of_mem _ h)
    have hw : ∀ b, Draws W s (modify fun s => s.renderWrite (ph + k) b : M PUnit) := fun b t p h hg =>
      ⟨trivial, ⟨p, h.renderWrite _ b (hk k (by simp) he)⟩, hg⟩
    simp only
    split
    · exact .bind freeByte_draws fun b _ => hw b
    · exact .bind (.pure _) fun b _ => hw b

/-- One pixel of a job whose writes lie in `W` (R255). -/
theorem drawPixel_draws (j : Job) (ov : Nat → Nat → Bool) (x y : Int) (hW : ∀ a, j.writes s [(x, y)] a → W a) :
    Draws W s (drawPixel j ov x y) := by
  refine .bind (patternOperand_draws j x y) fun _ _ => .bind (sourceOperand_draws j x y) fun _ _ =>
    .bind (destOperand_draws j _ x y) fun _ _ => .onlyIf fun _ => ?_
  unfold writeDest
  refine .onlyIf fun _ => .bind (engineAccess_draws _ _ true (.dest x y)) fun o ho => ?_
  cases o with
  | none => exact .pure _
  | some q =>
    refine .bind (checkDest_draws _ _ _) fun _ _ => writePixel_draws _ _ _ _ _ _ fun k hk he => hW _ ?_
    simp only [Job.writes, List.any_cons, List.any_nil, Bool.or_false, ho q rfl]
    exact List.any_eq_true.mpr ⟨k, hk, by simp [he]⟩

/-- All the pixels of a job (R252). -/
theorem drawPixels_draws (j : Job) (ov : Nat → Nat → Bool) (px : List (Int × Int)) (hW : ∀ a, j.writes s px a → W a) :
    Draws W s (drawPixels j ov px) := by
  induction px with
  | nil => exact .pure _
  | cons q px ih =>
    refine .bind (drawPixel_draws j ov q.1 q.2 fun a ha => hW a ?_) fun _ _ => ih fun a ha => hW a ?_
    · simp only [Job.writes, List.any_cons, List.any_nil, Bool.or_false] at ha ⊢
      rw [ha, Bool.true_or]
    · simp only [Job.writes, List.any_cons] at ha ⊢
      rw [ha, Bool.or_true]

theorem dataHang_draws : Draws W s (dataHang : M Unit) := fun t p h _ =>
  ⟨⟨p, h.mark t.regs.gabErr t.regs.faultPending .hung .hung rfl⟩, .inr rfl, .inr rfl⟩

theorem checkSurface_draws (f : Surface) (n : Nat) : Draws W s (checkSurface f n) := by
  unfold checkSurface
  split
  · exact .require _ _
  · exact .bind (.require _ _) fun _ _ => .require _ _

theorem checkSource_draws (j : Job) : Draws W s (checkSource j) := by
  unfold checkSource
  split
  · exact .pure _
  · exact checkSurface_draws _ _
  · exact .require _ _
  · exact .require _ _

/-- What `drawXY` can change (R256): the bytes its job writes, and what its page faults and data hang leave. -/
theorem drawXY_draws (j : Job) (clip : Option Box) (b : Box) (xb yb : Bool)
    (hW : ∀ a, j.writes s (drawnPixels b clip xb yb) a → W a) : Draws W s (drawXY j clip b xb yb) := by
  unfold drawXY checkRop
  refine .bind (.require _ _) fun _ _ => .bind (.require _ _) fun _ _ => .bind (checkSurface_draws _ _) fun _ _ =>
    .bind (checkSource_draws _) fun _ _ => .ite (.bind (.require _ _) fun _ _ => .get fun t p h hg => ?_) dataHang_draws
  exact drawPixels_draws j _ (drawnPixels b clip xb yb) hW t p h hg

/-- What `drawLinear` can change (R257). -/
theorem drawLinear_draws (j : Job) (height width : BitVec 16) (xb : Bool)
    (hW : ∀ a, j.writes s (linearPixels j.depth height width xb) a → W a) : Draws W s (drawLinear j height width xb) := by
  unfold drawLinear checkRop
  refine .bind (.require _ _) fun _ _ => .bind (.require _ _) fun _ _ => ?_
  simp only
  split
  · exact .pure _
  · rename_i hz
    refine .bind (.require _ _) fun _ _ => .get fun t p h hg => ?_
    refine drawPixels_draws j _ _ (fun a ha => hW a ?_) t p h hg
    rw [linearPixels, if_neg hz]
    exact ha

/-- Where an operation draws, so does its outcome. -/
theorem Draws.outcome {m : M Unit} (h : Draws W s m) (ht : M.outcome m s = .next t) :
    (∃ p, s.Drawing W t p) ∧ s.Ended t := by
  have := h s [] (.refl W s) ⟨rfl, rfl, rfl⟩
  rcases (outcome_next_iff m s t).mp ht with ht | ht <;> rw [ht] at this
  · exact ⟨this.2.1, this.2.2.ended⟩
  · exact this

end Sys2Proof.Machine
end

