-- ==== Sys2Proof/Laws/Registers.lean ====
section
/-! SUPPORT. What a register write and a page table update do, said once. -/

namespace Sys2Proof.Machine

/-- A masked register takes the bits its mask enables, and nothing else changes (R61). -/
theorem mmioWrite_masked (s : State) (off : Nat) (w : Word) (r : Regs) (h : s.regs.writeMasked off w = some r) :
    mmioWrite off w s = .ok (⟨⟩, { s with regs := r }) := by
  unfold Regs.writeMasked at h
  split at h <;> simp_all <;> subst h <;> rfl

/-- RBWait and Semaphore Wait play no part in where the tail lies (R87, R90). -/
theorem tailOutside_setBit (r : Regs) (w : Word) (i : Nat) (b : Bool) (hi : i = 10 ∨ i = 11) :
    ({ r with ctl := setBit w i b } : Regs).tailOutside = ({ r with ctl := w } : Regs).tailOutside := by
  unfold Regs.tailOutside Regs.ringSize Regs.tailOff
  rw [field_setBit_other _ _ _ _ _ (by omega), bit_setBit_other _ _ _ _ (by omega)]

/-- A write of BCS_RING_BUFFER_CTL puts the tail outside the ring as its R/W fields do (R87, R90). -/
theorem tailOutside_withCtl (r : Regs) (w : Word) :
    (r.withCtl w).tailOutside = ({ r with ctl := takeBits r.ctl w 0x001FF007 } : Regs).tailOutside := by
  unfold Regs.withCtl ctlWrite
  split
  · exact tailOutside_setBit r _ 11 false (by simp)
  · rfl

/-- A plain register takes its implemented bits, and nothing else changes (R61). -/
theorem mmioWrite_plain (s : State) (off : Nat) (w : Word) (r : Regs) (h : s.regs.writePlain off w = some r) :
    mmioWrite off w s = .ok (⟨⟩, { s with regs := r }) := by
  unfold Regs.writePlain at h
  split at h
  all_goals try (cases h; rfl)
  · simp only [Bool.or_eq_true] at h
    split at h
    · cases h
    · rename_i hc
      cases h
      rw [not_or] at hc
      simp only [mmioWrite, run_get_bind]
      rw [if_neg (by exact hc.1), if_neg (by exact hc.2)]
      rfl
  · split at h
    · cases h
    · rename_i hc
      cases h
      simp only [mmioWrite, run_get_bind]
      rw [if_neg (by exact hc)]
      rfl
  · simp only [Bool.or_eq_true] at h
    split at h
    · cases h
    · rename_i hc
      cases h
      rw [not_or] at hc
      have hb : bit w 11 = false := by simpa using hc.1
      simp only [mmioWrite, run_get_bind, hb]
      rw [if_neg (by rw [tailOutside_withCtl]; exact hc.2)]
      cases s.parser.run <;> simp [Regs.withCtl, ctlWrite, plainWrite, takeBits, hb]
  · split at h
    · rename_i hc
      cases h
      simp only [mmioWrite, run_get_bind]
      rw [if_pos (by exact hc)]
      rfl
    · cases h
  · split at h
    · rename_i hc
      cases h
      simp only [mmioWrite, run_get_bind]
      rw [if_pos hc]
      rfl
    · cases h
  · split at h
    · rename_i hc
      cases h
      unfold mmioWrite
      simp only [run_get_bind]
      split
      all_goals first
        | omega
        | (rw [if_neg (by omega), if_pos hc]; rfl)
    · cases h

/-- The EIR and the level bits of the ISR follow, with the status write this causes, if it causes one (R421, R424, R425). -/
theorem refresh_ok {s : State} (h : s.settleOpen) : refresh s = .ok (⟨⟩, s.settled) := by
  unfold refresh
  simp only [run_onRegs_bind, run_get_bind]
  exact setIsr_ok h

/-- The EIR and the level bits of the ISR follow silently. -/
theorem refresh_silent {s : State} (h : s.regs.followingWrites = false) :
    refresh s = .ok (⟨⟩, { s with regs := s.regs.following }) := by
  have hs : s.withEir.signals (levels s.withEir.regs s.regs.isr) = false := h
  rw [refresh_ok (by unfold State.settleOpen State.statusOpen; rw [hs]; rfl), State.settled, signalled_silent hs]
  rfl

/-- A write to an interrupt mask or error register: the register, then what follows it (R421, R425). -/
theorem mmioWrite_errors (s : State) (off : Nat) (w : Word) (r : Regs) (h : s.regs.writeErrors off w = some r) :
    mmioWrite off w s = refresh { s with regs := r } := by
  unfold Regs.writeErrors at h
  split at h
  all_goals cases h
  all_goals rfl

/-- What a register write leaves (R61, R421, R425). -/
theorem mmioWrite_written (s : State) (off : Nat) (w : Word) (r : Regs) (h : s.regs.written off w = some r) :
    mmioWrite off w s = .ok (⟨⟩, { s with regs := r }) := by
  unfold Regs.written at h
  split at h
  · rename_i h1
    cases h
    exact mmioWrite_masked s off w _ h1
  · rename_i h1
    cases h
    exact mmioWrite_plain s off w _ h1
  · rename_i h1
    split at h
    · cases h
    · rename_i hc
      cases h
      rw [mmioWrite_errors s off w _ h1]
      exact refresh_silent (by simpa using hc)
  · cases h

/-- A forbidden register write is refused. -/
theorem mmioWrite_refused (s : State) (off : Nat) (w : Word) (f : Refusal) (h : s.regs.writeRefused off w = some f) :
    mmioWrite off w s = .error (.refused f) := by
  unfold Regs.writeRefused at h
  split at h
  · split at h
    · rename_i hc
      cases h
      simp only [mmioWrite, run_get_bind]
      rw [if_pos (by exact hc)]
      rfl
    · rename_i hn
      split at h
      · rename_i hc
        cases h
        simp only [mmioWrite, run_get_bind]
        rw [if_neg (by exact hn), if_pos (by exact hc)]
        rfl
      · cases h
  · split at h
    · rename_i hc
      cases h
      simp only [mmioWrite, run_get_bind]
      rw [if_pos (by rw [tailOutside_withCtl]; exact hc)]
      rfl
    · cases h
  · split at h
    · rename_i hc
      cases h
      simp only [mmioWrite, run_get_bind]
      rw [if_pos (by exact hc)]
      rfl
    · cases h
  · split at h
    · cases h
    · rename_i hc
      cases h
      simp only [mmioWrite, run_get_bind]
      rw [if_neg (by exact hc)]
      rfl
  · split at h
    · cases h
    · rename_i hc
      cases h
      simp only [mmioWrite, run_get_bind]
      rw [if_neg hc]
      rfl
  · cases h

/-- A read-only register keeps its value (R61). -/
theorem mmioWrite_readOnly (s : State) (off : Nat) (w : Word) (h : readOnlyReg off) : mmioWrite off w s = .ok (⟨⟩, s) := by
  have h' : off ∈ [0x220B8, 0x22140, 0x22358, 0x2235C, 0x24094, 0x24700, 0x24708, 0x24780, 0x24784, 0x24788, 0x2478C] ∨
      (0x24500 ≤ off ∧ off < 0x24600) ∨ (0x24800 ≤ off ∧ off < 0x24C00) := by
    simp only [readOnlyReg, List.contains_cons, List.contains_nil, Bool.or_eq_true, Bool.and_eq_true, decide_eq_true_eq,
      beq_iff_eq, List.mem_cons, List.not_mem_nil, Bool.false_eq_true, or_false] at h ⊢
    omega
  rcases h' with h' | h'
  · simp only [List.mem_cons, List.not_mem_nil, or_false] at h'
    obtain rfl | rfl | rfl | rfl | rfl | rfl | rfl | rfl | rfl | rfl | rfl := h' <;> rfl
  · unfold mmioWrite
    simp only [run_get_bind]
    split
    all_goals first
      | (rw [if_pos h']; rfl)
      | omega

/-- A register loaded from a secure buffer, or in the unprotected range (R441), is written. -/
theorem protectedFrom_eq_false {b : Bool} {off : Nat} (h : b ∨ (0x22200 ≤ off ∧ off < 0x22300)) :
    protectedFrom b off = false := by
  rcases h with h | h <;> simp [h, protectedFrom, unprotected]

/-- A register outside the unprotected range is protected from a non-secure buffer (R441). -/
theorem protectedFrom_eq_true {off : Nat} (h : off < 0x22200 ∨ 0x22300 ≤ off) : protectedFrom false off = true := by
  simp [protectedFrom, unprotected]
  omega

/-- Which entries MI_UPDATE_GTT writes, and with what (R383). -/
theorem lookup_writeEntries (data : List Word) (t : List (Nat × PageEntry)) (p : Nat) :
    (∀ k, k < data.length → lookup (writeEntries t p data) (p + k) = (data[k]?).map PageEntry.raw) ∧
    (∀ q, q < p ∨ p + data.length ≤ q → lookup (writeEntries t p data) q = lookup t q) := by
  induction data generalizing t p with
  | nil => simp [writeEntries]
  | cons w ws ih =>
    obtain ⟨h1, h2⟩ := ih (insert t p (.raw w)) (p + 1)
    refine ⟨fun k hk => ?_, fun q hq => ?_⟩
    · simp only [writeEntries]
      cases k with
      | zero =>
        have := h2 p (by omega)
        simp [this, lookup_insert]
      | succ k =>
        have := h1 k (by simp at hk; omega)
        rw [show p + (k + 1) = p + 1 + k by omega, this]
        simp
    · simp only [writeEntries]
      rw [h2 q (by simp at hq; omega), lookup_insert, if_neg (by simp at hq; omega)]

/-- A posted write drains after every one posted before it (R165). -/
theorem drainAll_append (m : List Host.Cell) (p : List (List Host.Cell)) (c : List Host.Cell) :
    drainAll m (p ++ [c]) = Memory.writeAll (drainAll m p) c := by
  induction p generalizing m with
  | nil => rfl
  | cons x p ih => exact ih _

end Sys2Proof.Machine
end

