-- ==== Sys2Proof/Laws/Parser.lean ====
section
/-! SUPPORT. A step at a command, said once: which part of the step runs, what the fetch gives, and how a BLT command is
handed over. -/

namespace Sys2Proof.Machine

/-! ## A command about to run -/

theorem atCommand_facts {s : State} {ws : List Word} (h : s.atCommand ws) :
    s.schedule = [] ∧ s.readAhead = [] ∧ s.quiet ∧ s.syncFlushReady = false ∧ s.ringEnabled ∧ bit s.regs.miMode 8 = false ∧
    (s.parser.run = .running ∨ s.parser.run = .idle ∨ s.parser.run = .disabled ∨ s.parser.run = .stopped) ∧
    (s.parser.inBatch = true ∨ (s.regs.ringOk = true ∧ s.regs.headOff ≠ s.regs.tailOff)) ∧
    ws.length ≤ s.fetchPoint.room ∧ s.holdsAt s.fetchPoint.space s.fetchPoint.addr ws := by
  simp only [State.atCommand, Bool.and_eq_true, Bool.or_eq_true, Bool.not_eq_true', beq_iff_eq, decide_eq_true_eq,
    List.isEmpty_iff] at h
  tauto

/-- The step of a parser at a command is that command, when the engine holds none. -/
theorem stepM_atCommand {s : State} {ws : List Word} (h : s.atCommand ws)
    (he : s.engine.run = .idle ∨ s.engine.run = .hung) : stepM s = runCommand false s := by
  obtain ⟨h1, _, h2, h3, h4, h5, h6, hb, _⟩ := atCommand_facts h
  unfold stepM
  rw [bind_ok (beginStep_quiet h2)]
  simp only [run_get_bind, h1, defaultStep, h3, Bool.false_eq_true, if_false]
  rw [if_neg (by rcases he with he | he <;> simp [State.engineBusy, he])]
  unfold parserStep
  rw [run_get_bind, if_neg (by rcases h6 with h6 | h6 | h6 | h6 <;> simp [h6]), if_neg (by simp [h4])]
  rcases h6 with h6 | h6 | h6 | h6 <;> simp only [h6, h5, Bool.false_eq_true, if_false] <;>
  (rw [if_neg (by rcases hb with hb | hb <;> simp [hb])])

/-- The fetch of a command whose length is legal, or which is underfed (R210). -/
theorem fetchCommand_ok {s : State} {ws : List Word} {o : Op} (h : s.atCommand ws)
    (h1 : Op.ofHeader (ws.getD 0 0) = some o) (h2 : (o.lengthOk (ws.getD 0 0) || o.underfed (ws.getD 0 0)) = true)
    (h3 : ws.length = o.dwords (ws.getD 0 0)) : fetchCommand s = .ok (some (o, ws), s.taken ws.length) := by
  obtain ⟨_, ha, _, _, _, _, _, hb, hr, hh⟩ := atCommand_facts h
  cases ws with
  | nil => simp [Op.dwords] at h3; split at h3 <;> omega
  | cons w ws =>
    simp only [List.getD_cons_zero] at h1 h2 h3
    simp only [State.holdsAt, Bool.and_eq_true, beq_iff_eq] at hh
    unfold fetchCommand
    rw [run_get_bind, if_neg (by rcases hb with hb | hb <;> simp [hb])]
    rw [bind_ok (commandWord_ok ha hh.1.1), hh.1.2]
    simp only [h1]
    rw [require_bind h2, if_neg (by simp at h3 hr; omega)]
    rw [show o.dwords w - 1 = ws.length by simp at h3; omega, bind_ok (fetchWords_ok (s := s.reading _ _ .fetch) ha ws _ (by rw [holdsAt_reading]; exact hh.2))]
    rfl

/-- What decodes has its reserved fields zero. -/
theorem reservedOk_of_decode {ws : List Word} {i : Instr} {o : Op} (h1 : Op.ofHeader (ws.getD 0 0) = some o)
    (h : decode ws = .ok i) : o.reservedOk (fun k => ws.getD k 0) = true := by
  unfold decode at h
  rw [h1] at h
  simp only at h
  split at h
  · cases h
  · split at h
    · assumption
    · cases h

/-- A whole command that decodes is executed, or handed over (R370). -/
theorem runCommand_ok {s : State} {ws : List Word} {i : Instr} {defer : Bool} (h : s.atCommand ws)
    (hw : wholeCommand i.op ws) (hd : decode ws = .ok i) :
    runCommand defer s =
      (if i.op.isBlt then whenIdle (handOver i ws.length defer) else runMi i defer) (s.taken ws.length) := by
  simp only [wholeCommand, Bool.and_eq_true, decide_eq_true_eq] at hw
  obtain ⟨⟨h1, h2⟩, h3⟩ := hw
  unfold runCommand
  rw [bind_ok (fetchCommand_ok h h1 (by rw [h2]; rfl) h3)]
  simp only [reservedOk_of_decode h1 hd, hd, Bool.not_true, Bool.false_eq_true, if_false]

/-- An idle engine takes a command: it is pending, or hung, and `pc` has moved on (R28, R370). -/
theorem handTo_ok {s : State} {r : EngineRun} {o : Op} {n : Nat} (hc : s.canAdvance n)
    (hf : isImmediate o → s.parser.inBatch = false → (s.advanced n).regs.headOff ≠ s.regs.tailOff) :
    handTo r o n s = .ok (⟨⟩, { s.advanced n with engine := ⟨r, s.parser.space⟩ }) := by
  unfold handTo
  simp only [run_modify_bind]
  have hc' : ({ s with engine := ⟨r, s.parser.space⟩ } : State).canAdvance n = true := by rw [← hc]; rfl
  rw [finishWith_ok hc']
  have e : ({ s with engine := ⟨r, s.parser.space⟩ } : State).advanced n =
      { s.advanced n with engine := ⟨r, s.parser.space⟩ } := by
    unfold State.advanced
    split <;> rfl
  rw [e]
  cases hi : isImmediate o with
  | false => rfl
  | true =>
    simp only [onlyIf_true, checkFollowing, run_get_bind]
    refine require_ok ?_
    simp only [Bool.or_eq_true, decide_eq_true_eq]
    cases hb : s.parser.inBatch with
    | true => left; simpa using hb
    | false =>
      right
      have ht : (s.advanced n).regs.tailOff = s.regs.tailOff := by unfold State.advanced; simp [hb, Regs.tailOff]
      simp only [ht]
      exact hf hi hb

end Sys2Proof.Machine
end

