-- ==== Sys2Proof/Laws/PerInstr.lean ====
section
/-! SUPPORT. For every command: DWord 0 of its encoding selects it (R180, R210), whatever its operands. -/

set_option linter.unusedSimpArgs false

namespace Sys2Proof.Laws.Header

set_option Elab.async false

/-- DWord 0 of the encoding selects the command. -/
def Statement (i : Instr) : Prop := Op.ofHeader ((encode i).headD 0) = some i.op

/-- A BLT command is selected by the client and opcode fields. -/
theorem of_blt (o : Op) (w : Word) (h1 : field w 29 3 = 2) (h2 : Op.ofBlt (field w 22 7).toNat = some o) :
    Op.ofHeader w = some o := by
  simp [Op.ofHeader, h1, h2]

/-- An MI command is selected by the command type and opcode fields. -/
theorem of_mi (o : Op) (w : Word) (h1 : field w 29 3 = 0) (h2 : Op.ofMi (field w 23 6).toNat = some o) :
    Op.ofHeader w = some o := by
  simp [Op.ofHeader, h1, h2]

theorem colorBlt (len mask pen height width dst color) : Statement (.colorBlt len mask pen height width dst color) := by
  refine of_blt _ _ ?_ ?_ <;>
  simp (disch := omega) only [encode, drawHeader, putSeeds, List.cons_append, List.headD_cons, field_put_other,
    field_putBit_other] <;> rfl

theorem srcCopyBlt (len mask xdir pen height width dst spitch src) : Statement (.srcCopyBlt len mask xdir pen height width dst spitch src) := by
  refine of_blt _ _ ?_ ?_ <;>
  simp (disch := omega) only [encode, drawHeader, putSeeds, List.cons_append, List.headD_cons, field_put_other,
    field_putBit_other] <;> rfl

theorem xySetupBlt (len mask tiled clip transp pen rect base bg fg pat) : Statement (.xySetupBlt len mask tiled clip transp pen rect base bg fg pat) := by
  refine of_blt _ _ ?_ ?_ <;>
  simp (disch := omega) only [encode, drawHeader, putSeeds, List.cons_append, List.headD_cons, field_put_other,
    field_putBit_other] <;> rfl

theorem xySetupMonoPatternSlBlt (len mask tiled solid clip transp pen rect base bg fg p0 p1) : Statement (.xySetupMonoPatternSlBlt len mask tiled solid clip transp pen rect base bg fg p0 p1) := by
  refine of_blt _ _ ?_ ?_ <;>
  simp (disch := omega) only [encode, drawHeader, putSeeds, List.cons_append, List.headD_cons, field_put_other,
    field_putBit_other] <;> rfl

theorem xySetupClipBlt (len tiled rect) : Statement (.xySetupClipBlt len tiled rect) := by
  refine of_blt _ _ ?_ ?_ <;>
  simp (disch := omega) only [encode, drawHeader, putSeeds, List.cons_append, List.headD_cons, field_put_other,
    field_putBit_other] <;> rfl

theorem xyPixelBlt (len tiled x y) : Statement (.xyPixelBlt len tiled x y) := by
  refine of_blt _ _ ?_ ?_ <;>
  simp (disch := omega) only [encode, drawHeader, putSeeds, List.cons_append, List.headD_cons, field_put_other,
    field_putBit_other] <;> rfl

theorem xyScanlinesBlt (len tiled seeds rect) : Statement (.xyScanlinesBlt len tiled seeds rect) := by
  refine of_blt _ _ ?_ ?_ <;>
  simp (disch := omega) only [encode, drawHeader, putSeeds, List.cons_append, List.headD_cons, field_put_other,
    field_putBit_other] <;> rfl

theorem xyTextBlt (len tiled packed rect src) : Statement (.xyTextBlt len tiled packed rect src) := by
  refine of_blt _ _ ?_ ?_ <;>
  simp (disch := omega) only [encode, drawHeader, putSeeds, List.cons_append, List.headD_cons, field_put_other,
    field_putBit_other] <;> rfl

theorem xyTextImmediateBlt (len tiled packed rect data) : Statement (.xyTextImmediateBlt len tiled packed rect data) := by
  refine of_blt _ _ ?_ ?_ <;>
  simp (disch := omega) only [encode, drawHeader, putSeeds, List.cons_append, List.headD_cons, field_put_other,
    field_putBit_other] <;> rfl

theorem xyColorBlt (len d color) : Statement (.xyColorBlt len d color) := by
  refine of_blt _ _ ?_ ?_ <;>
  simp (disch := omega) only [encode, drawHeader, putSeeds, List.cons_append, List.headD_cons, field_put_other,
    field_putBit_other] <;> rfl

theorem xyPatBlt (len d seeds pat) : Statement (.xyPatBlt len d seeds pat) := by
  refine of_blt _ _ ?_ ?_ <;>
  simp (disch := omega) only [encode, drawHeader, putSeeds, List.cons_append, List.headD_cons, field_put_other,
    field_putBit_other] <;> rfl

theorem xyPatChromaBlt (len d mode seeds pat lo hi) : Statement (.xyPatChromaBlt len d mode seeds pat lo hi) := by
  refine of_blt _ _ ?_ ?_ <;>
  simp (disch := omega) only [encode, drawHeader, putSeeds, List.cons_append, List.headD_cons, field_put_other,
    field_putBit_other] <;> rfl

theorem xyPatBltImmediate (len d seeds data) : Statement (.xyPatBltImmediate len d seeds data) := by
  refine of_blt _ _ ?_ ?_ <;>
  simp (disch := omega) only [encode, drawHeader, putSeeds, List.cons_append, List.headD_cons, field_put_other,
    field_putBit_other] <;> rfl

theorem xyPatChromaBltImmediate (len d mode seeds lo hi data) : Statement (.xyPatChromaBltImmediate len d mode seeds lo hi data) := by
  refine of_blt _ _ ?_ ?_ <;>
  simp (disch := omega) only [encode, drawHeader, putSeeds, List.cons_append, List.headD_cons, field_put_other,
    field_putBit_other] <;> rfl

theorem xyMonoPatBlt (len d transp seeds bg fg p0 p1) : Statement (.xyMonoPatBlt len d transp seeds bg fg p0 p1) := by
  refine of_blt _ _ ?_ ?_ <;>
  simp (disch := omega) only [encode, drawHeader, putSeeds, List.cons_append, List.headD_cons, field_put_other,
    field_putBit_other] <;> rfl

theorem xyMonoPatFixedBlt (len d transp fixed seeds bg fg) : Statement (.xyMonoPatFixedBlt len d transp fixed seeds bg fg) := by
  refine of_blt _ _ ?_ ?_ <;>
  simp (disch := omega) only [encode, drawHeader, putSeeds, List.cons_append, List.headD_cons, field_put_other,
    field_putBit_other] <;> rfl

theorem xySrcCopyBlt (len d src) : Statement (.xySrcCopyBlt len d src) := by
  refine of_blt _ _ ?_ ?_ <;>
  simp (disch := omega) only [encode, drawHeader, putSeeds, List.cons_append, List.headD_cons, field_put_other,
    field_putBit_other] <;> rfl

theorem xySrcCopyChromaBlt (len d mode src lo hi) : Statement (.xySrcCopyChromaBlt len d mode src lo hi) := by
  refine of_blt _ _ ?_ ?_ <;>
  simp (disch := omega) only [encode, drawHeader, putSeeds, List.cons_append, List.headD_cons, field_put_other,
    field_putBit_other] <;> rfl

theorem xyMonoSrcCopyBlt (len d transp start src bg fg) : Statement (.xyMonoSrcCopyBlt len d transp start src bg fg) := by
  refine of_blt _ _ ?_ ?_ <;>
  simp (disch := omega) only [encode, drawHeader, putSeeds, List.cons_append, List.headD_cons, field_put_other,
    field_putBit_other] <;> rfl

theorem xyMonoSrcCopyImmediateBlt (len d transp start bg fg data) : Statement (.xyMonoSrcCopyImmediateBlt len d transp start bg fg data) := by
  refine of_blt _ _ ?_ ?_ <;>
  simp (disch := omega) only [encode, drawHeader, putSeeds, List.cons_append, List.headD_cons, field_put_other,
    field_putBit_other] <;> rfl

theorem xyFullBlt (len d seeds src pat) : Statement (.xyFullBlt len d seeds src pat) := by
  refine of_blt _ _ ?_ ?_ <;>
  simp (disch := omega) only [encode, drawHeader, putSeeds, List.cons_append, List.headD_cons, field_put_other,
    field_putBit_other] <;> rfl

theorem xyFullImmediatePatternBlt (len d hseed src data) : Statement (.xyFullImmediatePatternBlt len d hseed src data) := by
  refine of_blt _ _ ?_ ?_ <;>
  simp (disch := omega) only [encode, drawHeader, putSeeds, List.cons_append, List.headD_cons, field_put_other,
    field_putBit_other] <;> rfl

theorem xyFullMonoSrcBlt (len d transp start seeds src bg fg pat) : Statement (.xyFullMonoSrcBlt len d transp start seeds src bg fg pat) := by
  refine of_blt _ _ ?_ ?_ <;>
  simp (disch := omega) only [encode, drawHeader, putSeeds, List.cons_append, List.headD_cons, field_put_other,
    field_putBit_other] <;> rfl

theorem xyFullMonoSrcImmediatePatternBlt (len d transp start hseed src bg fg data) : Statement (.xyFullMonoSrcImmediatePatternBlt len d transp start hseed src bg fg data) := by
  refine of_blt _ _ ?_ ?_ <;>
  simp (disch := omega) only [encode, drawHeader, putSeeds, List.cons_append, List.headD_cons, field_put_other,
    field_putBit_other] <;> rfl

theorem xyFullMonoPatternBlt (len d solid transp seeds src bg fg p0 p1) : Statement (.xyFullMonoPatternBlt len d solid transp seeds src bg fg p0 p1) := by
  refine of_blt _ _ ?_ ?_ <;>
  simp (disch := omega) only [encode, drawHeader, putSeeds, List.cons_append, List.headD_cons, field_put_other,
    field_putBit_other] <;> rfl

theorem xyFullMonoPatternMonoSrcBlt (len d solid stransp ptransp start seeds src sbg sfg pbg pfg p0 p1) : Statement (.xyFullMonoPatternMonoSrcBlt len d solid stransp ptransp start seeds src sbg sfg pbg pfg p0 p1) := by
  refine of_blt _ _ ?_ ?_ <;>
  simp (disch := omega) only [encode, drawHeader, putSeeds, List.cons_append, List.headD_cons, field_put_other,
    field_putBit_other] <;> rfl

theorem miNoop (writeId ident) : Statement (.miNoop writeId ident) := by
  refine of_mi _ _ ?_ ?_ <;>
  simp (disch := omega) only [encode, drawHeader, putSeeds, List.cons_append, List.headD_cons, field_put_other,
    field_putBit_other] <;> rfl

theorem miUserInterrupt : Statement .miUserInterrupt := rfl

theorem miWaitForEvent (spriteC cc planeC spriteB planeB spriteA planeA) : Statement (.miWaitForEvent spriteC cc planeC spriteB planeB spriteA planeA) := by
  refine of_mi _ _ ?_ ?_ <;>
  simp (disch := omega) only [encode, drawHeader, putSeeds, List.cons_append, List.headD_cons, field_put_other,
    field_putBit_other] <;> rfl

theorem miArbCheck : Statement .miArbCheck := rfl

theorem miReportHead : Statement .miReportHead := rfl

theorem miBatchBufferEnd : Statement .miBatchBufferEnd := rfl

theorem miSuspendFlush (on) : Statement (.miSuspendFlush on) := by
  refine of_mi _ _ ?_ ?_ <;>
  simp (disch := omega) only [encode, drawHeader, putSeeds, List.cons_append, List.headD_cons, field_put_other,
    field_putBit_other] <;> rfl

theorem miDisplayFlip (len async plane pitch tiled base kind) : Statement (.miDisplayFlip len async plane pitch tiled base kind) := by
  refine of_mi _ _ ?_ ?_ <;>
  simp (disch := omega) only [encode, drawHeader, putSeeds, List.cons_append, List.headD_cons, field_put_other,
    field_putBit_other] <;> rfl

theorem miSemaphoreMbox (len ggtt update compare cmpReg sel data addr) : Statement (.miSemaphoreMbox len ggtt update compare cmpReg sel data addr) := by
  refine of_mi _ _ ?_ ?_ <;>
  simp (disch := omega) only [encode, drawHeader, putSeeds, List.cons_append, List.headD_cons, field_put_other,
    field_putBit_other] <;> rfl

theorem miStoreDataImm (len ggtt addr d0 d1) : Statement (.miStoreDataImm len ggtt addr d0 d1) := by
  refine of_mi _ _ ?_ ?_ <;>
  simp (disch := omega) only [encode, drawHeader, putSeeds, List.cons_append, List.headD_cons, field_put_other,
    field_putBit_other] <;> rfl

theorem miStoreDataIndex (len offset d0 d1) : Statement (.miStoreDataIndex len offset d0 d1) := by
  refine of_mi _ _ ?_ ?_ <;>
  simp (disch := omega) only [encode, drawHeader, putSeeds, List.cons_append, List.headD_cons, field_put_other,
    field_putBit_other] <;> rfl

theorem miLoadRegisterImm (len disables reg data) : Statement (.miLoadRegisterImm len disables reg data) := by
  refine of_mi _ _ ?_ ?_ <;>
  simp (disch := omega) only [encode, drawHeader, putSeeds, List.cons_append, List.headD_cons, field_put_other,
    field_putBit_other] <;> rfl

theorem miUpdateGtt (len ggtt entry data) : Statement (.miUpdateGtt len ggtt entry data) := by
  refine of_mi _ _ ?_ ?_ <;>
  simp (disch := omega) only [encode, drawHeader, putSeeds, List.cons_append, List.headD_cons, field_put_other,
    field_putBit_other] <;> rfl

theorem miStoreRegisterMem (len ggtt reg addr) : Statement (.miStoreRegisterMem len ggtt reg addr) := by
  refine of_mi _ _ ?_ ?_ <;>
  simp (disch := omega) only [encode, drawHeader, putSeeds, List.cons_append, List.headD_cons, field_put_other,
    field_putBit_other] <;> rfl

theorem miFlushDw (len spare index tlbInv gfdt op notify addr toGgtt d0 d1) : Statement (.miFlushDw len spare index tlbInv gfdt op notify addr toGgtt d0 d1) := by
  refine of_mi _ _ ?_ ?_ <;>
  simp (disch := omega) only [encode, drawHeader, putSeeds, List.cons_append, List.headD_cons, field_put_other,
    field_putBit_other] <;> rfl

theorem miLoadRegisterMem (len ggtt async reg addr) : Statement (.miLoadRegisterMem len ggtt async reg addr) := by
  refine of_mi _ _ ?_ ?_ <;>
  simp (disch := omega) only [encode, drawHeader, putSeeds, List.cons_append, List.headD_cons, field_put_other,
    field_putBit_other] <;> rfl

theorem miBatchBufferStart (len asi addr) : Statement (.miBatchBufferStart len asi addr) := by
  refine of_mi _ _ ?_ ?_ <;>
  simp (disch := omega) only [encode, drawHeader, putSeeds, List.cons_append, List.headD_cons, field_put_other,
    field_putBit_other] <;> rfl

end Sys2Proof.Laws.Header
end

