-- ==== Sys2Proof/Tests/Slice0.lean ====
section
/-! SUPPORT. The model's own tests: terms `Instr.wf` refuses, words written out from the spec's encoding tables and what
they decode to, single steps with the results the spec prints, and a state and operands that meet the hypotheses of each
statement of Certificates/Slice0/Obligations.lean. "R<n>" and the vector names of spec/95_test_vectors.md name the source
of each expected value. -/

namespace Sys2Proof.Machine

/-- Memory holding these bytes from an address on. -/
def State.holding (s : State) (a : Nat) (bs : List Byte) : State := { s with mem := Memory.writeAll s.mem (cellsAt a bs) }

end Sys2Proof.Machine

namespace Sys2Proof.Tests

open Sys2Proof.Machine

set_option Elab.async false

/-! ## Ill-formed terms, one for each check of `Instr.wf` -/

/-- A small drawing header. -/
def draw (rop : BitVec 8) : Draw := ⟨3, false, false, ⟨.c8, rop, 0x40⟩, ⟨0, 0, 2, 1⟩, 0x100000⟩

/-- A small colour source. -/
def src : ColorSrc := ⟨false, 0x40, 0, 0, 0x200000⟩

theorem test_wf_colorBlt : (Instr.colorBlt 4 0 ⟨.c8, 0xF0, 0x40⟩ 1 1 0 0).wf = false := by decide
theorem test_wf_srcCopyBlt : (Instr.srcCopyBlt 3 0 false ⟨.c8, 0xCC, 0x40⟩ 1 1 0 0x40 0).wf = false := by decide
theorem test_wf_setup : (Instr.xySetupBlt 7 0 false false false ⟨.c8, 0xF0, 0x40⟩ ⟨0, 0, 0, 0⟩ 0 0 0 0).wf = false := by decide
theorem test_wf_setupMono :
    (Instr.xySetupMonoPatternSlBlt 6 0 false false false false ⟨.c8, 0xF0, 0x40⟩ ⟨0, 0, 0, 0⟩ 0 0 0 0 0).wf = false := by
  decide
theorem test_wf_setupClip : (Instr.xySetupClipBlt 0 false ⟨0, 0, 0, 0⟩).wf = false := by decide
theorem test_wf_pixel : (Instr.xyPixelBlt 1 false 0 0).wf = false := by decide
theorem test_wf_scanlines : (Instr.xyScanlinesBlt 0 false ⟨0, 0⟩ ⟨0, 0, 1, 1⟩).wf = false := by decide
theorem test_wf_text : (Instr.xyTextBlt 3 false false ⟨0, 0, 1, 1⟩ 0).wf = false := by decide
theorem test_wf_textImmediate : (Instr.xyTextImmediateBlt 2 false false ⟨0, 0, 1, 1⟩ [0, 0]).wf = false := by decide
theorem test_wf_xyColor : (Instr.xyColorBlt 5 (draw 0xF0) 0).wf = false := by decide
theorem test_wf_pat : (Instr.xyPatBlt 5 (draw 0xF0) ⟨0, 0⟩ 0).wf = false := by decide
theorem test_wf_patChroma : (Instr.xyPatChromaBlt 6 (draw 0xF0) 3 ⟨0, 0⟩ 0 0 0).wf = false := by decide
theorem test_wf_patImmediate : (Instr.xyPatBltImmediate 4 (draw 0xF0) ⟨0, 0⟩ []).wf = false := by decide
theorem test_wf_patChromaImmediate : (Instr.xyPatChromaBltImmediate 5 (draw 0xF0) 1 ⟨0, 0⟩ 0 0 []).wf = false := by decide
theorem test_wf_monoPat : (Instr.xyMonoPatBlt 8 (draw 0xF0) false ⟨0, 0⟩ 0 0 0 0).wf = false := by decide
theorem test_wf_monoPatFixed : (Instr.xyMonoPatFixedBlt 5 (draw 0xF0) false 6 ⟨0, 0⟩ 0 0).wf = false := by decide
theorem test_wf_srcCopy : (Instr.xySrcCopyBlt 7 (draw 0xCC) src).wf = false := by decide
theorem test_wf_srcCopyChroma : (Instr.xySrcCopyChromaBlt 6 (draw 0xCC) 0 src 0 0).wf = false := by decide
theorem test_wf_monoSrc : (Instr.xyMonoSrcCopyBlt 7 (draw 0xCC) false 0 0 0 0).wf = false := by decide
theorem test_wf_monoSrcImmediate : (Instr.xyMonoSrcCopyImmediateBlt 5 (draw 0xCC) false 0 0 0 [0]).wf = false := by decide
theorem test_wf_full : (Instr.xyFullBlt 6 (draw 0xCA) ⟨0, 0⟩ src 0).wf = false := by decide
theorem test_wf_fullImmediate : (Instr.xyFullImmediatePatternBlt 7 (draw 0xCA) 0 src []).wf = false := by decide
theorem test_wf_fullMonoSrc : (Instr.xyFullMonoSrcBlt 8 (draw 0xCA) false 0 ⟨0, 0⟩ 0 0 0 0).wf = false := by decide
theorem test_wf_fullMonoSrcImmediate :
    (Instr.xyFullMonoSrcImmediatePatternBlt 5 (draw 0xCA) false 0 0 0 0 0 []).wf = false := by decide
theorem test_wf_fullMonoPattern : (Instr.xyFullMonoPatternBlt 9 (draw 0xCA) false false ⟨0, 0⟩ src 0 0 0 0).wf = false := by
  decide
theorem test_wf_fullMonoPatternMonoSrc :
    (Instr.xyFullMonoPatternMonoSrcBlt 11 (draw 0xCA) false false false 0 ⟨0, 0⟩ 0 0 0 0 0 0 0).wf = false := by decide
theorem test_wf_wait_two_events : (Instr.miWaitForEvent false 0 false false true false true).wf = false := by decide
theorem test_wf_wait_code : (Instr.miWaitForEvent false 6 false false false false false).wf = false := by decide
theorem test_wf_flip_plane : (Instr.miDisplayFlip 1 false 6 0 false 0 0).wf = false := by decide
theorem test_wf_flip_kind : (Instr.miDisplayFlip 1 false 0 0 false 0 1).wf = false := by decide
theorem test_wf_semaphore_nothing : (Instr.miSemaphoreMbox 1 false false false false 0 0 0).wf = false := by decide
theorem test_wf_semaphore_register : (Instr.miSemaphoreMbox 1 false false true true 1 0 0).wf = false := by decide
theorem test_wf_storeDataImm : (Instr.miStoreDataImm 2 false 0 0 1).wf = false := by decide
theorem test_wf_storeDataIndex : (Instr.miStoreDataIndex 1 15 0 0).wf = false := by decide
theorem test_wf_loadRegisterImm : (Instr.miLoadRegisterImm 1 7 0 0).wf = false := by decide
theorem test_wf_updateGtt : (Instr.miUpdateGtt 0 true 0 []).wf = false := by decide
theorem test_wf_storeRegisterMem : (Instr.miStoreRegisterMem 2 true 0 0).wf = false := by decide
theorem test_wf_flushDw : (Instr.miFlushDw 1 false false true false 0 false 0 false 0 0).wf = false := by decide
theorem test_wf_loadRegisterMem : (Instr.miLoadRegisterMem 0 true false 0 0).wf = false := by decide
theorem test_wf_batchBufferStart : (Instr.miBatchBufferStart 1 false 0).wf = false := by decide

/-! ## Decoding: one word sequence for each command, as its rule prints it -/

/-- R280: fill 16 pixels by 2 lines. -/
theorem test_decode_colorBlt : decode [0x50000003, 0x00F00040, 0x00020010, 0x00100000, 0x0000005A] =
    .ok (.colorBlt 3 0 ⟨.c8, 0xF0, 0x40⟩ 2 16 0x100000 0x5A) := by decide
/-- Vector M8, X direction 1. -/
theorem test_decode_srcCopyBlt : decode [0x50C00004, 0x40CC0040, 0x00010004, 0x00300003, 0x00000040, 0x00200003] =
    .ok (.srcCopyBlt 4 0 true ⟨.c8, 0xCC, 0x40⟩ 1 4 0x300003 0x40 0x200003) := by decide
/-- R290. -/
theorem test_decode_xySetupBlt :
    decode [0x40700006, 0x43F01000, 0, 0x01E00280, 0x00400000, 0, 0xFFFFFFFF, 0x00010000] =
    .ok (.xySetupBlt 6 3 false true false ⟨.c32, 0xF0, 0x1000⟩ ⟨0, 0, 640, 480⟩ 0x400000 0 0xFFFFFFFF 0x10000) := by decide
/-- R291, with solid select and pattern transparency of vector T9. -/
theorem test_decode_xySetupMonoPatternSlBlt :
    decode [0x44400007, 0x90F00040, 0, 0, 0x00100000, 0x22, 0xFF, 0xAA55AA55, 0xAA55AA55] =
    .ok (.xySetupMonoPatternSlBlt 7 0 false true false true ⟨.c8, 0xF0, 0x40⟩ ⟨0, 0, 0, 0⟩ 0x100000 0x22 0xFF 0xAA55AA55
      0xAA55AA55) := by decide
/-- R292. -/
theorem test_decode_xySetupClipBlt : decode [0x40C00001, 0x0014000A, 0x00DC006E] =
    .ok (.xySetupClipBlt 1 false ⟨10, 20, 110, 220⟩) := by decide
/-- R293. -/
theorem test_decode_xyPixelBlt : decode [0x49000000, 0x00020005] = .ok (.xyPixelBlt 0 false 5 2) := by decide
/-- Vector T5: both seeds. -/
theorem test_decode_xyScanlinesBlt : decode [0x49403501, 0x00010002, 0x00030006] =
    .ok (.xyScanlinesBlt 1 false ⟨3, 5⟩ ⟨2, 1, 6, 3⟩) := by decide
/-- R295. -/
theorem test_decode_xyTextBlt : decode [0x49800002, 0x00800080, 0x00880088, 0x00050000] =
    .ok (.xyTextBlt 2 false false ⟨128, 128, 136, 136⟩ 0x50000) := by decide
/-- R296, with the byte-packed bit 16. -/
theorem test_decode_xyTextImmediateBlt : decode [0x4C410003, 0x00800080, 0x00880088, 1, 2] =
    .ok (.xyTextImmediateBlt 3 false true ⟨128, 128, 136, 136⟩ [1, 2]) := by decide
/-- R310. -/
theorem test_decode_xyColorBlt : decode [0x54300004, 0x03F01000, 0x0005000A, 0x00070014, 0x00400000, 0x00FF0000] =
    .ok (.xyColorBlt 4 ⟨3, false, false, ⟨.c32, 0xF0, 0x1000⟩, ⟨10, 5, 20, 7⟩, 0x400000⟩ 0xFF0000) := by decide
/-- R311. -/
theorem test_decode_xyPatBlt : decode [0x54401004, 0x00F00040, 0, 0x00020010, 0x00100000, 0x00010000] =
    .ok (.xyPatBlt 4 ⟨0, false, false, ⟨.c8, 0xF0, 0x40⟩, ⟨0, 0, 16, 2⟩, 0x100000⟩ ⟨1, 0⟩ 0x10000) := by decide
/-- R312. -/
theorem test_decode_xyPatChromaBlt :
    decode [0x5D8E0006, 0x00F00040, 0, 0x00020010, 0x00100000, 0x00010000, 0x10, 0x1F] =
    .ok (.xyPatChromaBlt 6 ⟨0, false, false, ⟨.c8, 0xF0, 0x40⟩, ⟨0, 0, 16, 2⟩, 0x100000⟩ 7 ⟨0, 0⟩ 0x10000 0x10 0x1F) := by
  decide
/-- R313. -/
theorem test_decode_xyPatBltImmediate :
    decode [0x5C800013, 0x00F00040, 0, 0x00020004, 0x00100000, 1, 2, 3, 4, 5, 6, 7, 8, 9, 10, 11, 12, 13, 14, 15, 16] =
    .ok (.xyPatBltImmediate 0x13 ⟨0, false, false, ⟨.c8, 0xF0, 0x40⟩, ⟨0, 0, 4, 2⟩, 0x100000⟩ ⟨0, 0⟩
      [1, 2, 3, 4, 5, 6, 7, 8, 9, 10, 11, 12, 13, 14, 15, 16]) := by decide
/-- Vector P7's header, with two DWords of data. -/
theorem test_decode_xyPatChromaBltImmediate :
    decode [0x5DCE0007, 0x00F00040, 0, 0x00010008, 0x00100000, 0x10, 0x1F, 1, 2] =
    .ok (.xyPatChromaBltImmediate 7 ⟨0, false, false, ⟨.c8, 0xF0, 0x40⟩, ⟨0, 0, 8, 1⟩, 0x100000⟩ 7 ⟨0, 0⟩ 0x10 0x1F
      [1, 2]) := by decide
/-- R315. -/
theorem test_decode_xyMonoPatBlt :
    decode [0x54800007, 0x10F00040, 0, 0x00020008, 0x00100000, 0, 0xFF, 0xAA55AA55, 0xAA55AA55] =
    .ok (.xyMonoPatBlt 7 ⟨0, false, false, ⟨.c8, 0xF0, 0x40⟩, ⟨0, 0, 8, 2⟩, 0x100000⟩ true ⟨0, 0⟩ 0 0xFF 0xAA55AA55
      0xAA55AA55) := by decide
/-- R316: the fixed pattern 1, horizontal seed 4. -/
theorem test_decode_xyMonoPatFixedBlt : decode [0x5640C005, 0x00F00040, 0, 0x00010008, 0x00100000, 0, 0xFF] =
    .ok (.xyMonoPatFixedBlt 5 ⟨0, false, false, ⟨.c8, 0xF0, 0x40⟩, ⟨0, 0, 8, 1⟩, 0x100000⟩ false 1 ⟨4, 0⟩ 0 0xFF) := by
  decide
/-- R330. -/
theorem test_decode_xySrcCopyBlt :
    decode [0x54C00006, 0x00CC0040, 0x00000002, 0x0001000A, 0x00200000, 0, 0x00000040, 0x00200000] =
    .ok (.xySrcCopyBlt 6 ⟨0, false, false, ⟨.c8, 0xCC, 0x40⟩, ⟨2, 0, 10, 1⟩, 0x200000⟩ ⟨false, 0x40, 0, 0, 0x200000⟩) := by
  decide
/-- R331: mask 3, mode 001b. -/
theorem test_decode_xySrcCopyChromaBlt :
    decode [0x5CF20008, 0x03CC0040, 0, 0x00010003, 0x00300000, 0x00020001, 0x40, 0x00200000, 0x00FF00FF, 0x00FF00FE] =
    .ok (.xySrcCopyChromaBlt 8 ⟨3, false, false, ⟨.c32, 0xCC, 0x40⟩, ⟨0, 0, 3, 1⟩, 0x300000⟩ 1 ⟨false, 0x40, 1, 2, 0x200000⟩
      0x00FF00FF 0x00FF00FE) := by decide
/-- R332, with transparency; vector N1's start bit 3. -/
theorem test_decode_xyMonoSrcCopyBlt :
    decode [0x55060006, 0x20CC0040, 0, 0x00020006, 0x00100000, 0x00050000, 0x11, 0xFF] =
    .ok (.xyMonoSrcCopyBlt 6 ⟨0, false, false, ⟨.c8, 0xCC, 0x40⟩, ⟨0, 0, 6, 2⟩, 0x100000⟩ true 3 0x50000 0x11 0xFF) := by
  decide
/-- R333. -/
theorem test_decode_xyMonoSrcCopyImmediateBlt :
    decode [0x5C400007, 0x00CC0040, 0, 0x00020004, 0x00100000, 0x11, 0xFF, 0x005000A0, 0] =
    .ok (.xyMonoSrcCopyImmediateBlt 7 ⟨0, false, false, ⟨.c8, 0xCC, 0x40⟩, ⟨0, 0, 4, 2⟩, 0x100000⟩ false 0 0x11 0xFF
      [0x005000A0, 0]) := by decide
/-- R350. -/
theorem test_decode_xyFullBlt :
    decode [0x55400007, 0x00CA0040, 0, 0x00010004, 0x00100000, 0x00000040, 0, 0x00300000, 0x00010000] =
    .ok (.xyFullBlt 7 ⟨0, false, false, ⟨.c8, 0xCA, 0x40⟩, ⟨0, 0, 4, 1⟩, 0x100000⟩ ⟨0, 0⟩ ⟨false, 0x40, 0, 0, 0x300000⟩
      0x10000) := by decide
/-- R351's header with horizontal seed 2 and two DWords of data. -/
theorem test_decode_xyFullImmediatePatternBlt :
    decode [0x5D002008, 0x00CA0040, 0, 0x00010004, 0x00100000, 0x40, 0x00010002, 0x00300000, 7, 8] =
    .ok (.xyFullImmediatePatternBlt 8 ⟨0, false, false, ⟨.c8, 0xCA, 0x40⟩, ⟨0, 0, 4, 1⟩, 0x100000⟩ 2
      ⟨false, 0x40, 2, 1, 0x300000⟩ [7, 8]) := by decide
/-- R352. -/
theorem test_decode_xyFullMonoSrcBlt :
    decode [0x55800007, 0x00E20040, 0, 0x00010004, 0x00100000, 0x00050000, 0, 0xFF, 0x00010000] =
    .ok (.xyFullMonoSrcBlt 7 ⟨0, false, false, ⟨.c8, 0xE2, 0x40⟩, ⟨0, 0, 4, 1⟩, 0x100000⟩ false 0 ⟨0, 0⟩ 0x50000 0 0xFF
      0x10000) := by decide
/-- R353: start bit 5 in bits 19:17, seed 1 in bits 14:12. -/
theorem test_decode_xyFullMonoSrcImmediatePatternBlt :
    decode [0x5D4A1008, 0x20E20040, 0, 0x00010004, 0x00100000, 0x00050000, 0, 0xFF, 7, 8] =
    .ok (.xyFullMonoSrcImmediatePatternBlt 8 ⟨0, false, false, ⟨.c8, 0xE2, 0x40⟩, ⟨0, 0, 4, 1⟩, 0x100000⟩ true 5 1 0x50000 0
      0xFF [7, 8]) := by decide
/-- R354, solid. -/
theorem test_decode_xyFullMonoPatternBlt :
    decode [0x55C0000A, 0x80CA0040, 0, 0x00010004, 0x00100000, 0x40, 0, 0x00300000, 0, 0xFF, 0xAAAAAAAA, 0xAAAAAAAB] =
    .ok (.xyFullMonoPatternBlt 10 ⟨0, false, false, ⟨.c8, 0xCA, 0x40⟩, ⟨0, 0, 4, 1⟩, 0x100000⟩ true false ⟨0, 0⟩
      ⟨false, 0x40, 0, 0, 0x300000⟩ 0 0xFF 0xAAAAAAAA 0xAAAAAAAB) := by decide
/-- R355, both transparencies. -/
theorem test_decode_xyFullMonoPatternMonoSrcBlt :
    decode [0x5600000A, 0x30C00040, 0, 0x00010004, 0x00100000, 0x00050000, 0, 0x3C, 0x0F, 0xF0, 0xCCCCCCCC, 0xCCCCCCCD] =
    .ok (.xyFullMonoPatternMonoSrcBlt 10 ⟨0, false, false, ⟨.c8, 0xC0, 0x40⟩, ⟨0, 0, 4, 1⟩, 0x100000⟩ false true true 0
      ⟨0, 0⟩ 0x50000 0 0x3C 0x0F 0xF0 0xCCCCCCCC 0xCCCCCCCD) := by decide
/-- R376. -/
theorem test_decode_miNoop : decode [0x00401234] = .ok (.miNoop true 0x1234) := by decide
/-- R384, R371, R377, R372. -/
theorem test_decode_miPlain : decode [0x01000000] = .ok .miUserInterrupt ∧ decode [0x02800000] = .ok .miArbCheck ∧
    decode [0x03800000] = .ok .miReportHead ∧ decode [0x05000000] = .ok .miBatchBufferEnd := by decide
/-- R385: plane A; condition code 0. -/
theorem test_decode_miWaitForEvent :
    decode [0x01800002] = .ok (.miWaitForEvent false 0 false false false false true) ∧
    decode [0x01810000] = .ok (.miWaitForEvent false 1 false false false false false) := by decide
/-- R382. -/
theorem test_decode_miSuspendFlush : decode [0x05800001] = .ok (.miSuspendFlush true) ∧
    decode [0x05800000] = .ok (.miSuspendFlush false) := by decide
/-- R387. -/
theorem test_decode_miDisplayFlip : decode [0x0A080001, 0x00002001, 0x01000000] =
    .ok (.miDisplayFlip 1 false 1 0x80 true 0x1000 0) := by decide
/-- R378. -/
theorem test_decode_miSemaphoreMbox : decode [0x0B140001, 0x00000005, 0x00022040] =
    .ok (.miSemaphoreMbox 1 false false true true 0 5 0x8810) := by decide
/-- R380. -/
theorem test_decode_miStoreDataImm : decode [0x10400002, 0, 0x00003000, 0xDEADBEEF] =
    .ok (.miStoreDataImm 2 true 0xC00 0xDEADBEEF 0) := by decide
/-- R381. -/
theorem test_decode_miStoreDataIndex : decode [0x10800001, 0x00000080, 0x00000042] =
    .ok (.miStoreDataIndex 1 0x20 0x42 0) := by decide
/-- R375. -/
theorem test_decode_miLoadRegisterImm : decode [0x11000001, 0x00022028, 0x00010001] =
    .ok (.miLoadRegisterImm 1 0 0x880A 0x10001) := by decide
/-- R383. -/
theorem test_decode_miUpdateGtt : decode [0x11C00002, 0x00400000, 0x11, 0x22] =
    .ok (.miUpdateGtt 2 true 0x400 [0x11, 0x22]) := by decide
/-- R379. -/
theorem test_decode_miStoreRegisterMem : decode [0x12400001, 0x00022034, 0x00002000] =
    .ok (.miStoreRegisterMem 1 true 0x880D 0x800) := by decide
/-- R374. -/
theorem test_decode_miFlushDw : decode [0x13004102, 0x00001004, 1, 0] =
    .ok (.miFlushDw 2 false false false false 1 true 0x200 true 1 0) := by decide
/-- R386. -/
theorem test_decode_miLoadRegisterMem : decode [0x14C00001, 0x00022028, 0x00004000] =
    .ok (.miLoadRegisterMem 1 true false 0x880A 0x1000) := by decide
/-- R373. -/
theorem test_decode_miBatchBufferStart : decode [0x18800100, 0x00800000] =
    .ok (.miBatchBufferStart 0 true 0x200000) := by decide
/-- A reserved bit that is not zero is refused by name (R205). -/
theorem test_decode_reserved : decode [0x02800001] = .error (.reservedField "MI_ARB_CHECK") := by decide
/-- An undefined opcode and an undefined client (R200). -/
theorem test_decode_undefined : decode [0x00800000] = .error .undefinedOpcode ∧
    decode [0x60000000] = .error .undefinedOpcode := by decide
/-- Missing DWords. -/
theorem test_decode_truncated : decode [0x40C00001, 0] = .error (.truncated "XY_SETUP_CLIP_BLT") := by decide

/-! ## Single steps -/

/-- A running ring: 4 KB at 20000h, tail at 400h, status page at 10000h. -/
def ring : State := { State.reset with
  regs := { Regs.reset with hwsPga := 0x10000, hwsPgaWritten := true, start := 0x20000, ctl := 1, tail := 0x400 }
  parser := ⟨.running, false, 0, .ggtt⟩ }

/-- A non-secure batch buffer at 800000h: the PPGTT is enabled and every directory set valid. -/
def batch : State := { ring with
  regs := { ring.regs with bltMode := 0x200, ppDclv := 0xFFFFFFFF }
  parser := ⟨.running, true, 0x800000, .ppgtt⟩ }

/-- The state after the command these DWords encode. -/
def after (ws : List Word) (s : State) : Option State :=
  match decode ws with
  | .error _ => none
  | .ok i =>
    match exec i s with
    | .next t => some t
    | _ => none

/-- The bytes a BLT would read. -/
def seen (o : Option State) (a n : Nat) : Option (List Byte) := o.map fun t => bytesAt t.renderRead a n

/-- The bytes of memory once every posted write is there. -/
def posted (o : Option State) (a n : Nat) : Option (List Byte) :=
  o.map fun t => bytesAt (Memory.read (drainAll t.mem t.posted)) a n

/-- Bytes counting up from 0. -/
def counting (n : Nat) : List Byte := (List.range n).map (BitVec.ofNat 8)

/-- Vector C2: ROP 5Ah. -/
theorem test_colorBlt : seen (after [0x50000003, 0x005A0040, 0x00010004, 0x00100000, 0x000000FF]
    (ring.holding 0x100000 [0x0F, 0xF0, 0, 0xFF])) 0x100000 4 = some [0xF0, 0x0F, 0xFF, 0] := by decide +kernel
/-- Vector C8: a negative pitch. -/
theorem test_colorBlt_up : (after [0x50000003, 0x00F0FFC0, 0x00020001, 0x00100040, 0x00000077] ring).map State.rc =
    some [(0x100000, 0x77), (0x100040, 0x77)] := by decide +kernel
/-- Vector M4: D xor S. -/
theorem test_srcCopyBlt : seen (after [0x50C00004, 0x00660040, 0x00010002, 0x00300000, 0x00000040, 0x00200000]
    ((ring.holding 0x200000 [0x0F, 0x33]).holding 0x300000 [0x55, 0x55])) 0x300000 2 = some [0x5A, 0x66] := by decide +kernel
/-- Vector M2, upwards over itself, where the overlap is done in order (R281; log 15). -/
theorem test_srcCopyBlt_up :
    let j : Job := { linearJob ⟨.c8, 0xCC, 0xFFC0⟩ 3 0x200080 with src := .color ⟨none, 0x200040, -64⟩ 0 0 }
    (j.paint (fun _ _ => false) ((ring.holding 0x200000 [1, 2]).holding 0x200040 [5, 6]) (linearPixels .c8 2 2 false)).rc =
      [(0x200040, 1), (0x200041, 2), (0x200080, 5), (0x200081, 6)] := by decide +kernel
/-- R330: 100000h and 200000h are two addresses of one page, so the bytes of one are overlapped by reads of the other. -/
theorem test_xySrcCopyBlt_alias :
    let s : State := { ring with ggtt := [(0x100, .mapped 0x200 true false)] }
    let j : Job := { drawJob (draw 0xCC) 0 with src := copySource (draw 0xCC).rect src 0 }
    overlapOf j conformingXY (copyPixels (draw 0xCC) src s.setup) s 0x100000 0x200000 = true ∧
      overlapOf j conformingXY (copyPixels (draw 0xCC) src s.setup) s 0x100000 0x100000 = false := by decide +kernel
/-- Vector M8: X direction 1 names the last byte. -/
theorem test_srcCopyBlt_back : seen (after [0x50C00004, 0x40CC0040, 0x00010004, 0x00300003, 0x00000040, 0x00200003]
    (ring.holding 0x200000 [1, 2, 3, 4])) 0x300000 4 = some [1, 2, 3, 4] := by decide +kernel
/-- R38, R281: BR13 bit 30 is the X direction. -/
theorem test_srcCopyBlt_direction : (after [0x50C00004, 0x40CC0040, 0x00010004, 0x00300003, 0x00000040, 0x00200003]
    ring).map (fun t => t.br.br13) = some 0x40CC0040 := by decide +kernel
/-- Vector C7: with mask 00b there is no access, so an invalid page does not matter. -/
theorem test_colorBlt_masked : (after [0x50000003, 0x03F00040, 0x00010004, 0x00100000, 0x5A]
    { ring with ggtt := [(0x100, .invalid)] }).map (fun t => (t.rc, t.regs.gabErr)) = some ([], 0) := by decide +kernel
/-- R290, R293: the setup example, then one pixel at 00402014h. -/
theorem test_xySetupBlt_xyPixelBlt :
    seen (((after [0x40700006, 0x43F01000, 0, 0x01E00280, 0x00400000, 0x00FF00FF, 0xFFFFFFFF, 0x00010000] ring).bind
      (after [0x49000000, 0x00020005]))) 0x402014 4 = some [0xFF, 0, 0xFF, 0] := by decide +kernel
/-- R291, R294: the screen door of two lines. -/
theorem test_xySetupMonoPattern_xyScanlines :
    let o := (after [0x44400007, 0x00F00400, 0, 0, 0, 0, 0xFF, 0xAA55AA55, 0xAA55AA55] ring).bind
      (after [0x49400001, 0, 0x00020008])
    seen o 0 8 = some [0, 0xFF, 0, 0xFF, 0, 0xFF, 0, 0xFF] ∧
    seen o 0x400 8 = some [0xFF, 0, 0xFF, 0, 0xFF, 0, 0xFF, 0] := by decide +kernel
/-- Vector T5: a colour pattern with seeds 3 and 5. -/
theorem test_xyScanlines_color :
    seen (((after [0x40400006, 0x00F00040, 0, 0, 0x00100000, 0, 0, 0x00010000] (ring.holding 0x10000 (counting 64))).bind
      (after [0x49403501, 0x00010002, 0x00030006]))) 0x100042 4 = some [0x35, 0x36, 0x37, 0x30] := by decide +kernel
/-- Vector G4: the clip rectangle (10,20)-(110,220) cuts the fill (8,18)-(12,22). -/
theorem test_xySetupClipBlt :
    ((after [0x40C00001, 0x0014000A, 0x00DC006E] ring).bind
      (after [0x54000004, 0x40F00400, 0x00120008, 0x0016000C, 0, 0xEE])).map (fun t => t.rc.map (·.1)) =
    some [0x500A, 0x500B, 0x540A, 0x540B] := by decide +kernel
/-- Vector TX1: bit packed, 5 by 2. -/
theorem test_xyTextBlt :
    let o := (after [0x40400006, 0x00CC0040, 0, 0, 0x00100000, 0x11, 0xFF, 0] (ring.holding 0x50000 [0xAB, 0x80])).bind
      (after [0x49800002, 0, 0x00020005, 0x00050000])
    seen o 0x100000 5 = some [0xFF, 0x11, 0xFF, 0x11, 0xFF] ∧
    seen o 0x100040 5 = some [0x11, 0xFF, 0xFF, 0xFF, 0x11] := by decide +kernel
/-- Vector TX3: byte packed, immediate. -/
theorem test_xyTextImmediateBlt :
    let o := (after [0x40400006, 0x00CC0040, 0, 0, 0x00100000, 0x11, 0xFF, 0] ring).bind
      (after [0x4C410003, 0, 0x00020005, 0x000070A8, 0])
    seen o 0x100000 5 = some [0xFF, 0x11, 0xFF, 0x11, 0xFF] ∧
    seen o 0x100040 5 = some [0x11, 0xFF, 0xFF, 0xFF, 0x11] := by decide +kernel
/-- Vector B3: only the alpha byte. -/
theorem test_xyColorBlt : (after [0x54200004, 0x03F00040, 0, 0x00010001, 0x00100000, 0x11223344] ring).map State.rc =
    some [(0x100003, 0x11)] := by decide +kernel
/-- R311, first line. -/
theorem test_xyPatBlt : seen (after [0x54401004, 0x00F00040, 0, 0x00020010, 0x00100000, 0x00010000]
    (ring.holding 0x10000 (counting 64))) 0x100040 10 = some [9, 10, 11, 12, 13, 14, 15, 8, 9, 10] := by decide +kernel
/-- Vector P6: destination key 10h to 1Fh. -/
theorem test_xyPatChromaBlt :
    (after [0x5D8E0006, 0x00F00040, 0, 0x00010008, 0x00100000, 0x00010000, 0x10, 0x1F]
      ((ring.holding 0x10000 (counting 64)).holding 0x100000 [0x0F, 0x10, 0x1F, 0x20, 0x15, 0, 0xFF, 0x18])).map State.rc =
    some [(0x100001, 1), (0x100002, 2), (0x100004, 4), (0x100007, 7)] := by decide +kernel
/-- R313: the pattern in the command, 16 DWords. -/
theorem test_xyPatBltImmediate :
    seen (after [0x5C800013, 0x00F00040, 0, 0x00020004, 0x00100000, 0x03020100, 0x07060504, 0x0B0A0908, 0x0F0E0D0C, 0, 0,
      0, 0, 0, 0, 0, 0, 0, 0, 0, 0] ring) 0x100040 4 = some [8, 9, 10, 11] := by decide +kernel
/-- R314: mode 111b, key 10h to 1Fh. -/
theorem test_xyPatChromaBltImmediate :
    (after [0x5DCE0015, 0x00F00040, 0, 0x00010004, 0x00100000, 0x10, 0x1F, 0x03020100, 0x07060504, 0, 0, 0, 0,
      0, 0, 0, 0, 0, 0, 0, 0, 0, 0] (ring.holding 0x100000 [0x0F, 0x10, 0x1F, 0x20])).map State.rc =
    some [(0x100001, 1), (0x100002, 2)] := by decide +kernel
/-- R315: transparency writes the FFh bytes alone. -/
theorem test_xyMonoPatBlt : (after [0x54800007, 0x10F00040, 0, 0x00010008, 0x00100000, 0, 0xFF, 0xAA55AA55, 0xAA55AA55]
    ring).map State.rc = some [(0x100001, 0xFF), (0x100003, 0xFF), (0x100005, 0xFF), (0x100007, 0xFF)] := by
  decide +kernel
/-- R316: vertical line, seed 4. -/
theorem test_xyMonoPatFixedBlt : seen (after [0x5640C005, 0x00F00040, 0, 0x00010008, 0x00100000, 0, 0xFF] ring) 0x100000 8 =
    some [0xFF, 0, 0, 0, 0, 0, 0, 0] := by decide +kernel
/-- R330: shifted right by 2 inside one surface. -/
theorem test_xySrcCopyBlt :
    seen (after [0x54C00006, 0x00CC0040, 0x00000002, 0x0001000A, 0x00200000, 0, 0x00000040, 0x00200000]
      (ring.holding 0x200000 (counting 10))) 0x200000 10 = some [0, 1, 0, 1, 2, 3, 4, 5, 6, 7] := by decide +kernel
/-- Vector S6: a negative source coordinate moves the corner. -/
theorem test_xySrcCopyBlt_negative :
    (after [0x54C00006, 0x00CC0040, 0, 0x00010004, 0x00300000, 0x0000FFFE, 0x00000040, 0x00200000]
      (ring.holding 0x200000 (counting 10))).map State.rc = some [(0x300002, 0), (0x300003, 1)] := by decide +kernel
/-- Vector K1: everything but the key. -/
theorem test_xySrcCopyChromaBlt :
    (after [0x5CC20008, 0x00CC0040, 0, 0x00010004, 0x00300000, 0, 0x40, 0x00200000, 0x20, 0x20]
      (ring.holding 0x200000 [0x10, 0x20, 0x30, 0x20])).map State.rc = some [(0x300000, 0x10), (0x300002, 0x30)] := by
  decide +kernel
/-- Vector N1: source start bit 3, second line in the next word. -/
theorem test_xyMonoSrcCopyBlt :
    let o := after [0x55060006, 0x00CC0040, 0, 0x00020006, 0x00100000, 0x00050000, 0x11, 0xFF]
      (ring.holding 0x50000 [0x1A, 0x80, 0x15, 0])
    seen o 0x100000 6 = some [0xFF, 0xFF, 0x11, 0xFF, 0x11, 0xFF] ∧
    seen o 0x100040 6 = some [0xFF, 0x11, 0xFF, 0x11, 0xFF, 0x11] := by decide +kernel
/-- R333. -/
theorem test_xyMonoSrcCopyImmediateBlt :
    let o := after [0x5C400007, 0x00CC0040, 0, 0x00020004, 0x00100000, 0x11, 0xFF, 0x005000A0, 0] ring
    seen o 0x100000 4 = some [0xFF, 0x11, 0xFF, 0x11] ∧ seen o 0x100040 4 = some [0x11, 0xFF, 0x11, 0xFF] := by
  decide +kernel
/-- R350: P ? S : D. -/
theorem test_xyFullBlt :
    seen (after [0x55400007, 0x00CA0040, 0, 0x00010004, 0x00100000, 0x00000040, 0, 0x00300000, 0x00010000]
      (((ring.holding 0x10000 [0xFF, 0, 0xFF, 0]).holding 0x300000 [0x10, 0x11, 0x12, 0x13]).holding 0x100000
        [0xAA, 0xAA, 0xAA, 0xAA])) 0x100000 4 = some [0x10, 0xAA, 0x12, 0xAA] := by decide +kernel
/-- R351, the same with the pattern in the command. -/
theorem test_xyFullImmediatePatternBlt :
    seen (after [0x5D000016, 0x00CA0040, 0, 0x00010004, 0x00100000, 0x00000040, 0, 0x00300000, 0x00FF00FF, 0, 0, 0, 0, 0, 0,
      0, 0, 0, 0, 0, 0, 0, 0, 0]
      ((ring.holding 0x300000 [0x10, 0x11, 0x12, 0x13]).holding 0x100000 [0xAA, 0xAA, 0xAA, 0xAA])) 0x100000 4 =
    some [0x10, 0xAA, 0x12, 0xAA] := by decide +kernel
/-- R352: S ? P : D. -/
theorem test_xyFullMonoSrcBlt :
    seen (after [0x55800007, 0x00E20040, 0, 0x00010004, 0x00100000, 0x00050000, 0, 0xFF, 0x00010000]
      (((ring.holding 0x10000 (counting 64)).holding 0x50000 [0xA0]).holding 0x100000 [0xAA, 0xAA, 0xAA, 0xAA]))
      0x100000 4 = some [0, 0xAA, 2, 0xAA] := by decide +kernel
/-- R353, the same with the pattern in the command. -/
theorem test_xyFullMonoSrcImmediatePatternBlt :
    seen (after [0x5D400016, 0x00E20040, 0, 0x00010004, 0x00100000, 0x00050000, 0, 0xFF, 0x03020100, 0, 0, 0, 0, 0, 0,
      0, 0, 0, 0, 0, 0, 0, 0, 0] ((ring.holding 0x50000 [0xA0]).holding 0x100000 [0xAA, 0xAA, 0xAA, 0xAA])) 0x100000 4 =
    some [0, 0xAA, 2, 0xAA] := by decide +kernel
/-- R354: pattern transparency skips two pixels. -/
theorem test_xyFullMonoPatternBlt :
    (after [0x55C0000A, 0x10CA0040, 0, 0x00010004, 0x00100000, 0x40, 0, 0x00300000, 0, 0xFF, 0xAAAAAAAA, 0xAAAAAAAA]
      (ring.holding 0x300000 [0x10, 0x11, 0x12, 0x13])).map State.rc = some [(0x100000, 0x10), (0x100002, 0x12)] := by
  decide +kernel
/-- R354: a solid pattern with background FFh selects the source everywhere. -/
theorem test_xyFullMonoPatternBlt_solid :
    seen (after [0x55C0000A, 0x80CA0040, 0, 0x00010004, 0x00100000, 0x40, 0, 0x00300000, 0xFF, 0xFF, 0xAAAAAAAA, 0xAAAAAAAA]
      (ring.holding 0x300000 [0x10, 0x11, 0x12, 0x13])) 0x100000 4 = some [0x10, 0x11, 0x12, 0x13] := by decide +kernel
/-- R355: opaque, and with both transparencies. -/
theorem test_xyFullMonoPatternMonoSrcBlt :
    seen (after [0x5600000A, 0x00C00040, 0, 0x00010004, 0x00100000, 0x00050000, 0, 0x3C, 0x0F, 0xF0, 0xCCCCCCCC, 0xCCCCCCCC]
      (ring.holding 0x50000 [0xA0])) 0x100000 4 = some [0x30, 0, 0x0C, 0] ∧
    (after [0x5600000A, 0x30C00040, 0, 0x00010004, 0x00100000, 0x00050000, 0, 0x3C, 0x0F, 0xF0, 0xCCCCCCCC, 0xCCCCCCCC]
      (ring.holding 0x50000 [0xA0])).map State.rc = some [(0x100000, 0x30)] := by decide +kernel

/-- A whole step: the parser fetches COLOR_BLT at the head, moves past its five DWords and the engine fills one byte. -/
theorem test_step_colorBlt :
    (match step (State.holding ring 0x20000 ([0x50000003, 0x00F00040, 0x00010001, 0x00100000, 0x5A].flatMap wordBytes)) with
      | .next t => some (t.regs.head, t.rc)
      | _ => none) = some (0x14, [(0x100000, 0x5A)]) := by decide +kernel

/-- R376: NOPID takes 1234h, the head moves on. -/
theorem test_miNoop : (after [0x00401234] ring).map (fun t => (t.regs.nopid, t.regs.head)) = some (0x1234, 4) := by
  decide +kernel
/-- R421: unmasked in BCS_IMR, the interrupt reaches the IIR. -/
theorem test_miUserInterrupt :
    (after [0x01000000] { ring with regs := { ring.regs with imr := 0xFFBFFFFF } }).map (fun t => (t.regs.isr, t.regs.iir)) =
    some (0x00400000, 0x00400000) := by decide +kernel
/-- R385: the wait on plane A's pending flip is recorded; without a flip it is a no-operation. -/
theorem test_miWaitForEvent :
    (after [0x01800002] { ring with regs := { ring.regs with syncFlip := 0x20000000 } }).map (fun t =>
      (t.regs.head, t.regs.ctl)) = some (0, 0x801) ∧
    (after [0x01800002] ring).map (fun t => t.regs.head) = some 4 := by decide +kernel
/-- R371: the head goes to the pending head pointer 100h, keeping its wrap count. -/
theorem test_miArbCheck :
    (after [0x02800000] { ring with regs := { ring.regs with uhptr := 0x101, head := 0x00400000 } }).map (fun t =>
      (t.regs.head, t.regs.uhptr)) = some (0x00400100, 0x100) := by decide +kernel
/-- R370, R377: a jump from page 0 to page 1 of an 8 KB ring with reports every 4 KB is reported. -/
theorem test_miArbCheck_report :
    posted (after [0x02800000] { ring with regs := { ring.regs with uhptr := 0x1009, ctl := 0x1005 } }) 0x10010 4 =
    some [8, 0x10, 0, 0] := by decide +kernel
/-- R377: the head, past the command, goes to DWord 4 of the status page. -/
theorem test_miReportHead : posted (after [0x03800000] ring) 0x10010 4 = some [4, 0, 0, 0] := by decide +kernel
/-- R372. -/
theorem test_miBatchBufferEnd :
    (after [0x05000000] { ring with parser := ⟨.running, true, 0x800008, .ppgtt⟩ }).map (fun t =>
      (t.parser.inBatch, t.regs.head)) = some (false, 0) := by decide +kernel
/-- R382. -/
theorem test_miSuspendFlush : (after [0x05800001] ring).map (fun t => t.regs.miMode) = some 0x8000 := by decide +kernel
/-- R387: plane B, synchronous. -/
theorem test_miDisplayFlip : (after [0x0A080001, 0x00002001, 0x01000000] ring).map (fun t =>
    (t.flips, t.regs.syncFlip)) = some ([⟨1, false, true, 0x80, 0x1000⟩], 0x02000000) := by decide +kernel
/-- R378: BRSYNC > 5 passes, BRSYNC = 5 waits. -/
theorem test_miSemaphoreMbox :
    (after [0x0B140001, 0x00000005, 0x00022040] { ring with regs := { ring.regs with brsync := 6 } }).map (fun t =>
      (t.regs.head, t.regs.ctl)) = some (12, 1) ∧
    (after [0x0B140001, 0x00000005, 0x00022040] { ring with regs := { ring.regs with brsync := 5 } }).map (fun t =>
      (t.regs.head, t.regs.ctl)) = some (0, 0x401) := by decide +kernel
/-- R380. -/
theorem test_miStoreDataImm : posted (after [0x10400002, 0, 0x00003000, 0xDEADBEEF] ring) 0x3000 4 =
    some [0xEF, 0xBE, 0xAD, 0xDE] := by decide +kernel
/-- R381. -/
theorem test_miStoreDataIndex : posted (after [0x10800001, 0x00000080, 0x00000042] ring) 0x10080 4 =
    some [0x42, 0, 0, 0] := by decide +kernel
/-- R375. -/
theorem test_miLoadRegisterImm : (after [0x11000001, 0x00022028, 0x00010001] ring).map (fun t => t.regs.excc) = some 1 := by
  decide +kernel
/-- R383. -/
theorem test_miUpdateGtt : (after [0x11C00002, 0x00400000, 0x11, 0x22] ring).map (fun t => t.ggtt) =
    some [(0x400, .raw 0x11), (0x401, .raw 0x22)] := by decide +kernel
/-- R379: BCS_RING_BUFFER_HEAD. -/
theorem test_miStoreRegisterMem :
    posted (after [0x12400001, 0x00022034, 0x00002000] { ring with regs := { ring.regs with head := 0x00600010 } }) 0x2000 4 =
    some [0x10, 0, 0x60, 0] := by decide +kernel
/-- R374: the render cache is in memory, then the QWord, and the interrupt bit is set. -/
theorem test_miFlushDw :
    let o := after [0x13004102, 0x00001004, 1, 0] { ring with rc := [(0x100000, 0x5A)], tc := [(5, 5)] }
    posted o 0x100000 1 = some [0x5A] ∧ posted o 0x1000 8 = some [1, 0, 0, 0, 0, 0, 0, 0] ∧
    o.map (fun t => (t.rc, t.tc, t.regs.isr)) = some ([], [], 0x04000000) := by decide +kernel
/-- R374, log 63: the timestamp at an address with bit 5 set. -/
theorem test_miFlushDw_timestamp :
    posted (after [0x1300C001, 0x00001024, 0] { ring with regs := { ring.regs with timestamp := 0xA12345678 } }) 0x1020 8 =
    some [0x78, 0x56, 0x34, 0x12, 0x0A, 0, 0, 0] := by decide +kernel
/-- R386: BCS_EXCC from memory. -/
theorem test_miLoadRegisterMem :
    (after [0x14C00001, 0x00022028, 0x00004000] (ring.holding 0x4000 [3, 0, 2, 0])).map (fun t => t.regs.excc) = some 2 := by
  decide +kernel
/-- R373: a non-secure batch at 00800000h; the head is left behind the command. -/
theorem test_miBatchBufferStart :
    (after [0x18800100, 0x00800000] { ring with regs := { ring.regs with bltMode := 0x200 } }).map (fun t =>
      (t.parser, t.regs.head)) = some (⟨.running, true, 0x800000, .ppgtt⟩, 8) := by decide +kernel

/-- R167, 93 M21: a command DWord is read before the parser gets to it, and that DWord is the one that runs although memory
holds another one by then. -/
theorem test_readAhead_reads :
    (match step { ring.holding 0x20004 [0, 0, 0, 1] with schedule := [.readAhead true 1] } with
      | .next t => some t.readAhead
      | _ => none) = some [⟨true, .ggtt, 0x20004, 0x01000000⟩] := by decide +kernel
theorem test_readAhead_runs :
    (match step { ring with readAhead := [⟨true, .ggtt, 0x20000, 0x01000000⟩] } with
      | .next t => some (t.regs.isr, t.regs.headOff, t.readAhead)
      | _ => none) = some (0x00400000, 4, []) := by decide +kernel

/-! ## The parser -/

/-- One step of a state, if it answers a next state. -/
def stepped (s : State) : Option State :=
  match step s with
  | .next t => some t
  | _ => none

/-- R167: a DWord read ahead is kept while it lies before the tail, and gone after a step that disables the ring or moves the
head to the tail; one of a batch buffer is gone when the next buffer starts. -/
theorem test_readAhead_window :
    let s (r : Regs) : State := { ring with regs := r, readAhead := [⟨true, .ggtt, 0x20004, 0x01000000⟩], schedule := [.tick 1] }
    let left (t : State) := (stepped t).map fun t => t.readAhead.length
    left (s ring.regs) = some 1 ∧ left (s { ring.regs with ctl := 0 }) = some 0 ∧
      left (s { ring.regs with head := 0x400 }) = some 0 ∧
      (after [0x18800000, 0x00900000] { batch with readAhead := [⟨false, .ppgtt, 0x900000, 0⟩] }).map (fun t =>
        t.readAhead) = some [] := by decide +kernel

/-- R162: what a pattern read returned may stay in the texture cache, even when memory has changed since; what none has read
does not come there, nor does another byte take the place of one held. -/
theorem test_texFill :
    let fill (t : State) := (stepped { t with schedule := [.texFill 0x10000] }).map fun t => t.tc
    let drawn := after [0x54400004, 0x00F00040, 0, 0x00010001, 0x00100000, 0x00010000] (ring.holding 0x10000 [7])
    (drawn.bind fun t => fill { t with mem := [(0x10000, 9)] }) = some [(0x10000, 7)] ∧ fill (ring.holding 0x10000 [7]) = some [] ∧
      fill { ring with tcRead := [(0x10000, 9)], tc := [(0x10000, 5)] } = some [(0x10000, 5)] := by decide +kernel

/-- R162: a pattern byte that is dirty in the render cache reaches memory in the middle of the command that reads it, so its
first pixel takes the old byte and the pixel eight further the new one; of a byte written twice the older write goes first. -/
theorem test_midway_evict :
    let s : State := { ring.holding 0x10000 [7] with rc := [(0x10000, 9)] }
    let row (t : State) :=
      seen (after [0x54400004, 0x00F00040, 0, 0x00010009, 0x00100000, 0x00010000] t) 0x100000 9
    let evict (t : State) := stepped { t with schedule := [.evict 0x100000] }
    let fill (v : Word) (t : State) := after [0x54000004, 0x00F00040, 0, 0x00010001, 0x00100000, v] t
    row { s with midEvents := [⟨.pattern 8 0, false, .evict 0x10000⟩] } = some [7, 0, 0, 0, 0, 0, 0, 0, 9] ∧
      row s = some [7, 0, 0, 0, 0, 0, 0, 0, 7] ∧
      (((fill 1 ring).bind (fill 2)).bind evict).map (fun t => (t.mem, t.rc, t.rcPast)) =
        some ([(0x100000, 1)], [(0x100000, 2)], []) := by decide +kernel

/-- R155: a TLB and the PD TLB take what a translation has returned, also when the table has changed since, and nothing else: a
page that no access went to, or whose access faulted, leaves nothing to take. -/
theorem test_tlbFill :
    let fill (t : State) := (stepped { t with schedule := [.tlbFill 0] }).map fun t => t.tlb
    let pd (i : Nat) (t : State) := (stepped { t with schedule := [.pdFill i] }).map fun t => t.pdTlb
    let bad : State := { ring with ggtt := [(0x20, .invalid)] }
    fill ring = some [] ∧ (stepped bad).bind fill = some [] ∧
      ((stepped ring).bind fun t => fill { t with ggtt := [(0x20, .invalid)] }) =
        some [⟨.bcs, .ggtt, 0x20, .mapped 0x20 false true⟩] ∧
      (stepped batch).bind (pd 2) = some [2] ∧ (stepped batch).bind (pd 3) = some [] := by decide +kernel

/-- R181, D17, R435: an immediate command whose DWord Length is 0 has a wrong amount of data; both agents hang. -/
theorem test_step_underfed : (stepped (ring.holding 0x20000 (wordBytes 0x5C800000))).map (fun t =>
    (t.engine.run, t.parser.run, t.regs.headOff)) = some (.hung, .hung, 8) := by decide +kernel
/-- R27: a parser that is slow waits for the read of MI_STORE_REGISTER_MEM, and then does it. -/
theorem test_step_waitRead :
    let s := ring.holding 0x20000 ([0x12400001, 0x00022034, 0x00002000].flatMap wordBytes)
    (stepped { s with schedule := [.parserDefer] }).map (fun t => (t.parser.run, t.regs.head)) =
      some (.waitRead (.miStoreRegisterMem 1 true 0x880D 0x800), 0) ∧
    ((stepped { s with schedule := [.parserDefer] }).bind stepped).map (fun t => (t.parser.run, t.regs.head)) =
      some (.running, 12) := by decide +kernel
/-- R435: Stop Ring ends a wait; `pc` stays on the command. -/
theorem test_step_stopRing :
    (stepped { ring with
      regs := { ring.regs with syncFlip := 0x20000000, miMode := 0x100 }
      parser := { ring.parser with run := .waitEvent (.miWaitForEvent false 0 false false false false true) } }).map (fun t =>
      (t.parser.run, t.regs.head, t.regs.syncFlip, t.regs.ctl)) = some (.stopped, 0, 0x20000000, 1) := by decide +kernel
/-- R87, M9: an enabled 4 KB ring has no tail at 1000h, nor is a disabled one with such a tail enabled. -/
theorem test_hostWrite_tailOutside :
    (stepped { ring with schedule := [.hostWrite 0x22030 0x1000] }) = none ∧
    (stepped { ring with regs := { ring.regs with ctl := 0, tail := 0x1000 }, schedule := [.hostWrite 0x2203C 1] }) = none ∧
    (stepped { ring with regs := { ring.regs with ctl := 0 }, schedule := [.hostWrite 0x22030 0x1000] }).map (fun t =>
      t.regs.tail) = some 0x1000 := by decide +kernel
/-- R386, M18: the second asynchronous load may land first. -/
theorem test_step_asyncLoad :
    (stepped { ring.holding 0x4000 [3, 0, 2, 0] with
      asyncLoads := [⟨.ggtt, 0x5000, 0x22040, true⟩, ⟨.ggtt, 0x4000, 0x22044, true⟩], schedule := [.asyncLoad 1] }).map (fun t =>
      (t.regs.bvsync, t.asyncLoads.length)) = some (0x20003, 1) := by decide +kernel
/-- R432, R441: a protected MI_LOAD_REGISTER_MEM reads nothing, so an invalid page does not matter. -/
theorem test_miLoadRegisterMem_protected :
    (after [0x14800001, 0x00022028, 0x00004000] { batch with ppgtt := [(4, .invalid)] }).map (fun t =>
      (t.parser.batchAddr, t.regs.gabErr)) = some (0x80000C, 0) := by decide +kernel
/-- R370: the engine has the command before the automatic head report faults. -/
theorem test_step_handOver_report :
    (stepped { ring.holding 0x20FF4 ([0x40C00001, 0x0014000A, 0x00DC006E].flatMap wordBytes) with
      ggtt := [(0x10, .invalid)]
      regs := { ring.regs with head := 0xFF4, ctl := 5, gabCtl := 0xBF } }).map (fun t =>
      (t.engine.run, t.parser.run, t.regs.headOff)) =
    some (.pending (.xySetupClipBlt 1 false ⟨10, 20, 110, 220⟩), .hung, 0) := by decide +kernel

/-! ## Witnesses: a state and operands that meet the hypotheses of each statement -/

/-- A state with a setup set: 8 bpp, raster operation, linear at 100000h with pitch 40h. -/
def setUp (rop : BitVec 8) : State := { ring with
  setup := { ring.setup with br01 := penWord ⟨.c8, rop, 0x40⟩, br09 := 0x100000, br05 := 0x11, br06 := 0xFF } }

/-- The outcome is a next state with this property. -/
def nextIs (o : Host.Outcome State Fault Refusal) (p : State → Bool) : Bool :=
  match o with
  | .next t => p t
  | _ => false

/-- The pixels of the small rectangle. -/
def small (rop : BitVec 8) : List (Int × Int) := drawnPixels (rectBox (draw rop).rect) none false false

theorem witness_ColorBltDraws :
    let j : Job := { linearJob ⟨.c8, 0xF0, 0x40⟩ 3 0x100000 with pat := .solid 0x5A }
    (2 : BitVec 16).toNat % bpp .c8 = 0 ∧ (0x100000 : Word).toNat % bpp .c8 = 0 ∧ (0x40 : BitVec 16).toInt % 4 = 0 ∧
      j.linearLegal 1 2 ∧ j.ready ring (linearPixels .c8 1 2 false) ∧ j.linearLegal 0x1FFF 0 ∧
      j.ready ring (linearPixels .c8 0x1FFF 0 false) := by decide +kernel

theorem witness_SrcCopyBltDraws :
    let f : Job := { linearJob ⟨.c8, 0xCC, 0x40⟩ 3 0x100000 with src := .color ⟨none, 0x200000, 0x40⟩ 0 0 }
    let b : Job := { linearJob ⟨.c8, 0xCC, 0x40⟩ 3 (0x100001 - (2 - 1)) with
      src := .color ⟨none, 0x200001 - (2 - 1), 0x40⟩ 0 0 }
    (0x40 : BitVec 16).toInt % 4 = 0 ∧ (0x200001 - (2 - 1)) % bpp .c8 = 0 ∧
      f.linearLegal 1 2 ∧ f.ready ring (linearPixels .c8 1 2 false) ∧ b.linearLegal 1 2 ∧
      b.ready ring (linearPixels .c8 1 2 true) := by decide +kernel

theorem witness_XyPixelBltDraws :
    let s := setUp 0xF0
    let j : Job := { setupJob s.setup s.regs.swctrl false with pat := .solid s.setup.br05 }
    0 ≤ (setupPen s.setup).pitch.toInt ∧ j.legal 1 ∧
      j.ready s (drawnPixels ⟨5, 2, 5 + 1, 2 + 1⟩ (clipOf s.setup (bit s.setup.br01 30)) false false) := by decide +kernel

theorem witness_XyScanlinesBltDraws :
    let m : State := { setUp 0xF0 with setup := { (setUp 0xF0).setup with monoPattern := true, br20 := 0xAA } }
    let c : State := { setUp 0xF0 with setup := { (setUp 0xF0).setup with br07 := 0x10000 } }
    let j (s : State) : Job := { setupJob s.setup s.regs.swctrl false with
      pat := scanlinePattern s.setup, hseed := 7, vseed := 0 }
    m.setup.monoPattern ∧ (j m).legal 1 ∧ (j m).ready m (small 0xF0) ∧
    c.setup.monoPattern = false ∧ patAddr c.setup.br07 % (64 * bpp (setupPen c.setup).depth) = 0 ∧ (j c).legal 1 ∧
      (j c).ready c (small 0xF0) := by decide +kernel

theorem witness_XyTextDraws :
    let s := setUp 0xCC
    let j (src : Source) : Job := { setupJob s.setup s.regs.swctrl false with src := src }
    let m : Job := j (.mono .bitPacked 2 0x50000 0 0 s.setup.br06 s.setup.br05 true)
    let i : Job := j (.monoImm .bytePacked 2 [0, 0] 0 0 s.setup.br06 s.setup.br05 true)
    m.legal 1 ∧ m.ready s (small 0xCC) ∧ i.legal 1 ∧ i.ready s (small 0xCC) := by decide +kernel

theorem witness_XyColorBltDraws :
    let j : Job := { drawJob (draw 0xF0) 0 with pat := .solid 0x5A }
    j.legal (rectHeight (draw 0xF0).rect) ∧ j.ready ring (small 0xF0) := by decide +kernel

theorem witness_XyPatternMemoryDraws :
    let j : Job := { drawJob (draw 0xF0) 0 with pat := .memory (patAddr 0x10000), hseed := 1, vseed := 7 }
    let k : Job := { j with mode := 7, lo := 0, hi := 0xFF }
    patAddr 0x10000 % (64 * bpp .c8) = 0 ∧ j.legal 1 ∧ j.ready ring (small 0xF0) ∧ chromaPatModeOk 7 ∧ k.legal 1 ∧
      k.ready ring (small 0xF0) := by decide +kernel

theorem witness_XyPatternImmediateDraws :
    let j : Job := { drawJob (draw 0xF0) 0 with pat := .immediate (List.replicate 16 5), hseed := 1, vseed := 7 }
    let k : Job := { j with mode := 5, lo := 0, hi := 0xFF }
    j.legal 1 ∧ j.ready ring (small 0xF0) ∧ chromaPatModeOk 5 ∧ k.legal 1 ∧ k.ready ring (small 0xF0) := by decide +kernel

theorem witness_XyMonoPatternDraws :
    let j : Job := { drawJob (draw 0xF0) 0 with pat := .mono 1 2 3 4 true, hseed := 1, vseed := 7 }
    let k : Job := { j with pat := .mono (fixedPattern 11).1 (fixedPattern 11).2 3 4 false }
    j.legal 1 ∧ j.ready ring (small 0xF0) ∧ fixedPatternOk 11 ∧ k.legal 1 ∧ k.ready ring (small 0xF0) := by decide +kernel

theorem witness_XySourceCopyDraws :
    let j : Job := { drawJob (draw 0xCC) 0 with src := copySource (draw 0xCC).rect src 0 }
    let k : Job := { j with mode := 1, lo := 0, hi := 5 }
    let px := copyPixels (draw 0xCC) src ring.setup
    j.legal (copyHeight (draw 0xCC).rect src) ∧ j.ready ring px ∧ k.legal (copyHeight (draw 0xCC).rect src) ∧
      k.ready ring px := by decide +kernel

theorem witness_XyMonoSourceDraws :
    let j : Job := { drawJob (draw 0xCC) 0 with src := wordSource (draw 0xCC).rect 7 0x50000 3 4 true }
    let k : Job := { j with src := .monoImm (.wordAligned 7) (rectWidth (draw 0xCC).rect) [0, 0] 0 0 3 4 false }
    j.legal 1 ∧ j.ready ring (small 0xCC) ∧ k.legal 1 ∧ k.ready ring (small 0xCC) := by decide +kernel

theorem witness_XyFullColorDraws :
    let j : Job := { drawJob (draw 0xCA) 0 with
      pat := .memory (patAddr 0x10000), hseed := 1, vseed := 2, src := copySource (draw 0xCA).rect src 0 }
    let k : Job := { j with pat := .immediate (List.replicate 16 5), vseed := 0 }
    let px := copyPixels (draw 0xCA) src ring.setup
    let h := copyHeight (draw 0xCA).rect src
    patAddr 0x10000 % (64 * bpp .c8) = 0 ∧ j.legal h ∧ j.ready ring px ∧ k.legal h ∧ k.ready ring px := by decide +kernel

theorem witness_XyFullMonoSourceDraws :
    let j : Job := { drawJob (draw 0xCA) 0 with
      pat := .memory (patAddr 0x10000), hseed := 1, vseed := 2, src := wordSource (draw 0xCA).rect 7 0x50000 3 4 true }
    let k : Job := { j with pat := .immediate (List.replicate 16 5), vseed := 0 }
    patAddr 0x10000 % (64 * bpp .c8) = 0 ∧ j.legal 1 ∧ j.ready ring (small 0xCA) ∧ k.legal 1 ∧
      k.ready ring (small 0xCA) := by decide +kernel

theorem witness_XyFullMonoPatternDraws :
    let j : Job := { drawJob (draw 0xCA) 0 with
      pat := .mono 0 0 3 4 false, hseed := 1, vseed := 2, src := copySource (draw 0xCA).rect src 0 }
    let k : Job := { j with pat := .mono 1 2 3 4 true, src := wordSource (draw 0xCA).rect 7 0x50000 3 4 true }
    j.legal (copyHeight (draw 0xCA).rect src) ∧ j.ready ring (copyPixels (draw 0xCA) src ring.setup) ∧
      0 ≤ (draw 0xCA).pen.pitch.toInt ∧ k.legal 1 ∧ k.ready ring (small 0xCA) := by decide +kernel

/-- `pc` can move in the ring (up to the wrap) and in a batch buffer (up to its last DWord). -/
theorem witness_canAdvance : ring.canAdvance 1 ∧ ring.canAdvance 5 ∧ batch.canAdvance 5 ∧ ring.canAdvance 72 ∧
    State.canAdvance { ring with regs := { ring.regs with head := 0xFFC } } 1 ∧
    State.canAdvance { batch with parser := { batch.parser with batchAddr := 0xFFFFFFF8 } } 1 := by decide +kernel

theorem witness_MiNoopCompletes : ring.canAdvance 1 := by decide +kernel

theorem witness_MiBatchBufferEndCompletes :
    batch.parser.inBatch ∧ ring.parser.inBatch = false ∧ ring.canAdvance 1 := by decide +kernel

theorem witness_MiSuspendFlushCompletes : batch.canAdvance 1 := by decide +kernel

theorem witness_RopSelectsCodeBit : 31 < 32 := by decide

/-- The status page translates wherever the ISR's DWord lies in it. -/
theorem witness_MiUserInterruptCompletes :
    let s : State := { ring with regs := { ring.regs with imr := 0xFFBFFFFF, hwstam := 0xFFBFFFFF } }
    ring.canAdvance 1 ∧ s.canAdvance 1 ∧
      needsStatusWrite ring.regs ring.regs.isr (setBit ring.regs.isr 22 true) = false ∧
      needsStatusWrite s.regs s.regs.isr (setBit s.regs.isr 22 true) ∧
      (s.parserPhys .ggtt s.regs.statusAddr true .event).isSome :=
  ⟨by decide +kernel, by decide +kernel, by decide +kernel, by decide +kernel, rfl⟩

theorem witness_MiWaitForEventCompletes :
    let c := Instr.miWaitForEvent false 0 false false false false true
    let e := waitEvent false 0 false false false false true
    let s : State := { ring with regs := { ring.regs with syncFlip := 0x20000000 } }
    c.wf ∧ e.holds ring.regs = false ∧ ring.parser.run ≠ .waitEvent c ∧ ring.canAdvance 1 ∧ e.holds s.regs ∧
      State.canAdvance { ring with parser := { ring.parser with run := .waitEvent c } } 1 ∧
      (Instr.miWaitForEvent false 5 false false false false false).wf := by decide +kernel

theorem witness_MiArbCheckCompletes :
    let s (v : Word) : State := { ring with regs := { ring.regs with uhptr := v } }
    ring.canAdvance 1 ∧
    batch.parser.inBatch ∧ ring.parser.inBatch = false ∧ bit ring.regs.uhptr 0 = false ∧ bit (s 0xFF9).regs.uhptr 0 ∧
      (field (s 0xFF9).regs.uhptr 3 29).toNat * 8 < (s 0xFF9).regs.ringSize ∧
      (s 0x1001).regs.ringSize ≤ (field (s 0x1001).regs.uhptr 3 29).toNat * 8 := by decide +kernel

/-- A jump that stays in its 4 KB, one that leaves it upwards and one downwards. -/
theorem witness_MiArbCheckCompletes_report :
    let s (h v : Word) : State := { ring with regs := { ring.regs with head := h, uhptr := v, ctl := 0x1005 } }
    let goal (v : Word) : Nat := (field v 3 29).toNat * 8
    (s 0 0).regs.reportInterval = 4096 ∧ goal 0xFF9 / 4096 = (s 0 0xFF9).regs.headOff / 4096 ∧
      goal 0x1001 / 4096 ≠ (s 0xFFC 0x1001).regs.headOff / 4096 ∧ goal 0xFF9 / 4096 ≠ (s 0x1000 0xFF9).regs.headOff / 4096 ∧
      goal 0x1001 < (s 0 0).regs.ringSize ∧ (s 0 0x1001).regs.hwsPgaWritten ∧
      ((s 0 0x1001).parserPhys .ggtt ((s 0 0x1001).regs.hwsp + 0x10) true .report).isSome := by decide +kernel

theorem witness_MiReportHeadCompletes :
    let s : State := { ring with regs := { ring.regs with head := 0xFFC, ctl := 5 } }
    ring.parser.inBatch = false ∧ ring.regs.hwsPgaWritten ∧ ring.canAdvance 1 ∧
      (ring.parserPhys .ggtt (ring.regs.hwsp + 0x10) true).isSome ∧ s.parser.inBatch = false ∧ s.regs.hwsPgaWritten ∧
      (s.parserPhys .ggtt (s.regs.hwsp + 0x10) true).isSome ∧ (s.parserPhys .ggtt (s.regs.hwsp + 0x10) true .report).isSome ∧
      crossesReport s.regs.reportInterval s.regs.headOff 1 s.regs.ringSize ∧ batch.parser.inBatch ∧
      State.canAdvance { ring with regs := { ring.regs with hwsPgaWritten := false } } 1 := by decide +kernel

theorem witness_MiBatchBufferStartCompletes :
    let s : State := { ring with regs := { ring.regs with bltMode := 0x200 } }
    let g : State := { batch with parser := { batch.parser with batchSpace := .ggtt } }
    s.ppgttEnabled ∧ s.parser.inBatch = false ∧ s.canAdvance 2 ∧ ring.ppgttEnabled = false ∧ batch.parser.inBatch ∧
      batch.parser.batchSpace = .ppgtt ∧ batch.ppgttEnabled ∧ g.parser.inBatch := by decide +kernel

theorem witness_MiSemaphoreRegisterCompletes :
    let s : State := { ring with regs := { ring.regs with brsync := 0xFFFFFFFF } }
    ring.canAdvance 3 ∧ (5 : Word).toNat < s.regs.brsync.toNat ∧ s.canAdvance 3 ∧
      ring.regs.bvsync.toNat ≤ (0 : Word).toNat ∧ State.quiet { ring with schedule := [.csSemaphore 5] } ∧
      State.quiet { ring with schedule := [.vcsSemaphore 5] } := by decide +kernel

theorem witness_MiSemaphoreMemoryCompletes :
    let s := ring.holding 0x4000 [6, 0, 0, 0]
    (s.parserPhys .ggtt 0x4000 false).isSome ∧ (s.parserPhys .ggtt 0x4000 true).isSome ∧
      (5 : Word).toNat < (s.memWord .ggtt 0x4000).toNat ∧ (s.memWord .ggtt 0x4000).toNat ≤ (6 : Word).toNat ∧
      s.canAdvance 3 ∧ (batch.parserPhys .ppgtt 0x7FFFFFFC true).isSome := by decide +kernel

/-- A register write that completes, and the ring can go on. -/
def writes (s : State) (off : Nat) (w : Word) : Bool :=
  match s.regs.written off w with
  | some r => State.canAdvance { s with regs := r } 3
  | none => false

theorem witness_MiLoadRegisterImmCompletes :
    ring.canAdvance 3 ∧ batch.canAdvance 3 ∧ batch.secure = false ∧ ring.secure ∧
      (put 0 2 (0x221FC / 4 : BitVec 30) : Word).toNat = 0x221FC ∧
      (put 0 2 (0x22300 / 4 : BitVec 30) : Word).toNat = 0x22300 ∧ writes batch 0x22200 0x00010001 ∧
      writes batch 0x2229C 0x02000200 ∧ writes batch 0x22220 1 ∧ writes batch 0x222D0 5 := by decide +kernel

/-- One write to a register of each kind: masked, plain, interrupt mask and error; and those that are forbidden. -/
theorem witness_written :
    writes ring 0x22050 0x00010001 ∧ writes ring 0x04280 0x20000 ∧ writes ring 0x04400 1 ∧ writes ring 0x044FC 1 ∧
      writes ring 0x22030 0x400 ∧ writes { ring with regs := { ring.regs with ctl := 0 } } 0x22034 8 ∧
      writes ring 0x2203C 1 ∧ writes ring 0x22098 0xFFBFFFFF ∧ writes ring 0x24000 0xBF ∧ writes ring 0x220A8 0xFFBFFFFF ∧
      writes ring 0x220B0 0xFFFF ∧ writes ring 0x220B4 0xFFFE := by decide +kernel

theorem witness_refused :
    ring.regs.writeRefused 0x22030 0x408 = none ∧ ring.regs.writeRefused 0x22034 0 = some .headWhileEnabled ∧
      ring.regs.writeRefused 0x22098 0xFDBFFFFF = some .hwstamMask ∧ batch.regs.writeRefused 0x222D0 6 = some .syncFlipSelect ∧
      Regs.writeRefused { ring.regs with head := 0x40 } 0x22030 0x20 = none ∧
      Regs.writeRefused { ring.regs with head := 0x10 } 0x22030 0x3F8 = some .tailBackwards ∧
      ring.regs.writeRefused 0x22030 0xFF8 = none ∧ ring.regs.writeRefused 0x22030 0x1000 = some .tailOutside ∧
      Regs.writeRefused { ring.regs with tail := 0x1000 } 0x2203C 0x801 = some .tailOutside ∧
      Regs.writeRefused { ring.regs with tail := 0x1000 } 0x2203C 0x1001 = none ∧
      Regs.writeRefused { ring.regs with tail := 0x1000 } 0x2203C 0 = none := by decide +kernel

/-- The read-only registers at the ends of their ranges. -/
theorem witness_readOnlyReg :
    readOnlyReg 0x220B8 ∧ readOnlyReg 0x2235C ∧ readOnlyReg 0x24500 ∧ readOnlyReg 0x245FC ∧ readOnlyReg 0x24800 ∧
      readOnlyReg 0x24BFC ∧ readOnlyReg 0x24600 = false ∧ readOnlyReg 0x247FC = false ∧ readOnlyReg 0x24C00 = false := by
  decide +kernel

theorem witness_MiStoreRegisterMemCompletes :
    ring.canAdvance 3 ∧ ring.secure ∧ batch.secure = false ∧ batch.ppgttEnabled ∧
      (ring.parserPhys .ggtt 0x2000 true).isSome ∧ (batch.parserPhys .ppgtt 0x2000 true).isSome ∧
      (regRead ring 0x22034).isSome ∧ batch.canAdvance 3 ∧ (regRead ring 0x2209C).isSome ∧ (regRead ring 0x24500).isSome ∧
      (regRead ring 0x245FC).isSome ∧ ring.inv := by decide +kernel

/-- Whatever the three offsets the spec does not print, one of these four is outside the map. -/
theorem witness_MiStoreRegisterMemCompletes_outside : ∃ reg : BitVec 21, regRead ring (reg.toNat * 4) = none := by
  have h : ∀ n, n < 16 → n ≠ Config.isrAddr → n ≠ Config.iirAddr → n ≠ Config.nopidAddr → regRead ring n = none := by
    intro n hn h1 h2 h3
    unfold regRead
    split <;> first | omega | skip
    repeat rw [if_neg (by omega)]
  by_contra hc
  have g : ∀ k : Nat, k < 4 → 4 * k = Config.isrAddr ∨ 4 * k = Config.iirAddr ∨ 4 * k = Config.nopidAddr := by
    intro k hk
    by_contra hn
    refine hc ⟨BitVec.ofNat 21 k, ?_⟩
    rw [show (BitVec.ofNat 21 k).toNat * 4 = 4 * k by simp; omega]
    exact h _ (by omega) (by omega) (by omega) (by omega)
  have := g 0 (by omega); have := g 1 (by omega); have := g 2 (by omega); have := g 3 (by omega)
  omega

theorem witness_MiStoreDataImmCompletes :
    ring.canAdvance 4 ∧ ring.canAdvance 5 ∧ batch.canAdvance 5 ∧ ring.secure ∧ batch.secure = false ∧
      batch.ppgttEnabled ∧ (ring.parserPhys .ggtt 0xFFFFFFF8 true).isSome ∧ (batch.parserPhys .ppgtt 0x3000 true).isSome ∧
      (put 0 2 (0xFFFFFFF8 / 4 : BitVec 30) : Word).toNat % 8 = 0 ∧
      (put 0 2 (0x3004 / 4 : BitVec 30) : Word).toNat % 8 ≠ 0 := by decide +kernel

theorem witness_MiStoreDataIndexCompletes :
    ring.regs.hwsPgaWritten ∧ 16 ≤ (16 : BitVec 10).toNat ∧ (15 : BitVec 10).toNat < 16 ∧
      (ring.parserPhys .ggtt (ring.regs.hwsp + 4 * 16) true).isSome ∧ ring.canAdvance 4 ∧
      (ring.parserPhys .ggtt (ring.regs.hwsp + 4 * 1022) true).isSome ∧ (ring.regs.hwsp + 4 * 1022) % 8 = 0 ∧
      (ring.regs.hwsp + 4 * 1023) % 8 ≠ 0 ∧ State.reset.regs.hwsPgaWritten = false := by decide +kernel

theorem witness_MiUpdateGttCompletes : ring.canAdvance 65 ∧ ring.secure ∧ batch.secure = false ∧ batch.canAdvance 3 ∧
    State.quiet { ring with schedule := [.setPage .ppgtt 3 .invalid] } ∧
    State.quiet { ring with schedule := [.setDirectory 511 false] } := by
  decide +kernel

theorem witness_MiLoadRegisterMemCompletes :
    let s := ring.holding 0x4000 [3, 0, 2, 0]
    s.canAdvance 3 ∧ (s.parserPhys .ggtt 0x4000 false).isSome ∧ s.secure ∧
      writes s 0x22028 (s.memWord .ggtt 0x4000) ∧ writes s 0x22040 (s.memWord .ggtt 0x4000) ∧
      s.regs.writeRefused 0x22034 (s.memWord .ggtt 0x4000) = some .headWhileEnabled ∧ readOnlyReg 0x22358 ∧ batch.secure = false ∧ batch.ppgttEnabled ∧
      (batch.parserPhys .ppgtt 0x4000 false).isSome ∧ loadForbidden 0x8800 ∧ loadForbidden 0x88FC ∧
      loadForbidden 0xC0000 := by decide +kernel

/-- Asynchronous loads that land: of a plain register, of an error register, one that protection forbids, one the spec refuses. -/
theorem witness_MiLoadRegisterMemCompletes_lands :
    let s : State := { ring.holding 0x4000 [2, 0, 0, 0] with
      asyncLoads := [⟨.ggtt, 0x4000, 0x22040, true⟩, ⟨.ggtt, 0x4000, 0x220B0, true⟩, ⟨.ggtt, 0x4000, 0x22040, false⟩,
        ⟨.ggtt, 0x4000, 0x22034, true⟩, ⟨.ggtt, 0x4000, 0x22200, false⟩], schedule := [.asyncLoad 1] }
    s.quiet ∧ s.asyncLoads[1]? = some ⟨.ggtt, 0x4000, 0x220B0, true⟩ ∧ s.asyncLoads[5]? = none ∧
      (s.parserPhys .ggtt 0x4000 false .load).isSome ∧ s.memWord .ggtt 0x4000 .load = 2 ∧
      (s.regs.written 0x22040 2).isSome ∧ (s.regs.writeErrors 0x220B0 2).isSome ∧
      State.settleOpen { s with regs := (s.regs.writeErrors 0x220B0 2).getD s.regs } ∧ readOnlyReg 0x220B8 ∧
      s.regs.writeRefused 0x22034 2 = some .headWhileEnabled ∧ (s.regs.written 0x22200 2).isSome := by decide +kernel

/-- A write to a mask after which the status page is written. -/
theorem witness_settleOpen :
    let r : Regs := { ring.regs with esr := 1, emr := 0xFFFE, imr := 0xFDFFFFFF, hwstam := 0xFDFFFFFF }
    let s : State := { ring with regs := r }
    s.settleOpen ∧ ring.settleOpen ∧ r.writeErrors 0x220B4 0xFFFE = some r ∧ s.settled.posted.length = 1 ∧
      ring.settled.posted = [] := ⟨rfl, rfl, rfl, rfl, rfl⟩

theorem witness_MiFlushDwCompletes :
    let b : State := { ring with engine := ⟨.hung, .ggtt⟩ }
    ring.engineBusy = false ∧ b.engineBusy ∧ ring.canAdvance 4 ∧ (ring.parserPhys .ggtt 0x1000 true).isSome ∧
      (ring.parserPhys .ggtt (ring.regs.hwsp + 0xFF8) true).isSome ∧ ring.statusOpen (setBit ring.regs.isr 26 true) .event ∧
      bit (put 0 3 (0x1000 / 8 : BitVec 29)) 5 = false ∧ bit (put 0 3 (0x20 / 8 : BitVec 29)) 5 ∧ batch.secure = false ∧
      batch.ppgttEnabled := by decide +kernel

/-- With Notify unmasked the status page is written. -/
theorem witness_MiFlushDwCompletes_status :
    let s : State := { ring with regs := { ring.regs with imr := 0xFBFFFFFF, hwstam := 0xFBFFFFFF } }
    s.signals (setBit s.regs.isr 26 true) = true ∧ s.statusOpen (setBit s.regs.isr 26 true) .event := ⟨by decide +kernel, rfl⟩

theorem witness_MiDisplayFlipCompletes :
    let s : State := { ring with regs := { ring.regs with head := 0x34 } }
    flipInLine s ∧ s.canAdvance 3 ∧ (s.advanced 3).regs.headOff ≠ s.regs.tailOff ∧
      flipInLine { ring with regs := { ring.regs with head := 0x38 } } = false ∧ flipInLine batch ∧
      batch.parser.inBatch := by decide +kernel

theorem witness_DecodeOfEncode : (Instr.miLoadRegisterImm 1 15 0x3FFFFFFF 0xFFFFFFFF).wf ∧
    (Instr.xyTextImmediateBlt 1 true true ⟨0, 0, 1, 1⟩ []).wf := by decide +kernel

theorem witness_EncodeOfDecode :
    decode [0x40C00001, 0x0014000A, 0x00DC006E] = .ok (.xySetupClipBlt 1 false ⟨10, 20, 110, 220⟩) ∧
      Op.lengthOk .xySetupClipBlt 0x40C00001 := by decide +kernel

/-- The state meets the invariant and steps. -/
theorem witness_StepKeepsInv : ring.inv ∧ nextIs (step ring) (fun t => t.regs.head == 4) := by decide +kernel

/-- With no pulse left, and with one whose end is posted. -/
theorem witness_ResetActs :
    let s : State := { ring with regs := { ring.regs with isr := 0x400000, imr := 0xFFBFFFFF, hwstam := 0xFFBFFFFF } }
    ring.statusOpen (ring.regs.isr &&& ~~~pulseInts) .pulse ∧ s.quiet = false ∧ s.signals (s.regs.isr &&& ~~~pulseInts) = true ∧
      s.statusOpen (s.regs.isr &&& ~~~pulseInts) .pulse := ⟨by decide +kernel, by decide +kernel, by decide +kernel, rfl⟩

theorem witness_StepRunsMiCommand :
    let s := State.holding ring 0x20000 (wordBytes 0x00401234)
    s.atCommand [0x00401234] ∧ wholeCommand .miNoop [0x00401234] ∧ decode [0x00401234] = .ok (.miNoop true 0x1234) ∧
      Op.isBlt .miNoop = false ∧ s.engine.run = .idle := by decide +kernel

/-- The last DWord before the tail can be read ahead, the tail cannot; in a batch buffer, its last DWord. -/
theorem witness_StepRunsMiCommand_readAhead :
    ring.quiet ∧ ring.aheadPoint true 255 = some (.ggtt, 0x203FC) ∧ (ring.parserPhys .ggtt 0x203FC false .fetch).isSome ∧
      (State.parserPhys { ring with ggtt := [(0x20, .invalid)] } .ggtt 0x203FC false .fetch).isNone ∧
      ring.aheadPoint true 256 = none ∧ ring.aheadPoint false 0 = none ∧
      batch.aheadPoint false 0 = some (.ppgtt, 0x800000) := by decide +kernel

/-- With a DWord in the window, and with one outside it. -/
theorem witness_StepRunsMiCommand_window :
    let e : ReadAhead := ⟨true, .ggtt, 0x203FC, 0⟩
    ring.regs.isr &&& pulseInts = 0 ∧ ring.stillAhead e ∧ ring.stillAhead { e with addr := 0x20400 } = false ∧
      State.ringEnabled State.reset = false ∧ State.reset.regs.headOff = State.reset.regs.tailOff ∧
      ring.parser.inBatch = false := by decide +kernel

theorem witness_StepRunsBltCommand :
    let ws : List Word := [0x40C00001, 0x0014000A, 0x00DC006E]
    let s := State.holding ring 0x20000 (ws.flatMap wordBytes)
    s.atCommand ws ∧ wholeCommand .xySetupClipBlt ws ∧ decode ws = .ok (.xySetupClipBlt 1 false ⟨10, 20, 110, 220⟩) ∧
      s.canAdvance ws.length ∧ State.atCommand { s with engine := ⟨.hung, .ggtt⟩ } ws ∧
      isImmediate .xySetupClipBlt = false := by decide +kernel

theorem witness_StepResumesWait :
    let i := Instr.miSemaphoreMbox 1 false false true true 0 5 0
    let w (v : Word) : State := { ring with
      regs := { ring.regs with brsync := v }, parser := { ring.parser with run := .waitSemaphore i } }
    (w 6).quiet ∧ (w 6).syncFlushReady = false ∧ (w 6).ringEnabled ∧
      nextIs (exec i (w 6)) (fun t => t.parser.run != (w 6).parser.run) ∧
      nextIs (exec i (w 5)) (fun t => t.parser.run == (w 5).parser.run) := by decide +kernel

/-- Stop Ring with a wait that goes on; a wait for a read; a flush that goes on because the engine hangs. -/
theorem witness_StepResumesWait_stop :
    let i := Instr.miSemaphoreMbox 1 false false true true 0 5 0
    let r := Instr.miStoreRegisterMem 1 true 0x880D 0x800
    let f := Instr.miFlushDw 2 false false false false 0 false 0 false 0 0
    let s : State := { ring with
      regs := { ring.regs with miMode := 0x100 }, parser := { ring.parser with run := .waitSemaphore i } }
    let q : State := { ring with parser := { ring.parser with run := .waitRead r } }
    let h : State := { s with parser := { ring.parser with run := .waitFlush f }, engine := ⟨.hung, .ggtt⟩ }
    s.quiet ∧ s.syncFlushReady = false ∧ s.ringEnabled ∧
      nextIs (exec i s) (fun t => t.parser.run == s.parser.run && bit t.regs.miMode 8 && t.posted.isEmpty && t.asyncLoads.isEmpty) ∧
      nextIs (exec r q) (fun t => t.parser.run == .running) ∧
      nextIs (exec f h) (fun t => t.parser.run == h.parser.run && bit t.regs.miMode 8) := by decide +kernel

/-- Both agents hung, the invariant met, and the step answers. -/
theorem witness_HungStaysHung :
    let s : State := { ring with
      parser := { ring.parser with run := .hung }, engine := ⟨.hung, .ggtt⟩, schedule := [.tick 1] }
    s.inv ∧ (∀ full, s.schedule.head? ≠ some (.reset full)) ∧ nextIs (step s) (fun t => t.regs.timestamp == 1) := ⟨by decide +kernel, fun _ => by simp, by decide +kernel⟩

/-- A fill of two bytes, whose neighbours it does not write, on canonical memory and caches that nothing disturbs; and a setup
command and a pixel. -/
theorem witness_BltChangesOnly :
    let i := Instr.xyColorBlt 0 (draw 0xF0) 0x5A
    ring.midEvents = [] ∧ Memory.wf ring.mem ∧ sorted ring.rc ∧ ring.rcOk ∧
      nextIs (exec i ring) (fun t => t.rc == [(0x100000, 0x5A), (0x100001, 0x5A)]) ∧
      ring.draws i 0x0FFFFF = false ∧ ring.draws i 0x100000 ∧ ring.draws i 0x100001 ∧ ring.draws i 0x100002 = false ∧
      ring.disturbs 0x100002 = false ∧
      ring.draws (.xyColorBlt 0 { draw 0xF0 with pen := ⟨.c32, 0xF0, 0x40⟩, mask := 2 } 0x5A) 0x100002 = false ∧
      ring.draws (.xyColorBlt 0 { draw 0xF0 with pen := ⟨.c32, 0xF0, 0x40⟩, mask := 2 } 0x5A) 0x100003 ∧
      (after [0x40C00001, 0x0014000A, 0x00DC006E] ring).isSome ∧ (after [0x49000000, 0x00020005] (setUp 0xF0)).isSome ∧
      (Instr.xyPixelBlt 0 false 5 2).loadsSetup = false := by decide +kernel

/-- The engine faults and goes on, ISR bit 29 unmasked: it posts two status writes. -/
theorem witness_BltChangesOnly_fault :
    let s : State := { setUp 0xF0 with
      ppgtt := [(0x100, .invalid)], engine := ⟨.idle, .ppgtt⟩
      regs := { batch.regs with gabCtl := 0x1BF, imr := 0xDFFFFFFF, hwstam := 0xDFFFFFFF } }
    s.midEvents = [] ∧ (after [0x49000000, 0x00020005] s).map (·.posted.length) = some 2 ∧
      s.draws (.xyPixelBlt 0 false 5 2) 0x100085 = false ∧
      (s.translate .blb s.engine.space 0x100085 true (.dest 5 2)).toOption = none ∧ s.silent 29 = false ∧
      ∀ rise, (s.parserPhys .ggtt s.regs.statusAddr true (.fault rise 0x100085 true (.dest 5 2))).isSome :=
  ⟨rfl, by decide +kernel, by decide +kernel, rfl, rfl, fun _ => rfl⟩

theorem witness_NonSecureKeepsPrivilege : batch.secure = false ∧ (after [0x10400002, 0, 0x3000, 1] batch).isSome ∧
    (after [0x11000001, 0x00022200, 0x00010001] batch).isSome := by decide +kernel

theorem witness_UndefinedOpcodeHangs :
    let s := State.holding ring 0x20000 (wordBytes 0x60000000)
    s.atCommand [0x60000000] ∧ Op.ofHeader 0x60000000 = none ∧ s.engine.run = .idle ∧ s.silent 25 := by decide +kernel

/-- Masked in the EMR and not, without a status write and with one. -/
theorem witness_UndefinedOpcodeHangs_open :
    let s : State := { ring with regs := { ring.regs with imr := 0xFDFFFFFF, hwstam := 0xFDFFFFFF, emr := 0xFFFE } }
    let r : Regs := { s.regs with esr := 1, eir := 1 }
    let t : State := { s with regs := r, parser := { s.parser with run := .hung } }
    eirOf { s.regs with esr := 1 } = 1 ∧ t.signals (levels r s.regs.isr) = true ∧ t.statusOpen (levels r s.regs.isr) .event ∧
      ring.statusOpen (levels { ring.regs with esr := 1 } ring.regs.isr) .event ∧ bit ring.regs.emr 0 ∧
      bit s.regs.emr 0 = false := ⟨by decide +kernel, by decide +kernel, rfl, by decide +kernel, by decide +kernel, by decide +kernel⟩

/-- Both halves, with a fault that hangs and one that goes on. -/
theorem witness_PageFaultTaken :
    let s (g : Word) : State := { setUp 0xF0 with
      ggtt := [(3, .invalid), (0x100, .invalid)], regs := { ring.regs with gabCtl := g } }
    let j (s : State) : Job := { setupJob s.setup s.regs.swctrl false with pat := .solid s.setup.br05 }
    ((s 0xBF).translate .bcs .ggtt 0x3000 true .operand).toOption = none ∧ (s 0xBF).silent 29 ∧
      bit (s 0xBF).regs.gabCtl 8 = false ∧
      bit (s 0x1BF).regs.gabCtl 8 ∧ (s 0x1BF).canAdvance 4 ∧ (s 0xBF).secure ∧
      0 ≤ (setupPen (s 0xBF).setup).pitch.toInt ∧ (j (s 0xBF)).legal 1 ∧ (ropUses (j (s 0xBF)).rop).d = false ∧
      (j (s 0xBF)).writesBytes ∧
      drawnPixels ⟨5, 2, 5 + 1, 2 + 1⟩ (clipOf (s 0xBF).setup (bit (s 0xBF).setup.br01 30)) false false = [(5, 2)] ∧
      (j (s 0xBF)).dst.addr 1 5 2 = 0x100085 ∧ ((s 0xBF).translate .blb .ggtt 0x100085 true (.dest 5 2)).toOption = none ∧
      (s 0xBF).faultHungOpen .parser (gabBit false .page) (.fault · 0x3000 true .operand) ∧
      (s 0x1BF).faultPassedOpen .parser (gabBit false .page) (.fault · 0x3000 true .operand) ∧
      (s 0xBF).faultHungOpen .engine (gabBit false .page) (.fault · 0x100085 true (.dest 5 2)) ∧
      (s 0x1BF).faultPassedOpen .engine (gabBit false .page) (.fault · 0x100085 true (.dest 5 2)) := by
  decide +kernel

/-- ISR bit 29 unmasked: the status page is written when it rises, and again when it falls. -/
theorem witness_PageFaultTaken_status :
    let s (g : Word) : State := { batch with
      ppgtt := [(3, .invalid)], regs := { batch.regs with gabCtl := g, imr := 0xDFFFFFFF, hwstam := 0xDFFFFFFF } }
    let use (rise : Bool) : Use := .fault rise 0x3000 true .operand
    (s 0xBF).faultHungOpen .parser (gabBit false .page) use ∧ ((s 0xBF).faultHung .parser (gabBit false .page) use).posted.length = 1 ∧
      (s 0x1BF).faultPassedOpen .parser (gabBit false .page) use ∧
      ((s 0x1BF).faultPassed .parser (gabBit false .page) use).posted.length = 2 ∧ (s 0xBF).ppgttEnabled ∧
      ((s 0xBF).translate .bcs .ppgtt 0x3000 true .operand).toOption = none ∧ (s 0x1BF).canAdvance 4 :=
  ⟨rfl, rfl, rfl, rfl, rfl, rfl, rfl⟩

/-- The status page has no valid page; nor has the ring. -/
theorem witness_PageFaultTaken_page :
    let s (g : Word) : State := { ring with ggtt := [(0x10, .invalid), (0x20, .invalid)], regs := { ring.regs with gabCtl := g } }
    (s 0xBF).regs.hwsPgaWritten ∧ ((s 0xBF).translate .bcs .ggtt ((s 0xBF).regs.hwsp + 4 * 16) true .operand).toOption = none ∧
      (s 0xBF).silent 29 ∧ bit (s 0xBF).regs.gabCtl 8 = false ∧ bit (s 0x1BF).regs.gabCtl 8 ∧ (s 0x1BF).canAdvance 3 ∧
      (s 0xBF).atCommand [] ∧ (s 0xBF).engine.run = .idle ∧
      ((s 0xBF).translate .bcs (s 0xBF).fetchPoint.space (s 0xBF).fetchPoint.addr false .fetch).toOption = none := by decide +kernel

/-- A directory set that is not enabled faults too, and always hangs. -/
theorem witness_PageFaultTaken_set :
    State.directoryFault { batch with regs := { batch.regs with ppDclv := 0xFFFFFFFE } } 0x3FFFFFC true .operand = some .directorySet := by
  decide +kernel

theorem witness_WrongDataAmountHangs :
    let t : Job := { setupJob (setUp 0xCC).setup 0 false with src := .monoImm .bytePacked 2 [] 0 0 0xFF 0x11 false }
    let p : Job := { drawJob (draw 0xF0) 0 with pat := .immediate [1, 2] }
    let m : Job := { drawJob (draw 0xCC) 0 with src := .monoImm (.wordAligned 7) 2 [0, 0, 0] 0 0 3 4 false }
    let f : Job := { drawJob (draw 0xCA) 0 with pat := .immediate [1, 2], src := copySource (draw 0xCA).rect src 0 }
    let g : Job := { drawJob (draw 0xCA) 0 with
      pat := .immediate (List.replicate 17 0), src := wordSource (draw 0xCA).rect 7 0x50000 3 4 true }
    t.wrongAmount 1 ∧ p.wrongAmount 1 ∧ chromaPatModeOk 7 ∧ m.wrongAmount 1 ∧
      f.wrongAmount (copyHeight (draw 0xCA).rect src) ∧ g.wrongAmount 1 := by decide +kernel

/-- Opcode 72h with DWord Length 0: two DWords, where the fixed part alone has five. -/
theorem witness_WrongDataAmountHangs_short :
    let ws : List Word := [0x5C800000, 0]
    let s := ring.holding 0x20000 (ws.flatMap wordBytes)
    s.atCommand ws ∧ Op.ofHeader (ws.getD 0 0) = some .xyPatBltImmediate ∧ Op.underfed .xyPatBltImmediate (ws.getD 0 0) ∧
      ws.length = Op.dwords .xyPatBltImmediate (ws.getD 0 0) ∧ Op.reservedOk .xyPatBltImmediate (fun k => ws.getD k 0) ∧
      s.engine.run = .idle ∧ s.canAdvance ws.length ∧ (s.advanced ws.length).regs.headOff ≠ s.regs.tailOff ∧
      Op.underfed .xyPatBltImmediate 0x5C800002 ∧ Op.underfed .xyPatBltImmediate 0x5C800003 = false := by decide +kernel

theorem witness_IllegalMiFormsStop :
    2 ≤ eventCount false 1 false false false false true ∧ 6 ≤ (6 : BitVec 4).toNat ∧ 6 ≤ (6 : BitVec 3).toNat ∧
      batch.parser.inBatch ∧ ring.ppgttEnabled = false ∧ ring.secure ∧ batch.secure = false ∧ batch.ppgttEnabled ∧
      State.secure { batch with parser := { batch.parser with batchSpace := .ggtt } } ∧
      protectedFrom ring.secure (put 0 2 (0x880A : BitVec 30) : Word).toNat = false ∧
      protectedFrom batch.secure (0x222FC / 4 * 4) = false ∧ bit (put 0 3 (4 : BitVec 29)) 5 ∧
      bit (put 0 3 (8 : BitVec 29)) 5 = false ∧ (put 0 2 (0xC01 : BitVec 30) : Word).toNat % 8 ≠ 0 := by decide +kernel

/-- A flip that is the last command of the ring, one that crosses a cache line, and the edges of the other forms. -/
theorem witness_IllegalMiFormsStop_state :
    let last : State := { ring with regs := { ring.regs with tail := 0x10, head := 4 } }
    let unset : State := { ring with regs := { ring.regs with hwsPgaWritten := false, uhptr := 0x1001 } }
    flipInLine last ∧ last.canAdvance 3 ∧ last.parser.inBatch = false ∧
      (last.advanced 3).regs.headOff = last.regs.tailOff ∧
      flipInLine { ring with regs := { ring.regs with head := 0x38 } } = false ∧
      0x8800 ≤ (0x8800 / 4 : BitVec 21).toNat * 4 ∧ (0x88FC / 4 : BitVec 21).toNat * 4 ≤ 0x88FF ∧
      0xC0000 ≤ (0xC0000 / 4 : BitVec 21).toNat * 4 ∧ unset.regs.hwsPgaWritten = false ∧
      (ring.regs.hwsp + 4 * 17) % 8 ≠ 0 := by decide +kernel

theorem witness_IllegalBltFormsStop :
    chromaPatModeOk 1 = false ∧ chromaPatModeOk 3 = false ∧ fixedPatternOk 6 = false ∧ fixedPatternOk 15 = false ∧
      patAddr 0x10040 % (64 * bpp .c565) ≠ 0 ∧ (ropUses 0xCC).s ∧ (ropUses 0xF0).p ∧ (ropUses 0xF0).s = false ∧
      (ropUses 0xCC).p = false ∧ (0xFFC0 : BitVec 16).toInt < 0 ∧ (0x42 : BitVec 16).toInt % 4 ≠ 0 ∧
      (drawJob (draw 0xCC) 0).dst.legal 1 ∧ 32745 < rectWidth ⟨0, 0, 32746, 1⟩ ∧ rectWidth ⟨0, 0, 32745, 1⟩ ≤ 32745 ∧
      128 < (MonoLayout.wordAligned 0).bytes (rectWidth ⟨0, 0, 16, 65⟩) (rectHeight ⟨0, 0, 16, 65⟩) ∧
      neededDwords ((MonoLayout.wordAligned 0).bytes (rectWidth ⟨0, 0, 16, 65⟩) (rectHeight ⟨0, 0, 16, 65⟩)) = 34 ∧
      0x1FFF < (0x2000 : BitVec 16).toNat := by decide +kernel

/-- A copy of one pixel between two cacheable pages. -/
theorem witness_IllegalBltFormsStop_cacheable :
    let s : State := { ring with ggtt := [(0x100, .mapped 0x100 true true), (0x200, .mapped 0x200 true true)] }
    let d : Draw := ⟨3, false, false, ⟨.c8, 0xCC, 0x40⟩, ⟨0, 0, 1, 1⟩, 0x100000⟩
    let j : Job := { drawJob d s.regs.swctrl with src := copySource d.rect src s.regs.swctrl }
    j.legal (copyHeight d.rect src) ∧ (ropUses j.rop).d = false ∧ j.writesBytes ∧ copyPixels d src s.setup = [(0, 0)] ∧
      j.sourceReady s 0 0 ∧ s.physCached (j.dst.addr (bpp j.depth) 0 0) (bpp j.depth) true (.dest 0 0) ∧ j.sourceCached s 0 0 := by
  decide +kernel

/-- One pixel beyond the last address. -/
theorem witness_IllegalBltFormsStop_pixel :
    let s : State := { setUp 0xF0 with setup := { (setUp 0xF0).setup with br01 := penWord ⟨.c8, 0xF0, 0x7FC0⟩, br09 := 0xFFFFFFFF } }
    let j : Job := { setupJob s.setup s.regs.swctrl false with pat := .solid s.setup.br05 }
    0 ≤ (setupPen s.setup).pitch.toInt ∧ j.legal 1 ∧ (ropUses j.rop).d = false ∧ j.writesBytes ∧
      drawnPixels ⟨1, 0, 1 + 1, 0 + 1⟩ (clipOf s.setup (bit s.setup.br01 30)) false false = [(1, 0)] ∧
      0x100000000 < j.dst.addr 1 1 0 + 1 := by decide +kernel

/-- The writes of `witness_written`, `witness_refused` and `witness_readOnlyReg`; waits; the events. -/
theorem witness_HostWritesRegisters :
    let w : State := { ring with parser := { ring.parser with run := .waitEvent (.miWaitForEvent false 0 false false false false true) } }
    ring.quiet ∧ writes ring 0x22044 7 ∧ bit 0x00000800 11 ∧ ring.regs.writeRefused 0x2203C 0x00000801 = none ∧ w.canAdvance 1 ∧ eirOf ring.regs = ring.regs.eir ∧
      levels ring.regs ring.regs.isr = ring.regs.isr ∧ Memory.wf ring.mem ∧ sorted [(5, (7 : Byte))] ∧
      lookup [(5, (7 : Byte))] 5 = some 7 ∧ lookup ring.rcPast 5 = none := by
  decide +kernel

/-- A byte with an earlier write; a record of two translations, the second through the directory entry 511, and past its end. -/
theorem witness_HostWritesRegisters_fill :
    let g : TlbEntry := ⟨.bcs, .ggtt, 0x20, .mapped 0x20 false true⟩
    let p : TlbEntry := ⟨.blb, .ppgtt, 0x7FFFF, .raw 5⟩
    let s : State := { ring with rc := [(5, 7)], rcPast := [(5, 6)], xlats := [g, p] }
    let e : State := { ring with ggtt := [(0x20, .invalid)] }
    s.quiet ∧ sorted s.rc ∧ s.rcOk ∧ lookup s.rcPast 5 = some 6 ∧ s.xlats[1]? = some p ∧ s.xlats[2]? = none ∧
      p.page / 1024 = 511 ∧ ring.tlb = [] ∧ (ring.translate .bcs .ggtt 0x20FFF false .fetch).toOption = some ⟨0x20FFF, false⟩ ∧
      (e.translate .bcs .ggtt 0x20FFF false .fetch).toOption = none := by decide +kernel

/-- An unmasked error causes a status write, when it rises and when it falls. -/
theorem witness_HostWritesRegisters_status :
    let r : Regs := { ring.regs with esr := 1, emr := 0xFFFF, imr := 0xFDFFFFFF, hwstam := 0xFDFFFFFF }
    let up : Regs := { r with emr := takeBits r.emr 0xFFFE 0xFFFF }
    let q : Regs := { r with eir := 2, isr := 0x02000000 }
    let down : Regs := { q with eir := q.eir &&& ~~~(2 &&& 0xFFFE) }
    r.writeErrors 0x220B4 0xFFFE = some up ∧ up.followingWrites ∧ q.writeErrors 0x220B0 2 = some down ∧ down.followingWrites :=
  by decide +kernel

theorem witness_HostWritesRegisters_page : (ring.parserPhys .ggtt ring.regs.statusAddr true .event).isSome := rfl

theorem witness_HeadWrapsAtRingEnd :
    let off := (field 0xFFC 2 19).toNat * 4
    off + 4 * 0 < 4096 ∧ 4096 ≤ off + 4 * 1 ∧ off + 4 * 1 < 2 * 4096 ∧ 4096 ≤ 0x200000 := by decide +kernel

/-- A due sync flush, silent and with a status write; the pulse of Sync Status left over, silent and with one. -/
theorem witness_SyncFlushActs :
    let s : State := { ring with regs := { ring.regs with instpm := 0x260 } }
    let u : State := { s with regs := { s.regs with imr := 0xFEFFFFFF, hwstam := 0xFEFFFFFF } }
    let p (t : State) : State := { t with regs := { t.regs with isr := 0x01000000 }, schedule := [.tick 5] }
    let fall (t : State) := needsStatusWrite t.regs t.regs.isr (t.regs.isr &&& ~~~pulseInts)
    s.schedule = [] ∧ s.quiet ∧ s.syncFlushReady ∧ u.syncFlushReady ∧ u.quiet ∧ s.syncWrites = false ∧ u.syncWrites ∧
      (p s).regs.isr &&& pulseInts ≠ 0 ∧ fall (p s) = false ∧ fall (p u) := by decide +kernel

theorem witness_SyncFlushActs_page :
    let s : State := { ring with regs := { ring.regs with instpm := 0x260 } }
    (s.parserPhys .ggtt s.regs.statusAddr true .event).isSome ∧ (s.parserPhys .ggtt s.regs.statusAddr true .pulse).isSome :=
  ⟨rfl, rfl⟩

theorem witness_FlushMakesWritesVisible :
    let s : State := { ring with rc := [(1, 5), (2, 0)], mem := [(2, 7)] }
    let r : State := { s with tcRead := [(2, 7)], schedule := [.texFill 2] }
    Memory.wf s.mem ∧ sorted s.rc ∧ s.rcOk ∧ State.rcOk { s with rcPast := [(1, 4), (2, 3), (1, 6)] } ∧
      lookup s.rcPast 2 = none ∧ lookup s.rc 2 = some 0 ∧ State.quiet { s with schedule := [.midEvents []] } ∧
      State.quiet { s with schedule := [.hostStore 1 9] } ∧ r.quiet ∧
      lookup r.tcRead 2 = some 7 ∧ lookup r.tc 2 = none ∧ lookup s.tcRead 2 = none ∧
      lookup (insert r.tc 2 7) 2 ≠ none := by decide +kernel

theorem witness_PaintTouchesItsPixels :
    let j : Job := { drawJob (draw 0xF0) 0 with pat := .solid 0x5A }
    j.footprint ring (small 0xF0) 0x100001 ∧ j.footprint ring (small 0xF0) 0x100002 = false ∧
      byteEnable .c32 1 3 = false ∧ byteEnable .c32 2 3 := by decide +kernel

/-- Bytes that the middle of a command may change, and their neighbours; an eviction changes none. -/
theorem witness_PaintTouchesItsPixels_midway :
    let s : State := { ring with
      rc := [(5, 1)], rcPast := [(5, 2)], posted := [cellsAt 0x2000 [1, 2]]
      midEvents := [⟨.dest 0 0, true, .drain⟩, ⟨.dest 1 0, true, .hostStore 0x3000 4⟩, ⟨.dest 1 0, true, .evict 5⟩] }
    Memory.wf s.mem ∧ sorted s.rc ∧ s.rcOk ∧ ring.midEvents = [] ∧ s.disturbs 0x2001 ∧ s.disturbs 0x2002 = false ∧
      s.disturbs 0x3000 ∧ s.disturbs 0x2FFF = false ∧ s.disturbs 5 = false := by decide +kernel

/-- A source read at the bytes 200000h and 200001h, at another base than the destination's. -/
theorem witness_PaintTouchesItsPixels_overlap :
    let j : Job := { drawJob (draw 0xCC) 0 with src := copySource (draw 0xCC).rect src 0 }
    let px := copyPixels (draw 0xCC) src ring.setup
    let at' := overlapOf j conformingXY px ring
    j.src = .color ⟨none, 0x200000, 0x40⟩ 0 0 ∧ (ropUses j.rop).s ∧ at' 0x200001 0x200001 = true ∧
      at' 0x1FFFFF 0x1FFFFF = false ∧ at' 0x200002 0x200002 = false := by decide +kernel

theorem witness_FillPaintsRegion :
    let j : Job := { drawJob (draw 0xF0) 0 with pat := .solid 0x5A }
    (draw 0xF0).tiled = false ∧ (draw 0xF0).pen.rop = 0xF0 ∧ j.legal (rectHeight (draw 0xF0).rect) ∧
      j.ready ring (small 0xF0) ∧ small 0xF0 = [(0, 0), (1, 0)] ∧ Memory.wf ring.mem ∧ sorted ring.rc ∧ ring.rcOk ∧
      ring.disturbs 0x100001 = false := by decide +kernel

/-- An overlapping copy to the right: the last premise holds because an unlisted page maps to itself. -/
theorem witness_OverlappingCopyIsSnapshot :
    let d : Draw := ⟨3, false, false, ⟨.c8, 0xCC, 0x40⟩, ⟨2, 0, 10, 1⟩, 0x200000⟩
    let c : ColorSrc := ⟨false, 0x40, 0, 0, 0x200000⟩
    let j : Job := { drawJob d 0 with src := copySource d.rect c 0 }
    let px := copyPixels d c ring.setup
    (0 : Int) < d.pen.pitch.toInt ∧ d.pen.pitch.toInt % 64 = 0 ∧
      (∀ p ∈ px, (p.1 + 1) * 1 ≤ d.pen.pitch.toInt ∧ (p.1 + (0 - 2) + 1) * 1 ≤ d.pen.pitch.toInt) ∧
      j.legal (copyHeight d.rect c) ∧ j.ready ring px ∧ px.length = 8 ∧ Memory.wf ring.mem ∧ sorted ring.rc ∧ ring.rcOk ∧
      ring.disturbs 0x200000 = false ∧ ring.disturbs 0x200009 = false := by decide +kernel

/-- Addresses map to themselves in a state whose tables and TLB list nothing. -/
theorem witness_OverlappingCopyIsSnapshot_identity (a : Int) (w : Bool) (use : Use) (h : 0 ≤ a) (h' : a + 1 ≤ 0x100000000) :
    ring.physAddr a 1 w use = a.toNat := by
  have : State.translate ring .blb .ggtt a.toNat w use = .ok ⟨a.toNat / 4096 * 4096 + a.toNat % 4096, false⟩ := by
    cases w <;> rfl
  have e : ring.engine.space = .ggtt := rfl
  simp only [State.physAddr, State.phys, e, this]
  rw [if_pos ⟨h, h'⟩]
  simp [Except.toOption, Nat.div_add_mod']


end Sys2Proof.Tests
end

section
/-! PROOFS. The ring head (R24, R88). -/

namespace Sys2Proof.Machine

/-- The head register a wrap count and a DWord offset make up: its fields are those, and bits 1:0 are 0 (R88). -/
theorem field_head (wrap : BitVec 11) (off : BitVec 19) :
    field (put (put 0 21 wrap) 2 off) 0 2 = 0 ∧ field (put (put 0 21 wrap) 2 off) 2 19 = off ∧
      field (put (put 0 21 wrap) 2 off) 21 11 = wrap := by
  refine ⟨?_, ?_, ?_⟩
  · rw [field_put_other _ _ _ _ _ (by omega), field_put_other _ _ _ _ _ (by omega), field_zero]
  · rw [field_put_same _ _ _ (by omega), field_put_other _ _ _ _ _ (by omega), field_zero]
    exact BitVec.zero_or
  · rw [field_put_other _ _ _ _ _ (by omega), field_put_same _ _ _ (by omega), field_zero]
    exact BitVec.zero_or

/-- Settles O53: the head register is put together from its wrap count and its offset, and an offset below the end of the
ring fits its field. -/
theorem headWrapsAtRingEnd : Obligations.HeadWrapsAtRingEnd := by
  unfold Obligations.HeadWrapsAtRingEnd
  intro head size n hsize h4
  simp only
  have hfit : ∀ k, k < size → k % 4 = 0 → (BitVec.ofNat 19 (k / 4)).toNat * 4 = k := by
    intro k hk hk4
    rw [BitVec.toNat_ofNat]
    omega
  have hoff : (field head 2 19).toNat * 4 % 4 = 0 := Nat.mul_mod_left _ _
  unfold advanceHead
  simp only
  generalize (field head 2 19).toNat * 4 = off at hoff ⊢
  split
  · rename_i hin
    obtain ⟨hlow, hofs, hwrap⟩ := field_head (field head 21 11) (BitVec.ofNat 19 ((off + 4 * n) / 4))
    refine ⟨hlow, fun _ => ⟨?_, hwrap⟩, fun hout => absurd hin (by omega)⟩
    rw [hofs]
    exact hfit _ hin (by omega)
  · rename_i hout
    obtain ⟨hlow, hofs, hwrap⟩ := field_head (field head 21 11 + 1) (BitVec.ofNat 19 ((off + 4 * n - size) / 4))
    refine ⟨hlow, fun hin => absurd hin hout, fun _ h2 => ⟨?_, hwrap⟩⟩
    rw [hofs]
    exact hfit _ (by omega) (by omega)

end Sys2Proof.Machine
end

section
/-! PROOFS. What every BLT command is made of: it loads registers, checks its operands, and then draws one job. -/

namespace Sys2Proof.Machine

/-! ## The work left once the registers are loaded -/

/-- What a BLT command does in a state `s` whose registers are loaded: checks, and then at most one job, which writes bytes of
`W` alone. -/
inductive BltWork (W : Nat → Bool) (s : State) : M Unit → Prop where
  | done : BltWork W s (pure ())
  | check {m : PUnit → M Unit} (c : Bool) (r : Refusal) (h : BltWork W s (m ⟨⟩)) : BltWork W s (require c r >>= m)
  | checkIf {m : PUnit → M Unit} (b c : Bool) (r : Refusal) (h : BltWork W s (m ⟨⟩)) :
      BltWork W s (onlyIf b (require c r) >>= m)
  | guarded {m : M Unit} (b : Bool) (h : BltWork W s m) : BltWork W s (if b then pure () else m)
  | draw {d : Draw} {f : Word → Job}
      (h : ∀ a, (f s.regs.swctrl).writes s (drawnPixels (rectBox d.rect) (clipOf s.setup d.clip) false false) a → W a) :
      BltWork W s (runDraw d f)
  | copy {d : Draw} {c : ColorSrc} {f : Word → Job}
      (h : ∀ a, (f s.regs.swctrl).writes s (copyPixels d c s.setup) a → W a) : BltWork W s (runCopy d c f)
  | dependent {tiled : Bool} {b : Box} {f : Setup → Job → Job}
      (h : ∀ a, (f s.setup (setupJob s.setup s.regs.swctrl tiled)).writes s
        (drawnPixels b (clipOf s.setup (bit s.setup.br01 30)) false false) a → W a) : BltWork W s (drawDependent tiled b f)
  | linear {j : Job} {height width : BitVec 16} {xb : Bool}
      (h : ∀ a, j.writes s (linearPixels j.depth height width xb) a → W a) : BltWork W s (drawLinear j height width xb)

/-- `t` is `s` with the engine's registers loaded: nothing else has changed, and the setup set only where the command loads
it. -/
def State.Loaded (i : Instr) (s t : State) : Prop :=
  ∃ b u n, t = { s with br := b, setup := u, freeCount := n } ∧ (i.loadsSetup = false → u = s.setup)

/-- The outcome is that of a command `i` begun in `s`: registers are loaded, and then its work is done. -/
def BltRuns (i : Instr) (s : State) (o : Host.Outcome State Fault Refusal) : Prop :=
  ∃ t m, o = M.outcome m t ∧ s.Loaded i t ∧ BltWork (s.draws i) t m

variable {i : Instr} {s t : State} {m : M Unit} {g : PUnit → M Unit}

theorem BltRuns.work (h : BltWork (s.draws i) t m) (hl : s.Loaded i t := by exact ⟨_, _, _, rfl, fun _ => rfl⟩) :
    BltRuns i s (M.outcome m t) := ⟨t, m, rfl, hl, h⟩

/-- A register of the engine is loaded. -/
theorem BltRuns.load {f : Br → Br} (h : BltRuns i s (M.outcome (g ⟨⟩) { t with br := f t.br })) :
    BltRuns i s (M.outcome (onBr f >>= g) t) := h

/-- BR00 is loaded from the setup set. -/
theorem BltRuns.loadDependent {o : Op} {tiled packed : Bool}
    (h : BltRuns i s (M.outcome (g ⟨⟩) { t with br := t.br.withDependent t.setup o tiled packed })) :
    BltRuns i s (M.outcome (latchDependent o tiled packed >>= g) t) := h

/-- A monochrome pattern is loaded, which leaves BR20S and BR21S open (R22, D3). -/
theorem BltRuns.loadPattern {p0 p1 : Word}
    (h : BltRuns i s (M.outcome (g ⟨⟩) (State.patternLoaded { t with br := { t.br with br20 := p0, br21 := p1 } }))) :
    BltRuns i s (M.outcome (latchMonoPattern p0 p1 >>= g) t) := h

/-- A setup command loads BR00 and the setup set, and draws nothing (R290 to R292). -/
theorem BltRuns.setup {b : Br → Br} {f : Setup → Setup} (hi : i.loadsSetup) :
    BltRuns i s (M.outcome (onBr b >>= fun _ => onSetup f) s) :=
  ⟨{ s with br := b s.br, setup := f s.setup }, pure (), rfl, ⟨_, _, _, rfl, by simp [hi]⟩, .done⟩

/-- Every BLT command loads registers and then does such work, drawing the bytes `State.draws` names. -/
theorem exec_blt (i : Instr) (hb : i.op.isBlt) (s : State) : BltRuns i s (exec i s) := by
  cases i with
  | colorBlt len mask pen height width dst color => exact .load (.load (.work (.check _ _ (.linear fun _ h => h))))
  | srcCopyBlt len mask xdir pen height width dst spitch src =>
    exact .load (.load (.work (.check _ _ (.check _ _ (.linear fun _ h => h)))))
  | xySetupBlt =>
    simp only [exec, execXySetupBlt]
    exact .setup rfl
  | xySetupMonoPatternSlBlt =>
    simp only [exec, execXySetupMonoPatternSlBlt]
    exact .setup rfl
  | xySetupClipBlt =>
    simp only [exec, execXySetupClipBlt]
    exact .setup rfl
  | xyPixelBlt => exact .loadDependent (.load (.work (.check _ _ (.dependent fun _ h => h))))
  | xyScanlinesBlt =>
    exact .loadDependent (.load (.load (.load (.work (.checkIf _ _ _ (.dependent fun _ h => h))))))
  | xyTextBlt => exact .loadDependent (.load (.load (.work (.dependent fun _ h => h))))
  | xyTextImmediateBlt => exact .loadDependent (.load (.work (.dependent fun _ h => h)))
  | xyColorBlt len d color => exact .load (.load (.work (.draw fun _ h => h)))
  | xyPatBlt => exact .load (.load (.load (.work (.check _ _ (.draw fun _ h => h)))))
  | xyPatChromaBlt => exact .load (.load (.load (.load (.work (.check _ _ (.check _ _ (.draw fun _ h => h)))))))
  | xyPatBltImmediate => exact .load (.load (.work (.draw fun _ h => h)))
  | xyPatChromaBltImmediate => exact .load (.load (.load (.work (.check _ _ (.draw fun _ h => h)))))
  | xyMonoPatBlt =>
    exact .load (.load (.load (.loadPattern (.work (.draw fun _ h => h) ⟨_, _, _, rfl, nofun⟩))))
  | xyMonoPatFixedBlt => exact .load (.load (.load (.work (.check _ _ (.draw fun _ h => h)))))
  | xySrcCopyBlt => exact .load (.load (.work (.copy fun _ h => h)))
  | xySrcCopyChromaBlt => exact .load (.load (.load (.work (.copy fun _ h => h))))
  | xyMonoSrcCopyBlt => exact .load (.load (.load (.work (.draw fun _ h => h))))
  | xyMonoSrcCopyImmediateBlt => exact .load (.load (.load (.work (.draw fun _ h => h))))
  | xyFullBlt => exact .load (.load (.load (.load (.work (.check _ _ (.copy fun _ h => h))))))
  | xyFullImmediatePatternBlt => exact .load (.load (.load (.work (.copy fun _ h => h))))
  | xyFullMonoSrcBlt => exact .load (.load (.load (.load (.work (.check _ _ (.draw fun _ h => h))))))
  | xyFullMonoSrcImmediatePatternBlt => exact .load (.load (.load (.load (.work (.draw fun _ h => h)))))
  | xyFullMonoPatternBlt =>
    exact .load (.load (.load (.load (.loadPattern (.work (.guarded _ (.copy fun _ h => h)) ⟨_, _, _, rfl, nofun⟩)))))
  | xyFullMonoPatternMonoSrcBlt =>
    exact .load (.load (.load (.load (.loadPattern
      (.work (.check _ _ (.guarded _ (.draw fun _ h => h))) ⟨_, _, _, rfl, nofun⟩)))))
  | _ => cases hb

end Sys2Proof.Machine
end

section
/-! PROOFS. What a BLT command can change at all: the work of every one of them draws, and drawing changes only what
`State.Drawing` says. -/

namespace Sys2Proof.Machine

variable {W : Nat → Bool} {s t u : State} {m : M Unit} {p : List (List Host.Cell)} {i : Instr}

theorem State.Drawing.swctrl (h : s.Drawing W t p) : t.regs.swctrl = s.regs.swctrl := by
  obtain ⟨_, _, _, _, _, _, _, _, _, _, _, _, _, _, rfl⟩ := h.frame
  rfl

theorem State.Drawing.setup (h : s.Drawing W t p) : t.setup = s.setup := by
  obtain ⟨_, _, _, _, _, _, _, _, _, _, _, _, _, _, rfl⟩ := h.frame
  rfl

/-- The work of a BLT command draws in the bytes of its job alone. -/
theorem BltWork.draws (h : BltWork W s m) : Draws W s m := by
  induction h with
  | done => exact .pure _
  | check c r h ih => exact .bind (.require c r) fun _ _ => ih
  | checkIf b c r h ih => exact .bind (.onlyIf fun _ => .require c r) fun _ _ => ih
  | guarded b h ih => exact .ite (.pure _) ih
  | draw hW =>
    refine .get fun t p h hg => ?_
    rw [h.swctrl, h.setup]
    exact drawXY_draws _ _ _ _ _ hW t p h hg
  | copy hW =>
    refine .get fun t p h hg => ?_
    rw [h.swctrl, h.setup]
    refine drawXY_draws _ _ _ _ _ (fun a ha => hW a ?_) t p h hg
    exact ha
  | dependent hW =>
    refine .get fun t p h hg => ?_
    rw [h.swctrl, h.setup]
    exact drawXY_draws _ _ _ _ _ hW t p h hg
  | linear hW => exact drawLinear_draws _ _ _ _ hW

/-- Loading the engine's registers moves no translation, and leaves the memory-mapped registers and the engine alone. -/
theorem State.Loaded.frame (h : s.Loaded i t) : t.xlatView = s.xlatView ∧ t.regs = s.regs ∧ t.engine = s.engine := by
  obtain ⟨_, _, _, rfl, _⟩ := h
  exact ⟨rfl, rfl, rfl⟩

/-- So the status writes of page faults are the same before and after. -/
theorem State.Loaded.faultWrite (h : s.Loaded i t) {c : List Host.Cell} (hc : t.faultWrite c) : s.faultWrite c := by
  obtain ⟨hview, hregs, hengine⟩ := h.frame
  obtain ⟨rise, a, write, of, h1, h2, h3, h4⟩ := hc
  unfold State.parserAddr at h4
  rw [translate_congr hview, hengine] at h1
  rw [parserPhys_congr hview, hregs] at h3 h4
  exact ⟨rise, a, write, of, h1, by rw [← h2, State.silent, State.silent, hregs], h3, h4⟩

/-- Settles O45: the registers are loaded, and from then on every operation draws. -/
theorem bltChangesOnly : Obligations.BltChangesOnly := by
  unfold Obligations.BltChangesOnly
  intro i s t hb ht
  obtain ⟨u, m, hexec, hload, hwork⟩ := exec_blt i hb s
  obtain ⟨⟨p, hd⟩, hend⟩ := hwork.draws.outcome (hexec ▸ ht)
  have hfault := fun c hc => hload.faultWrite (hd.writes c hc)
  obtain ⟨_, _, _, rfl, hset⟩ := hload
  have hsetup := hd.setup
  obtain ⟨b, hisr⟩ := hd.isr
  refine ⟨?_, ⟨p, hfault, hd.posted, fun hm => ?_, fun h1 h2 h3 => (hd.caches ⟨h1, h2, h3⟩).2⟩, ?_, hd.iir, hd.gab,
    hd.xlats.1, hd.xlats.2, hend.1, hend.2, fun hi => hsetup.trans (hset hi)⟩
  · obtain ⟨_, _, _, _, _, _, _, _, _, _, _, _, _, _, rfl⟩ := hd.frame
    rfl
  · obtain ⟨hmem, htc, hpost⟩ := hd.still hm
    exact ⟨hpost, hmem, htc, hd.cache hm⟩
  · rw [hisr, bit_setBit_same _ _ _ (by decide)]

end Sys2Proof.Machine
end

section
/-! PROOFS. A step at a BLT command (R28, R370), and a step of a waiting parser (R27, R370, R435). -/

namespace Sys2Proof.Machine

variable {s t : State} {i : Instr} {n : Nat}

/-- A command done inside a step gives the step its outcome. -/
theorem outcome_ofOutcome (f : State → Host.Outcome State Fault Refusal) (s : State) : M.outcome (M.ofOutcome f) s = f s := by
  unfold M.outcome M.ofOutcome
  cases f s <;> rfl

/-- With no posted write and no asynchronous load left, nothing happens in the background. -/
theorem background_nothing (hp : s.posted = []) (ha : s.asyncLoads = []) : background s = .ok (⟨⟩, s) := by
  simp [background, landAsyncLoad, hp, ha]

/-! ## A BLT command at `pc` -/

/-- Where `pc` goes does not depend on what has been fetched, nor on the run state before. -/
theorem advanced_fetched_running (s : State) (l : List TlbEntry) (n : Nat) :
    ({ s with xlats := l, parser := { s.parser with run := .running } } : State).advanced n =
      { s.advanced n with xlats := l } := by
  unfold State.advanced
  split <;> rfl

theorem advanced_fetched (s : State) (l : List TlbEntry) (n : Nat) :
    ({ s with xlats := l } : State).advanced n = { s.advanced n with xlats := l } := by
  unfold State.advanced
  split <;> rfl

/-- An idle engine takes the BLT command at `pc`, and has executed it by the end of the step (R370, log 6). -/
theorem handOver_ok (hc : s.canAdvance n)
    (hf : isImmediate i.op → s.parser.inBatch = false → (s.advanced n).regs.headOff ≠ s.regs.tailOff) :
    handOver i n false s =
      M.ofOutcome (exec i) { s.advanced n with engine := ⟨.idle, s.parser.space⟩ } := by
  unfold handOver
  rw [bind_ok (handTo_ok hc hf)]
  rfl

/-- Settles O42: the step is the fetch, and then the engine takes the command, or the parser waits for it. -/
theorem stepRunsBltCommand : Obligations.StepRunsBltCommand := by
  unfold Obligations.StepRunsBltCommand
  intro s ws i hat hw hd hb
  obtain ⟨l, hl⟩ := fetched_eq s s.fetchPoint.space s.fetchPoint.addr ws.length
  have hrun := runCommand_ok (defer := false) hat hw hd
  rw [if_pos hb, State.taken, hl] at hrun
  refine ⟨fun hidle hcan hfollow => ?_, fun hhung hpost hasync => ?_⟩
  · have hstep := (stepM_atCommand hat (.inl hidle)).trans hrun
    have hidle' : whenIdle (handOver i ws.length false) { s with xlats := l } =
        handOver i ws.length false { s with xlats := l, parser := { s.parser with run := .running } } := by
      simp [whenIdle, State.engineBusy, hidle]
    have hdone := handOver_ok (i := i) (n := ws.length)
      (s := { s with xlats := l, parser := { s.parser with run := .running } }) hcan fun him hring => by
        rw [advanced_fetched_running]
        exact hfollow him hring
    rw [State.taken, hl, advanced_fetched]
    rw [advanced_fetched_running] at hdone
    exact (outcome_congr (hstep.trans (hidle'.trans hdone))).trans (outcome_ofOutcome _ _)
  · have hstep := (stepM_atCommand hat (.inr hhung)).trans hrun
    rw [State.taken, hl]
    refine outcome_ok (hstep.trans ?_)
    simp [whenIdle, State.engineBusy, hhung, background_nothing, hpost, hasync]

/-! ## A waiting command -/

/-- The parser waits on this command (R27). -/
def State.waitsOn (s : State) (i : Instr) : Prop :=
  s.parser.run = .waitEvent i ∨ s.parser.run = .waitSemaphore i ∨ s.parser.run = .waitFlush i ∨ s.parser.run = .waitRead i

/-- The step of a waiting parser re-evaluates its command (R370). -/
theorem stepM_waiting (hq : s.quiet) (hs : s.schedule = []) (hsync : s.syncFlushReady = false) (hring : s.ringEnabled)
    (he : s.engine.run = .idle ∨ s.engine.run = .hung) (hw : s.waitsOn i) : stepM s = rewait i s := by
  unfold stepM
  rw [bind_ok (beginStep_quiet hq)]
  simp only [run_get_bind, hs, defaultStep, hsync, Bool.false_eq_true, if_false]
  rw [if_neg (by rcases he with he | he <;> simp [State.engineBusy, he])]
  unfold parserStep
  rw [run_get_bind]
  rcases hw with hw | hw | hw | hw <;> simp [hw, hring]

/-- What a re-evaluated command leaves, and what follows if the parser still waits (R370, R435). -/
theorem rewait_next (ht : exec i s = .next t) :
    rewait i s = if t.parser.run = s.parser.run then (if stopsWait t then rest .stopped t else background t)
      else .ok (⟨⟩, t) := by
  unfold rewait
  simp only [run_get_bind]
  rw [bind_ok (ofOutcome_next ht), run_get_bind]
  simp only [beq_iff_eq]
  split
  · split <;> rfl
  · rfl

/-- Stop Ring ends a wait for an event or a semaphore (R435, log 46). -/
theorem rest_stopped_waiting (hw : t.parser.run = .waitEvent i ∨ t.parser.run = .waitSemaphore i) (hp : t.posted = [])
    (ha : t.asyncLoads = []) :
    rest .stopped t = .ok (⟨⟩, { t with parser := { t.parser with run := .stopped }, regs := t.regs.waitOver }) := by
  unfold rest endWait
  rw [bind_ok (s' := { t with regs := t.regs.waitOver }) (a := ⟨⟩) (by rcases hw with hw | hw <;> simp [hw])]
  rw [run_setRun_bind]
  exact background_nothing hp ha

/-- Settles O43: a step of a waiting parser is its command, and what follows it while the wait goes on. -/
theorem stepResumesWait : Obligations.StepResumesWait := by
  unfold Obligations.StepResumesWait
  intro s t i hq hs hsync hring he hw ht
  have hstep := (stepM_waiting hq hs hsync hring he hw).trans (rewait_next ht)
  refine ⟨fun hne => outcome_ok (hstep.trans (if_neg hne)), fun heq hp ha => ?_⟩
  rw [if_pos heq] at hstep
  refine ⟨fun hgoes => outcome_ok (hstep.trans ?_), fun hstop hwait => outcome_ok (hstep.trans ?_)⟩
  · rw [if_neg, background_nothing hp ha]
    rcases hgoes with hgoes | hgoes | hgoes <;> simp [stopsWait, heq, hgoes]
  · rw [if_pos (by rcases hwait with hwait | hwait <;> simp [stopsWait, heq, hwait, hstop])]
    exact rest_stopped_waiting (by rwa [heq]) hp ha

end Sys2Proof.Machine
end

section
/-! PROOFS. The BLT forms without a meaning: which check of the common drawing operations refuses a job, and that each form meets
that check. -/

namespace Sys2Proof.Machine

variable {j : Job} {clip : Option Box} {b : Box} {xb yb : Bool} {s : State}

/-! ## The checks of a job, in their order -/

/-- A raster operation with an operand the command lacks (R224, M1). -/
theorem drawXY_ropOperand (h : j.ropLegal = false) : drawXY j clip b xb yb s = .error (.refused .ropOperand) :=
  require_bind_not h

/-- A monochrome source and a negative destination pitch (R251, M2). -/
theorem drawXY_negativePitch (hr : j.ropLegal) (hm : j.src.isMono) (hp : j.dst.pitch < 0) :
    drawXY j clip b xb yb s = .error (.refused .negativePitch) := by
  unfold drawXY checkRop
  simp only
  rw [require_bind (by exact hr)]
  exact require_bind_not (by simp [hm, hp])

/-- What refuses the destination surface refuses the job. -/
theorem drawXY_surface {r : Refusal} (hr : j.ropLegal) (hm : j.src.isMono = false ∨ 0 ≤ j.dst.pitch)
    (hd : checkSurface j.dst (bpp j.depth) s = .error (.refused r)) :
    drawXY j clip b xb yb s = .error (.refused r) := by
  unfold drawXY checkRop
  simp only
  rw [require_bind (by exact hr), require_bind (by rcases hm with hm | hm <;> simp [hm])]
  exact bind_error hd

/-- A monochrome source of more than 32,745 pixels in a line (R136, M3). -/
theorem drawXY_source {r : Refusal} (hr : j.ropLegal) (hm : j.src.isMono = false ∨ 0 ≤ j.dst.pitch)
    (hd : j.dst.legal (bpp j.depth)) (hs : checkSource j s = .error (.refused r)) :
    drawXY j clip b xb yb s = .error (.refused r) := by
  unfold drawXY checkRop
  simp only
  rw [require_bind (by exact hr), require_bind (by rcases hm with hm | hm <;> simp [hm]), bind_ok (checkSurface_ok hd)]
  exact bind_error hs

/-- An immediate monochrome source of the right amount that is over 128 bytes (R137, log 42). -/
theorem drawXY_immediateTooLarge (hr : j.ropLegal) (hm : 0 ≤ j.dst.pitch) (hd : j.dst.legal (bpp j.depth))
    (hs : j.sourceLegal) (hi : immediateOk j (b.bottom - b.top).toNat)
    (hf : immediateFits j (b.bottom - b.top).toNat = false) :
    drawXY j clip b xb yb s = .error (.refused .immediateTooLarge) := by
  unfold drawXY checkRop
  simp only
  rw [require_bind (by exact hr), require_bind (by simp [hm]), bind_ok (checkSurface_ok hd), bind_ok (checkSource_ok hs),
    if_pos hi]
  exact require_bind_not hf

/-- A legal job draws its pixels. -/
theorem drawXY_legal (h : j.legal (b.bottom - b.top).toNat) :
    drawXY j clip b xb yb s = drawPixels j (overlapOf j conformingXY (drawnPixels b clip xb yb) s) (drawnPixels b clip xb yb) s := by
  simp only [Job.legal, Bool.and_eq_true] at h
  obtain ⟨⟨⟨⟨⟨h1, h2⟩, h3⟩, h4⟩, h5⟩, h6⟩ := h
  unfold drawXY checkRop
  simp only
  rw [require_bind (by exact h1), require_bind h2, bind_ok (checkSurface_ok h3), bind_ok (checkSource_ok h4), if_pos h5,
    require_bind h6]
  rfl

/-- A linear job of more than 13 bits of height (R39, log 17). -/
theorem drawLinear_br14Range {height width : BitVec 16} (hr : j.ropLegal) (hh : 0x1FFF < height.toNat) :
    drawLinear j height width xb s = .error (.refused .br14Range) := by
  unfold drawLinear checkRop
  simp only
  rw [require_bind (by exact hr)]
  exact require_bind_not (by simp [Config.br14SixteenBit, hh])

/-- A linear surface whose base or pitch is not aligned (R126, M5). -/
theorem checkSurface_misaligned {base : Nat} {pitch : Int} {n : Nat} (h : base % n ≠ 0 ∨ pitch % 4 ≠ 0) :
    checkSurface ⟨none, base, pitch⟩ n s = .error (.refused .misaligned) := by
  refine (run_require _ _ _).trans (if_neg ?_)
  simp only [Bool.and_eq_true, beq_iff_eq]
  omega

/-- A tiled surface of negative pitch (R251, M2). -/
theorem checkSurface_negativePitch {m : TileMode} {base pitch : Int} {n : Nat} (h : pitch < 0) :
    checkSurface ⟨some m, base, pitch⟩ n s = .error (.refused .negativePitch) :=
  require_bind_not (by simpa using h)

/-! ## One pixel -/

variable {ov : Nat → Nat → Bool} {x y : Int} {v : Word} {c : Bool}

/-- A pixel whose operands can be read, and which nothing keeps, is written (R255). -/
theorem drawPixel_writeDest (hp : j.patternReady s x y) (hs : j.sourceReady s x y) (hd : destRead j.rop j.mode = false)
    (he : j.enabledAt s x y) :
    drawPixel j ov x y s = writeDest j ov (j.sourceCached s x y) x y (j.resultAt s x y) (j.noted s x y) := by
  have e1 := afterPattern_sameBut j s x y
  have e2 := e1.trans (afterSource_sameBut j (j.afterPattern s x y) x y)
  unfold drawPixel
  rw [bind_ok (patternOperand_ok hp)]
  simp only
  rw [bind_ok (sourceOperand_ok (by rw [e1.sourceReady]; exact hs))]
  simp only
  rw [bind_ok (destOperand_ok (by rw [e2.sourceCached, e1.sourceCached]) (by rw [hd]; rfl)), e1.sourceCached]
  unfold Job.enabledAt Job.operandsAt at he
  unfold Job.resultAt Job.operandsAt
  rw [show (_ && _ && _) = true from he, onlyIf_true]
  rfl

/-- A write outside the 32-bit address space (R121, M6). -/
theorem writeDest_outOfRange (hw : j.writesBytes)
    (ha : j.dst.addr (bpp j.depth) x y < 0 ∨ 0x100000000 < j.dst.addr (bpp j.depth) x y + bpp j.depth) :
    writeDest j ov c x y v s = .error (.refused .addressOutOfRange) := by
  unfold writeDest
  rw [hw, onlyIf_true]
  refine bind_error (bind_error (bind_error ?_))
  refine (run_require _ _ _).trans (if_neg ?_)
  simp only [Bool.and_eq_true, decide_eq_true_eq]
  omega

/-- A write to cacheable memory of a tiled destination, or with a cacheable source (R161, M8). -/
theorem writeDest_cacheability (hw : j.writesBytes)
    (hc : s.physCached (j.dst.addr (bpp j.depth) x y) (bpp j.depth) true (.dest x y))
    (hs : j.dst.tile.isSome ∨ c) : writeDest j ov c x y v s = .error (.refused .cacheability) := by
  have hp : (s.phys (j.dst.addr (bpp j.depth) x y) (bpp j.depth) true (.dest x y)).isSome := by
    unfold State.physCached at hc
    cases h : s.phys (j.dst.addr (bpp j.depth) x y) (bpp j.depth) true (.dest x y) with
    | none => simp [h] at hc
    | some p => rfl
  obtain ⟨p, hacc, _, hcached⟩ := phys_some hp
  rw [hc] at hcached
  unfold writeDest
  rw [hw, onlyIf_true, bind_ok hacc]
  refine bind_error ?_
  unfold checkDest checkTiled
  rw [← hcached]
  cases ht : j.dst.tile.isSome with
  | true => rfl
  | false =>
    have hcs : c = true := by simpa [ht] using hs
    subst hcs
    rfl

/-! ## The forms, one after the other -/

theorem xyPatChromaBlt_reservedMode (len d mode seeds pat lo hi) (h : chromaPatModeOk mode = false) :
    exec (.xyPatChromaBlt len d mode seeds pat lo hi) s = .refused .reservedValue := by
  refine outcome_error ?_
  rw [latchDraw_bind, latchSeeds_bind, run_onBr_bind, latchKey_bind]
  exact require_bind_not h

theorem xyPatChromaBltImmediate_reservedMode (len d mode seeds lo hi data) (h : chromaPatModeOk mode = false) :
    exec (.xyPatChromaBltImmediate len d mode seeds lo hi data) s = .refused .reservedValue := by
  refine outcome_error ?_
  rw [latchDraw_bind, latchSeeds_bind, latchKey_bind]
  exact require_bind_not h

theorem xyMonoPatFixedBlt_reservedPattern (len d transp fixed seeds bg fg) (h : fixedPatternOk fixed = false) :
    exec (.xyMonoPatFixedBlt len d transp fixed seeds bg fg) s = .refused .reservedValue := by
  refine outcome_error ?_
  rw [latchDraw_bind, latchSeeds_bind, run_onBr_bind]
  exact require_bind_not h

/-- A pattern off its boundary fails its check. -/
theorem patAligned_eq_false {w : Word} {n : Nat} (h : patAddr w % (64 * n) ≠ 0) : (patAddr w % (64 * n) == 0) = false := by
  simpa using h

theorem xyPatBlt_patternMisaligned (len d seeds pat) (h : patAddr pat % (64 * bpp d.pen.depth) ≠ 0) :
    exec (.xyPatBlt len d seeds pat) s = .refused .patternMisaligned := by
  refine outcome_error ?_
  rw [latchDraw_bind, latchSeeds_bind, run_onBr_bind]
  exact require_bind_not (patAligned_eq_false h)

theorem xyFullBlt_patternMisaligned (len d seeds c pat) (h : patAddr pat % (64 * bpp d.pen.depth) ≠ 0) :
    exec (.xyFullBlt len d seeds c pat) s = .refused .patternMisaligned := by
  refine outcome_error ?_
  rw [latchDraw_bind, latchSeeds_bind, latchSource_bind, run_onBr_bind]
  exact require_bind_not (patAligned_eq_false h)

theorem xyScanlinesBlt_patternMisaligned (len tiled seeds r) (hm : s.setup.monoPattern = false)
    (h : patAddr s.setup.br07 % (64 * bpp (setupPen s.setup).depth) ≠ 0) :
    exec (.xyScanlinesBlt len tiled seeds r) s = .refused .patternMisaligned := by
  refine outcome_error ?_
  rw [latchDependent_bind, latchRect_bind, latchSeeds_bind, run_onBr_bind, hm]
  exact require_bind_not (patAligned_eq_false h)

/-- A refusal by the drawing of a solid rectangle refuses XY_COLOR_BLT. -/
theorem xyColorBlt_refused {r : Refusal} (len d color)
    (h : ∀ t : State, drawXY { drawJob d s.regs.swctrl with pat := .solid color } (clipOf s.setup d.clip) (rectBox d.rect) false
      false t = .error (.refused r)) : exec (.xyColorBlt len d color) s = .refused r := by
  refine outcome_error ?_
  rw [latchDraw_bind, run_onBr_bind]
  exact h _

theorem xyColorBlt_ropOperand (len d color) (h : (ropUses d.pen.rop).s) :
    exec (.xyColorBlt len d color) s = .refused .ropOperand :=
  xyColorBlt_refused len d color fun _ => drawXY_ropOperand (by simp [Job.ropLegal, Source.isPresent, drawJob, h])

theorem xyColorBlt_misaligned (len d color) (hr : (ropUses d.pen.rop).s = false) (ht : d.tiled = false)
    (h : d.base.toNat % bpp d.pen.depth ≠ 0 ∨ d.pen.pitch.toInt % 4 ≠ 0) :
    exec (.xyColorBlt len d color) s = .refused .misaligned :=
  xyColorBlt_refused len d color fun _ =>
    drawXY_surface (by simp [Job.ropLegal, Pattern.isPresent, drawJob, hr]) (.inl rfl) (by
      simp only [drawJob, xySurface, tileOf, ht, Bool.false_eq_true, if_false]
      exact checkSurface_misaligned h)

theorem xyColorBlt_negativePitch (len d color) (hr : (ropUses d.pen.rop).s = false) (ht : d.tiled = true)
    (h : d.pen.pitch.toInt < 0) : exec (.xyColorBlt len d color) s = .refused .negativePitch :=
  xyColorBlt_refused len d color fun _ =>
    drawXY_surface (by simp [Job.ropLegal, Pattern.isPresent, drawJob, hr]) (.inl rfl) (by
      simp only [drawJob, xySurface, tileOf, ht, if_true]
      exact checkSurface_negativePitch (by omega))

theorem xySrcCopyBlt_ropOperand (len d c) (h : (ropUses d.pen.rop).p) :
    exec (.xySrcCopyBlt len d c) s = .refused .ropOperand := by
  refine outcome_error ?_
  rw [latchDraw_bind, latchSource_bind]
  exact drawXY_ropOperand (by simp [Job.ropLegal, Pattern.isPresent, drawJob, h])

/-- The sign of the pitch of a destination is that of its field (R36). -/
theorem drawJob_pitch_nonneg (d : Draw) (sw : Word) : 0 ≤ (drawJob d sw).dst.pitch ↔ 0 ≤ d.pen.pitch.toInt := by
  simp only [drawJob, xySurface]
  split <;> omega

theorem xyMonoSrcCopyBlt_negativePitch (len d transp start src bg fg) (hr : (ropUses d.pen.rop).p = false)
    (h : d.pen.pitch.toInt < 0) : exec (.xyMonoSrcCopyBlt len d transp start src bg fg) s = .refused .negativePitch := by
  refine outcome_error ?_
  rw [latchDraw_bind, latchStart_bind, run_onBr_bind]
  refine drawXY_negativePitch (by simp [Job.ropLegal, Source.isPresent, wordSource, drawJob, hr]) rfl ?_
  exact not_le.mp fun hp => absurd ((drawJob_pitch_nonneg d _).mp hp) (by omega)

theorem xyMonoSrcCopyBlt_widthLimit (len d transp start src bg fg) (hr : (ropUses d.pen.rop).p = false)
    (hp : 0 ≤ d.pen.pitch.toInt) (hd : (drawJob d s.regs.swctrl).dst.legal (bpp d.pen.depth))
    (h : 32745 < rectWidth d.rect) : exec (.xyMonoSrcCopyBlt len d transp start src bg fg) s = .refused .widthLimit := by
  refine outcome_error ?_
  rw [latchDraw_bind, latchStart_bind, run_onBr_bind]
  exact drawXY_source (by simp [Job.ropLegal, Source.isPresent, wordSource, drawJob, hr])
    (.inr ((drawJob_pitch_nonneg d _).mpr hp)) hd ((run_require _ _ _).trans (if_neg (by simpa using h)))

theorem xyMonoSrcCopyImmediateBlt_immediateTooLarge (len d transp start bg fg data) (hr : (ropUses d.pen.rop).p = false)
    (hp : 0 ≤ d.pen.pitch.toInt) (hd : (drawJob d s.regs.swctrl).dst.legal (bpp d.pen.depth))
    (hw : rectWidth d.rect ≤ 32745)
    (hn : (data.length : Int) =
      neededDwords ((MonoLayout.wordAligned start.toNat).bytes (rectWidth d.rect) (rectHeight d.rect)))
    (h : 128 < (MonoLayout.wordAligned start.toNat).bytes (rectWidth d.rect) (rectHeight d.rect)) :
    exec (.xyMonoSrcCopyImmediateBlt len d transp start bg fg data) s = .refused .immediateTooLarge := by
  refine outcome_error ?_
  rw [latchDraw_bind, latchStart_bind, run_onBr_bind]
  exact drawXY_immediateTooLarge (by simp [Job.ropLegal, Source.isPresent, drawJob, hr])
    ((drawJob_pitch_nonneg d _).mpr hp) hd (by simpa [Job.sourceLegal] using hw)
    (by simp only [immediateOk, drawJob, Bool.true_and, beq_iff_eq]; exact hn)
    (by simp only [immediateFits, decide_eq_false_iff_not, not_le]; exact h)

theorem colorBlt_misaligned (len mask pen height width dst color)
    (h : dst.toNat % bpp pen.depth ≠ 0 ∨ pen.pitch.toInt % 4 ≠ 0) :
    exec (.colorBlt len mask pen height width dst color) s = .refused .misaligned := by
  refine outcome_error ?_
  rw [latchLinear_bind, run_onBr_bind]
  refine require_bind_not ?_
  rcases h with h | h <;> simp [h]

theorem colorBlt_br14Range (len mask rop pitch height width dst color) (hr : (ropUses rop).s = false)
    (hp : pitch.toInt % 4 = 0) (h : 0x1FFF < height.toNat) :
    exec (.colorBlt len mask ⟨.c8, rop, pitch⟩ height width dst color) s = .refused .br14Range := by
  refine outcome_error ?_
  rw [latchLinear_bind, run_onBr_bind]
  simp only
  rw [require_bind (by simp [bpp, hp, Nat.mod_one])]
  exact drawLinear_br14Range (by simp [Job.ropLegal, Pattern.isPresent, linearJob, hr]) h

theorem srcCopyBlt_misaligned (len mask xdir pen height width dst spitch src) (h : spitch.toInt % 4 ≠ 0) :
    exec (.srcCopyBlt len mask xdir pen height width dst spitch src) s = .refused .misaligned := by
  refine outcome_error ?_
  rw [latchLinear_bind, run_onBr_bind]
  exact require_bind_not (by simpa using h)

theorem xyTextBlt_ropOperand (len tiled packed r src) (h : (ropUses (setupPen s.setup).rop).p) :
    exec (.xyTextBlt len tiled packed r src) s = .refused .ropOperand := by
  refine outcome_error ?_
  rw [latchDependent_bind, latchRect_bind, run_onBr_bind]
  exact drawXY_ropOperand (by simp [Job.ropLegal, Pattern.isPresent, setupJob, h])

theorem xyPixelBlt_negativePitch (len tiled x y) (h : (setupPen s.setup).pitch.toInt < 0) :
    exec (.xyPixelBlt len tiled x y) s = .refused .negativePitch := by
  refine outcome_error ?_
  rw [latchDependent_bind, run_onBr_bind]
  exact require_bind_not (by simpa using h)

/-- A refusal by the drawing of the one pixel refuses XY_PIXEL_BLT. -/
theorem xyPixelBlt_refused {r : Refusal} (len tiled) (x y : BitVec 16) (hp : 0 ≤ (setupPen s.setup).pitch.toInt)
    (h : ∀ t : State, drawXY { setupJob s.setup s.regs.swctrl tiled with pat := .solid s.setup.br05 }
      (clipOf s.setup (bit s.setup.br01 30)) ⟨x.toInt, y.toInt, x.toInt + 1, y.toInt + 1⟩ false false t =
        .error (.refused r)) : exec (.xyPixelBlt len tiled x y) s = .refused r := by
  refine outcome_error ?_
  rw [latchDependent_bind, run_onBr_bind, require_bind (by simpa using hp)]
  exact h _

theorem xyPixelBlt_ropOperand (len tiled x y) (hp : 0 ≤ (setupPen s.setup).pitch.toInt)
    (h : (ropUses (setupPen s.setup).rop).s) : exec (.xyPixelBlt len tiled x y) s = .refused .ropOperand :=
  xyPixelBlt_refused len tiled x y hp fun _ => drawXY_ropOperand (by simp [Job.ropLegal, Source.isPresent, setupJob, h])

/-- One pixel of a legal job: what refuses its write refuses the job. -/
theorem drawXY_pixel {r : Refusal} (hl : j.legal (b.bottom - b.top).toNat) (hpx : drawnPixels b clip xb yb = [(x, y)])
    (h : ∀ ov, drawPixel j ov x y s = .error (.refused r)) : drawXY j clip b xb yb s = .error (.refused r) := by
  rw [drawXY_legal hl, hpx]
  exact bind_error (h _)

theorem xyPixelBlt_outOfRange (len tiled) (x y : BitVec 16) {j : Job} (a : Int)
    (hj : j = { setupJob s.setup s.regs.swctrl tiled with pat := .solid s.setup.br05 })
    (hp : 0 ≤ (setupPen s.setup).pitch.toInt) (hl : j.legal 1) (hd : (ropUses j.rop).d = false) (hw : j.writesBytes)
    (hpx : drawnPixels ⟨x.toInt, y.toInt, x.toInt + 1, y.toInt + 1⟩ (clipOf s.setup (bit s.setup.br01 30)) false false =
      [(x.toInt, y.toInt)]) (ha : a = j.dst.addr (bpp j.depth) x.toInt y.toInt)
    (h : a < 0 ∨ 0x100000000 < a + bpp j.depth) :
    exec (.xyPixelBlt len tiled x y) s = .refused .addressOutOfRange := by
  subst hj ha
  refine xyPixelBlt_refused len tiled x y hp fun t => drawXY_pixel ?_ hpx fun ov => ?_
  · simpa using hl
  · rw [drawPixel_writeDest rfl rfl (by simpa [destRead, destMode, setupJob] using hd) rfl]
    exact writeDest_outOfRange hw h

/-- Loading the engine's registers moves no access. -/
theorem phys_br (s : State) (l : Br) (a : Int) (n : Nat) (w : Bool) (use : Use) :
    ({ s with br := l } : State).phys a n w use = s.phys a n w use := by
  unfold State.phys
  rw [translate_congr (s := s) (t := { s with br := l }) rfl]

theorem xySrcCopyBlt_cacheability (len d c) (p : Int × Int) {j : Job}
    (hj : j = { drawJob d s.regs.swctrl with src := copySource d.rect c s.regs.swctrl })
    (hl : j.legal (copyHeight d.rect c)) (hd : (ropUses j.rop).d = false) (hw : j.writesBytes)
    (hpx : copyPixels d c s.setup = [p]) (hs : j.sourceReady s p.1 p.2)
    (hc : s.physCached (j.dst.addr (bpp j.depth) p.1 p.2) (bpp j.depth) true (.dest p.1 p.2))
    (h : d.tiled ∨ j.sourceCached s p.1 p.2) : exec (.xySrcCopyBlt len d c) s = .refused .cacheability := by
  have hphys := phys_br s ((s.br.withDraw .xySrcCopyBlt d 0 false false false).withSource c)
  have htile : d.tiled → j.dst.tile.isSome := fun ht => by simp [hj, drawJob, xySurface, tileOf, ht]
  have hmode : j.mode = 0 := by rw [hj]; rfl
  have hpat : j.pat = .absent := by rw [hj]; rfl
  have hsrc : ∃ f ox oy, j.src = .color f ox oy := ⟨_, _, _, by rw [hj]; rfl⟩
  refine outcome_error ?_
  rw [latchDraw_bind, latchSource_bind]
  unfold runCopy
  rw [run_get_bind]
  simp only [← hj]
  refine drawXY_pixel (x := p.1) (y := p.2) hl hpx fun ov => ?_
  rw [drawPixel_writeDest]
  · refine writeDest_cacheability hw ?_ (h.imp htile fun h => ?_)
    · unfold State.physCached at hc ⊢
      rw [(noted_sameBut ..).phys, hphys]
      exact hc
    · simpa only [Job.sourceCached, State.physCached, hphys] using h
  · simp [Job.patternReady, hpat]
  · simpa only [Job.sourceReady, State.physCached, hphys] using hs
  · simp [destRead, hd, hmode, destMode]
  · obtain ⟨f, ox, oy, hsrc⟩ := hsrc
    simp only [Job.enabledAt, Job.operandsAt, Job.patternAt, Job.sourceAt, hpat, hsrc, hmode, rangeEnable, sourceMode,
      destMode]
    split <;> rfl

/-- Settles O51: each form fails the check its lemma names. -/
theorem illegalBltFormsStop : Obligations.IllegalBltFormsStop := by
  unfold Obligations.IllegalBltFormsStop
  intro s
  exact ⟨xyPatChromaBlt_reservedMode, xyPatChromaBltImmediate_reservedMode, xyMonoPatFixedBlt_reservedPattern,
    xyPatBlt_patternMisaligned, xyFullBlt_patternMisaligned, xyColorBlt_ropOperand, xySrcCopyBlt_ropOperand,
    xyColorBlt_misaligned, xyColorBlt_negativePitch, xyMonoSrcCopyBlt_negativePitch, xyMonoSrcCopyBlt_widthLimit,
    xyMonoSrcCopyImmediateBlt_immediateTooLarge, colorBlt_misaligned, srcCopyBlt_misaligned, colorBlt_br14Range,
    xyPixelBlt_negativePitch, xyPixelBlt_ropOperand, xyTextBlt_ropOperand, xyScanlinesBlt_patternMisaligned,
    fun len tiled x y hp hl hd hw hpx h => xyPixelBlt_outOfRange len tiled x y _ rfl hp hl hd hw hpx rfl h,
    fun len d c p hl hd hw hpx hs hc h => xySrcCopyBlt_cacheability len d c p rfl hl hd hw hpx hs hc h⟩

end Sys2Proof.Machine
end

section
/-! PROOFS. The invariant in its parts, and what keeps each part. -/

namespace Sys2Proof.Machine

/-! ## Bits that stay 0 -/

section
variable {w v m : Word}

theorem or_and_eq_zero (hw : w &&& m = 0) (hv : v &&& m = 0) : (w ||| v) &&& m = 0 := by
  rw [BitVec.and_or_distrib_right, hw, hv]
  rfl

theorem and_and_eq_zero (v : Word) (hw : w &&& m = 0) : (w &&& v) &&& m = 0 := by
  rw [BitVec.and_assoc, BitVec.and_comm v, ← BitVec.and_assoc, hw]
  exact BitVec.zero_and

/-- A plain register keeps the bits 0 that it does not have (R61). -/
theorem plainWrite_and (v : Word) {impl : Word} (hw : w &&& m = 0) (hi : impl &&& m = 0) : plainWrite w v impl &&& m = 0 :=
  or_and_eq_zero (and_and_eq_zero _ hw) (by rw [BitVec.and_comm v]; exact and_and_eq_zero v hi)

/-- So does a masked one (R61). -/
theorem maskedWrite_and (v : Word) {impl : Word} (hw : w &&& m = 0) (hi : impl &&& m = 0) :
    maskedWrite w v impl &&& m = 0 :=
  or_and_eq_zero (and_and_eq_zero _ hw) (by rw [BitVec.and_comm _ impl]; exact and_and_eq_zero _ hi)

theorem setBit_and {i : Nat} (b : Bool) (hw : w &&& m = 0) (hi : (1#32 <<< i) &&& m = 0) : setBit w i b &&& m = 0 := by
  cases b
  · exact and_and_eq_zero _ hw
  · exact or_and_eq_zero hw hi

/-- Bits 1:0 are 0 exactly in a multiple of 4. -/
theorem and_three_eq_zero_iff (w : Word) : w &&& 3 = 0 ↔ w.toNat % 4 = 0 := by
  rw [← BitVec.toNat_inj, BitVec.toNat_and]
  exact Eq.congr_left (Nat.and_two_pow_sub_one_eq_mod w.toNat 2)

/-- A field that lies above bits 1:0 leaves them 0. -/
theorem put_and_three {n lo : Nat} (v : BitVec n) (hw : w &&& 3 = 0) (hlo : 2 ≤ lo) : put w lo v &&& 3 = 0 := by
  refine or_and_eq_zero hw ?_
  rw [and_three_eq_zero_iff, BitVec.toNat_shiftLeft, Nat.shiftLeft_eq]
  obtain ⟨k, rfl⟩ := Nat.exists_eq_add_of_le hlo
  rw [Nat.pow_add, show (2 : Nat) ^ 2 = 4 from rfl, ← mul_assoc, mul_right_comm]
  omega

end

/-! ## Reserved bits -/

/-- The reserved bits of the registers, one register at a time (R61, R94). -/
structure Regs.Reserved (r : Regs) : Prop where
  hwsPga : r.hwsPga &&& 0x00000FFF = 0
  excc : r.excc &&& 0xFFFFFFE0 = 0
  tail : r.tail &&& 0xFFE00007 = 0
  head : r.head &&& 3 = 0
  start : r.start &&& 0x00000FFF = 0
  ctl : r.ctl &&& 0xFFE003F8 = 0
  r22050 : r.r22050 &&& 0xFFFF0000 = 0
  hwstam : r.hwstam ||| definedInts = 0xFFFFFFFF
  miMode : r.miMode &&& 0xFFFF0602 = 0
  gabMode : r.gabMode &&& 0xFFFF0000 = 0
  eir : r.eir &&& 0xFFFF0000 = 0
  emr : r.emr &&& 0xFFFF0000 = 0
  esr : r.esr &&& 0xFFFFFFFE = 0
  instpm : r.instpm &&& 0xFFFF0000 = 0
  uhptr : r.uhptr &&& 0x00000006 = 0
  cxtSize : r.cxtSize &&& 0xFFFFE0FF = 0
  swctrl : r.swctrl &&& 0xFFFFFFFC = 0
  bltMode : r.bltMode &&& 0xFFFFFDFF = 0
  syncFlip : r.syncFlip &&& 0x888F8020 = 0
  gabCtl : r.gabCtl &&& 0xFFFFFE00 = 0
  gabErr : r.gabErr &&& 0xFFFFFF63 = 0
  isr : r.isr &&& ~~~definedInts = 0
  iir : r.iir &&& ~~~definedInts = 0

theorem Regs.reservedOk_iff (r : Regs) : r.reservedOk ↔ r.Reserved := by
  simp only [Regs.reservedOk, Bool.and_eq_true, beq_iff_eq, and_assoc]
  constructor
  · rintro ⟨h1, h2, h3, h4, h5, h6, h7, h8, h9, h10, h11, h12, h13, h14, h15, h16, h17, h18, h19, h20, h21, h22, h23⟩
    exact ⟨h1, h2, h3, h4, h5, h6, h7, h8, h9, h10, h11, h12, h13, h14, h15, h16, h17, h18, h19, h20, h21, h22, h23⟩
  · rintro ⟨h1, h2, h3, h4, h5, h6, h7, h8, h9, h10, h11, h12, h13, h14, h15, h16, h17, h18, h19, h20, h21, h22, h23⟩
    exact ⟨h1, h2, h3, h4, h5, h6, h7, h8, h9, h10, h11, h12, h13, h14, h15, h16, h17, h18, h19, h20, h21, h22, h23⟩

/-- What the invariant asks of the registers, but for the level bits of the ISR. -/
structure Regs.Base (r : Regs) : Prop where
  reserved : r.Reserved
  tail : r.tailOutside = false

/-- What the invariant asks of the registers. -/
structure Regs.Ok (r : Regs) : Prop extends r.Base where
  levels : r.levelsOk

/-! ## The other parts -/

/-- What the invariant asks of memory, caches and page tables. -/
def State.memOk (s : State) : Prop := s.cachesOk ∧ sorted s.tc ∧ sorted s.tcRead ∧ sorted s.ggtt ∧ sorted s.ppgtt

/-- A run state of the parser that holds a command of its own kind, if it holds one (R27). -/
def RunState.holdsOwn : RunState → Bool
  | .waitEvent i => i.op == .miWaitForEvent
  | .waitSemaphore i => i.op == .miSemaphoreMbox
  | .waitFlush i => i.op == .miFlushDw
  | .waitRead i => i.op == .miStoreRegisterMem || i.op == .miLoadRegisterMem
  | _ => true

/-- A run state of the engine that holds a BLT command, if it holds one (R28). -/
def EngineRun.holdsOwn : EngineRun → Bool
  | .pending i => i.op.isBlt
  | _ => true

theorem State.heldOk_eq (s : State) : s.heldOk = (s.parser.run.holdsOwn && s.engine.run.holdsOwn) := by
  unfold State.heldOk
  cases s.parser.run <;> cases s.engine.run <;> rfl

/-- What the invariant asks of the agents: a DWord aligned `pc`, and commands of the right kind. -/
def State.agentsOk (s : State) : Prop :=
  s.parser.batchAddr &&& 3 = 0 ∧ s.parser.run.holdsOwn = true ∧ s.engine.run.holdsOwn = true

theorem State.inv_iff (s : State) : s.inv ↔ s.memOk ∧ s.regs.Ok ∧ s.agentsOk := by
  simp only [State.inv, Bool.and_eq_true, beq_iff_eq, Bool.not_eq_true', State.heldOk_eq, Regs.reservedOk_iff]
  constructor
  · rintro ⟨⟨⟨⟨⟨⟨⟨⟨⟨⟨⟨h1, h2⟩, h3⟩, h4⟩, h5⟩, h6⟩, h7⟩, hres⟩, hlev⟩, hbatch⟩, hrun, hengine⟩, htail⟩
    exact ⟨⟨⟨h1, h2, h3⟩, h4, h5, h6, h7⟩, ⟨⟨hres, htail⟩, hlev⟩, hbatch, hrun, hengine⟩
  · rintro ⟨⟨⟨h1, h2, h3⟩, h4, h5, h6, h7⟩, ⟨⟨hres, htail⟩, hlev⟩, hbatch, hrun, hengine⟩
    exact ⟨⟨⟨⟨⟨⟨⟨⟨⟨⟨⟨h1, h2⟩, h3⟩, h4⟩, h5⟩, h6⟩, h7⟩, hres⟩, hlev⟩, hbatch⟩, hrun, hengine⟩, htail⟩

/-- The invariant, but for the level bits of the ISR. -/
def State.base (s : State) : Prop := s.memOk ∧ s.regs.Base ∧ s.agentsOk

theorem State.base_of_inv {s : State} (h : s.inv) : s.base := by
  obtain ⟨hm, hr, ha⟩ := s.inv_iff.mp h
  exact ⟨hm, hr.toBase, ha⟩

theorem State.base.inv {s : State} (h : s.base) (hl : s.regs.levelsOk) : s.inv :=
  s.inv_iff.mpr ⟨h.1, ⟨h.2.1, hl⟩, h.2.2⟩

theorem State.regsOk {s : State} (h : s.inv) : s.regs.Ok := (s.inv_iff.mp h).2.1

theorem State.memOk_of_inv {s : State} (h : s.inv) : s.memOk := (s.inv_iff.mp h).1

/-! ## One part changes -/

section
variable {s : State}

theorem State.inv_regs {r : Regs} (h : s.inv) (hr : r.Ok) : ({ s with regs := r } : State).inv := by
  obtain ⟨hm, -, ha⟩ := s.inv_iff.mp h
  exact (State.inv_iff _).mpr ⟨hm, hr, ha⟩

theorem State.inv_parser {p : Parser} (h : s.inv) (hb : p.batchAddr &&& 3 = 0) (hp : p.run.holdsOwn) :
    ({ s with parser := p } : State).inv := by
  obtain ⟨hm, hr, -, -, he⟩ := s.inv_iff.mp h
  exact (State.inv_iff _).mpr ⟨hm, hr, hb, hp, he⟩

theorem State.inv_run {r : RunState} (h : s.inv) (hr : r.holdsOwn) :
    ({ s with parser := { s.parser with run := r } } : State).inv :=
  State.inv_parser h (s.inv_iff.mp h).2.2.1 hr

theorem State.inv_engine {e : Engine} (h : s.inv) (he : e.run.holdsOwn) : ({ s with engine := e } : State).inv := by
  obtain ⟨hm, hr, hb, hp, -⟩ := s.inv_iff.mp h
  exact (State.inv_iff _).mpr ⟨hm, hr, hb, hp, he⟩

/-- Memory, caches, page tables and posted writes change within their form. -/
theorem State.inv_mem {m rc past tc tcRead : List Host.Cell} {gg pp : List (Nat × PageEntry)} {po : List (List Host.Cell)}
    (h : s.inv) (hm : State.memOk { s with
      mem := m, rc := rc, rcPast := past, tc := tc, tcRead := tcRead, ggtt := gg, ppgtt := pp, posted := po }) :
    State.inv { s with
      mem := m, rc := rc, rcPast := past, tc := tc, tcRead := tcRead, ggtt := gg, ppgtt := pp, posted := po } := by
  obtain ⟨-, hr, ha⟩ := s.inv_iff.mp h
  exact (State.inv_iff _).mpr ⟨hm, hr, ha⟩

/-- What happens in the middle of a command keeps the invariant (R162, R165). -/
theorem State.inv_midAct (e : MidAct) (h : s.inv) : (s.midAct e).inv := by
  obtain ⟨hc, htc, htr, hg, hp⟩ := State.memOk_of_inv h
  have hc' := s.midAct_cachesOk e hc
  have htc' : sorted (s.midAct e).tc := by
    cases e with
    | texFill a =>
      simp only [State.midAct, State.fillTexture]
      split
      · exact sorted_insert _ _ _ htc
      · exact htc
    | evict a => simp only [State.midAct, State.evictByte]; split <;> exact htc
    | drain => simp only [State.midAct, State.drainOne]; split <;> exact htc
    | hostStore a b => exact htc
  obtain ⟨_, _, _, _, _, he⟩ := s.midAct_eq e
  rw [he] at hc' htc' ⊢
  exact State.inv_mem h ⟨hc', htc', htr, hg, hp⟩

theorem State.inv_midway (use : Use) (w : Bool) (h : s.inv) : (s.midway use w).inv := by
  unfold State.midway
  generalize s.midEvents.filter _ = l
  induction l generalizing s with
  | nil => exact h
  | cons e l ih => exact ih (State.inv_midAct e.act h)

theorem State.inv_renderWrite (a : Nat) (b : Byte) (h : s.inv) : (s.renderWrite a b).inv := by
  obtain ⟨hc, hm⟩ := State.memOk_of_inv h
  exact State.inv_mem h ⟨s.renderWrite_cachesOk a b hc, hm⟩

theorem State.inv_noteTexture (l : List Nat) (h : s.inv) : (s.noteTexture l).inv := by
  obtain ⟨hc, htc, htr, hg, hp⟩ := State.memOk_of_inv h
  refine State.inv_mem h ⟨hc, htc, ?_, hg, hp⟩
  suffices hs : ∀ r : List Host.Cell, sorted r → sorted (l.foldl (fun l a => insert l a (s.textureRead a)) r) from hs _ htr
  induction l with
  | nil => exact fun _ hr => hr
  | cons a l ih => exact fun r hr => ih _ (sorted_insert r a _ hr)

theorem State.inv_flushCaches (h : s.inv) : s.flushCaches.inv := by
  obtain ⟨hc, -, -, hg, hp⟩ := State.memOk_of_inv h
  exact State.inv_mem h ⟨s.flushCaches_cachesOk hc.1, rfl, rfl, hg, hp⟩

end

theorem sorted_writeEntries (l : List Word) (t : List (Nat × PageEntry)) (p : Nat) (h : sorted t) :
    sorted (writeEntries t p l) := by
  induction l generalizing t p with
  | nil => exact h
  | cons w ws ih => exact ih _ _ (sorted_insert t p _ h)

end Sys2Proof.Machine
end

section
/-! PROOFS. Operations that keep the invariant: what it means, how such operations combine, and that the shared
operations are such. -/

namespace Sys2Proof.Machine

variable {α β : Type} {s t : State}

/-! ## One run -/

/-- Run in `s`, the operation goes on with what `Q` says, or it ends the step: in a state that meets the invariant, if
it ends it in a state. -/
def Runs (m : M α) (s : State) (Q : α → State → Prop) : Prop :=
  match m s with
  | .ok (a, t) => Q a t
  | .error (.next t) => t.inv
  | .error _ => True

theorem Runs.bind {m : M α} {f : α → M β} {Q : α → State → Prop} {Q' : β → State → Prop} (h : Runs m s Q)
    (hf : ∀ a t, Q a t → Runs (f a) t Q') : Runs (m >>= f) s Q' := by
  unfold Runs at h ⊢
  rw [run_bind]
  generalize m s = o at h ⊢
  rcases o with o | ⟨a, t⟩
  · cases o <;> exact h
  · exact hf a t h

theorem Runs.mono {m : M α} {Q Q' : α → State → Prop} (h : Runs m s Q) (hq : ∀ a t, Q a t → Q' a t) : Runs m s Q' := by
  unfold Runs at h ⊢
  generalize m s = o at h ⊢
  rcases o with o | ⟨a, t⟩
  · cases o <;> exact h
  · exact hq a t h

theorem Runs.of_ok {m : M α} {a : α} {Q : α → State → Prop} (h : m s = .ok (a, t)) (hq : Q a t) : Runs m s Q := by
  unfold Runs
  rw [h]
  exact hq

theorem Runs.of_next {m : M α} {Q : α → State → Prop} (h : m s = .error (.next t)) (ht : t.inv) : Runs m s Q := by
  unfold Runs
  rw [h]
  exact ht

theorem runs_get_bind (f : State → M β) (Q : β → State → Prop) :
    Runs ((get : M State) >>= f) s Q ↔ Runs (f s) s Q := Iff.rfl
theorem runs_onRegs_bind (f : Regs → Regs) (g : PUnit → M β) (Q : β → State → Prop) :
    Runs (onRegs f >>= g) s Q ↔ Runs (g ⟨⟩) { s with regs := f s.regs } Q := Iff.rfl
theorem runs_setRun_bind (r : RunState) (g : PUnit → M β) (Q : β → State → Prop) :
    Runs (setRun r >>= g) s Q ↔ Runs (g ⟨⟩) { s with parser := { s.parser with run := r } } Q := Iff.rfl

/-! ## Operations that keep the invariant -/

/-- From every state that meets the invariant the operation goes on in such a state, its result being as `R` says, or
ends the step in such a state. A property `P` of the ring tail is kept with it. -/
def Keeps (m : M α) (R : α → Prop := fun _ => True) (P : Word → Prop := fun _ => True) : Prop :=
  ∀ s : State, s.inv → P s.regs.tail → Runs m s fun a t => R a ∧ t.inv ∧ P t.regs.tail

variable {R : α → Prop} {R' : β → Prop} {P : Word → Prop}

/-- What holds of the ring tail holds of it where it is the same. -/
theorem tail_kept (h : t.regs.tail = s.regs.tail) (hp : P s.regs.tail) : P t.regs.tail := by
  rw [h]
  exact hp

theorem Keeps.pureOf (a : α) (h : R a) : Keeps (pure a : M α) R P := fun _ hs hp => ⟨h, hs, hp⟩

theorem Keeps.pure (a : α) : Keeps (pure a : M α) (fun _ => True) P := .pureOf a trivial

theorem Keeps.bind {m : M α} {f : α → M β} (hm : Keeps m R P) (hf : ∀ a, R a → Keeps (f a) R' P) :
    Keeps (m >>= f) R' P :=
  fun s hs hp => (hm s hs hp).bind fun a t h => hf a h.1 t h.2.1 h.2.2

/-- One operation after another. -/
theorem Keeps.seq {m : M PUnit} {f : PUnit → M β} (hm : Keeps m (fun _ => True) P) (hf : Keeps (f ⟨⟩) R' P) :
    Keeps (m >>= f) R' P := hm.bind fun _ _ => hf

theorem Keeps.get {f : State → M β} (h : ∀ s, Keeps (f s) R' P) : Keeps ((MonadState.get : M State) >>= f) R' P :=
  fun s hs hp => h s s hs hp

theorem Keeps.refuse (r : Refusal) : Keeps (refuse r : M α) R P := fun _ _ _ => trivial

theorem Keeps.stop (f : Fault) : Keeps (stop f : M α) R P := fun _ _ _ => trivial

theorem Keeps.require (c : Bool) (r : Refusal) : Keeps (require c r) (fun _ => True) P := by
  unfold Machine.require
  split
  · exact .pure _
  · exact .refuse r

theorem Keeps.ite {c : Prop} [Decidable c] {m m' : M α} (hm : c → Keeps m R P) (hm' : ¬c → Keeps m' R P) :
    Keeps (if c then m else m') R P := by
  split
  · exact hm ‹_›
  · exact hm' ‹_›

theorem Keeps.onlyIf {c : Bool} {m : M Unit} (hm : Keeps m (fun _ => True) P) : Keeps (onlyIf c m) (fun _ => True) P :=
  .ite (fun _ => hm) fun _ => .pure _

/-- A change of the state that meets the invariant again, with the same ring tail. -/
theorem Keeps.modify {g : State → State} (h : ∀ s, s.inv → (g s).inv) (ht : ∀ s, (g s).regs.tail = s.regs.tail) :
    Keeps (modify g : M PUnit) (fun _ => True) P := fun s hs hp => ⟨trivial, h s hs, tail_kept (ht s) hp⟩

/-- A change of the registers that keeps them as the invariant asks, with the same ring tail. -/
theorem Keeps.onRegs {f : Regs → Regs} (ht : ∀ r, (f r).tail = r.tail) (h : ∀ r, r.Ok → (f r).Ok) :
    Keeps (onRegs f) (fun _ => True) P := fun s hs hp =>
  ⟨trivial, State.inv_regs hs (h _ (State.regsOk hs)), tail_kept (ht s.regs) hp⟩

theorem Keeps.setRun (r : RunState) (h : r.holdsOwn) : Keeps (setRun r) (fun _ => True) P := fun _ hs hp =>
  ⟨trivial, State.inv_run hs h, hp⟩

theorem Keeps.onBr (f : Br → Br) : Keeps (onBr f) (fun _ => True) P := fun _ hs hp => ⟨trivial, hs, hp⟩

theorem Keeps.onSetup (f : Setup → Setup) : Keeps (onSetup f) (fun _ => True) P := fun _ hs hp => ⟨trivial, hs, hp⟩

theorem Keeps.freeByte : Keeps freeByte (fun _ => True) P := fun _ hs hp => ⟨trivial, hs, hp⟩

theorem Keeps.freeWord : Keeps freeWord (fun _ => True) P := fun _ hs hp => ⟨trivial, hs, hp⟩

theorem Keeps.freeBytes (n : Nat) : Keeps (freeBytes n) (fun _ => True) P := by
  induction n with
  | zero => exact .pure _
  | succ n ih => exact .bind .freeByte fun _ _ => .bind ih fun _ _ => .pure _

/-- A whole command or step keeps the invariant. -/
def Sound (f : State → Host.Outcome State Fault Refusal) : Prop := ∀ s t, s.inv → f s = .next t → t.inv

theorem Keeps.outcome {m : M Unit} (h : Keeps m) (hs : s.inv) (ht : M.outcome m s = .next t) : t.inv := by
  have := h s hs trivial
  unfold Runs at this
  rcases (outcome_next_iff m s t).mp ht with ht | ht <;> rw [ht] at this
  · exact this.2.1
  · exact this

theorem Keeps.sound {m : State → M Unit} (h : ∀ s, Keeps (m s)) : Sound fun s => M.outcome (m s) s :=
  fun s _ hs ht => (h s).outcome hs ht

theorem Keeps.ofOutcome {f : State → Host.Outcome State Fault Refusal} (h : Sound f) : Keeps (M.ofOutcome f) := by
  intro s hs _
  unfold Runs M.ofOutcome
  cases hf : f s with
  | next t => exact ⟨trivial, h s t hs hf, trivial⟩
  | fault r => trivial
  | refused r => trivial

/-! ## The interrupt chain -/

/-- The ISR has become `new`, and what its level bits follow is as it was, and so is the ring tail. -/
structure State.IsrBecame (s : State) (new : Word) (t : State) : Prop where
  base : t.base
  isr : t.regs.isr = new
  eir : t.regs.eir = s.regs.eir
  pending : t.regs.faultPending = s.regs.faultPending
  tail : t.regs.tail = s.regs.tail

/-- Where the new level bits follow their conditions, the invariant holds. -/
theorem State.IsrBecame.inv {new : Word} (h : s.IsrBecame new t) (h25 : bit new 25 = (s.regs.eir != 0))
    (h29 : bit new 29 = s.regs.faultPending) : t.inv :=
  h.base.inv (by simp only [Regs.levelsOk, h.isr, h.eir, h.pending, h25, h29, beq_self_eq_true, Bool.and_self])

theorem Regs.Base.latch {r : Regs} {new : Word} (h : r.Base) (hn : new &&& ~~~definedInts = 0) :
    ({ r with isr := new, iir := r.iir ||| (new &&& ~~~r.imr) } : Regs).Base :=
  ⟨{ h.reserved with isr := hn, iir := or_and_eq_zero h.reserved.iir (and_and_eq_zero _ hn) }, h.tail⟩

theorem Regs.Base.gabErr {r : Regs} (h : r.Base) (st : Bool) (f : XlatFault) :
    ({ r with gabErr := setBit r.gabErr (gabBit st f) true } : Regs).Base :=
  ⟨{ h.reserved with gabErr := setBit_and true h.reserved.gabErr (by cases f <;> cases st <;> rfl) }, h.tail⟩

theorem Regs.Base.faultPending {r : Regs} (h : r.Base) (b : Bool) : ({ r with faultPending := b } : Regs).Base :=
  ⟨{ h.reserved with }, h.tail⟩

/-- The ISR with bit 29 changed has defined bits alone. -/
theorem setBit29_defined {w : Word} (b : Bool) (h : w &&& ~~~definedInts = 0) : setBit w 29 b &&& ~~~definedInts = 0 :=
  setBit_and b h rfl

theorem State.base.withRegs {r : Regs} (h : s.base) (hr : r.Base) : ({ s with regs := r } : State).base :=
  ⟨h.1, hr, h.2.2⟩

/-- A fault on the status write itself (R430): the ISR is as it was again, or the parser has hung with
bit 29 standing. -/
theorem statusWriteFault_runs (f : XlatFault) (h : s.base) (h25 : bit s.regs.isr 25 = (s.regs.eir != 0)) :
    Runs (statusWriteFault f) s fun _ t => s.IsrBecame s.regs.isr t := by
  have hr := h.2.1.gabErr true f
  have hisr := h.2.1.reserved.isr
  have hrise := setBit29_defined true hisr
  simp only [statusWriteFault, latchIsr, hang, runs_onRegs_bind, runs_get_bind]
  split
  · simp only [runs_onRegs_bind, runs_setRun_bind]
    have hbase : State.base { s with
        regs := _, parser := { s.parser with run := .hung } } :=
      ⟨h.1, (hr.faultPending true).latch hrise, h.2.2.1, rfl, h.2.2.2.2⟩
    refine Runs.of_next (run_halt _) (hbase.inv ?_)
    simp only [Regs.levelsOk, bit_setBit_other _ 29 25 true (by decide), bit_setBit_same _ 29 true (by decide), h25,
      beq_self_eq_true, Bool.and_self]
  · rw [runs_onRegs_bind]
    exact Runs.of_ok (run_onRegs _ _) ⟨⟨h.1, (hr.latch hrise).latch hisr, h.2.2⟩, rfl, rfl, rfl, rfl⟩

/-- The hardware status write (R424). -/
theorem statusWrite_runs (use : Use) (h : s.base) (h25 : bit s.regs.isr 25 = (s.regs.eir != 0)) :
    Runs (statusWrite use) s fun _ t => s.IsrBecame s.regs.isr t := by
  simp only [statusWrite, runs_get_bind]
  split
  · exact Runs.of_ok (run_set _ _) ⟨h, rfl, rfl, rfl, rfl⟩
  · exact statusWriteFault_runs _ h h25

/-- The ISR changes (R421, R424), bit 25 as its condition has it. -/
theorem setIsr_runs (use : Use) {new : Word} (h : s.base) (hn : new &&& ~~~definedInts = 0)
    (h25 : bit new 25 = (s.regs.eir != 0)) : Runs (setIsr use new) s fun _ t => s.IsrBecame new t := by
  have hb : State.base { s with regs := { s.regs with isr := new, iir := s.regs.iir ||| (new &&& ~~~s.regs.imr) } } :=
    ⟨h.1, h.2.1.latch hn, h.2.2⟩
  simp only [setIsr, latchIsr, runs_get_bind, runs_onRegs_bind]
  cases needsStatusWrite s.regs s.regs.isr new with
  | false => exact ⟨hb, rfl, rfl, rfl, rfl⟩
  | true => exact (statusWrite_runs use hb h25).mono fun _ _ ht => ⟨ht.base, ht.isr, ht.eir, ht.pending, ht.tail⟩

/-- Level bits that follow their conditions, bit by bit. -/
theorem Regs.levelsOk_iff (r : Regs) : r.levelsOk ↔ bit r.isr 25 = (r.eir != 0) ∧ bit r.isr 29 = r.faultPending := by
  simp only [Regs.levelsOk, Bool.and_eq_true, beq_iff_eq]

/-- The EIR and the level bits of the ISR follow their conditions, whatever they were before (R421, R425). -/
theorem refresh_runs (h : s.base) : Runs refresh s fun _ t => t.inv ∧ t.regs.tail = s.regs.tail := by
  have heir : eirOf s.regs &&& 0xFFFF0000 = 0 := by
    refine or_and_eq_zero h.2.1.reserved.eir ?_
    rw [BitVec.and_comm _ 0xFFFF]
    exact and_and_eq_zero _ rfl
  have hb : s.withEir.base := ⟨h.1, ⟨{ h.2.1.reserved with eir := heir }, h.2.1.tail⟩, h.2.2⟩
  have h25 : bit (levels s.withEir.regs s.regs.isr) 25 = (s.withEir.regs.eir != 0) := by
    unfold levels
    rw [bit_setBit_other _ _ _ _ (by decide), bit_setBit_same _ _ _ (by decide)]
  have h29 : bit (levels s.withEir.regs s.regs.isr) 29 = s.withEir.regs.faultPending :=
    bit_setBit_same _ _ _ (by decide)
  have hn : levels s.withEir.regs s.regs.isr &&& ~~~definedInts = 0 :=
    setBit29_defined _ (setBit_and _ h.2.1.reserved.isr rfl)
  exact (setIsr_runs .event hb hn h25).mono fun _ t ht => ⟨ht.inv h25 h29, ht.tail⟩

theorem refresh_keeps : Keeps refresh (fun _ => True) P := fun _ hs hp =>
  (refresh_runs (State.base_of_inv hs)).mono fun _ _ ht => ⟨trivial, ht.1, tail_kept ht.2 hp⟩

/-- A change of the ISR that leaves its level bits alone. -/
theorem setIsr_keeps_levels (use : Use) {new : Word} (hs : s.inv) (hn : new &&& ~~~definedInts = 0)
    (h25 : bit new 25 = bit s.regs.isr 25) (h29 : bit new 29 = bit s.regs.isr 29) (hp : P s.regs.tail) :
    Runs (setIsr use new) s fun _ t => True ∧ t.inv ∧ P t.regs.tail := by
  obtain ⟨hl25, hl29⟩ := (Regs.levelsOk_iff _).mp (State.regsOk hs).levels
  have h25' := h25.trans hl25
  exact (setIsr_runs use (State.base_of_inv hs) hn h25').mono fun _ t ht =>
    ⟨trivial, ht.inv h25' (h29.trans hl29), tail_kept ht.tail hp⟩

/-- An interrupt event (R422). -/
theorem raiseInt_keeps (b : Nat) (hd : (1#32 <<< b) &&& ~~~definedInts = 0) (h25 : b ≠ 25) (h29 : b ≠ 29) :
    Keeps (raiseInt b) (fun _ => True) P := by
  intro s hs hp
  rw [raiseInt, runs_get_bind]
  exact setIsr_keeps_levels .event hs (setBit_and true (State.regsOk hs).reserved.isr hd)
    (bit_setBit_other _ _ _ _ h25.symm) (bit_setBit_other _ _ _ _ h29.symm) hp

/-- The pulse bits fall (R422). -/
theorem dropPulses_keeps : Keeps dropPulses (fun _ => True) P := by
  intro s hs hp
  have hbit : ∀ i, pulseInts.getLsbD i = false → i < 32 → bit (s.regs.isr &&& ~~~pulseInts) i = bit s.regs.isr i := by
    intro i hi hlt
    simp only [bit, BitVec.getLsbD_and, BitVec.getLsbD_not, hi, hlt, decide_true, Bool.not_false,
      Bool.and_true]
  simp only [dropPulses, runs_get_bind]
  split
  · exact Runs.of_ok (run_pure _ _) ⟨trivial, hs, hp⟩
  · exact setIsr_keeps_levels .pulse hs (and_and_eq_zero _ (State.regsOk hs).reserved.isr) (hbit 25 rfl (by decide))
      (hbit 29 rfl (by decide)) hp

/-- A page fault (R430, R431): recorded, and ISR bit 29 stands where it hangs an agent, or is in the end what it was. -/
theorem takePageFault_keeps (a : Agent) (st : Bool) (use : Bool → Use) (f : XlatFault) :
    Keeps (takePageFault a st use f) (fun _ => True) P := by
  intro s hs hp
  have hbase := State.base_of_inv hs
  obtain ⟨hl25, -⟩ := (Regs.levelsOk_iff _).mp (State.regsOk hs).levels
  have hrise := setBit29_defined true hbase.2.1.reserved.isr
  have h25 : bit (setBit s.regs.isr 29 true) 25 = (s.regs.eir != 0) :=
    (bit_setBit_other _ 29 25 true (by decide)).trans hl25
  have hr := hbase.2.1.gabErr st f
  simp only [takePageFault, runs_onRegs_bind, runs_get_bind]
  split
  · rw [runs_onRegs_bind]
    have hhung : ∀ u : State, u.base → u.regs.eir = s.regs.eir → u.regs.faultPending = true →
        Runs (setIsr (use true) (setBit s.regs.isr 29 true) >>= fun _ => (halt : M Unit)) u fun _ t =>
          True ∧ t.inv ∧ P t.regs.tail := fun u hu heir hfp => by
      have h25' : bit (setBit s.regs.isr 29 true) 25 = (u.regs.eir != 0) := by rw [heir]; exact h25
      refine (setIsr_runs (use true) hu hrise h25').bind fun _ t ht => ?_
      exact Runs.of_next (run_halt t) (ht.inv h25' (by rw [hfp]; exact bit_setBit_same _ _ _ (by decide)))
    cases a with
    | parser => exact hhung _ (⟨hbase.1, hr.faultPending true, hbase.2.2.1, rfl, hbase.2.2.2.2⟩) rfl rfl
    | engine =>
      exact hhung _ ⟨hbase.1, hr.faultPending true, hbase.2.2.1, hbase.2.2.2.1, rfl⟩ rfl rfl
  · have hgo := hbase.withRegs hr
    refine (setIsr_runs (use true) hgo hrise h25).bind fun _ t ht => ?_
    have h25' : bit (setBit t.regs.isr 29 t.regs.faultPending) 25 = (t.regs.eir != 0) := by
      rw [bit_setBit_other _ _ _ _ (by decide), ht.isr, ht.eir]
      exact h25
    refine (setIsr_runs (use false) ht.base (setBit29_defined _ ht.base.2.1.reserved.isr) h25').mono fun _ u hu => ?_
    exact ⟨trivial, hu.inv h25' (bit_setBit_same _ _ _ (by decide)), tail_kept (hu.tail.trans ht.tail) hp⟩

end Sys2Proof.Machine
end

section
/-! PROOFS. The accesses of the parser, the advance of `pc` and the register writes keep the invariant. -/

namespace Sys2Proof.Machine

variable {s t : State} {P : Word → Prop}

/-! ## Accesses -/

/-- An access of an agent, translated or faulting (R150, R430). -/
theorem access_keeps (a : Agent) (st : Bool) (sp : Space) (addr : Nat) (w : Bool) (use : Use) :
    Keeps (access a st sp addr w use) (fun _ => True) P := by
  intro s hs hp
  rw [access, runs_get_bind]
  split
  · exact Runs.of_ok rfl ⟨trivial, hs, hp⟩
  · exact Keeps.seq (takePageFault_keeps _ _ _ _) (.pure none) s hs hp

theorem parserRead_keeps (sp : Space) (addr : Nat) (use : Use) : Keeps (parserRead sp addr use) (fun _ => True) P := by
  refine .bind (access_keeps _ _ _ _ _ _) fun o _ => ?_
  cases o with
  | some p => exact .get fun s => .pure _
  | none => exact .bind (.freeBytes 4) fun _ _ => .pure _

theorem post_keeps (st : Bool) (sp : Space) (addr : Nat) (l : List Byte) (use : Use) :
    Keeps (post st sp addr l use) (fun _ => True) P := by
  refine .bind (access_keeps _ _ _ _ _ _) fun o _ => ?_
  cases o with
  | some p => exact .modify (fun _ h => h) fun _ => rfl
  | none => exact .pure _

theorem reportHead_keeps (use : Use) : Keeps (reportHead use) (fun _ => True) P :=
  .get fun _ => .seq (.require _ _) (post_keeps _ _ _ _ _)

/-! ## The advance of `pc` -/

/-- A head register put together from its fields points at a DWord (R88). -/
theorem head_and_three (wrap : BitVec 11) (off : BitVec 19) : put (put 0 21 wrap) 2 off &&& 3 = 0 :=
  put_and_three _ (put_and_three _ rfl (by decide)) (by decide)

theorem advanceHead_and_three (head : Word) (size n : Nat) : advanceHead head size n &&& 3 = 0 := by
  unfold advanceHead
  simp only
  split <;> exact head_and_three _ _

/-- Registers change, their reserved bits as specified; the level bits and the place of the tail stay. -/
theorem Regs.Ok.of_reserved {r r' : Regs} (h : r.Ok) (ht : r'.tailOutside = r.tailOutside)
    (hl : r'.levelsOk = r.levelsOk) (hr : r'.Reserved) : r'.Ok := ⟨⟨hr, ht.trans h.tail⟩, by rw [hl]; exact h.levels⟩

theorem Regs.Ok.withHead {r : Regs} {w : Word} (h : r.Ok) (hw : w &&& 3 = 0) : ({ r with head := w } : Regs).Ok :=
  h.of_reserved rfl rfl { h.reserved with head := hw }

theorem Regs.Ok.withUhptr {r : Regs} {w : Word} (h : r.Ok) (hw : w &&& 6 = 0) : ({ r with uhptr := w } : Regs).Ok :=
  h.of_reserved rfl rfl { h.reserved with uhptr := hw }

theorem Regs.Ok.withSyncFlip {r : Regs} {w : Word} (h : r.Ok) (hw : w &&& 0x888F8020 = 0) :
    ({ r with syncFlip := w } : Regs).Ok :=
  h.of_reserved rfl rfl { h.reserved with syncFlip := hw }

theorem Regs.Ok.withMiMode {r : Regs} {w : Word} (h : r.Ok) (hw : w &&& 0xFFFF0602 = 0) :
    ({ r with miMode := w } : Regs).Ok :=
  h.of_reserved rfl rfl { h.reserved with miMode := hw }

theorem Regs.Ok.withInstpm {r : Regs} {w : Word} (h : r.Ok) (hw : w &&& 0xFFFF0000 = 0) :
    ({ r with instpm := w } : Regs).Ok :=
  h.of_reserved rfl rfl { h.reserved with instpm := hw }

theorem Regs.Ok.withTlbpendSec0 {r : Regs} {v : Vector Word 64} (h : r.Ok) : ({ r with tlbpendSec0 := v } : Regs).Ok :=
  h.of_reserved rfl rfl { h.reserved with }

/-- RBWait or Semaphore Wait changes (R90). -/
theorem Regs.Ok.withWait {r : Regs} {i : Nat} (h : r.Ok) (b : Bool) (hi : i = 10 ∨ i = 11) :
    ({ r with ctl := setBit r.ctl i b } : Regs).Ok :=
  h.of_reserved (tailOutside_setBit r r.ctl i b hi) rfl
    { h.reserved with ctl := setBit_and b h.reserved.ctl (by rcases hi with rfl | rfl <;> rfl) }

theorem Regs.Ok.uhptrCheck {r : Regs} (h : r.Ok) : r.uhptrCheck.Ok := by
  unfold Regs.uhptrCheck
  split
  · exact h.withUhptr (setBit_and _ h.reserved.uhptr rfl)
  · exact h

/-- `pc` moves on by whole DWords (R24). -/
theorem movePc_keeps (n : Nat) : Keeps (movePc n) (fun _ => True) P := by
  refine .get fun u => .ite (fun _ => .ite (fun _ => .stop _) fun _ => ?_) fun _ => ?_
  · intro s hs hp
    have hb := (and_three_eq_zero_iff _).mp (s.inv_iff.mp hs).2.2.1
    refine ⟨trivial, State.inv_parser hs ((and_three_eq_zero_iff _).mpr ?_) (s.inv_iff.mp hs).2.2.2.1, hp⟩
    rw [BitVec.toNat_add, BitVec.toNat_ofNat]
    omega
  · exact .onRegs (fun r => Regs.uhptrCheck_tail _) fun r h => (h.withHead (advanceHead_and_three _ _ _)).uhptrCheck

theorem finishWith_keeps (n : Nat) {m : M Unit} (h : Keeps m (fun _ => True) P) :
    Keeps (finishWith n m) (fun _ => True) P :=
  .get fun _ => .seq (.setRun _ rfl) (.seq (movePc_keeps n) (.seq h (.onlyIf (reportHead_keeps _))))

theorem finish_keeps (n : Nat) : Keeps (finish n) (fun _ => True) P := finishWith_keeps n (.pure _)

/-! ## Register writes -/

/-- The end of a wait for an event (R385). -/
theorem endEventWait_keeps : Keeps endEventWait (fun _ => True) P :=
  .seq (.onRegs (fun _ => rfl) fun _ h =>
      (h.withSyncFlip (and_and_eq_zero _ h.reserved.syncFlip)).withWait false (.inr rfl))
    (finish_keeps 1)

/-- A written BCS_RING_BUFFER_CTL keeps its reserved bits (R90). -/
theorem ctlWrite_and (old w : Word) (h : old &&& 0xFFE003F8 = 0) : ctlWrite old w &&& 0xFFE003F8 = 0 := by
  unfold ctlWrite
  split
  · exact setBit_and _ (plainWrite_and w h rfl) rfl
  · exact plainWrite_and w h rfl

theorem Regs.Ok.withCtl {r : Regs} {w : Word} (h : r.Ok) (hw : (r.withCtl w).tailOutside = false) : (r.withCtl w).Ok :=
  ⟨⟨{ h.reserved with ctl := ctlWrite_and _ _ h.reserved.ctl }, hw⟩, h.levels⟩

/-- A bit that a written DWord replaces is that of the DWord. -/
theorem bit_takeBits (old w m : Word) (i : Nat) (h : bit m i) : bit (takeBits old w m) i = bit w i := by
  have hi : m.getLsbD i = true := h
  simp [bit, takeBits, hi]

/-- So is a field. -/
theorem field_takeBits (old w m : Word) (lo n : Nat) (h : ∀ k < n, bit m (lo + k)) :
    field (takeBits old w m) lo n = field w lo n := by
  ext k hk
  simp only [field, BitVec.getElem_extractLsb']
  exact bit_takeBits old w m (lo + k) (h k hk)

/-- Where the tail lies after a write of BCS_RING_BUFFER_CTL depends on the written DWord and the tail alone
(R87, R90). -/
theorem tailOutside_withCtl_congr {r r' : Regs} (w : Word) (h : r'.tail = r.tail) :
    (r'.withCtl w).tailOutside = (r.withCtl w).tailOutside := by
  rw [tailOutside_withCtl, tailOutside_withCtl]
  simp only [Regs.tailOutside, Regs.ringSize, Regs.tailOff, h, bit_takeBits _ w 0x001FF007 0 rfl,
    field_takeBits _ w 0x001FF007 12 9 (by decide)]

/-- A write to BCS_RING_BUFFER_CTL (R90): refused where the tail then lies outside; a wait for an event that it ends is
ended first, and leaves the tail where it was (log 53, log 55). -/
theorem writeCtl_keeps (w : Word) : Keeps (mmioWrite 0x2203C w) := by
  intro s hs _
  simp only [mmioWrite, runs_get_bind]
  split
  · trivial
  · rename_i hin
    rw [Bool.not_eq_true] at hin
    split
    · refine (endEventWait_keeps (P := (· = s.regs.tail)) s hs rfl).bind fun _ t ht => ?_
      obtain ⟨-, ht, htail⟩ := ht
      exact Runs.of_ok (run_onRegs _ _)
        ⟨trivial,
          State.inv_regs ht ((State.regsOk ht).withCtl ((tailOutside_withCtl_congr w htail).trans hin)), trivial⟩
    · exact Runs.of_ok (run_onRegs _ _) ⟨trivial, State.inv_regs hs ((State.regsOk hs).withCtl hin), trivial⟩

/-- A write to the tail (R87): refused where it would lie outside an enabled ring (log 55). -/
theorem writeTail_keeps (w : Word) : Keeps (mmioWrite 0x22030 w) := by
  intro s hs _
  simp only [mmioWrite, runs_get_bind]
  split
  · trivial
  · rename_i hin
    rw [Bool.not_eq_true] at hin
    split
    · trivial
    · have hr := State.regsOk hs
      exact Runs.of_ok (run_onRegs _ _) ⟨trivial, State.inv_regs hs
        ⟨⟨{ hr.reserved with tail := plainWrite_and w hr.reserved.tail rfl }, hin⟩, hr.levels⟩, trivial⟩

/-- A change of the registers that leaves the level bits to be settled, and then settles them (R421, R425). -/
theorem onRegs_refresh_keeps {f : Regs → Regs} (h : ∀ r, r.Ok → (f r).Base) :
    Keeps (onRegs f >>= fun _ => refresh) := by
  intro s hs _
  have hb : ({ s with regs := f s.regs } : State).base := (State.base_of_inv hs).withRegs (h _ (State.regsOk hs))
  rw [runs_onRegs_bind]
  exact (refresh_runs hb).mono fun _ _ ht => ⟨trivial, ht.1, trivial⟩

/-- Every register write keeps the invariant (R61). -/
theorem mmioWrite_keeps (off : Nat) (w : Word) : Keeps (mmioWrite off w) := by
  by_cases htail : off = 0x22030
  · subst htail
    exact writeTail_keeps w
  by_cases hctl : off = 0x2203C
  · subst hctl
    exact writeCtl_keeps w
  unfold mmioWrite
  refine .get fun s => ?_
  split
  · exact .onRegs (fun _ => rfl) fun r h =>
      h.of_reserved rfl rfl { h.reserved with hwsPga := plainWrite_and w h.reserved.hwsPga rfl }
  · exact .onRegs (fun _ => rfl) fun r h =>
      h.of_reserved rfl rfl { h.reserved with excc := maskedWrite_and w h.reserved.excc rfl }
  · exact absurd rfl htail
  · exact .ite (fun _ => .refuse _) fun _ => .onRegs (fun _ => rfl) fun r h =>
      h.withHead (plainWrite_and w h.reserved.head rfl)
  · exact .onRegs (fun _ => rfl) fun r h =>
      h.of_reserved rfl rfl { h.reserved with start := plainWrite_and w h.reserved.start rfl }
  · exact absurd rfl hctl
  · exact .onRegs (fun _ => rfl) fun r h => h.of_reserved rfl rfl { h.reserved with }
  · exact .onRegs (fun _ => rfl) fun r h => h.of_reserved rfl rfl { h.reserved with }
  · exact .onRegs (fun _ => rfl) fun r h =>
      h.of_reserved rfl rfl { h.reserved with r22050 := maskedWrite_and w h.reserved.r22050 rfl }
  · exact .ite (fun _ => .onRegs (fun _ => rfl) fun r h => h.of_reserved rfl rfl { h.reserved with
      hwstam := by rw [hwstamWrite, BitVec.or_assoc]; exact BitVec.or_allOnes }) fun _ => .refuse _
  · exact .onRegs (fun _ => rfl) fun r h => h.withMiMode (maskedWrite_and w h.reserved.miMode rfl)
  · exact .onRegs (fun _ => rfl) fun r h =>
      h.of_reserved rfl rfl { h.reserved with gabMode := maskedWrite_and w h.reserved.gabMode rfl }
  · exact onRegs_refresh_keeps fun r h => ⟨{ h.reserved with }, h.tail⟩
  · exact onRegs_refresh_keeps fun r h => ⟨{ h.reserved with eir := and_and_eq_zero _ h.reserved.eir }, h.tail⟩
  · exact onRegs_refresh_keeps fun r h => ⟨{ h.reserved with emr := plainWrite_and w h.reserved.emr rfl }, h.tail⟩
  · exact .onRegs (fun _ => rfl) fun r h => h.withInstpm (maskedWrite_and w h.reserved.instpm rfl)
  · exact .onRegs (fun _ => rfl) fun r h => h.withUhptr (plainWrite_and w h.reserved.uhptr rfl)
  · exact .onRegs (fun _ => rfl) fun r h => h.of_reserved rfl rfl { h.reserved with }
  · exact .onRegs (fun _ => rfl) fun r h =>
      h.of_reserved rfl rfl { h.reserved with cxtSize := plainWrite_and w h.reserved.cxtSize rfl }
  · exact .onRegs (fun _ => rfl) fun r h =>
      h.of_reserved rfl rfl { h.reserved with swctrl := maskedWrite_and w h.reserved.swctrl rfl }
  · exact .onRegs (fun _ => rfl) fun r h => h.of_reserved rfl rfl { h.reserved with }
  · exact .onRegs (fun _ => rfl) fun r h =>
      h.of_reserved rfl rfl { h.reserved with bltMode := maskedWrite_and w h.reserved.bltMode rfl }
  · exact .ite (fun _ => .onRegs (fun _ => rfl) fun r h =>
      h.withSyncFlip (plainWrite_and w h.reserved.syncFlip rfl)) fun _ => .refuse _
  · exact .onRegs (fun _ => rfl) fun r h =>
      h.of_reserved rfl rfl { h.reserved with gabCtl := plainWrite_and w h.reserved.gabCtl rfl }
  -- The read-only registers drop the write.
  iterate 12 · exact .pure _
  · refine .ite (fun _ => .pure _) fun _ => .ite (fun _ => ?_) fun _ => .ite (fun _ => .pure _) fun _ =>
      .ite (fun _ => ?_) fun _ => .pure _
    · exact .onRegs (fun _ => rfl) fun r h => h.withTlbpendSec0
    · exact onRegs_refresh_keeps fun r h => ⟨{ h.reserved with iir := and_and_eq_zero _ h.reserved.iir }, h.tail⟩

end Sys2Proof.Machine
end

section
/-! PROOFS. Every BLT command keeps the invariant, whatever its accesses meet. -/

namespace Sys2Proof.Machine

variable {s t : State} {P : Word → Prop}

/-! ## Operands -/

theorem engineAccess_keeps (a : Int) (n : Nat) (w : Bool) (use : Use) : Keeps (engineAccess a n w use) := by
  refine .bind (.seq (.require _ _) (.pure _)) fun addr _ => ?_
  refine .seq (.modify (fun s hs => State.inv_midway use w hs) fun s => ?_) (.get fun _ => access_keeps _ _ _ _ _ _)
  obtain ⟨_, _, _, _, _, h⟩ := s.midway_eq use w
  rw [h]

theorem readRender_keeps (a : Int) (n : Nat) (use : Use) : Keeps (readRender a n use) := by
  refine .bind (engineAccess_keeps a n false use) fun o _ => ?_
  cases o with
  | none => exact .bind (.freeBytes n) fun _ _ => .pure _
  | some q => exact .get fun _ => .pure _

theorem readTexture_keeps (a : Int) (n : Nat) (use : Use) : Keeps (readTexture a n use) := by
  refine .bind (engineAccess_keeps a n false use) fun o _ => ?_
  cases o with
  | none => exact .bind (.freeBytes n) fun _ _ => .pure _
  | some q =>
    exact .seq (.require _ _) (.get fun _ =>
      .seq (.modify (fun s hs => State.inv_noteTexture _ hs) fun _ => rfl) (.pure _))

theorem patternOperand_keeps (j : Job) (x y : Int) : Keeps (patternOperand j x y) := by
  unfold patternOperand
  simp only
  split
  · exact .pure _
  · exact .pure _
  · exact .ite (fun _ => .bind (readTexture_keeps _ _ _) fun _ _ => .pure _) fun _ => .pure _
  · exact .pure _
  · exact .pure _

theorem checkTiled_keeps (f : Surface) (c : Bool) : Keeps (checkTiled f c) := .require _ _

theorem sourceOperand_keeps (j : Job) (x y : Int) : Keeps (sourceOperand j x y) := by
  unfold sourceOperand
  cases j.src with
  | absent => exact .pure _
  | color f ox oy =>
    exact .ite (fun _ => .bind (readRender_keeps _ _ _) fun _ _ => .seq (checkTiled_keeps _ _) (.pure _))
      fun _ => .pure _
  | mono l w a x1 y1 fg bg transparent =>
    generalize 1 = n
    exact .ite (fun _ => .bind (readTexture_keeps _ _ _) fun _ _ => .pure _) fun _ => .pure _
  | monoImm => exact .pure _

theorem checkDest_keeps (j : Job) (sc c : Bool) : Keeps (checkDest j sc c) := .seq (checkTiled_keeps _ _) (.require _ _)

theorem destOperand_keeps (j : Job) (sc : Bool) (x y : Int) : Keeps (destOperand j sc x y) :=
  .ite (fun _ => .bind (readRender_keeps _ _ _) fun _ _ => .seq (checkDest_keeps _ _ _) (.pure _)) fun _ => .pure _

/-! ## Pixels -/

theorem writePixel_keeps (ov : Nat → Nat → Bool) (a ph : Nat) (en : Nat → Bool) (v : Word) (ks : List Nat) :
    Keeps (writePixel ov a ph en v ks) := by
  induction ks with
  | nil => exact .pure _
  | cons k ks ih =>
    have hw : ∀ b, Keeps (modify fun s => s.renderWrite (ph + k) b : M PUnit) := fun b =>
      .modify (fun s hs => State.inv_renderWrite _ b hs) fun _ => rfl
    refine .seq (.onlyIf ?_) ih
    simp only
    split
    · exact .bind .freeByte fun b _ => hw b
    · exact .bind (.pure _) fun b _ => hw b

theorem writeDest_keeps (j : Job) (ov : Nat → Nat → Bool) (sc : Bool) (x y : Int) (v : Word) :
    Keeps (writeDest j ov sc x y v) := by
  refine .onlyIf (.bind (engineAccess_keeps _ _ _ _) fun o _ => ?_)
  cases o with
  | none => exact .pure _
  | some q => exact .seq (checkDest_keeps _ _ _) (writePixel_keeps _ _ _ _ _ _)

theorem drawPixel_keeps (j : Job) (ov : Nat → Nat → Bool) (x y : Int) : Keeps (drawPixel j ov x y) :=
  .bind (patternOperand_keeps j x y) fun _ _ => .bind (sourceOperand_keeps j x y) fun _ _ =>
    .bind (destOperand_keeps j _ x y) fun _ _ => .onlyIf (writeDest_keeps _ _ _ _ _ _)

theorem drawPixels_keeps (j : Job) (ov : Nat → Nat → Bool) (px : List (Int × Int)) : Keeps (drawPixels j ov px) := by
  induction px with
  | nil => exact .pure _
  | cons q px ih => exact .seq (drawPixel_keeps j ov q.1 q.2) ih

/-! ## Commands -/

/-- The data hang (R435). -/
theorem dataHang_keeps : Keeps (dataHang : M Unit) := by
  intro s hs _
  have hengine := State.inv_engine (e := { s.engine with run := .hung }) hs rfl
  have hparser := State.inv_run (r := .hung) hengine rfl
  exact Runs.of_next (t := s.dataHung) rfl hparser

theorem checkSurface_keeps (f : Surface) (n : Nat) : Keeps (checkSurface f n) := by
  unfold checkSurface
  split
  · exact .require _ _
  · exact .seq (.require _ _) (.require _ _)

theorem checkSource_keeps (j : Job) : Keeps (checkSource j) := by
  unfold checkSource
  split
  · exact .pure _
  · exact checkSurface_keeps _ _
  · exact .require _ _
  · exact .require _ _

theorem drawXY_keeps (j : Job) (clip : Option Box) (b : Box) (xb yb : Bool) : Keeps (drawXY j clip b xb yb) :=
  .seq (.require _ _) (.seq (.require _ _) (.seq (checkSurface_keeps _ _) (.seq (checkSource_keeps _)
    (.ite (fun _ => .seq (.require _ _) (.get fun _ => drawPixels_keeps _ _ _)) fun _ => dataHang_keeps))))

theorem drawLinear_keeps (j : Job) (height width : BitVec 16) (xb : Bool) : Keeps (drawLinear j height width xb) :=
  .seq (.require _ _) (.seq (.require _ _)
    (.ite (fun _ => .pure _) fun _ => .seq (.require _ _) (.get fun _ => drawPixels_keeps _ _ _)))

/-- The work of a BLT command keeps the invariant. -/
theorem BltWork.keeps {W : Nat → Bool} {m : M Unit} (h : BltWork W s m) : Keeps m := by
  induction h with
  | done => exact .pure _
  | check c r h ih => exact .seq (.require c r) ih
  | checkIf b c r h ih => exact .seq (.onlyIf (.require c r)) ih
  | guarded b h ih => exact .ite (fun _ => .pure _) fun _ => ih
  | draw => exact .get fun _ => drawXY_keeps _ _ _ _ _
  | copy => exact .get fun _ => drawXY_keeps _ _ _ _ _
  | dependent => exact .get fun _ => drawXY_keeps _ _ _ _ _
  | linear => exact drawLinear_keeps _ _ _ _

/-- The invariant says nothing of the engine's registers. -/
theorem State.Loaded.inv {i : Instr} (h : s.Loaded i t) (hs : s.inv) : t.inv := by
  obtain ⟨_, _, _, rfl, _⟩ := h
  exact hs

/-- Every BLT command keeps the invariant: it loads registers and does its work. -/
theorem exec_blt_sound (i : Instr) (hb : i.op.isBlt) : Sound (exec i) := by
  intro s t hs ht
  obtain ⟨u, m, hexec, hload, hwork⟩ := exec_blt i hb s
  rw [hexec] at ht
  exact hwork.keeps.outcome (hload.inv hs) ht

end Sys2Proof.Machine
end

section
/-! PROOFS. Every MI command keeps the invariant. -/

namespace Sys2Proof.Machine

variable {s t : State} {P : Word → Prop}

/-! ## Commands that steer the parser -/

theorem execMiNoop_sound (writeId : Bool) (ident : BitVec 22) : Sound (execMiNoop writeId ident) :=
  Keeps.sound fun _ =>
    .seq (.onlyIf (.onRegs (fun _ => rfl) fun _ h => h.of_reserved rfl rfl { h.reserved with })) (finish_keeps 1)

theorem execMiUserInterrupt_sound : Sound execMiUserInterrupt :=
  Keeps.sound fun _ => .seq (raiseInt_keeps 22 rfl (by decide) (by decide)) (finish_keeps 1)

/-- A recorded wait uses no reserved bit (R103). -/
theorem record_and (e : WaitEvent) : e.record &&& 0x888F8020 = 0 := by
  cases e with
  | none => rfl
  | code cc => simp only [WaitEvent.record]; revert cc; decide
  | flip plane => simp only [WaitEvent.record, flipBits]; split <;> rfl

theorem recordWait_keeps (e : WaitEvent) : Keeps (recordWait e) := by
  refine .get fun s => .onRegs (fun _ => rfl) (fun r h => ?_)
  have hf := h.withSyncFlip (or_and_eq_zero (and_and_eq_zero (~~~waitRecords) h.reserved.syncFlip) (record_and e))
  split
  · exact hf
  · exact hf.withWait true (.inr rfl)

theorem execMiWaitForEvent_sound (spriteC : Bool) (cc : BitVec 4) (planeC spriteB planeB spriteA planeA : Bool) :
    Sound (execMiWaitForEvent spriteC cc planeC spriteB planeB spriteA planeA) :=
  Keeps.sound fun _ => .seq (.require _ _) (.ite (fun _ => .seq (recordWait_keeps _) (.setRun _ rfl)) fun _ =>
    .ite (fun _ => endEventWait_keeps) fun _ => finish_keeps 1)

theorem execMiArbCheck_sound : Sound execMiArbCheck :=
  Keeps.sound fun _ => .seq (.require _ _) (.ite
    (fun _ => .seq (.require _ _) (.seq (.setRun _ rfl) (.seq
      (.onRegs (fun _ => rfl) fun _ h =>
        (h.withHead (head_and_three _ _)).withUhptr (setBit_and _ h.reserved.uhptr rfl))
      (.onlyIf (reportHead_keeps _)))))
    fun _ => finish_keeps 1)

theorem execMiReportHead_sound : Sound execMiReportHead :=
  Keeps.sound fun _ => .seq (.require _ _) (finishWith_keeps 1 (reportHead_keeps _))

/-- The parser runs on in another buffer, at a DWord. -/
theorem onParser_keeps {f : Parser → Parser} (h : ∀ p, p.batchAddr &&& 3 = 0 → (f p).batchAddr &&& 3 = 0)
    (hr : ∀ p, (f p).run = .running) : Keeps (onParser f) := fun s hs _ => by
  refine Runs.of_ok (run_onParser _ _) ⟨trivial, State.inv_parser hs (h _ (s.inv_iff.mp hs).2.2.1) ?_, trivial⟩
  rw [hr]
  rfl

theorem execMiBatchBufferEnd_sound : Sound execMiBatchBufferEnd :=
  Keeps.sound fun _ => .ite (fun _ => onParser_keeps (fun _ h => h) fun _ => rfl) fun _ => finish_keeps 1

theorem execMiSuspendFlush_sound (on : Bool) : Sound (execMiSuspendFlush on) :=
  Keeps.sound fun _ =>
    .seq (.onRegs (fun _ => rfl) fun _ h => h.withMiMode (setBit_and on h.reserved.miMode rfl)) (finish_keeps 1)

theorem enterBatch_keeps (asi : Bool) (addr : BitVec 30) : Keeps (enterBatch asi addr) :=
  .seq (.modify (fun _ h => h) fun _ => rfl)
    (onParser_keeps (fun _ _ => put_and_three addr rfl (by decide)) fun _ => rfl)

theorem execMiBatchBufferStart_sound (len : BitVec 8) (asi : Bool) (addr : BitVec 30) :
    Sound (execMiBatchBufferStart len asi addr) :=
  Keeps.sound fun _ => .seq (.require _ _) (.seq (.require _ _)
    (.ite (fun _ => enterBatch_keeps asi addr) fun _ => finishWith_keeps 2 (enterBatch_keeps asi addr)))

theorem semaphoreMemory_keeps (compare : Bool) (sp : Space) (a : Nat) (data : Word) :
    Keeps (semaphoreMemory compare sp a data) :=
  .ite (fun _ => .bind (parserRead_keeps _ _ _) fun _ _ => .pure _) fun _ => .pure _

theorem semaphoreDone_keeps : Keeps semaphoreDone :=
  .seq (.onRegs (fun _ => rfl) fun _ h => h.withWait false (.inl rfl)) (finish_keeps 3)

theorem execMiSemaphoreMbox_sound (len : BitVec 8) (ggtt update compare cmpReg : Bool) (sel : BitVec 2) (data : Word)
    (addr : BitVec 30) : Sound (execMiSemaphoreMbox len ggtt update compare cmpReg sel data addr) :=
  Keeps.sound fun _ => .seq (.require _ _) (.ite
    (fun _ => .seq (.require _ _) (.ite (fun _ => semaphoreDone_keeps) fun _ =>
      .seq (.onRegs (fun _ => rfl) fun _ h => h.withWait true (.inl rfl)) (.setRun _ rfl)))
    fun _ => .bind (semaphoreMemory_keeps _ _ _ _) fun _ _ => .ite
      (fun _ => .seq (.onlyIf (post_keeps _ _ _ _ _)) semaphoreDone_keeps) fun _ => .setRun _ rfl)

/-! ## Commands that move data -/

theorem execMiLoadRegisterImm_sound (len : BitVec 8) (disables : BitVec 4) (reg : BitVec 30) (data : Word) :
    Sound (execMiLoadRegisterImm len disables reg data) :=
  Keeps.sound fun _ => .ite (fun _ => finish_keeps 3) fun _ => .ite
    (fun _ => .seq (mmioWrite_keeps _ _) (finish_keeps 3)) fun _ => .seq (.refuse _) (finish_keeps 3)

theorem mmioRead_keeps (off : Nat) : Keeps (mmioRead off) := by
  refine .get fun s => ?_
  cases regRead s off with
  | some w => exact .pure w
  | none => exact .freeWord

theorem execMiStoreRegisterMem_sound (len : BitVec 8) (ggtt : Bool) (reg : BitVec 21) (addr : BitVec 30) :
    Sound (execMiStoreRegisterMem len ggtt reg addr) :=
  Keeps.sound fun _ => .seq (.require _ _) (.ite (fun _ => finish_keeps 3) fun _ =>
    .bind (mmioRead_keeps _) fun _ _ => .seq (post_keeps _ _ _ _ _) (finish_keeps 3))

theorem execMiStoreDataImm_sound (len : BitVec 10) (ggtt : Bool) (addr : BitVec 30) (d0 d1 : Word) :
    Sound (execMiStoreDataImm len ggtt addr d0 d1) :=
  Keeps.sound fun _ => .seq (.require _ _) (.ite (fun _ => finish_keeps _) fun _ => .ite
    (fun _ => .seq (.require _ _) (.seq (post_keeps _ _ _ _ _) (finish_keeps _)))
    fun _ => .seq (post_keeps _ _ _ _ _) (finish_keeps _))

theorem execMiStoreDataIndex_sound (len : BitVec 8) (offset : BitVec 10) (d0 d1 : Word) :
    Sound (execMiStoreDataIndex len offset d0 d1) :=
  Keeps.sound fun _ => .seq (.require _ _) (.seq (.require _ _) (.ite
    (fun _ => .seq (.require _ _) (.seq (post_keeps _ _ _ _ _) (finish_keeps _)))
    fun _ => .seq (post_keeps _ _ _ _ _) (finish_keeps _)))

/-- The page tables change, and stay sorted. -/
theorem State.inv_tables {gg pp : List (Nat × PageEntry)} (hs : s.inv) (hg : sorted gg) (hp : sorted pp) :
    State.inv { s with ggtt := gg, ppgtt := pp } := by
  obtain ⟨hc, htc, htr, -, -⟩ := State.memOk_of_inv hs
  exact State.inv_mem hs ⟨hc, htc, htr, hg, hp⟩

theorem execMiUpdateGtt_sound (len : BitVec 6) (ggtt : Bool) (entry : BitVec 20) (data : List Word) :
    Sound (execMiUpdateGtt len ggtt entry data) :=
  Keeps.sound fun _ => .ite (fun _ => finish_keeps _) fun _ => .seq (.require _ _) (.seq (.require _ _)
    (.seq (.modify (fun s hs => by
      obtain ⟨-, -, -, hg, hp⟩ := State.memOk_of_inv hs
      exact State.inv_tables hs (sorted_writeEntries _ _ _ hg) hp) fun _ => rfl) (finish_keeps _)))

theorem execMiLoadRegisterMem_sound (len : BitVec 8) (ggtt async : Bool) (reg : BitVec 21) (addr : BitVec 30) :
    Sound (execMiLoadRegisterMem len ggtt async reg addr) :=
  Keeps.sound fun _ => .ite (fun _ => finish_keeps 3) fun _ => .seq (.require _ _) (.seq (.require _ _) (.ite
    (fun _ => .seq (.modify (fun _ h => h) fun _ => rfl) (finish_keeps 3))
    fun _ => .bind (parserRead_keeps _ _ _) fun _ _ => .seq (mmioWrite_keeps _ _) (finish_keeps 3)))

theorem postSync_keeps (len : BitVec 6) (index : Bool) (op : BitVec 2) (addr : Word) (toGgtt : Bool) (d0 d1 : Word) :
    Keeps (postSync len index op addr toGgtt d0 d1) :=
  .get fun _ => .ite
    (fun _ => .ite (fun _ => post_keeps _ _ _ _ _) fun _ => post_keeps _ _ _ _ _)
    fun _ => .ite (fun _ => post_keeps _ _ _ _ _) fun _ => .pure _

/-- Every posted write reaches memory (R165). -/
theorem State.inv_drainAll (hs : s.inv) : State.inv { s with mem := drainAll s.mem s.posted, posted := [] } := by
  obtain ⟨⟨hm, hrc⟩, hr⟩ := State.memOk_of_inv hs
  exact State.inv_mem hs ⟨⟨wf_drainAll _ _ hm, hrc⟩, hr⟩

theorem execMiFlushDw_sound (len : BitVec 6) (spare index tlbInv gfdt : Bool) (op : BitVec 2) (notify : Bool)
    (addr : BitVec 29) (toGgtt : Bool) (d0 d1 : Word) :
    Sound (execMiFlushDw len spare index tlbInv gfdt op notify addr toGgtt d0 d1) :=
  Keeps.sound fun _ => .seq (.require _ _) (.seq (.require _ _) (.seq (.require _ _) (.seq (.require _ _) (.ite
    (fun _ => .setRun _ rfl)
    fun _ => .seq (.modify (fun _ h => State.inv_flushCaches h) fun _ => rfl)
      (.seq (.onlyIf (.modify (fun _ h => h) fun _ => rfl))
      (.seq (postSync_keeps _ _ _ _ _ _ _)
      (.seq (.onlyIf (.seq (.modify (fun _ h => State.inv_drainAll h) fun _ => rfl)
        (raiseInt_keeps 26 rfl (by decide) (by decide))))
      (finish_keeps _))))))))

/-- A pending flag of a flip is no reserved bit (R103). -/
theorem flipPendingBit_and (plane : Nat) (async : Bool) : flipPendingBit plane async &&& 0x888F8020 = 0 := by
  unfold flipPendingBit
  split <;> rfl

theorem checkFollowing_keeps : Keeps checkFollowing := .get fun _ => .require _ _

theorem execMiDisplayFlip_sound (len : BitVec 8) (async : Bool) (plane : BitVec 3) (pitch : BitVec 10) (tiled : Bool)
    (base : BitVec 20) (kind : BitVec 2) : Sound (execMiDisplayFlip len async plane pitch tiled base kind) :=
  Keeps.sound fun _ => .seq (.require _ _) (.seq (.require _ _) (.seq (.require _ _) (.seq (.require _ _)
    (.seq (.require _ _) (.seq (.modify (fun _ h => h) fun _ => rfl)
      (.seq (.onRegs (fun _ => rfl) fun _ h =>
          h.withSyncFlip (or_and_eq_zero h.reserved.syncFlip (flipPendingBit_and _ _)))
        (finishWith_keeps 3 checkFollowing_keeps)))))))

/-- Every command keeps the invariant. -/
theorem exec_sound (i : Instr) : Sound (exec i) := by
  cases hb : i.op.isBlt with
  | true => exact exec_blt_sound i hb
  | false =>
    cases i with
    | miNoop => exact execMiNoop_sound _ _
    | miUserInterrupt => exact execMiUserInterrupt_sound
    | miWaitForEvent => exact execMiWaitForEvent_sound _ _ _ _ _ _ _
    | miArbCheck => exact execMiArbCheck_sound
    | miReportHead => exact execMiReportHead_sound
    | miBatchBufferEnd => exact execMiBatchBufferEnd_sound
    | miSuspendFlush => exact execMiSuspendFlush_sound _
    | miDisplayFlip len => exact execMiDisplayFlip_sound len _ _ _ _ _ _
    | miSemaphoreMbox => exact execMiSemaphoreMbox_sound _ _ _ _ _ _ _ _
    | miStoreDataImm => exact execMiStoreDataImm_sound _ _ _ _ _
    | miStoreDataIndex => exact execMiStoreDataIndex_sound _ _ _ _
    | miLoadRegisterImm len => exact execMiLoadRegisterImm_sound len _ _ _
    | miUpdateGtt len => exact execMiUpdateGtt_sound len _ _ _
    | miStoreRegisterMem len => exact execMiStoreRegisterMem_sound len _ _ _
    | miFlushDw => exact execMiFlushDw_sound _ _ _ _ _ _ _ _ _ _ _
    | miLoadRegisterMem len => exact execMiLoadRegisterMem_sound len _ _ _ _
    | miBatchBufferStart len => exact execMiBatchBufferStart_sound len _ _
    | _ => cases hb

end Sys2Proof.Machine
end

section
/-! PROOFS. The agents, the events and the step keep the invariant. -/

namespace Sys2Proof.Machine

variable {s t : State} {P : Word → Prop}

/-! ## What the engine is handed is a BLT command -/

theorem Op.read_op (o : Op) (w : Nat → Word) (data : List Word) : (o.read w data).op = o := by cases o <;> rfl

/-- What decodes is the command its DWord 0 selects. -/
theorem op_of_decode {ws : List Word} {i : Instr} {o : Op} (h1 : Op.ofHeader (ws.getD 0 0) = some o)
    (h : decode ws = .ok i) : i.op = o := by
  unfold decode at h
  rw [h1] at h
  simp only at h
  split at h
  · cases h
  · split at h
    · cases h
      exact Op.read_op o _ _
    · cases h

theorem commandWord_keeps (ring : Bool) (sp : Space) (addr : Nat) : Keeps (commandWord ring sp addr) := by
  intro s hs _
  rw [commandWord, runs_get_bind]
  split
  · exact Runs.of_ok rfl ⟨trivial, hs, trivial⟩
  · exact parserRead_keeps (P := fun _ => True) sp addr .fetch s hs trivial

theorem fetchWords_keeps (ring : Bool) (sp : Space) (addr n : Nat) : Keeps (fetchWords ring sp addr n) := by
  induction n generalizing addr with
  | zero => exact .pure _
  | succ n ih => exact .bind (commandWord_keeps _ _ _) fun _ _ => .bind (ih _) fun _ _ => .pure _

/-- A fetched command is the one its DWord 0 selects (R210). -/
def FetchedOk (o : Option (Op × List Word)) : Prop := ∀ c ∈ o, Op.ofHeader (c.2.getD 0 0) = some c.1

theorem fetchCommand_keeps : Keeps fetchCommand FetchedOk := by
  refine .get fun s => .ite (fun _ => .stop _) fun _ => .bind (commandWord_keeps _ _ _) fun w _ => ?_
  cases ho : Op.ofHeader w with
  | none => exact .pureOf _ (by simp [FetchedOk])
  | some o =>
    refine .seq (.require _ _) (.ite (fun _ => .stop _) fun _ =>
      .bind (fetchWords_keeps _ _ _ _) fun ws _ => .pureOf _ ?_)
    rintro c ⟨⟩
    exact ho

/-! ## The agents -/

theorem State.inv_drainOne (hs : s.inv) : s.drainOne.inv := State.inv_midAct .drain hs

theorem landAsyncLoad_keeps (k : Nat) : Keeps (landAsyncLoad k) := by
  intro s hs _
  rw [landAsyncLoad, runs_get_bind]
  split
  · exact Runs.of_ok (run_pure _ _) ⟨trivial, hs, trivial⟩
  · rename_i l _
    have hrest : Keeps (parserRead l.space l.addr.toNat .load >>= fun v => loadRegister l.secure l.reg.toNat v) :=
      .bind (parserRead_keeps _ _ _) fun _ _ => .ite (fun _ => .pure _) fun _ => mmioWrite_keeps _ _
    exact hrest { s with asyncLoads := s.asyncLoads.eraseIdx k } hs trivial

theorem background_keeps : Keeps background := by
  intro s hs _
  rw [background, runs_get_bind]
  split
  · exact landAsyncLoad_keeps 0 s hs trivial
  · exact Runs.of_ok (run_set _ _) ⟨trivial, State.inv_drainOne hs, trivial⟩

theorem Regs.Ok.waitOver {r : Regs} (h : r.Ok) : r.waitOver.Ok :=
  ((h.withSyncFlip (and_and_eq_zero _ h.reserved.syncFlip)).withWait false (.inr rfl)).withWait false (.inl rfl)

theorem endWait_keeps : Keeps endWait := by
  refine .get fun s => ?_
  split
  · exact .onRegs (fun _ => rfl) fun _ h => h.waitOver
  · exact .onRegs (fun _ => rfl) fun _ h => h.waitOver
  · exact .pure _

theorem rest_keeps (r : RunState) (hr : r.holdsOwn) : Keeps (rest r) :=
  .seq endWait_keeps (.seq (.setRun r hr) background_keeps)

theorem engineStep_keeps : Keeps engineStep := by
  intro s hs _
  rw [engineStep, runs_get_bind]
  split
  · exact Keeps.ofOutcome (exec_sound _) _ (State.inv_engine (e := { s.engine with run := .idle }) hs rfl) trivial
  · exact Runs.of_ok (run_pure _ _) ⟨trivial, hs, trivial⟩

theorem handTo_keeps (r : EngineRun) (hr : r.holdsOwn) (o : Op) (n : Nat) : Keeps (handTo r o n) :=
  .seq (.modify (fun s hs => State.inv_engine (e := ⟨r, s.parser.space⟩) hs hr) fun _ => rfl)
    (finishWith_keeps n (.onlyIf checkFollowing_keeps))

theorem handOver_keeps (i : Instr) (hb : i.op.isBlt) (n : Nat) (defer : Bool) : Keeps (handOver i n defer) :=
  .seq (handTo_keeps (.pending i) hb _ _) (.onlyIf engineStep_keeps)

theorem starve_keeps (o : Op) (n : Nat) : Keeps (starve o n) := .seq (handTo_keeps _ rfl _ _) dataHang_keeps

theorem whenIdle_keeps {m : M Unit} (h : Keeps m) : Keeps (whenIdle m) :=
  .seq (.setRun _ rfl) (.get fun _ => .ite (fun _ => background_keeps) fun _ => h)

/-- A command that reads slowly is of the kind that waits for a read (R27). -/
theorem holdsOwn_of_readsSlowly {i : Instr} (h : readsSlowly s i) : (RunState.waitRead i).holdsOwn := by
  cases i with
  | miStoreRegisterMem | miLoadRegisterMem => rfl
  | _ => cases h

theorem runMi_keeps (i : Instr) (defer : Bool) : Keeps (runMi i defer) := by
  refine .seq (.setRun _ rfl) (.get fun s => .ite (fun h => ?_) fun _ => .ofOutcome (exec_sound i))
  rw [Bool.and_eq_true] at h
  exact .setRun _ (holdsOwn_of_readsSlowly h.2)

theorem takeInstructionError_keeps : Keeps takeInstructionError :=
  .seq (.onRegs (fun _ => rfl) fun _ h =>
      h.of_reserved rfl rfl { h.reserved with esr := or_and_eq_zero h.reserved.esr rfl })
    (.seq (.setRun _ rfl) refresh_keeps)

theorem runCommand_keeps (defer : Bool) : Keeps (runCommand defer) := by
  refine .bind fetchCommand_keeps fun c hc => ?_
  rcases c with _ | ⟨o, ws⟩
  · exact takeInstructionError_keeps
  · refine .ite (fun _ => .refuse _) fun _ => ?_
    cases hd : decode ws with
    | error e => exact whenIdle_keeps (starve_keeps _ _)
    | ok i =>
      have hop : i.op = o := op_of_decode (hc _ rfl) hd
      exact .ite (fun hb => whenIdle_keeps (handOver_keeps i (by rw [hop]; exact hb) _ _)) fun _ => runMi_keeps _ _

theorem rewait_keeps (i : Instr) : Keeps (rewait i) :=
  .get fun _ => .seq (.ofOutcome (exec_sound i)) (.get fun _ => .ite
    (fun _ => .ite (fun _ => rest_keeps .stopped rfl) fun _ => background_keeps) fun _ => .pure _)

theorem parserStep_keeps (defer : Bool) : Keeps (parserStep defer) := by
  refine .get fun s => .ite (fun _ => background_keeps) fun _ => .ite (fun _ => rest_keeps .disabled rfl) fun _ => ?_
  split
  · exact rewait_keeps _
  · exact rewait_keeps _
  · exact rewait_keeps _
  · exact rewait_keeps _
  · exact .ite (fun _ => rest_keeps .stopped rfl) fun _ =>
      .ite (fun _ => rest_keeps .idle rfl) fun _ => runCommand_keeps _

theorem syncFlush_keeps : Keeps syncFlush :=
  .get fun _ => .seq (.onlyIf (.modify (fun _ h => State.inv_flushCaches h) fun _ => rfl))
    (.seq (.onlyIf (.modify (fun _ h => h) fun _ => rfl))
    (.seq (.onRegs (fun _ => rfl) fun _ h => h.withInstpm (setBit_and _ (setBit_and _ h.reserved.instpm rfl) rfl))
      (raiseInt_keeps 24 rfl (by decide) (by decide))))

theorem defaultStep_keeps : Keeps defaultStep :=
  .get fun _ => .ite (fun _ => syncFlush_keeps) fun _ => .ite (fun _ => engineStep_keeps) fun _ => parserStep_keeps _

/-! ## Events -/

theorem State.inv_takeAhead (ring : Bool) (n : Nat) (hs : s.inv) : (s.takeAhead ring n).inv := by
  unfold State.takeAhead
  split
  · exact hs
  · split <;> exact hs

theorem State.inv_fillTlb (k : Nat) (hs : s.inv) : (s.fillTlb k).inv := by
  unfold State.fillTlb
  split
  · split <;> exact hs
  · exact hs

theorem State.inv_fillPd (k : Nat) (hs : s.inv) : (s.fillPd k).inv := by
  unfold State.fillPd
  split <;> exact hs

theorem Regs.Ok.withTimestamp {r : Regs} {n : BitVec 36} (h : r.Ok) : ({ r with timestamp := n } : Regs).Ok :=
  h.of_reserved rfl rfl { h.reserved with }

theorem Regs.Ok.pend {r : Regs} (h : r.Ok) (k : Nat) (valid ready : Bool) (sec1 : Word) :
    (r.pend k valid ready sec1).Ok :=
  h.of_reserved rfl rfl { h.reserved with }

/-- The registers after reset are as the invariant asks (R480). -/
theorem Regs.reset_ok : Regs.reset.Ok :=
  ⟨⟨(Regs.reservedOk_iff _).mp (by decide), by decide⟩, by decide⟩

/-- RESET leaves memory and page tables, and everything else as at the start (R480). -/
theorem State.inv_afterReset (full : Bool) (hs : s.inv) : (s.afterReset full).inv := by
  obtain ⟨hc, -, -, hg, hp⟩ := State.memOk_of_inv hs
  have hm : (s.afterReset full).memOk := ⟨⟨hc.1, rfl, rfl⟩, rfl, rfl, hg, hp⟩
  exact (State.inv_iff _).mpr ⟨hm, Regs.reset_ok.withTimestamp, BitVec.zero_and, rfl, rfl⟩

theorem runEvent_keeps (e : EnvEvent) : Keeps (runEvent e) := by
  cases e with
  | parser => exact parserStep_keeps _
  | parserDefer => exact parserStep_keeps _
  | engine => exact engineStep_keeps
  | readAhead ring n => exact fun s hs _ => Runs.of_ok rfl ⟨trivial, State.inv_takeAhead ring n hs, trivial⟩
  | drain => exact fun s hs _ => Runs.of_ok rfl ⟨trivial, State.inv_drainOne hs, trivial⟩
  | evict a => exact fun s hs _ => Runs.of_ok rfl ⟨trivial, State.inv_midAct (.evict a) hs, trivial⟩
  | texFill a => exact fun s hs _ => Runs.of_ok rfl ⟨trivial, State.inv_midAct (.texFill a) hs, trivial⟩
  | midEvents l => exact fun s hs _ => Runs.of_ok rfl ⟨trivial, hs, trivial⟩
  | tlbFill k => exact fun s hs _ => Runs.of_ok rfl ⟨trivial, State.inv_fillTlb k hs, trivial⟩
  | tlbDrop => exact fun s hs _ => Runs.of_ok rfl ⟨trivial, hs, trivial⟩
  | pdFill k => exact fun s hs _ => Runs.of_ok rfl ⟨trivial, State.inv_fillPd k hs, trivial⟩
  | pdDrop => exact fun s hs _ => Runs.of_ok rfl ⟨trivial, hs, trivial⟩
  | tlbPick => exact fun s hs _ => Runs.of_ok rfl ⟨trivial, hs, trivial⟩
  | tlbPend k valid ready sec1 =>
    exact .onRegs (f := fun r => r.pend k valid ready sec1) (fun _ => rfl) fun _ h => h.pend k valid ready sec1
  | asyncLoad k => exact landAsyncLoad_keeps k
  | syncFlush => exact .get fun _ => .onlyIf syncFlush_keeps
  | hostWrite off v => exact mmioWrite_keeps off v
  | hostClearIir v =>
    exact onRegs_refresh_keeps fun r h => ⟨{ h.reserved with iir := and_and_eq_zero _ h.reserved.iir }, h.tail⟩
  | hostStore a b => exact fun s hs _ => Runs.of_ok rfl ⟨trivial, State.inv_midAct (.hostStore a b) hs, trivial⟩
  | setPage sp page entry =>
    refine fun s hs _ => ?_
    obtain ⟨-, -, -, hg, hp⟩ := State.memOk_of_inv hs
    cases sp with
    | ggtt => exact Runs.of_ok rfl ⟨trivial, State.inv_tables hs (sorted_insert _ page entry hg) hp, trivial⟩
    | ppgtt => exact Runs.of_ok rfl ⟨trivial, State.inv_tables hs hg (sorted_insert _ page entry hp), trivial⟩
  | setDirectory => exact fun s hs _ => Runs.of_ok rfl ⟨trivial, hs, trivial⟩
  | csSemaphore v =>
    exact .onRegs (f := fun r => { r with brsync := v }) (fun _ => rfl) fun _ h =>
      h.of_reserved rfl rfl { h.reserved with }
  | vcsSemaphore v =>
    exact .onRegs (f := fun r => { r with bvsync := v }) (fun _ => rfl) fun _ h =>
      h.of_reserved rfl rfl { h.reserved with }
  | flipDone plane async =>
    exact .seq (.modify (fun _ h => h) fun _ => rfl)
      (.onRegs (fun _ => rfl) fun _ h => h.withSyncFlip (and_and_eq_zero _ h.reserved.syncFlip))
  | tick n =>
    exact .onRegs (f := fun r => { r with timestamp := r.timestamp + BitVec.ofNat 36 n }) (fun _ => rfl) fun _ h =>
      h.withTimestamp
  | reset full => exact fun s hs _ => Runs.of_ok rfl ⟨trivial, State.inv_afterReset full hs, trivial⟩

/-! ## The step -/

theorem stepM_keeps : Keeps stepM := by
  refine .seq (.seq (.modify (fun _ h => h) fun _ => rfl) dropPulses_keeps) fun s hs _ => ?_
  rw [runs_get_bind]
  split
  · exact defaultStep_keeps s hs trivial
  · exact runEvent_keeps _ { s with schedule := _ } hs trivial

/-- Settles O38: every operation of a step keeps the invariant, so the step does. -/
theorem stepKeepsInv : Obligations.StepKeepsInv := by
  unfold Obligations.StepKeepsInv
  intro s t hs ht
  exact stepM_keeps.outcome hs ht

end Sys2Proof.Machine
end

section
/-! PROOFS. A step at an event of the schedule (R8, R450): the register writes of the host (R61) and the status write they
cause (R424), and the acts of the environment on caches, TLBs and flips (R155, R162, R165, R387). -/

namespace Sys2Proof.Machine

variable {s t : State} {es : List EnvEvent}

/-! ## The step at an event -/

/-- Where nothing is left from the last step, the step is the event (R450). -/
theorem stepM_event {e : EnvEvent} (hq : s.quiet) (hs : s.schedule = e :: es) :
    stepM s = runEvent e { s with schedule := es } := by
  unfold stepM
  rw [bind_ok (beginStep_quiet hq)]
  simp only [run_get_bind, hs, run_set_bind]

theorem step_event_next {e : EnvEvent} (hq : s.quiet) (hs : s.schedule = e :: es)
    (h : runEvent e { s with schedule := es } = .ok (⟨⟩, t)) : step s = .next t :=
  outcome_ok ((stepM_event hq hs).trans h)

theorem step_event_refused {e : EnvEvent} {f : Refusal} (hq : s.quiet) (hs : s.schedule = e :: es)
    (h : runEvent e { s with schedule := es } = .error (.refused f)) : step s = .refused f :=
  outcome_error ((stepM_event hq hs).trans h)

/-! ## Writes that the register drops -/

/-- The reserved upper half of BCS_PP_DCLV keeps its value like a read-only register (R78, D9). -/
theorem mmioWrite_dropped (s : State) {off : Nat} (w : Word) (h : readOnlyReg off ∨ off = 0x22224) :
    mmioWrite off w s = .ok (⟨⟩, s) := by
  rcases h with h | rfl
  · exact mmioWrite_readOnly s off w h
  · rfl

/-! ## BCS_RING_BUFFER_CTL with a one written to RBWait (R90) -/

theorem bit_takeBits_eq (old w m : Word) (i : Nat) : bit (takeBits old w m) i = if bit m i then bit w i else bit old i := by
  by_cases hi : i < 32
  · simp only [bit, takeBits, BitVec.getLsbD_or, BitVec.getLsbD_and, BitVec.getLsbD_not, hi, decide_true, Bool.true_and]
    by_cases hm : m.getLsbD i <;> simp [hm]
  · simp [bit, BitVec.getLsbD_of_ge _ i (Nat.le_of_not_lt hi)]

/-- What a bit was before a write does not matter where it is set afterwards. -/
theorem setBit_takeBits_setBit (old w m : Word) (i : Nat) (a b : Bool) :
    setBit (takeBits (setBit old i a) w m) i b = setBit (takeBits old w m) i b := by
  apply BitVec.eq_of_getLsbD_eq
  intro j hj
  change bit _ j = bit _ j
  by_cases hji : j = i
  · subst hji
    rw [bit_setBit_same _ _ _ hj, bit_setBit_same _ _ _ hj]
  · simp only [bit_setBit_other _ _ _ _ hji, bit_takeBits_eq]

/-- A one written to RBWait clears it (R90). -/
theorem ctlWrite_rbWait (old : Word) {w : Word} (h : bit w 11) :
    ctlWrite old w = setBit (takeBits old w 0x001FF007) 11 false := if_pos h

/-- The registers once a wait for an event has ended: the wait records and RBWait cleared (R385, log 44). -/
def Regs.eventOver (r : Regs) : Regs :=
  { r with syncFlip := r.syncFlip &&& ~~~waitRecords, ctl := setBit r.ctl 11 false }

/-- RBWait plays no part in the ring's length (R23). -/
theorem Regs.eventOver_ringSize (r : Regs) : r.eventOver.ringSize = r.ringSize := by
  unfold Regs.ringSize Regs.eventOver
  rw [field_setBit_other _ _ _ _ _ (by omega)]

/-- Where a wait for an event ends, `pc` moves past the command (R385). -/
theorem endEventWait_ok (hc : s.canAdvance 1) :
    endEventWait s = .ok (⟨⟩, ({ s with regs := s.regs.eventOver } : State).advanced 1) := by
  unfold endEventWait
  rw [run_onRegs_bind]
  have hc' : ({ s with regs := s.regs.eventOver } : State).canAdvance 1 = s.canAdvance 1 :=
    canAdvance_ctl (i := 11) false (.inr rfl) rfl rfl rfl rfl
  exact finish_ok (hc'.trans hc)

@[simp] theorem State.advanced_ctl (s : State) (n : Nat) : (s.advanced n).regs.ctl = s.regs.ctl := by
  unfold State.advanced
  split
  · rfl
  · exact Regs.moved_ctl _ _

@[simp] theorem Regs.moved_syncFlip (r : Regs) (n : Nat) : (r.moved n).syncFlip = r.syncFlip := by
  unfold Regs.moved Regs.uhptrCheck
  split <;> rfl

@[simp] theorem State.advanced_syncFlip (s : State) (n : Nat) : (s.advanced n).regs.syncFlip = s.regs.syncFlip := by
  unfold State.advanced
  split
  · rfl
  · exact Regs.moved_syncFlip _ _

theorem State.advanced_head (s : State) (n : Nat) : (s.advanced n).regs.head =
    if s.parser.inBatch then s.regs.head else advanceHead s.regs.head s.regs.ringSize n := by
  unfold State.advanced
  split
  · rfl
  · exact Regs.moved_head _ _

theorem State.advanced_batchAddr (s : State) (n : Nat) : (s.advanced n).parser.batchAddr =
    if s.parser.inBatch then s.parser.batchAddr + BitVec.ofNat 32 (4 * n) else s.parser.batchAddr := by
  unfold State.advanced
  split <;> rfl

/-- The ring control may be written where the tail does not lie outside afterwards (R87, R90). -/
theorem tailOutside_of_writeRefused {r : Regs} {w : Word} (h : r.writeRefused 0x2203C w = none) :
    (r.withCtl w).tailOutside = false := by
  rw [tailOutside_withCtl]
  simpa [Regs.writeRefused] using h

/-- A parser that waits for no event takes the fields of the write and no more (R90). -/
theorem writeCtl_noWait {w : Word} (ht : (s.regs.withCtl w).tailOutside = false) (hr : ∀ i, s.parser.run ≠ .waitEvent i) :
    mmioWrite 0x2203C w s = .ok (⟨⟩, { s with regs := s.regs.withCtl w }) := by
  simp only [mmioWrite, run_get_bind, ht, Bool.false_eq_true, if_false]
  cases hrun : s.parser.run with
  | waitEvent i => exact absurd hrun (hr i)
  | _ => rfl

/-- A parser that waits for an event ends the wait by the old fields, and takes the new ones afterwards (log 53). -/
theorem writeCtl_endsWait {w : Word} {i : Instr} (ht : (s.regs.withCtl w).tailOutside = false) (hb : bit w 11)
    (hr : s.parser.run = .waitEvent i) (hc : s.canAdvance 1) :
    mmioWrite 0x2203C w s = onRegs (·.withCtl w) (({ s with regs := s.regs.eventOver } : State).advanced 1) := by
  simp only [mmioWrite, run_get_bind, ht, Bool.false_eq_true, if_false, hr, hb]
  exact bind_ok (endEventWait_ok hc)

/-- What a write that ends a wait leaves in the parser and the ring registers (R90, R385). -/
theorem advanced_eventOver_withCtl (s : State) {w : Word} (hb : bit w 11) :
    let u := ({ s with regs := s.regs.eventOver } : State).advanced 1
    u.parser.run = .running ∧
      (u.regs.withCtl w).ctl = setBit (takeBits s.regs.ctl w 0x001FF007) 11 false ∧
      (u.regs.withCtl w).syncFlip = s.regs.syncFlip &&& ~~~waitRecords ∧
      u.parser.batchAddr = (s.advanced 1).parser.batchAddr ∧
      (u.regs.withCtl w).head = (s.advanced 1).regs.head := by
  refine ⟨State.advanced_run _ _, ?_, State.advanced_syncFlip _ _, ?_, ?_⟩
  · refine (ctlWrite_rbWait _ hb).trans ?_
    rw [State.advanced_ctl]
    exact setBit_takeBits_setBit s.regs.ctl w _ 11 false false
  · rw [State.advanced_batchAddr, State.advanced_batchAddr]
  · refine (State.advanced_head _ _).trans ?_
    rw [State.advanced_head, Regs.eventOver_ringSize]
    rfl

/-! ## What follows an interrupt mask or error -/

/-- The EIR and the level bits of the ISR follow, and the ISR is posted to the status page (R421, R424, R425). -/
theorem refresh_posts (h : s.regs.followingWrites) (hp : (s.parserPhys .ggtt s.regs.statusAddr true .event).isSome) :
    refresh s = .ok (⟨⟩, { s with
      regs := s.regs.following
      posted := s.posted ++ [cellsAt (s.parserAddr .ggtt s.regs.statusAddr true .event) (wordBytes s.regs.following.isr)]
      xlats := (s.noteXlat .bcs .ggtt s.regs.statusAddr true .event).xlats }) := by
  have hphys : s.withEir.parserPhys .ggtt s.regs.statusAddr true .event = s.parserPhys .ggtt s.regs.statusAddr true .event :=
    parserPhys_congr (s := s) (t := s.withEir) rfl _ _ _ _
  have hopen : s.settleOpen := by
    unfold State.settleOpen State.statusOpen
    rw [show s.withEir.regs.statusAddr = s.regs.statusAddr from rfl, hphys, hp, Bool.or_true]
  have hsig : s.withEir.signals (levels s.withEir.regs s.regs.isr) = true := h
  rw [refresh_ok hopen, State.settled, State.signalled, if_pos hsig, if_pos hsig]
  unfold State.parserAddr
  rw [show s.withEir.regs.statusAddr = s.regs.statusAddr from rfl, hphys, noteXlat_congr (s := s) (t := s.withEir) rfl rfl]
  rfl

/-- The interrupt masks and errors play no part in translations, nor in where the status page lies. -/
theorem writeErrors_frame {r r' : Regs} {off : Nat} {w : Word} (h : r.writeErrors off w = some r') :
    r'.statusAddr = r.statusAddr ∧ r'.bltMode = r.bltMode ∧ r'.ppDclv = r.ppDclv := by
  unfold Regs.writeErrors at h
  split at h <;> cases h <;> exact ⟨rfl, rfl, rfl⟩

/-- Where nothing is to change but the IIR, it takes in again the unmasked bits of the ISR (R421). -/
theorem refresh_settled (he : eirOf s.regs = s.regs.eir) (hl : levels s.regs s.regs.isr = s.regs.isr) :
    refresh s = .ok (⟨⟩, { s with regs := { s.regs with iir := s.regs.iir ||| (s.regs.isr &&& ~~~s.regs.imr) } }) := by
  have hr : ({ s.regs with eir := eirOf s.regs } : Regs) = s.regs := by rw [he]
  have hsilent : s.regs.followingWrites = false := by
    simp [Regs.followingWrites, needsStatusWrite, hr, hl]
  have hfollow : s.regs.following = { s.regs with iir := s.regs.iir ||| (s.regs.isr &&& ~~~s.regs.imr) } := by
    simp only [Regs.following, hr, hl]
    rfl
  rw [refresh_silent hsilent, hfollow]

/-! ## Caches and TLBs -/

/-- The only write of a byte leaves the render cache for memory, and no other byte is touched (R162). -/
theorem evictByte_last {a : Nat} {b : Byte} (hm : Memory.wf s.mem) (hc : sorted s.rc) (hp : lookup s.rcPast a = none)
    (hr : lookup s.rc a = some b) :
    Memory.read (s.evictByte a).mem a = b ∧ lookup (s.evictByte a).rc a = none ∧ (s.evictByte a).renderRead a = b ∧
      ∀ x, x ≠ a → Memory.read (s.evictByte a).mem x = Memory.read s.mem x ∧
        lookup (s.evictByte a).rc x = lookup s.rc x := by
  have he : s.evictByte a = { s with mem := Memory.write s.mem a b, rc := erase s.rc a } := by
    simp only [State.evictByte, hp, hr]
  have hmem (x : Nat) : Memory.read (s.evictByte a).mem x = if a = x then b else Memory.read s.mem x := by
    rw [he]
    exact Memory.read_write s.mem a x b hm
  have hrc (x : Nat) : lookup (s.evictByte a).rc x = if a = x then none else lookup s.rc x := by
    rw [he]
    exact lookup_erase s.rc a x hc
  refine ⟨by simp [hmem], by simp [hrc], by simp [State.renderRead, hmem, hrc], fun x hx => ?_⟩
  rw [hmem, hrc, if_neg hx.symm, if_neg hx.symm]
  exact ⟨rfl, rfl⟩

/-- Of a byte written again the earlier write reaches memory first (R162). -/
theorem evictByte_past {a : Nat} {b : Byte} (hp : lookup s.rcPast a = some b) :
    s.evictByte a = { s with mem := Memory.write s.mem a b, rcPast := erase s.rcPast a } := by
  simp only [State.evictByte, hp]

/-- A TLB takes the translation of this number, and nothing else (R155). -/
theorem fillTlb_eq {k : Nat} {e : TlbEntry} (h : s.xlats[k]? = some e) :
    ∃ l, s.fillTlb k = { s with tlb := l } ∧ ∀ d, d ∈ l ↔ d = e ∨ d ∈ s.tlb := by
  simp only [State.fillTlb, h]
  split
  · rename_i hc
    rw [List.contains_iff_mem] at hc
    exact ⟨s.tlb, rfl, fun d => (or_iff_right_of_imp fun hd => hd ▸ hc).symm⟩
  · exact ⟨s.tlb ++ [e], rfl, fun d => by simp [or_comm]⟩

theorem fillTlb_none {k : Nat} (h : s.xlats[k]? = none) : s.fillTlb k = s := by
  simp only [State.fillTlb, h]

/-- The PD TLB takes a directory entry that a translation of the record went through, and nothing else (R155). -/
theorem fillPd_eq {i : Nat} (h : ∃ e ∈ s.xlats, e.space = .ppgtt ∧ e.page / 1024 = i) :
    s.fillPd i = { s with pdTlb := i :: s.pdTlb.filter (· != i) } := by
  unfold State.fillPd
  exact if_pos (by simpa using h)

theorem fillPd_none {i : Nat} (h : ∀ e ∈ s.xlats, e.space = .ppgtt → e.page / 1024 ≠ i) : s.fillPd i = s := by
  unfold State.fillPd
  exact if_neg (by simpa using h)

/-- Putting an entry first and dropping it elsewhere adds it (R155). -/
theorem contains_cons_filter_ne (l : List Nat) (i k : Nat) :
    (i :: l.filter (· != i)).contains k = (k == i || l.contains k) := by
  rw [Bool.eq_iff_iff]
  by_cases hk : k = i <;> simp [hk]

/-- With nothing in the TLBs, a translation that succeeds has come from the table, and is noted (R155). -/
theorem translate_noted {u : TlbUnit} {sp : Space} {a : Nat} {w : Bool} {use : Use} {p : Phys}
    (h : s.translate u sp a w use = .ok p) (ht : s.tlb = []) :
    (⟨u, s.effective sp, a / 4096, tableEntry (s.table (s.effective sp)) (a / 4096)⟩ : TlbEntry) ∈
      (s.noteXlat u sp a w use).xlats := by
  have hn : s.tlbEntry u (s.effective sp) a w use = none := by simp [State.tlbEntry, tlbHeld, ht]
  rw [mem_noteXlat]
  right
  simp only [State.xlatPair, h, hn]

/-- A translation that faults leaves nothing for the TLBs to take (R155). -/
theorem noteXlat_of_fault {u : TlbUnit} {sp : Space} {a : Nat} {w : Bool} {use : Use} {e : XlatFault}
    (h : s.translate u sp a w use = .error e) : s.noteXlat u sp a w use = s := by
  simp only [State.noteXlat, State.xlatPair, h]

/-! ## The steps -/

/-- A host write to an interrupt mask or error register that causes a status write (R424). -/
theorem step_hostWrite_posts {off : Nat} {w : Word} {r : Regs} (hq : s.quiet) (hs : s.schedule = .hostWrite off w :: es)
    (hw : s.regs.writeErrors off w = some r) (hf : r.followingWrites)
    (hp : (s.parserPhys .ggtt s.regs.statusAddr true .event).isSome) :
    step s = .next { s with
      regs := r.following
      posted := s.posted ++ [cellsAt (s.parserAddr .ggtt s.regs.statusAddr true .event) (wordBytes r.following.isr)]
      xlats := (s.noteXlat .bcs .ggtt s.regs.statusAddr true .event).xlats
      schedule := es } := by
  obtain ⟨haddr, hblt, hdclv⟩ := writeErrors_frame hw
  have hview : State.xlatView { s with regs := r, schedule := es } = s.xlatView := by
    simp only [State.xlatView, hblt, hdclv]
  have hphys := parserPhys_congr hview .ggtt s.regs.statusAddr true .event
  have hrefresh := refresh_posts (s := { s with regs := r, schedule := es }) hf (by rw [haddr, hphys]; exact hp)
  refine step_event_next hq hs ((mmioWrite_errors { s with schedule := es } off w r hw).trans (hrefresh.trans ?_))
  simp only [State.parserAddr, haddr, hphys, noteXlat_congr hview rfl]

/-- A host write to BCS_RING_BUFFER_CTL that ends the wait of the parser (R90, R385). -/
theorem step_hostWrite_endsWait {w : Word} {i : Instr} (hq : s.quiet) (hs : s.schedule = .hostWrite 0x2203C w :: es)
    (hb : bit w 11) (hw : s.regs.writeRefused 0x2203C w = none) (hr : s.parser.run = .waitEvent i) (hc : s.canAdvance 1) :
    ∃ t, step s = .next t ∧ t.parser.run = .running ∧ bit t.regs.ctl 11 = false ∧
      t.regs.ctl = setBit (takeBits s.regs.ctl w 0x001FF007) 11 false ∧
      t.regs.syncFlip = s.regs.syncFlip &&& ~~~waitRecords ∧ t.parser.batchAddr = (s.advanced 1).parser.batchAddr ∧
      t.regs.head = (s.advanced 1).regs.head := by
  have hrun := writeCtl_endsWait (s := { s with schedule := es }) (tailOutside_of_writeRefused hw) hb hr hc
  obtain ⟨hrunning, hctl, hflip, hbatch, hhead⟩ := advanced_eventOver_withCtl { s with schedule := es } hb
  refine ⟨_, step_event_next hq hs hrun, hrunning, ?_, hctl, hflip, hbatch.trans ?_, hhead.trans ?_⟩
  · rw [hctl, bit_setBit_same _ _ _ (by decide)]
  · rw [State.advanced_batchAddr, State.advanced_batchAddr]
  · rw [State.advanced_head, State.advanced_head]

/-- The host clears IIR bits; those whose ISR bit is 1 and unmasked are set again (R421). -/
theorem step_hostClearIir {w : Word} (hq : s.quiet) (hs : s.schedule = .hostClearIir w :: es)
    (he : eirOf s.regs = s.regs.eir) (hl : levels s.regs s.regs.isr = s.regs.isr) :
    step s = .next { s with
      regs := { s.regs with iir := (s.regs.iir &&& ~~~w) ||| (s.regs.isr &&& ~~~s.regs.imr) }
      schedule := es } :=
  step_event_next hq hs
    (refresh_settled (s := { s with regs := { s.regs with iir := s.regs.iir &&& ~~~w }, schedule := es }) he hl)

/-- Settles O52: the step is the event, and each event is the register write or the operation on the state that it names. -/
theorem hostWritesRegisters : Obligations.HostWritesRegisters := by
  unfold Obligations.HostWritesRegisters
  intro s es hq
  refine ⟨fun off w r hs hw => ?written, fun off w hs hro => ?readOnly, fun off w f hs hf => ?refused,
    fun w hs hb hw => ⟨fun hr => ?noWait, fun i hr hc => step_hostWrite_endsWait hq hs hb hw hr hc⟩,
    fun off w r hs hw hf hp => step_hostWrite_posts hq hs hw hf hp,
    fun w hs he hl => step_hostClearIir hq hs he hl,
    fun a b hs hm hc => ⟨fun hp hr => ?evict, fun hp => ?evictPast⟩, fun p ps hs hp => ?drain,
    fun k hs => ⟨fun e he => ?tlbFill, fun hn => ?tlbNone⟩, fun i hs => ⟨fun h => ?pdFill, fun h => ?pdNone⟩,
    fun u sp a w use p h ht => translate_noted h ht, fun u sp a w use e h => noteXlat_of_fault h,
    fun plane async hs => step_event_next hq hs rfl⟩
  case written => exact step_event_next hq hs (mmioWrite_written _ off w r hw)
  case readOnly => exact step_event_next hq hs (mmioWrite_dropped _ w hro)
  case refused => exact step_event_refused hq hs (mmioWrite_refused _ off w f hf)
  case noWait =>
    rw [← ctlWrite_rbWait _ hb]
    exact step_event_next hq hs (writeCtl_noWait (tailOutside_of_writeRefused hw) hr)
  case evict =>
    exact ⟨_, step_event_next hq hs (run_modify _ _), evictByte_last (s := { s with schedule := es }) hm hc hp hr⟩
  case evictPast =>
    refine step_event_next hq hs ((run_modify _ _).trans ?_)
    rw [evictByte_past (s := { s with schedule := es }) hp]
  case drain =>
    refine step_event_next hq hs ((run_modify _ _).trans ?_)
    simp only [State.drainOne, hp]
  case tlbFill =>
    obtain ⟨l, hl, hmem⟩ := fillTlb_eq (s := { s with schedule := es }) he
    exact ⟨l, step_event_next hq hs ((run_modify _ _).trans (by rw [hl])), (hmem e).mpr (.inl rfl), hmem⟩
  case tlbNone =>
    exact step_event_next hq hs ((run_modify _ _).trans (by rw [fillTlb_none (s := { s with schedule := es }) hn]))
  case pdFill =>
    exact ⟨_, step_event_next hq hs ((run_modify _ _).trans (by rw [fillPd_eq (s := { s with schedule := es }) h])),
      contains_cons_filter_ne _ _⟩
  case pdNone =>
    exact step_event_next hq hs ((run_modify _ _).trans (by rw [fillPd_none (s := { s with schedule := es }) h]))

end Sys2Proof.Machine
end

section
/-! PROOFS. Painting (R162, R241, R252, R255, R330): what it leaves alone, what it makes of the bytes of a pixel, what texture
reads record, and which bytes an overlap leaves open. -/

namespace Sys2Proof.Machine

variable {s t : State}

/-! ## The bytes of one pixel -/

section

variable (ov : Nat → Nat → Bool) (a ph : Nat) (en : Nat → Bool) (v : Word)

/-- What an enabled byte of a pixel becomes: a free value in an overlap, else the result's (R486). -/
def pixelByte (s : State) (k : Nat) : Byte :=
  if ov (a + k) (ph + k) then Config.freeByte s.freeCount else byteOf v k

/-- `putPixel` for one byte: its step from one byte of the pixel to the next. -/
def putByte (s : State) (k : Nat) : State :=
  if en k then
    if ov (a + k) (ph + k) then
      { s.renderWrite (ph + k) (Config.freeByte s.freeCount) with freeCount := s.freeCount + 1 }
    else s.renderWrite (ph + k) (byteOf v k)
  else s

theorem putPixel_cons (k : Nat) (ks : List Nat) (s : State) :
    putPixel ov a ph en v (k :: ks) s = putPixel ov a ph en v ks (putByte ov a ph en v s k) := rfl

theorem putByte_frame (s : State) (k : Nat) :
    ∃ rc past n, putByte ov a ph en v s k = { s with rc := rc, rcPast := past, freeCount := n } := by
  unfold putByte
  split
  · split <;> exact ⟨_, _, _, rfl⟩
  · exact ⟨_, _, _, rfl⟩

theorem putByte_renderRead (s : State) (k x : Nat) : (putByte ov a ph en v s k).renderRead x =
    if en k ∧ ph + k = x then pixelByte ov a ph v s k else s.renderRead x := by
  unfold putByte pixelByte
  by_cases he : en k
  · simp only [he, if_true, true_and]
    split
    · exact State.renderRead_renderWrite s (ph + k) x (Config.freeByte s.freeCount)
    · exact State.renderRead_renderWrite s (ph + k) x (byteOf v k)
  · simp [he]

/-- The bytes of a pixel change the render cache and the free-value counter alone. -/
theorem putPixel_frame (ks : List Nat) (s : State) :
    ∃ rc past n, putPixel ov a ph en v ks s = { s with rc := rc, rcPast := past, freeCount := n } := by
  induction ks generalizing s with
  | nil => exact ⟨_, _, _, rfl⟩
  | cons k ks ih =>
    obtain ⟨_, _, _, hk⟩ := putByte_frame ov a ph en v s k
    rw [putPixel_cons, hk]
    obtain ⟨_, _, _, hks⟩ := ih _
    exact ⟨_, _, _, hks⟩

variable {en} {k : Nat}

/-- A byte that the mask disables keeps its value (R241). -/
theorem putPixel_renderRead_masked (he : en k = false) (ks : List Nat) (s : State) :
    (putPixel ov a ph en v ks s).renderRead (ph + k) = s.renderRead (ph + k) := by
  induction ks generalizing s with
  | nil => rfl
  | cons i ks ih =>
    rw [putPixel_cons, ih, putByte_renderRead, if_neg]
    rintro ⟨hi, hik⟩
    rw [Nat.add_left_cancel hik, he] at hi
    cases hi

/-- A byte that the mask enables is written, whatever the state is when its turn comes (R255, R486). -/
theorem putPixel_renderRead_enabled (he : en k) (ks : List Nat) (s : State)
    (h : k ∈ ks ∨ ∃ u, s.renderRead (ph + k) = pixelByte ov a ph v u k) :
    ∃ u, (putPixel ov a ph en v ks s).renderRead (ph + k) = pixelByte ov a ph v u k := by
  induction ks generalizing s with
  | nil => exact h.resolve_left List.not_mem_nil
  | cons i ks ih =>
    rw [putPixel_cons]
    refine ih _ ?_
    rw [putByte_renderRead]
    by_cases hik : i = k
    · subst hik
      exact .inr ⟨s, if_pos ⟨he, rfl⟩⟩
    · rw [if_neg fun hc => hik (Nat.add_left_cancel hc.2)]
      exact h.imp_left fun hk => (List.mem_cons.mp hk).resolve_left (Ne.symm hik)

end

/-! ## What painting keeps -/

section

variable {P : State → Prop} (hreach : ∀ t a w use, P t → P (t.reached a w use)) (hnote : ∀ t l, P t → P (t.noteTexture l))

include hreach hnote

/-- What every access and every record of a texture read keeps, reading the operands of a pixel keeps. -/
theorem noted_keeps (j : Job) (x y : Int) (h : P s) : P (j.noted s x y) := by
  have hpattern : P (j.afterPattern s x y) := by
    unfold Job.afterPattern
    simp only
    split
    · split
      · exact hnote _ _ (hreach _ _ _ _ h)
      · exact h
    · exact h
  have hsource : P (j.afterSource (j.afterPattern s x y) x y) := by
    unfold Job.afterSource
    simp only
    split
    · split
      · exact hreach _ _ _ _ hpattern
      · exact hpattern
    · split
      · exact hnote _ _ (hreach _ _ _ _ hpattern)
      · exact hpattern
    · exact hpattern
  unfold Job.noted Job.afterDest
  split
  · exact hreach _ _ _ _ hsource
  · exact hsource

/-- So does painting, when the write of each pixel keeps it too. -/
theorem paint_keeps (j : Job) (ov : Nat → Nat → Bool) (px : List (Int × Int))
    (hput : ∀ p ∈ px, ∀ t u a v, P t → P u →
      P (putPixel ov a (t.physAddr (j.dst.addr (bpp j.depth) p.1 p.2) (bpp j.depth) true (.dest p.1 p.2))
        (byteEnable j.depth j.mask) v (List.range (bpp j.depth)) u))
    (h : P s) : P (j.paint ov s px) := by
  induction px generalizing s with
  | nil => exact h
  | cons p px ih =>
    refine ih (fun q hq => hput q (List.mem_cons_of_mem _ hq)) ?_
    have hnoted := noted_keeps hreach hnote j p.1 p.2 h
    unfold Job.paintPixel
    simp only
    split
    · exact hput p List.mem_cons_self s _ _ _ h (hreach _ _ _ _ hnoted)
    · exact hnoted

end

/-- With nothing to happen in the middle of commands, painting leaves memory and the texture cache alone (R162). -/
theorem paint_still (j : Job) (ov : Nat → Nat → Bool) (px : List (Int × Int)) (h : s.midEvents = []) :
    (j.paint ov s px).mem = s.mem ∧ (j.paint ov s px).tc = s.tc := by
  have hkeep := paint_keeps (s := s) (P := fun t => t.midEvents = [] ∧ t.mem = s.mem ∧ t.tc = s.tc)
    (fun t a w use ht => ?reach) (fun t l ht => ht) j ov px (fun p hp t u a v _ hu => ?put) ⟨h, rfl, rfl⟩
  case reach =>
    unfold State.reached
    rw [t.midway_none use w ht.1]
    exact ht
  case put =>
    obtain ⟨_, _, _, hput⟩ := putPixel_frame ov a
      (t.physAddr (j.dst.addr (bpp j.depth) p.1 p.2) (bpp j.depth) true (.dest p.1 p.2)) (byteEnable j.depth j.mask) v
      (List.range (bpp j.depth)) u
    rw [hput]
    exact hu
  exact hkeep.2

/-- From `s` to `t` the engine has drawn, and nothing has changed byte `a` as BLTs read it, nor will disturb it. -/
def State.ByteKept (s : State) (a : Nat) (t : State) : Prop :=
  s.SameBut t ∧ t.cachesOk ∧ t.disturbs a = false ∧ t.renderRead a = s.renderRead a

theorem State.ByteKept.reached {a : Nat} (h : s.ByteKept a t) (b : Int) (w : Bool) (use : Use) :
    s.ByteKept a (t.reached b w use) := by
  obtain ⟨hsame, hok, hdist, hread⟩ := h
  obtain ⟨hok', hdist', hread'⟩ := t.midway_keeps use w a hok hdist
  exact ⟨hsame.trans (reached_sameBut t b w use), hok', hdist', hread'.trans hread⟩

theorem State.ByteKept.noteTexture {a : Nat} (h : s.ByteKept a t) (l : List Nat) : s.ByteKept a (t.noteTexture l) :=
  ⟨h.1.trans (noteTexture_sameBut t l), h.2⟩

theorem State.ByteKept.putPixel {a : Nat} (h : s.ByteKept a t) (ov : Nat → Nat → Bool) (g ph : Nat) (en : Nat → Bool)
    (v : Word) (ks : List Nat) (hks : ∀ k ∈ ks, ph + k ≠ a) : s.ByteKept a (putPixel ov g ph en v ks t) := by
  obtain ⟨hsame, hok, hdist, hread⟩ := h
  obtain ⟨hok', hread', _, _, hposted, hmid⟩ := putPixel_keeps ov g ph en v ks t a hks hok
  refine ⟨hsame.trans (putPixel_sameBut ..), hok', ?_, hread'.trans hread⟩
  unfold State.disturbs at hdist ⊢
  rwa [hposted, hmid]

/-- Outside its pixels painting changes no byte that nothing disturbs, as later BLTs read it (R255). -/
theorem paint_outside (j : Job) (ov : Nat → Nat → Bool) (px : List (Int × Int)) (hok : s.cachesOk) {a : Nat}
    (hf : j.footprint s px a = false) (hd : s.disturbs a = false) : (j.paint ov s px).renderRead a = s.renderRead a := by
  have hkeep := paint_keeps (s := s) (P := s.ByteKept a) (fun t b w use ht => ht.reached b w use)
    (fun t l ht => ht.noteTexture l) j ov px (fun p hp t u g v ht hu => ?put) ⟨.refl s, hok, hd, rfl⟩
  case put =>
    have hout := List.any_eq_false.mp hf p hp
    simp only [Bool.and_eq_true, decide_eq_true_eq, not_and_or] at hout
    rw [ht.1.physAddr]
    refine hu.putPixel ov g _ _ v _ fun k hk hka => ?_
    have := List.mem_range.mp hk
    omega
  exact hkeep.2.2.2

/-! ## What texture reads record -/

@[simp] theorem State.reached_tcRead (s : State) (a : Int) (w : Bool) (use : Use) : (s.reached a w use).tcRead = s.tcRead := by
  obtain ⟨_, _, _, _, _, h⟩ := s.midway_eq use w
  simp [State.reached, h]

@[simp] theorem State.reached_textureRead (s : State) (a : Int) (w : Bool) (use : Use) :
    (s.reached a w use).textureRead = (s.midway use w).textureRead := rfl

theorem afterPattern_tcRead (j : Job) (s : State) (x y : Int) (a : Nat) : lookup (j.afterPattern s x y).tcRead a =
    if a ∈ j.patternBytes s x y then some ((s.midway (.pattern x y) false).textureRead a) else lookup s.tcRead a := by
  unfold Job.afterPattern
  cases hp : j.pat with
  | memory addr =>
    simp only
    split
    · rw [State.noteTexture_tcRead, State.reached_tcRead, State.reached_textureRead]
    · rename_i hu
      simp [Job.patternBytes, hp, hu]
  | _ => simp [Job.patternBytes, hp]

theorem afterSource_tcRead (j : Job) (s : State) (x y : Int) (a : Nat) : lookup (j.afterSource s x y).tcRead a =
    if a ∈ j.monoBytes s x y then some ((s.midway (.source x y) false).textureRead a) else lookup s.tcRead a := by
  unfold Job.afterSource
  cases hp : j.src with
  | mono l w addr x1 y1 fg bg transparent =>
    simp only
    split
    · rw [State.noteTexture_tcRead, State.reached_tcRead, State.reached_textureRead]
    · rename_i hu
      simp [Job.monoBytes, hp, hu]
  | color f ox oy =>
    simp only
    split <;> simp [Job.monoBytes, hp]
  | _ => simp [Job.monoBytes, hp]

@[simp] theorem afterDest_tcRead (j : Job) (s : State) (x y : Int) : (j.afterDest s x y).tcRead = s.tcRead := by
  unfold Job.afterDest
  split
  · exact State.reached_tcRead ..
  · rfl

theorem State.SameBut.monoBytes (h : s.SameBut t) (j : Job) (x y : Int) : j.monoBytes t x y = j.monoBytes s x y := by
  unfold Job.monoBytes
  simp only [h.physAddr]

/-- Of one pixel the bytes of its pattern and of its monochrome source are recorded, the source's last (R162). -/
theorem paintPixel_tcRead (j : Job) (ov : Nat → Nat → Bool) (x y : Int) (s : State) (a : Nat) :
    lookup (j.paintPixel ov s (x, y)).tcRead a =
      if a ∈ j.monoBytes s x y then some (((j.afterPattern s x y).midway (.source x y) false).textureRead a)
      else if a ∈ j.patternBytes s x y then some ((s.midway (.pattern x y) false).textureRead a)
      else lookup s.tcRead a := by
  have hpaint : (j.paintPixel ov s (x, y)).tcRead = (j.noted s x y).tcRead := by
    unfold Job.paintPixel
    simp only
    split
    · rw [putPixel_tcRead, State.reached_tcRead]
    · rfl
  rw [hpaint, Job.noted, afterDest_tcRead, afterSource_tcRead, (afterPattern_sameBut j s x y).monoBytes, afterPattern_tcRead]

/-! ## Overlap -/

/-- Inside the source: the graphics address is one that the source of some pixel is read from (R252). -/
theorem inSource_iff (f : Surface) (n : Nat) (ox oy : Int) (px : List (Int × Int)) (a : Nat) :
    inSource f n ox oy px a ↔ ∃ p ∈ px, f.addr n (p.1 + ox) (p.2 + oy) ≤ (a : Int) ∧
      (a : Int) < f.addr n (p.1 + ox) (p.2 + oy) + n := by
  simp [inSource]

/-- Inside the source's memory: the place is one that the source of some pixel is read from (R330). -/
theorem inSourceMemory_iff (s : State) (f : Surface) (n : Nat) (ox oy : Int) (px : List (Int × Int)) (a : Nat) :
    s.inSourceMemory f n ox oy px a ↔ ∃ p ∈ px,
      (s.phys (f.addr n (p.1 + ox) (p.2 + oy)) n false (.source p.1 p.2)).isSome ∧
      s.physAddr (f.addr n (p.1 + ox) (p.2 + oy)) n false (.source p.1 p.2) ≤ a ∧
      a < s.physAddr (f.addr n (p.1 + ox) (p.2 + oy)) n false (.source p.1 p.2) + n := by
  unfold State.inSourceMemory State.physAddr
  rw [List.any_eq_true]
  refine exists_congr fun ⟨x, y⟩ => and_congr_right fun _ => ?_
  cases h : s.phys (f.addr n (x + ox) (y + oy)) n false (.source x y) <;> simp [h]

/-- A byte is overlapped exactly where the overlap does not conform and the source reads its address or its place (R330). -/
theorem overlapOf_iff {j : Job} {f : Surface} {ox oy : Int} (hsrc : j.src = .color f ox oy) (hs : (ropUses j.rop).s)
    (conforming : Surface → Surface → Bool) (px : List (Int × Int)) (s : State) (a phys : Nat) :
    overlapOf j conforming px s a phys = true ↔ conforming j.dst f = false ∧
      (inSource f (bpp j.depth) ox oy px a ∨ s.inSourceMemory f (bpp j.depth) ox oy px phys) := by
  simp [overlapOf, hsrc, hs, and_comm]

/-- Settles O58: painting keeps what each of its accesses and writes keeps; the rest is said of one pixel. -/
theorem paintTouchesItsPixels : Obligations.PaintTouchesItsPixels := by
  unfold Obligations.PaintTouchesItsPixels
  refine ⟨fun j ov px s => ⟨paint_still j ov px, fun hm hc hp a hf hd => paint_outside j ov px ⟨hm, hc, hp⟩ hf hd⟩,
    paintPixel_tcRead, fun ov a ph n en v s k hk => ⟨fun he => ?masked, fun he ho => ?result, fun he ho => ?free⟩,
    fun j f ox oy conforming px s a ph hsrc hs => ?overlap⟩
  case masked => exact putPixel_renderRead_masked ov a ph v he _ s
  case result =>
    obtain ⟨u, hu⟩ := putPixel_renderRead_enabled ov a ph v he _ s (.inl (List.mem_range.mpr hk))
    rw [hu, pixelByte, ho]
    rfl
  case free =>
    obtain ⟨u, hu⟩ := putPixel_renderRead_enabled ov a ph v he _ s (.inl (List.mem_range.mpr hk))
    exact ⟨u.freeCount, by rw [hu, pixelByte, if_pos ho]⟩
  case overlap =>
    rw [overlapOf_iff hsrc hs, inSource_iff, inSourceMemory_iff, ← exists_or]
    simp only [← and_or_left]

end Sys2Proof.Machine
end

section
/-! PROOFS. What the caches show (R162, R163): a flush, a store of the host, a byte the texture cache proves to have kept, and
a byte of the render cache that reaches memory in the middle of a command. -/

namespace Sys2Proof.Machine

variable {s : State} {es : List EnvEvent}

/-- After a flush memory holds what a BLT would have read: of each byte the last write, which the render cache holds if it
holds any (R162, R163). -/
theorem flushCaches_read (hm : Memory.wf s.mem) (hc : sorted s.rc) (hp : s.rcOk) (a : Nat) :
    Memory.read s.flushCaches.mem a = s.renderRead a := by
  rw [State.flushCaches_mem, Memory.read_writeAll_cache s.rc _ a (Memory.wf_writeAll s.rcPast s.mem hm) hc, State.renderRead]
  cases hrc : lookup s.rc a with
  | some b => rfl
  | none =>
    refine congrArg (none.getD ·) (Memory.read_writeAll_other s.rcPast s.mem a hm fun c hcell hca => ?_)
    have hlast := List.all_eq_true.mp hp c hcell
    rw [hca, hrc] at hlast
    cases hlast

/-- With both caches empty both show memory (R163). -/
theorem flushCaches_renderRead (s : State) (a : Nat) : s.flushCaches.renderRead a = Memory.read s.flushCaches.mem a := rfl

theorem flushCaches_textureRead (s : State) (a : Nat) : s.flushCaches.textureRead a = Memory.read s.flushCaches.mem a := rfl

/-- A byte the host stores is seen where no cache holds an older one (R162). -/
theorem step_hostStore {a : Nat} {b : Byte} (hq : s.quiet) (hm : Memory.wf s.mem) (hs : s.schedule = .hostStore a b :: es) :
    ∃ m, step s = .next { s with mem := m, schedule := es } ∧ Memory.read m a = b ∧
      (∀ x, x ≠ a → Memory.read m x = Memory.read s.mem x) ∧
      ({ s with mem := m } : State).renderRead a = (lookup s.rc a).getD b ∧
      ({ s with mem := m } : State).textureRead a = (lookup s.tc a).getD b := by
  have hread (x : Nat) := Memory.read_write s.mem a x b hm
  have hself : Memory.read (Memory.write s.mem a b) a = b := by rw [hread, if_pos rfl]
  refine ⟨Memory.write s.mem a b, step_event_next hq hs (run_modify _ _), hself, fun x hx => ?_, ?_, ?_⟩
  · rw [hread, if_neg hx.symm]
  · rw [State.renderRead, hself]
  · rw [State.textureRead, hself]

theorem fillTexture_eq {a : Nat} {b : Byte} (hr : lookup s.tcRead a = some b) (ht : lookup s.tc a = none) :
    s.fillTexture a = { s with tc := insert s.tc a b } := by
  simp only [State.fillTexture, hr, ht]

/-- The texture cache takes no byte that no texture read has returned, and replaces none (R162). -/
theorem fillTexture_none {a : Nat} (h : lookup s.tcRead a = none ∨ lookup s.tc a ≠ none) : s.fillTexture a = s := by
  unfold State.fillTexture
  split
  · rename_i hr ht
    exact absurd h (by simp [hr, ht])
  · rfl

/-- The texture cache keeps a byte, which patterns read from then on whatever memory holds (R162). -/
theorem step_texFill {a : Nat} {b : Byte} (hq : s.quiet) (hs : s.schedule = .texFill a :: es)
    (hr : lookup s.tcRead a = some b) (ht : lookup s.tc a = none) :
    ∃ c, step s = .next { s with tc := c, schedule := es } ∧ lookup c a = some b ∧
      (∀ m, ({ s with tc := c, mem := m } : State).textureRead a = b) ∧ ∀ x, x ≠ a → lookup c x = lookup s.tc x := by
  have hself : lookup (insert s.tc a b) a = some b := by rw [lookup_insert, if_pos rfl]
  refine ⟨insert s.tc a b, step_event_next hq hs ((run_modify _ _).trans ?_), hself, fun m => ?_, fun x hx => ?_⟩
  · rw [fillTexture_eq (s := { s with schedule := es }) hr ht]
  · rw [State.textureRead, hself]
    rfl
  · rw [lookup_insert, if_neg hx.symm]

/-! ## One event in the middle of commands -/

theorem midway_single {use : Use} {w : Bool} {e : MidAct} (h : s.midEvents = [⟨use, w, e⟩]) :
    s.midway use w = s.midAct e := by
  simp [State.midway, h]

theorem midway_single_other {use use' : Use} {w w' : Bool} {e : MidAct} (h : s.midEvents = [⟨use, w, e⟩])
    (hne : (use', w') ≠ (use, w)) : s.midway use' w' = s := by
  have hfilter : ¬(use = use' ∧ w = w') := fun ⟨hu, hw⟩ => hne (by rw [hu, hw])
  simp [State.midway, h, hfilter]

@[simp] theorem State.evictByte_tc (s : State) (a : Nat) : (s.evictByte a).tc = s.tc := by
  unfold State.evictByte
  split <;> rfl

/-- Settles O55: the flush and the events are the operations on memory and caches that they name, and what happens before an
access is the one event listed for it. -/
theorem flushMakesWritesVisible : Obligations.FlushMakesWritesVisible := by
  unfold Obligations.FlushMakesWritesVisible
  refine ⟨fun s hm hc hp a => ?flush, fun s a b es hq hm hs => step_hostStore hq hm hs,
    fun s a es hq hs => ⟨fun b hr ht => step_texFill hq hs hr ht, fun h => ?notKept⟩, fun s a => rfl,
    fun s l es hq hs => step_event_next hq hs (run_modify _ _),
    fun s use use' w w' a b hmid hm hc hp hr => ?evicted⟩
  case flush =>
    have hread := flushCaches_read hm hc hp a
    exact ⟨hread, (flushCaches_renderRead s a).trans hread, (flushCaches_textureRead s a).trans hread⟩
  case notKept =>
    refine step_event_next hq hs ((run_modify _ _).trans ?_)
    rw [fillTexture_none (s := { s with schedule := es }) h]
  case evicted =>
    obtain ⟨hmem, hrc, hrender, _⟩ := evictByte_last hm hc hp hr
    rw [midway_single hmid, State.midAct]
    refine ⟨hrender, fun ht => ?_, hrc, midway_single_other hmid⟩
    rw [State.textureRead, State.evictByte_tc, ht]
    exact hmem

end Sys2Proof.Machine
end

section
/-! PROOFS. The sync flush (R164, R429), and the end of its pulse with the next step (R422). -/

namespace Sys2Proof.Machine

variable {s t v : State} {es : List EnvEvent}

/-! ## The status write -/

/-- A status write goes where any state with the same translations and the same status page has it (R424). -/
theorem signalled_posts {use : Use} {new : Word} (hview : t.xlatView = v.xlatView) (hx : t.xlats = v.xlats)
    (ha : t.regs.statusAddr = v.regs.statusAddr) (h : t.signals new) :
    t.signalled new use = { t with
      regs := t.regs.withIsr new
      posted := t.posted ++ [cellsAt (v.parserAddr .ggtt v.regs.statusAddr true use) (wordBytes new)]
      xlats := (v.noteXlat .bcs .ggtt v.regs.statusAddr true use).xlats } := by
  simp only [State.signalled, h, if_true, State.parserAddr, ha, parserPhys_congr hview, noteXlat_congr hview hx]

theorem statusOpen_of_silent {use : Use} {new : Word} (h : s.signals new = false) : s.statusOpen new use := by
  simp [State.statusOpen, h]

theorem statusOpen_of_phys {use : Use} {new : Word} (hview : t.xlatView = v.xlatView)
    (ha : t.regs.statusAddr = v.regs.statusAddr) (h : (v.parserPhys .ggtt v.regs.statusAddr true use).isSome) :
    t.statusOpen new use := by
  rw [State.statusOpen, ha, parserPhys_congr hview, h, Bool.or_true]

/-! ## The flush -/

/-- Caches and TLBs as a sync flush leaves them (R93, R164). -/
def State.syncFlushed (s : State) : State :=
  let u := if bit s.regs.instpm 6 ∨ s.syncWrites then s.flushCaches else s
  if bit s.regs.instpm 9 then u.invalidateTlbs else u

/-- The requests that a sync flush clears (R164). -/
def Regs.syncDone (r : Regs) : Regs := { r with instpm := setBit (setBit r.instpm 5 false) 6 false }

theorem State.syncFlushed_frame (s : State) : s.syncFlushed.regs = s.regs ∧ s.syncFlushed.posted = s.posted := by
  unfold State.syncFlushed
  simp only
  split <;> split <;> exact ⟨rfl, rfl⟩

/-- The events to come play no part in the flush. -/
theorem State.syncFlushed_schedule (s : State) (es : List EnvEvent) :
    ({ s with schedule := es } : State).syncFlushed = { s.syncFlushed with schedule := es } := by
  unfold State.syncFlushed
  simp only [show State.syncWrites { s with schedule := es } = s.syncWrites from rfl]
  split <;> split <;> rfl

theorem onlyIf_modify_bind {α : Type} (c : Bool) (g : State → State) (f : PUnit → M α) (s : State) :
    (onlyIf c (modify g) >>= f) s = f ⟨⟩ (if c then g s else s) := by
  cases c <;> rfl

/-- A sync flush: caches and TLBs, the requests cleared, and Sync Status raised (R164, R429). -/
theorem syncFlush_eq (s : State) :
    syncFlush s = setIsr .event (setBit s.regs.isr 24 true) { s.syncFlushed with regs := s.regs.syncDone } := by
  have hregs := s.syncFlushed_frame.1
  unfold syncFlush
  rw [run_get_bind, onlyIf_modify_bind, onlyIf_modify_bind, run_onRegs_bind]
  simp only [Bool.or_eq_true]
  change raiseInt 24 { s.syncFlushed with regs := s.syncFlushed.regs.syncDone } = _
  rw [hregs]
  rfl

/-- A sync flush that is ready happens by itself when nothing is scheduled, or as the next event (R164). -/
theorem stepM_syncFlush (hq : s.quiet) (hr : s.syncFlushReady)
    (hs : s.schedule = [] ∧ es = [] ∨ s.schedule = .syncFlush :: es) : stepM s = syncFlush { s with schedule := es } := by
  rcases hs with ⟨hs, rfl⟩ | hs
  · have hsame : ({ s with schedule := [] } : State) = s := by rw [← hs]
    unfold stepM
    rw [bind_ok (beginStep_quiet hq), hsame]
    simp only [run_get_bind, hs, defaultStep, hr, if_true]
  · rw [stepM_event hq hs]
    simp only [runEvent, run_get_bind]
    rw [show State.syncFlushReady { s with schedule := es } = true from hr, onlyIf_true]

/-- The sync flush done and its requests cleared, Sync Status still to be raised, with these events to come. -/
def State.syncDue (s : State) (es : List EnvEvent) : State :=
  { s.syncFlushed with regs := s.regs.syncDone, schedule := es }

theorem State.syncDue_xlatView (s : State) (es : List EnvEvent) : (s.syncDue es).xlatView = s.syncFlushed.xlatView := by
  simp only [State.xlatView, s.syncFlushed_frame.1]
  rfl

theorem State.syncDue_statusAddr (s : State) (es : List EnvEvent) :
    (s.syncDue es).regs.statusAddr = s.syncFlushed.regs.statusAddr := by
  rw [s.syncFlushed_frame.1]
  rfl

/-- The step of a sync flush ends with Sync Status raised (R429). -/
theorem step_syncFlush (hq : s.quiet) (hr : s.syncFlushReady)
    (hs : s.schedule = [] ∧ es = [] ∨ s.schedule = .syncFlush :: es)
    (hopen : (s.syncDue es).statusOpen (setBit s.regs.isr 24 true) .event) :
    step s = .next ((s.syncDue es).signalled (setBit s.regs.isr 24 true) .event) := by
  refine outcome_ok ((stepM_syncFlush hq hr hs).trans ?_)
  rw [syncFlush_eq, State.syncFlushed_schedule]
  exact setIsr_ok hopen

/-- A sync flush without a status write. -/
theorem step_syncFlush_silent (hq : s.quiet) (hr : s.syncFlushReady)
    (hs : s.schedule = [] ∧ es = [] ∨ s.schedule = .syncFlush :: es) (hw : s.syncWrites = false) :
    step s = .next { s.syncFlushed with
      regs := s.regs.syncDone.withIsr (setBit s.regs.isr 24 true), schedule := es } := by
  have hsignals : (s.syncDue es).signals (setBit s.regs.isr 24 true) = false := hw
  rw [step_syncFlush hq hr hs (statusOpen_of_silent hsignals), signalled_silent hsignals]
  rfl

/-- A sync flush with a status write, which is posted (R93, R424). -/
theorem step_syncFlush_posts (hq : s.quiet) (hr : s.syncFlushReady)
    (hs : s.schedule = [] ∧ es = [] ∨ s.schedule = .syncFlush :: es) (hw : s.syncWrites)
    (hphys : (s.syncFlushed.parserPhys .ggtt s.regs.statusAddr true .event).isSome) :
    step s = .next { s.syncFlushed with
      regs := s.regs.syncDone.withIsr (setBit s.regs.isr 24 true)
      posted := s.posted ++
        [cellsAt (s.syncFlushed.parserAddr .ggtt s.regs.statusAddr true .event) (wordBytes (setBit s.regs.isr 24 true))]
      xlats := (s.syncFlushed.noteXlat .bcs .ggtt s.regs.statusAddr true .event).xlats
      schedule := es } := by
  obtain ⟨hregs, hposted⟩ := s.syncFlushed_frame
  have hview := s.syncDue_xlatView es
  have haddr := s.syncDue_statusAddr es
  have hsignals : (s.syncDue es).signals (setBit s.regs.isr 24 true) := hw
  rw [step_syncFlush hq hr hs (statusOpen_of_phys hview haddr (by rwa [hregs])),
    signalled_posts hview rfl haddr hsignals, hregs]
  simp only [State.syncDue, hposted]

/-! ## The end of the pulse -/

/-- A step that ends pulses, at an event that only counts the timestamp on (R422, D32). -/
theorem step_tick_pulse {n : Nat} (hs : s.schedule = .tick n :: es) (hp : s.regs.isr &&& pulseInts ≠ 0)
    (hopen : s.statusOpen (s.regs.isr &&& ~~~pulseInts) .pulse) :
    let u := s.keepAhead.signalled (s.regs.isr &&& ~~~pulseInts) .pulse
    step s = .next { u with
      regs := { u.regs with timestamp := u.regs.timestamp + BitVec.ofNat 36 n }, schedule := es } := by
  refine outcome_ok ?_
  unfold stepM
  rw [bind_ok (beginStep_ok hopen), if_neg hp, run_get_bind,
    show (s.keepAhead.signalled (s.regs.isr &&& ~~~pulseInts) .pulse).schedule = .tick n :: es from hs]
  rfl

/-- The pulse ends without a status write. -/
theorem step_tick_silent {n : Nat} (hs : s.schedule = .tick n :: es) (hp : s.regs.isr &&& pulseInts ≠ 0)
    (hw : s.signals (s.regs.isr &&& ~~~pulseInts) = false) :
    let r := s.regs.withIsr (s.regs.isr &&& ~~~pulseInts)
    step s = .next { s.keepAhead with
      regs := { r with timestamp := r.timestamp + BitVec.ofNat 36 n }, schedule := es } := by
  have hsignals : s.keepAhead.signals (s.regs.isr &&& ~~~pulseInts) = false := hw
  rw [step_tick_pulse hs hp (statusOpen_of_silent hw), signalled_silent hsignals]
  rfl

/-- The pulse ends with a status write, which is posted (R424). -/
theorem step_tick_posts {n : Nat} (hs : s.schedule = .tick n :: es) (hp : s.regs.isr &&& pulseInts ≠ 0)
    (hw : s.signals (s.regs.isr &&& ~~~pulseInts))
    (hphys : (s.parserPhys .ggtt s.regs.statusAddr true .pulse).isSome) :
    let new := s.regs.isr &&& ~~~pulseInts
    let r := s.regs.withIsr new
    step s = .next { s.keepAhead with
      regs := { r with timestamp := r.timestamp + BitVec.ofNat 36 n }
      posted := s.posted ++ [cellsAt (s.parserAddr .ggtt s.regs.statusAddr true .pulse) (wordBytes new)]
      xlats := (s.noteXlat .bcs .ggtt s.regs.statusAddr true .pulse).xlats
      schedule := es } := by
  have hsignals : s.keepAhead.signals (s.regs.isr &&& ~~~pulseInts) := hw
  rw [step_tick_pulse hs hp (statusOpen_of_phys (v := s) rfl rfl hphys),
    signalled_posts (t := s.keepAhead) (v := s) rfl rfl rfl hsignals]
  rfl

/-- Settles O54: each step is the change of the ISR that it makes, with the status write where the change causes one. -/
theorem syncFlushActs : Obligations.SyncFlushActs := by
  unfold Obligations.SyncFlushActs
  exact ⟨fun s es hq hr hs => ⟨step_syncFlush_silent hq hr hs, step_syncFlush_posts hq hr hs⟩,
    fun s n es hs hp => ⟨step_tick_silent hs hp, step_tick_posts hs hp⟩⟩

end Sys2Proof.Machine
end

section
/-! PROOFS. The bits of a DWord a field covers, and the selection of a command by client and opcode (R9, R180, R210). -/

namespace Sys2Proof

/-! ## Fields as masks -/

/-- The bits of the field of `n` bits whose lowest bit is `lo` (R9). -/
def fieldMask (lo n : Nat) : Word := (BitVec.allOnes n).setWidth 32 <<< lo

theorem getLsbD_fieldMask (lo n i : Nat) : (fieldMask lo n).getLsbD i = decide (i < 32 ∧ lo ≤ i ∧ i < lo + n) := by
  simp only [fieldMask, BitVec.getLsbD_shiftLeft, BitVec.getLsbD_setWidth, BitVec.getLsbD_allOnes]
  grind

/-- Two DWords have a field in common exactly when they agree on its bits. -/
theorem field_eq_field_iff (w v : Word) (lo n : Nat) :
    field w lo n = field v lo n ↔ w &&& fieldMask lo n = v &&& fieldMask lo n := by
  constructor <;> intro h
  · apply BitVec.eq_of_getLsbD_eq
    intro i hi
    rw [BitVec.getLsbD_and, BitVec.getLsbD_and, getLsbD_fieldMask]
    by_cases hin : lo ≤ i ∧ i < lo + n
    · have hbit := congrArg (·.getLsbD (i - lo)) h
      simp only [field, BitVec.getLsbD_extractLsb', show i - lo < n by omega, decide_true, Bool.true_and,
        show lo + (i - lo) = i by omega] at hbit
      rw [hbit]
    · rw [decide_eq_false (by omega), Bool.and_false, Bool.and_false]
  · ext i hi
    have hbit := congrArg (·.getLsbD (lo + i)) h
    simp only [BitVec.getLsbD_and, getLsbD_fieldMask] at hbit
    simp only [field, BitVec.getElem_extractLsb']
    by_cases h32 : lo + i < 32
    · simpa [h32, hi] using hbit
    · rw [BitVec.getLsbD_of_ge w _ (by omega), BitVec.getLsbD_of_ge v _ (by omega)]

theorem field_eq_zero_iff (w : Word) (lo n : Nat) : field w lo n = 0 ↔ w &&& fieldMask lo n = 0 := by
  have h := field_eq_field_iff w 0 lo n
  rwa [field_zero, show (0 : Word) &&& fieldMask lo n = 0 from BitVec.zero_and] at h

/-- A field put back at its own place gives its bits of the DWord it was read from. -/
theorem put_field (acc w : Word) (lo n : Nat) : put acc lo (field w lo n) = acc ||| (w &&& fieldMask lo n) := by
  apply BitVec.eq_of_getLsbD_eq
  intro i hi
  simp only [put, field, BitVec.getLsbD_or, BitVec.getLsbD_and, getLsbD_fieldMask, BitVec.getLsbD_shiftLeft,
    BitVec.getLsbD_setWidth, BitVec.getLsbD_extractLsb']
  by_cases hlo : lo ≤ i
  · rw [show lo + (i - lo) = i by omega]
    grind
  · simp [hlo]

theorem putBit_bit (acc w : Word) (i : Nat) : putBit acc i (bit w i) = acc ||| (w &&& fieldMask i 1) := by
  have hbit : BitVec.ofBool (bit w i) = field w i 1 := by
    ext k hk
    obtain rfl : k = 0 := by omega
    simp [bit, field]
  rw [putBit, hbit, put_field]

/-- DWords agree on two sets of bits exactly when they agree on both. -/
theorem and_or_eq_iff (w v m m' : Word) : w &&& (m ||| m') = v &&& (m ||| m') ↔ w &&& m = v &&& m ∧ w &&& m' = v &&& m' := by
  constructor
  · intro h
    have hm := congrArg (· &&& m) h
    have hm' := congrArg (· &&& m') h
    simp only [BitVec.and_assoc] at hm hm'
    rw [show (m ||| m') &&& m = m by ext i; simp; grind] at hm
    rw [show (m ||| m') &&& m' = m' by ext i; simp; grind] at hm'
    exact ⟨hm, hm'⟩
  · rintro ⟨hm, hm'⟩
    rw [BitVec.and_or_distrib_left, hm, hm', BitVec.and_or_distrib_left]

/-! ## DWord 0 -/

theorem Op.ofBlt_code (o : Op) : o.isBlt → Op.ofBlt o.row.code = some o := by cases o <;> decide

theorem Op.ofMi_code (o : Op) : o.isBlt = false → Op.ofMi o.row.code = some o := by cases o <;> decide

theorem Op.ofBlt_iff (n : Nat) (o : Op) : Op.ofBlt n = some o ↔ o.isBlt ∧ n = o.row.code := by
  constructor
  · intro h
    unfold Op.ofBlt at h
    split at h <;> cases h <;> exact ⟨rfl, rfl⟩
  · rintro ⟨hb, rfl⟩
    exact o.ofBlt_code hb

theorem Op.ofMi_iff (n : Nat) (o : Op) : Op.ofMi n = some o ↔ o.isBlt = false ∧ n = o.row.code := by
  constructor
  · intro h
    unfold Op.ofMi at h
    split at h <;> cases h <;> exact ⟨rfl, rfl⟩
  · rintro ⟨hb, rfl⟩
    exact o.ofMi_code hb

/-- The client of a command: 2h for the BLT engine, 0 for the parser itself (R180). -/
def Op.client (o : Op) : BitVec 3 := if o.isBlt then 2 else 0

/-- Where the opcode of a command stands in DWord 0, and its width: bits 28:22 or bits 28:23 (R180). -/
def Op.codeField (o : Op) : Nat × Nat := if o.isBlt then (22, 7) else (23, 6)

theorem Op.ofHeader_iff (w : Word) (o : Op) : Op.ofHeader w = some o ↔
    field w 29 3 = o.client ∧ (field w o.codeField.1 o.codeField.2).toNat = o.row.code := by
  unfold Op.ofHeader
  cases hb : o.isBlt
  · have hclient : o.client = 0 := if_neg (by simp [hb])
    have hcode : o.codeField = (23, 6) := if_neg (by simp [hb])
    rw [hclient, hcode]
    split_ifs with hmi hblt
    · simp [hmi, Op.ofMi_iff, hb]
    · simp only [hmi, Op.ofBlt_iff, hb, Bool.false_eq_true, false_and]
    · simp only [hmi, false_and]
  · have hclient : o.client = 2 := if_pos hb
    have hcode : o.codeField = (22, 7) := if_pos hb
    rw [hclient, hcode]
    split_ifs with hmi hblt
    · simp [hmi, Op.ofMi_iff, hb]
    · simp [hblt, Op.ofBlt_iff, hb]
    · simp only [hblt, false_and]

theorem Op.headerMask_eq (o : Op) : o.headerMask = fieldMask 29 3 ||| fieldMask o.codeField.1 o.codeField.2 := by
  unfold Op.headerMask Op.codeField
  split <;> rfl

/-- DWord 0 with every operand field 0 holds the client and the opcode, and nothing else (R180). -/
theorem Op.header_fields (o : Op) : field o.header 29 3 = o.client ∧
    (field o.header o.codeField.1 o.codeField.2).toNat = o.row.code ∧ o.header &&& o.headerMask = o.header := by
  cases o <;> decide

/-- Settles O34: the selecting bits are the client and opcode fields, and a DWord has those of a command exactly when it
agrees with the command's header on them. -/
theorem headerSelectsCommand : Obligations.HeaderSelectsCommand := by
  unfold Obligations.HeaderSelectsCommand
  intro w o
  obtain ⟨hclient, hcode, hheader⟩ := o.header_fields
  calc Op.ofHeader w = some o
      ↔ field w 29 3 = field o.header 29 3 ∧
          field w o.codeField.1 o.codeField.2 = field o.header o.codeField.1 o.codeField.2 := by
        rw [Op.ofHeader_iff, hclient, ← hcode, BitVec.toNat_inj]
    _ ↔ w &&& o.headerMask = o.header &&& o.headerMask := by
        rw [field_eq_field_iff, field_eq_field_iff, ← and_or_eq_iff, ← o.headerMask_eq]
    _ ↔ w &&& o.headerMask = o.header := by rw [hheader]

end Sys2Proof
end

section
/-! PROOFS. Encoding what has been decoded: every bit of a command's DWords is the header, an operand field or reserved
(R181, R205, R210). -/

namespace Sys2Proof

/-! ## The reserved bits of a DWord -/

/-- The bits of DWord `k` that a list of fields names. -/
def fieldsMask (k : Nat) : List (Nat × Nat × Nat) → Word
  | [] => 0
  | (j, lo, n) :: l => if j = k then fieldMask lo n ||| fieldsMask k l else fieldsMask k l

/-- The reserved bits of DWord `k` of a command (R205). -/
def Op.reservedMask (o : Op) (k : Nat) : Word := fieldsMask k o.row.mbz

theorem and_fieldsMask_eq_zero (w : Nat → Word) (k : Nat) (l : List (Nat × Nat × Nat))
    (h : ∀ f ∈ l, field (w f.1) f.2.1 f.2.2 = 0) : w k &&& fieldsMask k l = 0 := by
  induction l with
  | nil => exact BitVec.and_zero
  | cons f l ih =>
    obtain ⟨hf, hl⟩ := List.forall_mem_cons.mp h
    unfold fieldsMask
    split
    · next hk =>
      subst hk
      rw [BitVec.and_or_distrib_left, ih hl, (field_eq_zero_iff _ _ _).mp hf]
      rfl
    · exact ih hl

variable {o : Op} {w : Nat → Word}

/-- A DWord whose reserved bits are 0 is its other bits. -/
theorem Op.and_eq_self (hr : o.reservedOk w) {k : Nat} {m : Word} (hm : m ||| o.reservedMask k = BitVec.allOnes 32) :
    w k &&& m = w k := by
  have hzero : w k &&& o.reservedMask k = 0 := and_fieldsMask_eq_zero w k _ fun f hf => by
    simpa using List.all_eq_true.mp hr f hf
  calc w k &&& m = (w k &&& m) ||| (w k &&& o.reservedMask k) := by rw [hzero]; exact BitVec.or_zero.symm
    _ = w k := by rw [← BitVec.and_or_distrib_left, hm, BitVec.and_allOnes]

/-- A DWord that is reserved as a whole is 0. -/
theorem Op.eq_zero_of_reserved (hr : o.reservedOk w) {k : Nat} (hm : o.reservedMask k = BitVec.allOnes 32) : w k = 0 := by
  rw [← Op.and_eq_self hr (k := k) (m := 0) (by rw [hm]; rfl)]
  exact BitVec.and_zero

/-! ## The parts of a command, written back -/

/-- `BitVec.zero_or` for the numeral `0`, in which the encoder is written. -/
theorem bits_zero_or {n : Nat} (v : BitVec n) : (0 : BitVec n) ||| v = v := BitVec.zero_or

theorem Depth.bits_ofBits (b : BitVec 2) : (Depth.ofBits b).bits = b := by
  revert b
  decide

/-- The bits of DWord 1 that hold the raster fields (R183). -/
def penMask : Word := fieldMask 24 2 ||| fieldMask 16 8 ||| fieldMask 0 16

theorem penWord_readPen (v : Word) : penWord (readPen v) = v &&& penMask := by
  simp only [penWord, readPen, penMask, Depth.bits_ofBits, put_field, bits_zero_or, BitVec.and_or_distrib_left]

theorem pointWord_field (v : Word) : pointWord (field v 0 16) (field v 16 16) = v := by
  have hall : fieldMask 16 16 ||| fieldMask 0 16 = BitVec.allOnes 32 := by decide
  rw [pointWord, put_field, put_field, bits_zero_or, ← BitVec.and_or_distrib_left, hall, BitVec.and_allOnes]

theorem clipWord_field (v : Word) : clipWord (field v 0 15) (field v 16 15) = v &&& (fieldMask 16 15 ||| fieldMask 0 15) := by
  rw [clipWord, put_field, put_field, bits_zero_or, ← BitVec.and_or_distrib_left]

theorem drawRest_readDraw : drawRest (readDraw w) = [w 2, w 3, w 4] := by
  simp only [drawRest, readDraw, readRect, pointWord_field]

theorem drawPen_readDraw : drawPen (readDraw w) = w 1 &&& (penMask ||| fieldMask 30 1) := by
  simp only [drawPen, readDraw, penWord_readPen, putBit_bit, BitVec.and_or_distrib_left]

theorem drawHeader_readDraw (hh : w 0 &&& o.headerMask = o.header) : drawHeader o (field (w 0) 0 8) (readDraw w) =
    w 0 &&& (o.headerMask ||| fieldMask 0 8 ||| fieldMask 20 2 ||| fieldMask 11 1) := by
  simp only [drawHeader, readDraw, putBit_bit, put_field, ← hh, BitVec.and_or_distrib_left]

theorem putSeeds_readSeeds (v acc : Word) : putSeeds acc (readSeeds v) =
    acc ||| (v &&& fieldMask 12 3) ||| (v &&& fieldMask 8 3) := by
  simp only [putSeeds, readSeeds, put_field]

/-- The DWords after the fixed ones, as the operands hold them: immediate data, or the second DWord of a QWord (R181). -/
def Op.dataOf (o : Op) (w0 : Word) (data : List Word) : List Word :=
  match o.row.len with
  | .one => []
  | .exact bits [_, long] => if field w0 0 bits = BitVec.ofNat bits long then [data.getD 0 0] else []
  | .exact _ _ => []
  | .atLeast _ => data
  | .entries => data

/-- What a command's operands are read from is written back: in each DWord the header, the operand fields and the reserved
fields together make up all 32 bits. -/
theorem encode_read (data : List Word) (hh : w 0 &&& o.headerMask = o.header) (hr : o.reservedOk w) :
    encode (o.read w data) = (List.range o.row.fixed).map w ++ o.dataOf (w 0) data := by
  cases o
  case miStoreDataImm =>
    have hzero : w 1 = 0 := Op.eq_zero_of_reserved hr (by decide)
    simp (disch := decide) only [Op.read, encode, ← hh, put_field, putBit_bit, bits_zero_or,
      ← BitVec.and_or_distrib_left, Op.and_eq_self hr]
    change _ = [w 0, w 1, w 2, w 3] ++ _
    rw [hzero]
    rfl
  all_goals
    simp (disch := decide) only [Op.read, encode, ← hh, put_field, putBit_bit, bits_zero_or, penWord_readPen, readRect,
      readClip, readSrc, pointWord_field, clipWord_field, drawRest_readDraw, drawPen_readDraw, drawHeader_readDraw hh,
      putSeeds_readSeeds, ← BitVec.and_or_distrib_left, Op.and_eq_self hr, BitVec.or_assoc]
    rfl

/-! ## Lengths -/

/-- The length field of a row announces its fixed DWords, and where a command has a long form, one more (R181). -/
def LenKind.fits (fixed : Nat) : LenKind → Bool
  | .one => fixed == 1
  | .exact _ [short] => fixed == short + 2
  | .exact bits [short, long] => fixed == short + 2 && long == short + 1 && decide (long < 2 ^ bits)
  | .exact _ _ => false
  | .atLeast const => fixed == const + 2
  | .entries => fixed == 2

theorem Op.len_fits (o : Op) : o.row.len.fits o.row.fixed := by cases o <;> decide

/-- What a legal DWord Length announces is the fixed DWords and, behind them, the data (R181). -/
theorem Op.dwords_of_lengthOk {w0 : Word} (hl : o.lengthOk w0) : o.row.fixed ≤ o.dwords w0 ∧
    ∀ data : List Word, data.length + o.row.fixed = o.dwords w0 → o.dataOf w0 data = data := by
  have hfits := o.len_fits
  unfold Op.lengthOk at hl
  unfold Op.dwords Op.dataOf
  generalize o.row.len = k at *
  generalize o.row.fixed = fixed at *
  unfold LenKind.fits at hfits
  split at hfits
  case h_1 => simp_all
  case h_2 => simp_all
  case h_3 bits short long =>
    simp only [Bool.and_eq_true, beq_iff_eq, decide_eq_true_eq] at hfits
    obtain ⟨⟨rfl, rfl⟩, hlong⟩ := hfits
    have hfield : field w0 0 bits = BitVec.ofNat bits (short + 1) ↔ (field w0 0 bits).toNat = short + 1 := by
      rw [← BitVec.toNat_inj, BitVec.toNat_ofNat, Nat.mod_eq_of_lt hlong]
    simp only [LenKind.value, List.contains_cons, List.contains_nil, Bool.or_false, Bool.or_eq_true, beq_iff_eq,
      reduceCtorEq, if_false, hfield] at hl ⊢
    refine ⟨by omega, fun data hd => ?_⟩
    rcases hl with hl | hl
    · obtain rfl := List.eq_nil_of_length_eq_zero (show data.length = 0 by omega)
      exact if_neg (by omega)
    · obtain ⟨d, rfl⟩ := List.length_eq_one_iff.mp (show data.length = 1 by omega)
      exact if_pos hl
  case h_4 => cases hfits
  case h_5 => simp_all
  case h_6 => simp_all

/-! ## Decoding, in one equivalence -/

/-- What a list of DWords has to be to decode, and what it decodes to (R205, R210). -/
theorem decode_ok_iff {ws : List Word} {i : Instr} : decode ws = .ok i ↔ ∃ o, Op.ofHeader (ws.getD 0 0) = some o ∧
    o.row.fixed ≤ ws.length ∧ o.dwords (ws.getD 0 0) ≤ ws.length ∧ o.reservedOk (fun k => ws.getD k 0) ∧
    i = o.read (fun k => ws.getD k 0) ((ws.take (o.dwords (ws.getD 0 0))).drop o.row.fixed) := by
  unfold decode
  cases Op.ofHeader (ws.getD 0 0) with
  | none => simp
  | some o =>
    simp only [Option.some.injEq, exists_eq_left']
    split_ifs with hlen hr
    · refine ⟨fun h => (nomatch h), fun ⟨hfixed, hwords, _⟩ => ?_⟩
      exact absurd (max_le hfixed hwords) (not_le.mpr hlen)
    · obtain ⟨hfixed, hwords⟩ := max_le_iff.mp (not_lt.mp hlen)
      simp only [Except.ok.injEq, hr, hfixed, hwords, true_and]
      exact eq_comm
    · exact ⟨fun h => (nomatch h), fun ⟨_, _, hr', _⟩ => absurd hr' hr⟩

theorem map_getD_range {ws : List Word} {n : Nat} (h : n ≤ ws.length) :
    (List.range n).map (fun k => ws.getD k 0) = ws.take n := by
  refine List.ext_getElem (by simp [h]) fun k hk _ => ?_
  have hlt : k < ws.length := by simp at hk; omega
  simp [hlt]

/-- Settles O36: the operands hold every bit of the fixed DWords that is neither header nor reserved, and a legal length
announces exactly the data. -/
theorem encodeOfDecode : Obligations.EncodeOfDecode := by
  unfold Obligations.EncodeOfDecode
  intro ws i hd hl
  obtain ⟨o, ho, hfixed, hwords, hr, rfl⟩ := decode_ok_iff.mp hd
  rw [Machine.Op.read_op] at hl ⊢
  obtain ⟨hle, hdata⟩ := Op.dwords_of_lengthOk hl
  have hheader := (headerSelectsCommand (ws.getD 0 0) o).mp ho
  have hlength : ((ws.take (o.dwords (ws.getD 0 0))).drop o.row.fixed).length + o.row.fixed = o.dwords (ws.getD 0 0) := by
    rw [List.length_drop, List.length_take, Nat.min_eq_left hwords, Nat.sub_add_cancel hle]
  rw [encode_read _ hheader hr, hdata _ hlength, map_getD_range hfixed]
  conv_rhs => rw [← List.take_append_drop o.row.fixed (ws.take _), List.take_take, Nat.min_eq_left hle]

end Sys2Proof
end

section
/-! PROOFS. Decoding what has been encoded: each operand is read from the place it was put at, which no other field of the command
overlaps (R181, R205, R210). -/

namespace Sys2Proof

/-! ## The operands in their DWords -/

theorem Op.bit_header {o : Op} {i : Nat} (h : i < o.codeField.1) : bit o.header i = false := by
  have hlo : o.codeField.1 ≤ 23 := by cases o <;> decide
  obtain ⟨_, _, hheader⟩ := o.header_fields
  rw [← hheader, o.headerMask_eq, bit, BitVec.getLsbD_and, BitVec.getLsbD_or, getLsbD_fieldMask, getLsbD_fieldMask,
    decide_eq_false (by omega), decide_eq_false (by omega), Bool.or_false, Bool.and_false]

theorem Op.field_header {o : Op} {lo n : Nat} (h : lo + n ≤ o.codeField.1) : field o.header lo n = 0 := by
  ext i hi
  rw [field, BitVec.getElem_extractLsb']
  exact (Op.bit_header (by omega)).trans (BitVec.getElem_zero hi).symm

theorem Depth.ofBits_bits (d : Depth) : Depth.ofBits d.bits = d := by cases d <;> rfl

/-- The DWord behind the short form of a command (R374, R380, R381): the long form has it, and in a well-formed short form it
is 0. -/
theorem longForm {n short : Nat} {len long : BitVec n} {d : Word} (h : dataLenOk len.toNat short d)
    (hlong : long.toNat = short + 1) :
    (if len = long then [d] else []).length + short = len.toNat ∧ (if len = long then [d] else []).getD 0 0 = d := by
  have hlen : len = long ↔ len.toNat = short + 1 := by rw [← hlong, BitVec.toNat_inj]
  simp only [dataLenOk, Bool.or_eq_true, Bool.and_eq_true, beq_iff_eq] at h
  rcases h with ⟨hshort, hd⟩ | hlong'
  · rw [if_neg (by rw [hlen]; omega), hshort, hd]
    exact ⟨Nat.zero_add _, rfl⟩
  · rw [if_pos (hlen.mpr hlong'), hlong']
    exact ⟨Nat.add_comm _ _, rfl⟩

/-! ## What the decoder looks at -/

open Laws.Header in
/-- The per-command header lemmas, for every command (R180, R210). -/
theorem ofHeader_encode (i : Instr) : Op.ofHeader ((encode i).getD 0 0) = some i.op := by
  cases i
  exacts [colorBlt .., srcCopyBlt .., xySetupBlt .., xySetupMonoPatternSlBlt .., xySetupClipBlt .., xyPixelBlt ..,
    xyScanlinesBlt .., xyTextBlt .., xyTextImmediateBlt .., xyColorBlt .., xyPatBlt .., xyPatChromaBlt ..,
    xyPatBltImmediate .., xyPatChromaBltImmediate .., xyMonoPatBlt .., xyMonoPatFixedBlt .., xySrcCopyBlt ..,
    xySrcCopyChromaBlt .., xyMonoSrcCopyBlt .., xyMonoSrcCopyImmediateBlt .., xyFullBlt ..,
    xyFullImmediatePatternBlt .., xyFullMonoSrcBlt .., xyFullMonoSrcImmediatePatternBlt .., xyFullMonoPatternBlt ..,
    xyFullMonoPatternMonoSrcBlt .., miNoop .., miUserInterrupt, miWaitForEvent .., miArbCheck, miReportHead,
    miBatchBufferEnd, miSuspendFlush .., miDisplayFlip .., miSemaphoreMbox .., miStoreDataImm ..,
    miStoreDataIndex .., miLoadRegisterImm .., miUpdateGtt .., miStoreRegisterMem .., miFlushDw ..,
    miLoadRegisterMem .., miBatchBufferStart ..]

/-- No operand is put where the command has a reserved field (R205). -/
theorem reservedOk_encode (i : Instr) : i.op.reservedOk fun k => (encode i).getD k 0 := by
  cases i
  all_goals
    simp (disch := decide) only [Op.reservedOk, Op.row, Instr.op, List.all_cons, List.all_nil, encode, drawHeader,
      drawPen, drawRest, pointWord, clipWord, penWord, putSeeds, List.cons_append, List.nil_append, List.getD_cons_zero,
      List.getD_cons_succ, field_put_other, field_putBit_other, Op.field_header, field_zero, beq_self_eq_true,
      Bool.and_true]

theorem fixed_le_length_encode (i : Instr) : i.op.row.fixed ≤ (encode i).length := by
  cases i
  all_goals
    simp only [Op.row, Instr.op, encode, drawRest, List.cons_append, List.nil_append, List.length_cons, List.length_nil]
    omega

/-- A legal length announces as many DWords as the encoding has (R181). -/
theorem length_encode (i : Instr) (hwf : i.wf) : (encode i).length = i.op.dwords ((encode i).getD 0 0) := by
  cases i
  all_goals
    simp (disch := decide) only [Op.dwords, Op.row, Instr.op, encode, LenKind.value, drawHeader, drawRest, putSeeds,
      List.cons_append, List.nil_append, List.getD_cons_zero, List.length_cons, List.length_nil, if_true, if_false,
      reduceCtorEq, Op.field_header, field_put_same, field_put_other, field_putBit_other, bits_zero_or]
  case miStoreDataImm =>
    simp only [Instr.wf] at hwf
    rw [← (longForm (long := 3) hwf rfl).1]
  case miStoreDataIndex =>
    simp only [Instr.wf, Bool.and_eq_true] at hwf
    rw [← (longForm (long := 2) hwf.1 rfl).1]
  case miFlushDw =>
    simp only [Instr.wf, Bool.and_eq_true] at hwf
    obtain ⟨⟨⟨hlen, _⟩, _⟩, _⟩ := hwf
    rw [← (longForm (long := 2) hlen rfl).1]
  all_goals
    simp only [Instr.wf, Bool.and_eq_true, beq_iff_eq, immLenOk] at hwf
    bv_omega

/-- Each operand is read back from the place it was put at. -/
theorem read_encode (i : Instr) (hwf : i.wf) :
    i.op.read (fun k => (encode i).getD k 0) ((encode i).drop i.op.row.fixed) = i := by
  cases i
  all_goals
    simp (disch := decide) only [Op.read, Instr.op, encode, drawHeader, drawPen, drawRest, pointWord, clipWord, penWord,
      putSeeds, readPen, readRect, readClip, readSrc, readDraw, readSeeds, Depth.ofBits_bits, List.cons_append,
      List.nil_append, List.getD_cons_zero, List.getD_cons_succ, field_put_same, field_put_other, field_putBit_other,
      bit_put_other, bit_putBit_same, bit_putBit_other, Op.field_header, Op.bit_header, field_zero, bit_zero,
      bits_zero_or, Bool.false_or]
  case miStoreDataImm =>
    simp only [Instr.wf] at hwf
    exact congrArg _ (longForm (long := 3) hwf rfl).2
  case miStoreDataIndex =>
    simp only [Instr.wf, Bool.and_eq_true] at hwf
    exact congrArg _ (longForm (long := 2) hwf.1 rfl).2
  case miFlushDw =>
    simp only [Instr.wf, Bool.and_eq_true] at hwf
    obtain ⟨⟨⟨hlen, _⟩, _⟩, _⟩ := hwf
    exact congrArg _ (longForm (long := 2) hlen rfl).2
  all_goals rfl

/-- Settles O35: the four things the decoder looks at, each found in the encoding. -/
theorem decodeOfEncode : Obligations.DecodeOfEncode := by
  unfold Obligations.DecodeOfEncode
  intro i hwf
  have hlength := length_encode i hwf
  refine decode_ok_iff.mpr ⟨i.op, ofHeader_encode i, fixed_le_length_encode i, hlength.ge, reservedOk_encode i, ?_⟩
  rw [← hlength, List.take_length, read_encode i hwf]

end Sys2Proof
end

section
/-! PROOFS. A step at an undefined command (R200, R425, R426), at an MI command (R210, R370), and the DWords the parser reads
ahead (R167). -/

namespace Sys2Proof.Machine

variable {s : State}

/-! ## An undefined command -/

/-- An undefined command is known by its DWord 0, and no more of it is fetched (R200, R210). -/
theorem fetchCommand_undefined {w : Word} (hat : s.atCommand [w]) (ho : Op.ofHeader w = none) :
    fetchCommand s = .ok (none, s.taken 1) := by
  obtain ⟨_, hahead, _, _, _, _, _, hring, _, hholds⟩ := atCommand_facts hat
  simp only [State.holdsAt, Bool.and_true, Bool.and_eq_true, beq_iff_eq] at hholds
  obtain ⟨hphys, hword⟩ := hholds
  unfold fetchCommand
  rw [run_get_bind, if_neg (by rcases hring with hb | hb <;> simp [hb]), bind_ok (commandWord_ok hahead hphys), hword]
  simp only [ho, run_pure]
  rfl

/-- The Instruction Error is taken: ESR bit 0, the hang, and what follows them (R200, R425, R426). -/
theorem takeInstructionError_ok
    (h : State.settleOpen { s with
      regs := { s.regs with esr := s.regs.esr ||| 1 }, parser := { s.parser with run := .hung } }) :
    takeInstructionError s = .ok (⟨⟩, State.settled { s with
      regs := { s.regs with esr := s.regs.esr ||| 1 }, parser := { s.parser with run := .hung } }) := by
  unfold takeInstructionError
  rw [run_onRegs_bind, run_setRun_bind]
  exact refresh_ok h

theorem bit_eirOf (r : Regs) : bit (eirOf { r with esr := r.esr ||| 1 }) 0 = (bit r.eir 0 || !bit r.emr 0) := by
  simp [bit, eirOf]

/-- Master Error stands while the EIR holds a bit (R426). -/
theorem bit_levels_masterError (r : Regs) (isr : Word) : bit (levels r isr) 25 = (r.eir != 0) := by
  unfold levels
  rw [bit_setBit_other _ _ _ _ (by decide), bit_setBit_same _ _ _ (by decide)]

theorem bne_zero_of_bit {w : Word} {i : Nat} (h : bit w i) : (w != 0) = true := by
  rw [bne_iff_ne]
  rintro rfl
  exact Bool.false_ne_true ((bit_zero i).symm.trans h)

/-- Settles O47: the step is the fetch of DWord 0, and then the Instruction Error. -/
theorem undefinedOpcodeHangs : Obligations.UndefinedOpcodeHangs := by
  unfold Obligations.UndefinedOpcodeHangs
  intro s w hat ho he r r' new t
  have heir : bit r'.eir 0 = (bit s.regs.eir 0 || !bit s.regs.emr 0) := bit_eirOf s.regs
  refine ⟨fun hopen => ?_, fun hemr => ?_, fun hemr => ?_⟩
  · have hrun : runCommand false s = takeInstructionError (s.taken 1) := by
      unfold runCommand
      rw [bind_ok (fetchCommand_undefined hat ho)]
    exact outcome_ok ((stepM_atCommand hat he).trans (hrun.trans (takeInstructionError_ok (s := s.taken 1) hopen)))
  · have hbit : bit r'.eir 0 := by rw [heir, hemr, Bool.not_false, Bool.or_true]
    exact ⟨hbit, (bit_levels_masterError r' s.regs.isr).trans (bne_zero_of_bit hbit)⟩
  · rw [heir, hemr, Bool.not_true, Bool.or_false]

/-! ## An MI command at `pc` -/

/-- An MI command runs within the step that meets it (R370). -/
theorem step_miCommand {ws : List Word} {i : Instr} (hat : s.atCommand ws) (hw : wholeCommand i.op ws)
    (hd : decode ws = .ok i) (hmi : i.op.isBlt = false) (he : s.engine.run = .idle ∨ s.engine.run = .hung) :
    step s = exec i { s.taken ws.length with parser := { s.parser with run := .running } } := by
  obtain ⟨l, hl⟩ := fetched_eq s s.fetchPoint.space s.fetchPoint.addr ws.length
  have hrun := runCommand_ok (defer := false) hat hw hd
  rw [hmi, if_neg Bool.false_ne_true, State.taken, hl] at hrun
  rw [State.taken, hl]
  exact (outcome_congr ((stepM_atCommand hat he).trans hrun)).trans (outcome_ofOutcome _ _)

/-! ## Reading ahead -/

/-- A DWord of the commands before `pc` gets there is kept as memory holds it now (R167). -/
theorem takeAhead_ok {ring : Bool} {n : Nat} {sp : Space} {a : Nat} (hpoint : s.aheadPoint ring n = some (sp, a))
    (hphys : (s.parserPhys sp a false .fetch).isSome) :
    s.takeAhead ring n = { s.reading sp a .fetch with
      readAhead := ⟨ring, sp, a, s.memWord sp a .fetch⟩ :: s.readAhead.filter fun e => !e.isAt ring sp a } := by
  obtain ⟨p, hp, haddr⟩ := parserPhys_some hphys
  simp only [State.takeAhead, hpoint, hp, State.memWord, haddr]
  rfl

/-- A place that does not translate is not read (R430, log 60). -/
theorem takeAhead_fault {ring : Bool} {n : Nat} {sp : Space} {a : Nat} (hpoint : s.aheadPoint ring n = some (sp, a))
    (hphys : (s.parserPhys sp a false .fetch).isNone) : s.takeAhead ring n = s := by
  unfold State.parserPhys at hphys
  simp only [State.takeAhead, hpoint]
  cases ht : s.translate .bcs sp a false .fetch with
  | error _ => rfl
  | ok _ => simp [ht, Except.toOption] at hphys

theorem takeAhead_none {ring : Bool} {n : Nat} (hpoint : s.aheadPoint ring n = none) : s.takeAhead ring n = s := by
  simp only [State.takeAhead, hpoint]

theorem step_readAhead {ring : Bool} {n : Nat} {es : List EnvEvent} (hq : s.quiet)
    (hs : s.schedule = .readAhead ring n :: es) :
    step s = .next (State.takeAhead { s with schedule := es } ring n) :=
  step_event_next hq hs rfl

theorem ReadAhead.isAt_self (e : ReadAhead) : e.isAt e.ring e.space e.addr := by simp [ReadAhead.isAt]

/-- A DWord read ahead is used up by the fetch that meets it (R167). -/
theorem commandWord_readAhead {e : ReadAhead} {l : List ReadAhead} (h : s.readAhead = e :: l) :
    commandWord e.ring e.space e.addr s =
      .ok (e.word, { s with readAhead := l.filter fun d => !d.isAt e.ring e.space e.addr }) := by
  have hself := e.isAt_self
  unfold commandWord
  simp only [run_get_bind, h, List.find?_cons, hself, List.filter_cons, Bool.not_true, Bool.false_eq_true, if_false]
  rfl

/-- Without a pulse to end, a step begins by forgetting what was read ahead and can run no more (R167). -/
theorem beginStep_noPulse (h : s.regs.isr &&& pulseInts = 0) : beginStep s = .ok (⟨⟩, s.keepAhead) := by
  unfold beginStep dropPulses
  rw [run_modify_bind, run_get_bind, if_pos (by exact h)]
  rfl

theorem step_tick_noPulse {n : Nat} {es : List EnvEvent} (hs : s.schedule = .tick n :: es)
    (h : s.regs.isr &&& pulseInts = 0) :
    step s = .next { s with
      readAhead := s.readAhead.filter s.stillAhead
      regs := { s.regs with timestamp := s.regs.timestamp + BitVec.ofNat 36 n }
      schedule := es } := by
  refine outcome_ok ?_
  unfold stepM
  rw [bind_ok (beginStep_noPulse h), run_get_bind, show s.keepAhead.schedule = .tick n :: es from hs]
  rfl

/-! ## The window of what may be read ahead -/

theorem Regs.ringSize_pos (r : Regs) : 0 < r.ringSize := by
  unfold Regs.ringSize
  omega

theorem stillAhead_ring_stopped {e : ReadAhead} (hring : e.ring)
    (h : s.ringEnabled = false ∨ s.regs.headOff = s.regs.tailOff) : s.stillAhead e = false := by
  unfold State.stillAhead
  rw [if_pos hring]
  rcases h with h | h
  · simp [h]
  · have hpending : s.regs.ringPending = 0 := by
      rw [Regs.ringPending, h, Nat.add_sub_cancel_left, Nat.mod_self]
    simp [hpending]

theorem stillAhead_noBatch {e : ReadAhead} (hring : e.ring = false) (h : s.parser.inBatch = false) :
    s.stillAhead e = false := by
  simp [State.stillAhead, hring, h]

/-- Around the ring, the distance from the head to the place `d` bytes behind it is `d`. -/
theorem ring_distance {head d size : Nat} (hhead : head < size) (hd : d < size) :
    ((head + d) % size + size - head) % size = d := by
  rcases Nat.lt_or_ge (head + d) size with h | h
  · rw [Nat.mod_eq_of_lt h, show head + d + size - head = d + size by omega, Nat.add_mod_right, Nat.mod_eq_of_lt hd]
  · have hwrap : (head + d) % size = head + d - size := by rw [Nat.mod_eq_sub_mod h, Nat.mod_eq_of_lt (by omega)]
    rw [hwrap, show head + d - size + size - head = d by omega, Nat.mod_eq_of_lt hd]

/-- What the parser may read ahead now, it may still run (R167). -/
theorem stillAhead_of_aheadPoint {e : ReadAhead} {n : Nat} (h : s.aheadPoint e.ring n = some (e.space, e.addr)) :
    s.stillAhead e := by
  unfold State.aheadPoint at h
  unfold State.stillAhead
  split at h
  · next hring =>
    rw [if_pos hring]
    split at h
    · next hin =>
      simp only [Bool.and_eq_true, decide_eq_true_eq] at hin
      obtain ⟨⟨henabled, hok⟩, hpending⟩ := hin
      simp only [Option.some.injEq, Prod.mk.injEq] at h
      obtain ⟨_, haddr⟩ := h
      have hsize := s.regs.ringSize_pos
      have hhead : s.regs.headOff < s.regs.ringSize := by
        simp only [Regs.ringOk, Bool.and_eq_true, decide_eq_true_eq] at hok
        obtain ⟨⟨_, hhead⟩, _⟩ := hok
        exact hhead
      have hlt : 4 * n < s.regs.ringSize := hpending.trans (Nat.mod_lt _ hsize)
      have hmod := Nat.mod_lt (s.regs.headOff + 4 * n) hsize
      simp only [← haddr, henabled, hok, Nat.add_sub_cancel_left, ring_distance hhead hlt, hpending, decide_true,
        Nat.le_add_right, Nat.add_lt_add_iff_left, hmod, Bool.and_true]
    · cases h
  · next hring =>
    rw [if_neg hring]
    split at h
    · next hin =>
      simp only [Bool.and_eq_true] at hin
      exact hin.1
    · cases h

/-- Settles O41: the command's meaning, the event of reading ahead, the fetch that uses a DWord up, and the window. -/
theorem stepRunsMiCommand : Obligations.StepRunsMiCommand := by
  unfold Obligations.StepRunsMiCommand
  refine ⟨fun s ws i => step_miCommand, fun s ring n sp a es hq hs => ⟨fun hpoint hphys => ?_, fun hpoint hphys => ?_,
    fun hpoint => ?_⟩, fun s e l => commandWord_readAhead, fun s n es => step_tick_noPulse,
    fun s e => ⟨stillAhead_ring_stopped, stillAhead_noBatch, fun n => stillAhead_of_aheadPoint⟩⟩
  · rw [step_readAhead hq hs, takeAhead_ok (s := { s with schedule := es }) hpoint hphys]
    rfl
  · rw [step_readAhead hq hs, takeAhead_fault (s := { s with schedule := es }) hpoint hphys]
  · rw [step_readAhead hq hs, takeAhead_none (s := { s with schedule := es }) hpoint]

end Sys2Proof.Machine
end

section
/-! PROOFS. The MI forms without a meaning: which check of a command refuses each form, after those that the form passes. -/

namespace Sys2Proof.Machine

variable {s : State}

/-- A requirement that fails refuses. -/
theorem require_error {c : Bool} {r : Refusal} (h : c = false) : require c r s = .error (.refused r) := by
  rw [run_require, if_neg (by rw [h]; exact Bool.false_ne_true)]

/-! ## MI_SEMAPHORE_MBOX (R378) -/

theorem miSemaphoreMbox_noOperation (len ggtt cmpReg sel data addr) :
    exec (.miSemaphoreMbox len ggtt false false cmpReg sel data addr) s = .refused .semaphoreForm := by
  unfold exec execMiSemaphoreMbox
  exact outcome_error (require_bind_not rfl)

/-- The register form compares, updates nothing, and selects BRSYNC or BVSYNC. -/
theorem miSemaphoreMbox_registerForm (len ggtt update compare sel data addr) (hop : (update || compare) = true)
    (h : update = true ∨ sel = 1 ∨ sel = 3) :
    exec (.miSemaphoreMbox len ggtt update compare true sel data addr) s = .refused .semaphoreForm := by
  have hform : (!update && (sel == 0 || sel == 2)) = false := by
    rcases h with rfl | rfl | rfl
    · rfl
    · exact Bool.and_false _
    · exact Bool.and_false _
  refine outcome_error ?_
  rw [require_bind hop]
  exact require_bind_not hform

/-! ## Commands of the ring and of batch buffers -/

theorem miWaitForEvent_waitForm (sc cc pc sb pb sa pa) (h : 2 ≤ eventCount sc cc pc sb pb sa pa ∨ 6 ≤ cc.toNat) :
    exec (.miWaitForEvent sc cc pc sb pb sa pa) s = .refused .waitForm := by
  refine outcome_error (require_bind_not ?_)
  rw [Bool.and_eq_false_iff, decide_eq_false_iff_not, decide_eq_false_iff_not]
  omega

theorem miBatchBufferStart_noPpgtt (len addr) (h : s.ppgttEnabled = false) :
    exec (.miBatchBufferStart len true addr) s = .refused .addressSpace :=
  outcome_error (require_bind_not h)

/-- A GGTT batch does not chain to a PPGTT one (R373). -/
theorem miBatchBufferStart_placement (len addr) (hb : s.parser.inBatch) (hsp : s.parser.batchSpace = .ggtt)
    (hp : s.ppgttEnabled) : exec (.miBatchBufferStart len true addr) s = .refused .placement := by
  refine outcome_error ?_
  rw [require_bind (by exact hp)]
  exact require_bind_not (by rw [hb, hsp]; rfl)

/-! ## Register loads (R375, R386) -/

theorem miLoadRegisterImm_byteWriteDisables (len disables reg data) (h0 : disables ≠ 0) (h15 : disables ≠ 15)
    (hprot : protectedFrom s.secure (put 0 2 (reg : BitVec 30) : Word).toNat = false) :
    exec (.miLoadRegisterImm len disables reg data) s = .refused .byteWriteDisables := by
  refine outcome_error ?_
  rw [if_neg (not_or.mpr ⟨h15, by rw [hprot]; exact Bool.false_ne_true⟩), if_neg h0]
  rfl

theorem miLoadRegisterMem_noPpgtt (len async reg addr) (hp : s.ppgttEnabled = false)
    (hprot : protectedFrom s.secure (reg.toNat * 4) = false) :
    exec (.miLoadRegisterMem len false async reg addr) s = .refused .addressSpace := by
  refine outcome_error ?_
  rw [if_neg (by simp [violates, hprot])]
  exact require_bind_not hp

theorem miLoadRegisterMem_registerRange (len ggtt async reg addr) (hs : s.secure) (hp : ggtt = true ∨ s.ppgttEnabled)
    (h : (0x8800 ≤ reg.toNat * 4 ∧ reg.toNat * 4 ≤ 0x88FF) ∨ 0xC0000 ≤ reg.toNat * 4) :
    exec (.miLoadRegisterMem len ggtt async reg addr) s = .refused .registerRange := by
  have hforbidden : loadForbidden (reg.toNat * 4) = true := by simpa [loadForbidden] using h
  refine outcome_error ?_
  rw [if_neg (by simp [violates, hs, protectedFrom])]
  unfold checkGlobal
  rw [require_bind (by simpa using hp)]
  exact require_bind_not (by rw [hforbidden]; rfl)

/-! ## Stores (R379 to R381) -/

theorem miStoreRegisterMem_noPpgtt (len reg addr) (h : s.ppgttEnabled = false) :
    exec (.miStoreRegisterMem len false reg addr) s = .refused .addressSpace :=
  outcome_error (require_bind_not h)

theorem miStoreDataImm_noPpgtt (len addr d0 d1) (h : s.ppgttEnabled = false) :
    exec (.miStoreDataImm len false addr d0 d1) s = .refused .addressSpace :=
  outcome_error (require_bind_not h)

theorem miStoreDataImm_qwordAlignment (ggtt addr d0 d1) (hsp : if ggtt then s.secure else s.ppgttEnabled)
    (h : (put 0 2 (addr : BitVec 30) : Word).toNat % 8 ≠ 0) :
    exec (.miStoreDataImm 3 ggtt addr d0 d1) s = .refused .qwordAlignment := by
  have hspace : (ggtt || s.ppgttEnabled) = true ∧ violates s ggtt = false := by
    cases ggtt <;> simp_all [violates]
  obtain ⟨hglobal, hpriv⟩ := hspace
  refine outcome_error ?_
  unfold checkGlobal
  rw [require_bind hglobal, hpriv, if_neg Bool.false_ne_true, if_pos rfl]
  exact bind_error (require_error (beq_false_of_ne h))

theorem miStoreDataIndex_statusPageUnset (len offset d0 d1) (h : s.regs.hwsPgaWritten = false) :
    exec (.miStoreDataIndex len offset d0 d1) s = .refused .statusPageUnset :=
  outcome_error (require_bind_not h)

theorem miStoreDataIndex_statusPageReserved (len offset d0 d1) (hw : s.regs.hwsPgaWritten) (h : offset.toNat < 16) :
    exec (.miStoreDataIndex len offset d0 d1) s = .refused .statusPageReserved := by
  refine outcome_error ?_
  rw [require_bind hw]
  exact require_bind_not (decide_eq_false (by omega))

theorem miStoreDataIndex_qwordAlignment (offset d0 d1) (hw : s.regs.hwsPgaWritten) (h16 : 16 ≤ offset.toNat)
    (h : (s.regs.hwsp + 4 * offset.toNat) % 8 ≠ 0) :
    exec (.miStoreDataIndex 2 offset d0 d1) s = .refused .qwordAlignment := by
  refine outcome_error ?_
  rw [require_bind hw, require_bind (decide_eq_true h16), if_pos rfl]
  exact bind_error (require_error (beq_false_of_ne h))

/-! ## MI_UPDATE_GTT (R383) -/

theorem miUpdateGtt_ppgtt (len entry data) (hs : s.secure) :
    exec (.miUpdateGtt len false entry data) s = .refused .addressSpace := by
  refine outcome_error ?_
  rw [if_neg (by simp [hs])]
  exact require_bind_not rfl

theorem miUpdateGtt_noEntry (len entry) (hs : s.secure) :
    exec (.miUpdateGtt len true entry []) s = .refused .illegalLength := by
  refine outcome_error ?_
  rw [if_neg (by simp [hs]), require_bind (by rfl)]
  exact require_bind_not rfl

/-! ## MI_FLUSH_DW (R374) -/

theorem miFlushDw_reservedValue (len spare index tlbInv gfdt notify addr toGgtt d0 d1) :
    exec (.miFlushDw len spare index tlbInv gfdt 2 notify addr toGgtt d0 d1) s = .refused .reservedValue := by
  unfold exec execMiFlushDw
  exact outcome_error (require_bind_not rfl)

/-- TLB Invalidate and bit 17 go only with a post-sync operation. -/
theorem miFlushDw_noPostSync (len spare index tlbInv gfdt notify addr toGgtt d0 d1) (h : tlbInv = true ∨ gfdt = true) :
    exec (.miFlushDw len spare index tlbInv gfdt 0 notify addr toGgtt d0 d1) s = .refused .flushForm := by
  have hform : (!(tlbInv && (0 : BitVec 2) == 0) && !(gfdt && (0 : BitVec 2) == 0)) = false := by
    rcases h with rfl | rfl
    · rfl
    · exact Bool.and_false _
  refine outcome_error ?_
  rw [require_bind (by rfl)]
  exact require_bind_not hform

theorem miFlushDw_qwordAddress (spare index tlbInv gfdt notify addr toGgtt d0 d1) (h : bit (put 0 3 (addr : BitVec 29)) 5) :
    exec (.miFlushDw 2 spare index tlbInv gfdt 1 notify addr toGgtt d0 d1) s = .refused .flushForm := by
  refine outcome_error ?_
  rw [require_bind (by rfl), require_bind (by simp)]
  exact require_bind_not (by rw [h]; rfl)

/-- A non-secure batch in the PPGTT does not reach the status page, which is in the global GTT. -/
theorem miFlushDw_perProcessStatusPage (len spare tlbInv gfdt op notify addr toGgtt d0 d1) (hs : s.secure = false)
    (hp : s.ppgttEnabled) (h : op = 3 ∨ (op = 1 ∧ (len ≠ 2 ∨ bit (put 0 3 (addr : BitVec 29)) 5 = false))) :
    exec (.miFlushDw len spare true tlbInv gfdt op notify addr toGgtt d0 d1) s = .refused .perProcessStatusPage := by
  have hop : (op != 2) = true ∧ (op == 0) = false ∧ (op == 1 && len == 2 && bit (put 0 3 addr) 5) = false := by
    rcases h with rfl | ⟨rfl, hlen | haddr⟩
    · exact ⟨rfl, rfl, rfl⟩
    · exact ⟨rfl, rfl, by rw [beq_false_of_ne hlen]; rfl⟩
    · exact ⟨rfl, rfl, by rw [haddr, Bool.and_false]⟩
  obtain ⟨hvalue, hwrites, hqword⟩ := hop
  refine outcome_error ?_
  rw [require_bind hvalue, require_bind (by rw [hwrites, Bool.and_false, Bool.and_false]; rfl),
    require_bind (by rw [hqword]; rfl)]
  exact require_bind_not (by rw [bne, hwrites, hs, hp]; rfl)

/-! ## MI_DISPLAY_FLIP (R387) -/

theorem miDisplayFlip_reservedValue (len async plane pitch tiled base kind) (h : 2 ≤ kind.toNat ∨ 6 ≤ plane.toNat) :
    exec (.miDisplayFlip len async plane pitch tiled base kind) s = .refused .reservedValue := by
  refine outcome_error (require_bind_not ?_)
  rw [Bool.and_eq_false_iff, decide_eq_false_iff_not, decide_eq_false_iff_not]
  omega

/-- The asynchronous bit and the flip type say the same. -/
theorem miDisplayFlip_typeMismatch (len async plane pitch tiled base) (hplane : plane.toNat < 6) :
    exec (.miDisplayFlip len async plane pitch tiled base (if async then 0 else 1)) s = .refused .flipForm := by
  refine outcome_error ?_
  rw [require_bind (by cases async <;> simp [hplane])]
  exact require_bind_not (by cases async <;> rfl)

/-- An asynchronous flip is of a tiled surface on a plane, not a sprite. -/
theorem miDisplayFlip_asyncForm (len plane pitch tiled base) (hplane : plane.toNat < 6)
    (h : tiled = false ∨ (plane ≠ 0 ∧ plane ≠ 1 ∧ plane ≠ 4)) :
    exec (.miDisplayFlip len true plane pitch tiled base 1) s = .refused .flipForm := by
  refine outcome_error ?_
  rw [require_bind (by simp [hplane]), require_bind (by rfl)]
  cases tiled with
  | false => exact require_bind_not rfl
  | true =>
    obtain ⟨h0, h1, h4⟩ := h.resolve_left (nomatch ·)
    rw [require_bind (by rfl)]
    exact require_bind_not (by rw [beq_false_of_ne h0, beq_false_of_ne h1, beq_false_of_ne h4]; rfl)

theorem miDisplayFlip_cacheLine (len pitch tiled base) (h : flipInLine s = false) :
    exec (.miDisplayFlip len false 0 pitch tiled base 0) s = .refused .flipCacheLine := by
  refine outcome_error ?_
  rw [require_bind (by rfl), require_bind (by rfl), require_bind (by rfl), require_bind (by rfl)]
  exact require_bind_not h

/-- In the ring, the tail behind a command is no command that follows (R207). -/
theorem checkFollowing_atTail (hb : s.parser.inBatch = false) (h : s.regs.headOff = s.regs.tailOff) :
    checkFollowing s = .error (.refused .noFollowingCommand) := by
  unfold checkFollowing
  rw [run_get_bind, run_require, hb, h]
  simp

theorem miDisplayFlip_noFollowingCommand (len pitch tiled base) (hline : flipInLine s) (hcan : s.canAdvance 3)
    (hb : s.parser.inBatch = false) (h : (s.advanced 3).regs.headOff = s.regs.tailOff) :
    exec (.miDisplayFlip len false 0 pitch tiled base 0) s = .refused .noFollowingCommand := by
  refine outcome_error ?_
  rw [require_bind (by rfl), require_bind (by rfl), require_bind (by rfl), require_bind (by rfl),
    require_bind hline, run_modify_bind, run_onRegs_bind, finishWith_ok (by exact hcan)]
  refine checkFollowing_atTail (by simpa using hb) ?_
  calc _ = (s.advanced 3).regs.headOff := by simp only [Regs.headOff, State.advanced_head]; rfl
    _ = s.regs.tailOff := h
    _ = _ := by simp [Regs.tailOff, State.advanced, hb]

/-- Settles O50: form after form, by the check that refuses it. -/
theorem illegalMiFormsStop : Obligations.IllegalMiFormsStop := by
  unfold Obligations.IllegalMiFormsStop
  intro s
  refine ⟨miSemaphoreMbox_noOperation, fun len ggtt update sel data addr h => ?_, ?_,
    miLoadRegisterImm_byteWriteDisables, miWaitForEvent_waitForm, miFlushDw_reservedValue, miFlushDw_noPostSync,
    miDisplayFlip_reservedValue, miDisplayFlip_asyncForm, miFlushDw_qwordAddress, miFlushDw_perProcessStatusPage,
    miDisplayFlip_typeMismatch, miDisplayFlip_noFollowingCommand, miDisplayFlip_cacheLine,
    miStoreDataImm_qwordAlignment, miLoadRegisterMem_registerRange, miBatchBufferStart_placement,
    miStoreDataIndex_statusPageUnset, miStoreDataIndex_statusPageReserved, miStoreDataIndex_qwordAlignment,
    miUpdateGtt_ppgtt, miUpdateGtt_noEntry, fun hp => ⟨fun len addr => miBatchBufferStart_noPpgtt len addr hp,
      fun len addr d0 d1 => miStoreDataImm_noPpgtt len addr d0 d1 hp,
      fun len reg addr => miStoreRegisterMem_noPpgtt len reg addr hp,
      fun len async reg addr => miLoadRegisterMem_noPpgtt len async reg addr hp⟩⟩
  · exact miSemaphoreMbox_registerForm _ _ _ _ _ _ _ (Bool.or_true _) h
  · exact fun len ggtt compare sel data addr => miSemaphoreMbox_registerForm _ _ _ _ _ _ _ (Bool.true_or _) (.inl rfl)

end Sys2Proof.Machine
end

section
/-! PROOFS. Raster operations (R222, R223): the code is the truth table of every bit of the result, so an operand is used where
the table depends on it. -/

namespace Sys2Proof.Machine

/-! ## The result, bit by bit -/

/-- The bit of a raster operation's code that a bit of pattern, source and destination select (R222). -/
def codeBit (rop : BitVec 8) (p s d : Bool) : Bool := rop.getLsbD (4 * p.toNat + 2 * s.toNat + d.toNat)

/-- An operand or its complement has a bit exactly where the operand's bit is the one asked for. -/
theorem literal_getLsbD (w : Word) (c : Prop) [Decidable c] {i : Nat} (hi : i < 32) :
    (if c then w else ~~~w).getLsbD i = (w.getLsbD i == decide c) := by
  by_cases hc : c <;> simp [hc, hi]

/-- A product term has its code bit where pattern, source and destination spell its number, and nothing elsewhere. -/
theorem ropTerm_getLsbD (rop : BitVec 8) (k : Nat) (p s d : Word) {i : Nat} (hi : i < 32) :
    (ropTerm rop k p s d).getLsbD i = (rop.getLsbD k && ((p.getLsbD i == decide (k / 4 % 2 = 1)) &&
      (s.getLsbD i == decide (k / 2 % 2 = 1)) && (d.getLsbD i == decide (k % 2 = 1)))) := by
  unfold ropTerm
  cases rop.getLsbD k with
  | false => simp
  | true => simp only [if_true, BitVec.getLsbD_and, literal_getLsbD _ _ hi, Bool.true_and]

/-- Of the eight product terms the one that pattern, source and destination spell decides the bit. -/
theorem rop3_getLsbD (rop : BitVec 8) (p s d : Word) {i : Nat} (hi : i < 32) :
    (rop3 rop p s d).getLsbD i = codeBit rop (p.getLsbD i) (s.getLsbD i) (d.getLsbD i) := by
  simp only [rop3, BitVec.getLsbD_or, ropTerm_getLsbD _ _ _ _ _ hi, codeBit]
  cases p.getLsbD i <;> cases s.getLsbD i <;> cases d.getLsbD i <;> simp

/-- Settles O56: the bit is the one of the product term that the three operands spell. -/
theorem ropSelectsCodeBit : Obligations.RopSelectsCodeBit := by
  unfold Obligations.RopSelectsCodeBit
  exact fun rop p s d i hi => rop3_getLsbD rop p s d hi

/-! ## The operands it uses -/

/-- A code is what it is `n` places up, on the bits of a mask. -/
theorem shifted_mask_eq_iff (rop mask : BitVec 8) (n : Nat) :
    ((rop >>> n) &&& mask != rop &&& mask) = false ↔
      ∀ i : Fin 8, mask.getLsbD i → rop.getLsbD (n + i) = rop.getLsbD i := by
  rw [bne_eq_false_iff_eq]
  constructor
  · intro h i hmask
    simpa only [BitVec.getLsbD_and, BitVec.getLsbD_ushiftRight, hmask, Bool.and_true] using congrArg (·.getLsbD i) h
  · intro h
    refine BitVec.eq_of_getLsbD_eq fun i hi => ?_
    cases hmask : mask.getLsbD i with
    | false => simp [hmask]
    | true => simp [hmask, h ⟨i, hi⟩ hmask]

/-- D is unused when the code has the same bit for D = 0 and D = 1 (R223). -/
theorem ropUses_d_eq_false_iff (rop : BitVec 8) :
    (ropUses rop).d = false ↔ ∀ p s, codeBit rop p s true = codeBit rop p s false := by
  refine (shifted_mask_eq_iff rop 0x55 1).trans ?_
  simp [Fin.forall_fin_succ, codeBit, and_assoc]

theorem ropUses_s_eq_false_iff (rop : BitVec 8) :
    (ropUses rop).s = false ↔ ∀ p d, codeBit rop p true d = codeBit rop p false d := by
  refine (shifted_mask_eq_iff rop 0x33 2).trans ?_
  simp [Fin.forall_fin_succ, codeBit, and_assoc]

theorem ropUses_p_eq_false_iff (rop : BitVec 8) :
    (ropUses rop).p = false ↔ ∀ s d, codeBit rop true s d = codeBit rop false s d := by
  refine (shifted_mask_eq_iff rop 0x0F 4).trans ?_
  simp [Fin.forall_fin_succ, codeBit, and_assoc]

/-- An operation on DWords with the same truth table in every bit does not see its last operand exactly when the table does
not. -/
theorem bitwise_unused_iff (f : Word → Word → Word → Word) (table : Bool → Bool → Bool → Bool)
    (hf : ∀ x y z i, i < 32 → (f x y z).getLsbD i = table (x.getLsbD i) (y.getLsbD i) (z.getLsbD i)) :
    (∀ a b, table a b true = table a b false) ↔ ∀ x y z z', f x y z = f x y z' := by
  constructor
  · intro h x y z z'
    refine BitVec.eq_of_getLsbD_eq fun i hi => ?_
    rw [hf x y z i hi, hf x y z' i hi]
    cases z.getLsbD i <;> cases z'.getLsbD i <;> simp [h]
  · intro h a b
    have hbit (z : Bool) : (f (.fill 32 a) (.fill 32 b) (.fill 32 z)).getLsbD 0 = table a b z := by
      rw [hf _ _ _ 0 (by decide)]
      simp
    rw [← hbit, ← hbit, h]

/-- Settles O57: what `ropUses` compares are the code bits that differ in one operand, and the code is the truth table of every
bit of the result. -/
theorem ropUsesExactly : Obligations.RopUsesExactly := by
  unfold Obligations.RopUsesExactly
  refine fun rop => ⟨?d, ?s, ?p⟩
  case d =>
    rw [ropUses_d_eq_false_iff]
    exact bitwise_unused_iff (rop3 rop) (codeBit rop) fun p s d i hi => rop3_getLsbD rop p s d hi
  case s =>
    rw [ropUses_s_eq_false_iff, bitwise_unused_iff (fun p d s => rop3 rop p s d) (fun p d s => codeBit rop p s d)
      fun p d s i hi => rop3_getLsbD rop p s d hi]
    exact ⟨fun h p s s' d => h p d s s', fun h p d s s' => h p s s' d⟩
  case p =>
    rw [ropUses_p_eq_false_iff, bitwise_unused_iff (fun s d p => rop3 rop p s d) (fun s d p => codeBit rop p s d)
      fun s d p i hi => rop3_getLsbD rop p s d hi]
    exact ⟨fun h p p' s d => h s d p p', fun h s d p p' => h p p' s d⟩

end Sys2Proof.Machine
end

section
/-! PROOFS. A copy inside one surface (R252, R330): it is walked so that no pixel is written before it has been read, and it
leaves in every pixel what its source held before. -/

namespace Sys2Proof.Machine

variable {s t : State}

/-! ## The order of the pixels -/

/-- The integers of a span, from the first one up or from the last one down. -/
theorem span_eq (lo hi : Int) (back : Bool) : span lo hi back =
    if back then ((List.range (hi - lo).toNat).map fun k : Nat => lo + (k : Int)).reverse
    else (List.range (hi - lo).toNat).map fun k : Nat => lo + (k : Int) := by
  simp [span, Function.comp_def, ← List.map_eq_flatMap]

theorem span_pairwise (lo hi : Int) (back : Bool) :
    (span lo hi back).Pairwise fun a b => if back then b < a else a < b := by
  rw [span_eq]
  cases back <;> simp [List.pairwise_map, List.pairwise_reverse, List.pairwise_lt_range]

theorem le_of_mem_span {lo hi a : Int} {back : Bool} (h : a ∈ span lo hi back) : lo ≤ a := by
  rw [span_eq] at h
  have hmem : a ∈ (List.range (hi - lo).toNat).map fun k : Nat => lo + (k : Int) := by
    cases back <;> simpa using h
  obtain ⟨k, _, rfl⟩ := List.mem_map.mp hmem
  omega

/-- The walk of R252 visits `p` before `q`: line after line, and in a line pixel after pixel, each in its direction. -/
def WalksBefore (xBack yBack : Bool) (p q : Int × Int) : Prop :=
  (if yBack then q.2 < p.2 else p.2 < q.2) ∨ p.2 = q.2 ∧ if xBack then q.1 < p.1 else p.1 < q.1

theorem pixels_pairwise (b : Box) (xBack yBack : Bool) : (pixels b xBack yBack).Pairwise (WalksBefore xBack yBack) := by
  unfold pixels
  rw [List.pairwise_flatMap]
  refine ⟨fun y _ => List.pairwise_map.mpr ((span_pairwise ..).imp fun h => .inr ⟨rfl, h⟩),
    (span_pairwise ..).imp fun h p hp q hq => .inl ?_⟩
  obtain ⟨_, _, rfl⟩ := List.mem_map.mp hp
  obtain ⟨_, _, rfl⟩ := List.mem_map.mp hq
  exact h

theorem drawnPixels_pairwise (b : Box) (clip : Option Box) (xBack yBack : Bool) :
    (drawnPixels b clip xBack yBack).Pairwise (WalksBefore xBack yBack) := by
  unfold drawnPixels
  split
  · exact .nil
  · exact pixels_pairwise ..

/-- A pixel that is drawn lies left neither of the surface nor of the rectangle (R250). -/
theorem left_le_of_mem_drawnPixels {b : Box} {clip : Option Box} {xBack yBack : Bool} {p : Int × Int}
    (h : p ∈ drawnPixels b clip xBack yBack) : 0 ≤ p.1 ∧ b.left ≤ p.1 := by
  have hregion : max b.left 0 ≤ (region b clip).left := by
    unfold region Box.inter
    cases clip with
    | none => exact le_rfl
    | some c => exact le_max_left ..
  unfold drawnPixels pixels at h
  split at h
  · cases h
  · obtain ⟨y, _, hrow⟩ := List.mem_flatMap.mp h
    obtain ⟨x, hx, rfl⟩ := List.mem_map.mp hrow
    have hleft := hregion.trans (le_of_mem_span hx)
    exact ⟨(le_max_right ..).trans hleft, (le_max_left ..).trans hleft⟩

/-- Walked away from its source, a copy writes no source pixel before it is read, and no pixel twice (R252). -/
theorem ne_of_walk {ox oy : Int} {pre post : List (Int × Int)} {p : Int × Int}
    (h : (pre ++ p :: post).Pairwise (WalksBefore (decide (ox < 0)) (decide (oy < 0)))) :
    (∀ q ∈ pre, q ≠ (p.1 + ox, p.2 + oy)) ∧ ∀ q ∈ post, q ≠ p := by
  obtain ⟨_, hpost, hpre⟩ := List.pairwise_append.mp h
  constructor
  · rintro q hq rfl
    have hwalk := hpre _ hq p List.mem_cons_self
    simp only [WalksBefore, decide_eq_true_eq] at hwalk
    split at hwalk <;> split at hwalk <;> omega
  · rintro q hq rfl
    have hwalk := (List.pairwise_cons.mp hpost).1 q hq
    simp only [WalksBefore, decide_eq_true_eq] at hwalk
    split at hwalk <;> split at hwalk <;> omega

/-! ## Source and destination of a copy -/

/-- Moving a corner leaves the way from destination to source as it was (R250 step 1). -/
theorem adjust_offset (d s : Int) : (adjust d s).2 - (adjust d s).1 = s - d := by
  unfold adjust
  split
  · simp only
    omega
  · rfl

/-- No source coordinate is negative once the corner has moved (R250 step 1). -/
theorem sub_le_adjust (d s : Int) : d - s ≤ (adjust d s).1 := by
  unfold adjust
  split <;> simp only <;> omega

theorem copySource_eq (r : Rect) (c : ColorSrc) (swctrl : Word) :
    copySource r c swctrl = .color (xySurface c.tiled (bit swctrl 0) c.base c.pitch)
      (c.x1.toInt - r.x1.toInt) (c.y1.toInt - r.y1.toInt) := by
  unfold copySource
  rw [adjust_offset, adjust_offset]

theorem copyPixels_pairwise {d : Draw} {c : ColorSrc} (h : c.base = d.base) (u : Setup) :
    (copyPixels d c u).Pairwise (WalksBefore (decide (c.x1.toInt - d.rect.x1.toInt < 0))
      (decide (c.y1.toInt - d.rect.y1.toInt < 0))) := by
  have hx : copyBackX d c = decide (c.x1.toInt - d.rect.x1.toInt < 0) := by simp [copyBackX, h]
  have hy : copyBackY d c = decide (c.y1.toInt - d.rect.y1.toInt < 0) := by simp [copyBackY, h]
  rw [← hx, ← hy]
  exact drawnPixels_pairwise ..

/-- Neither a pixel of a copy nor its source pixel lies left of its surface (R250). -/
theorem nonneg_of_mem_copyPixels {d : Draw} {c : ColorSrc} {u : Setup} {p : Int × Int} (h : p ∈ copyPixels d c u) :
    0 ≤ p.1 ∧ 0 ≤ p.1 + (c.x1.toInt - d.rect.x1.toInt) := by
  obtain ⟨hsurface, hleft⟩ := left_le_of_mem_drawnPixels h
  have hadjust := (sub_le_adjust d.rect.x1.toInt c.x1.toInt).trans hleft
  exact ⟨hsurface, by omega⟩

/-! ## Bytes of a linear surface -/

/-- A pixel lies inside its line of a surface (R251). -/
def Surface.InLine (f : Surface) (n : Nat) (p : Int × Int) : Prop := 0 ≤ p.1 ∧ (p.1 + 1) * n ≤ f.pitch

/-- A place is in one line only, and there at one distance from its start. -/
theorem mul_add_inj {d y y' u u' : Int} (hu : 0 ≤ u ∧ u < d) (hu' : 0 ≤ u' ∧ u' < d) (h : y * d + u = y' * d + u') :
    y = y' ∧ u = u' := by
  have hd : 0 < d := by omega
  obtain ⟨hy, hu⟩ := (Int.ediv_emod_unique (a := y * d + u) (q := y) (r := u) hd).mpr ⟨by ring, hu⟩
  obtain ⟨hy', hu'⟩ := (Int.ediv_emod_unique (a := y * d + u) (q := y') (r := u') hd).mpr ⟨by rw [h]; ring, hu'⟩
  exact ⟨hy.symm.trans hy', hu.symm.trans hu'⟩

theorem Surface.InLine.byte {f : Surface} {n : Nat} {p : Int × Int} (h : f.InLine n p) {k : Nat} (hk : k < n) :
    0 ≤ p.1 * n + k ∧ p.1 * n + k < f.pitch := by
  obtain ⟨hnonneg, hpitch⟩ := h
  have := Int.mul_nonneg hnonneg (Int.natCast_nonneg n)
  rw [Int.add_mul] at hpitch
  omega

/-- Pixels inside their lines of a linear surface share no byte (R251). -/
theorem linear_byte_inj {f : Surface} (hf : f.tile = none) {n i k : Nat} {p q : Int × Int} (hp : f.InLine n p)
    (hq : f.InLine n q) (hi : i < n) (hk : k < n) (h : f.addr n p.1 p.2 + i = f.addr n q.1 q.2 + k) : p = q := by
  simp only [Surface.addr, hf] at h
  obtain ⟨hy, hx⟩ := mul_add_inj (y := p.2) (y' := q.2) (hp.byte hi) (hq.byte hk) (by omega)
  exact Prod.ext (mul_add_inj (by omega) (by omega) hx).1 hy

/-! ## One pixel -/

/-- Byte `k` of the DWord made of some bytes is the `k`-th of them, 0 where there is none (R125). -/
theorem byteOf_bytesWord (bs : List Byte) {k : Nat} (hk : k < 4) : byteOf (bytesWord bs) k = bs.getD k 0 := by
  induction bs generalizing k with
  | nil => simp [bytesWord, byteOf]
  | cons b bs ih =>
    cases k with
    | zero =>
      ext i hi
      simp [bytesWord, byteOf, hi, show i < 32 by omega]
    | succ k =>
      rw [List.getD_cons_succ, ← ih (by omega)]
      ext i hi
      have hin : 8 * (k + 1) + i < 32 := by omega
      have hpast : ¬8 * (k + 1) + i < 8 := by omega
      have hdown : 8 * (k + 1) + i - 8 = 8 * k + i := by omega
      have hb : b.getLsbD (8 * (k + 1) + i) = false := BitVec.getLsbD_of_ge _ _ (by omega)
      simp only [bytesWord, byteOf, BitVec.getElem_extractLsb', BitVec.getLsbD_or, BitVec.getLsbD_setWidth,
        BitVec.getLsbD_shiftLeft, hin, hpast, hdown, hb, decide_true, decide_false, Bool.not_false, Bool.and_false,
        Bool.false_or, Bool.true_and]

/-- Raster operation CCh copies the source (R222). -/
theorem rop3_copy (p s d : Word) : rop3 0xCC p s d = s := by
  refine BitVec.eq_of_getLsbD_eq fun i hi => ?_
  rw [rop3_getLsbD _ _ _ _ hi]
  cases p.getLsbD i <;> cases s.getLsbD i <;> cases d.getLsbD i <;> rfl

theorem bpp_pos (d : Depth) : 0 < bpp d := by cases d <;> decide

theorem bpp_le (d : Depth) : bpp d ≤ 4 := by cases d <;> decide

/-- The job copies inside its destination surface: the source pixel of (X, Y) is (X + ox, Y + oy) there, and every byte of it
is written (R330). -/
structure Job.Copies (j : Job) (ox oy : Int) : Prop where
  src : j.src = .color j.dst ox oy
  rop : j.rop = 0xCC
  mode : j.mode = 0
  pat : j.pat = .absent
  mask : ∀ k < bpp j.depth, byteEnable j.depth j.mask k

/-- Where in memory the destination pixel begins. -/
def Job.destPlace (j : Job) (s : State) (p : Int × Int) : Nat :=
  s.physAddr (j.dst.addr (bpp j.depth) p.1 p.2) (bpp j.depth) true (.dest p.1 p.2)

/-- Where in memory the source pixel of a copy begins. -/
def Job.sourcePlace (j : Job) (ox oy : Int) (s : State) (p : Int × Int) : Nat :=
  s.physAddr (j.dst.addr (bpp j.depth) (p.1 + ox) (p.2 + oy)) (bpp j.depth) false (.source p.1 p.2)

variable {j : Job} {ox oy : Int} {ov : Nat → Nat → Bool} {px pre post : List (Int × Int)} {p : Int × Int} {k : Nat}

theorem Job.Copies.usesSource (hj : j.Copies ox oy) : (ropUses j.rop).s = true := by
  rw [hj.rop]
  rfl

theorem Job.Copies.writesBytes (hj : j.Copies ox oy) : j.writesBytes = true :=
  List.any_eq_true.mpr ⟨0, List.mem_range.mpr (bpp_pos _), hj.mask 0 (bpp_pos _)⟩

/-- A pixel of a copy is written, and becomes its source pixel (R222, R255). -/
theorem Job.Copies.result (hj : j.Copies ox oy) (s : State) (p : Int × Int) :
    j.enabledAt s p.1 p.2 = true ∧ j.resultAt s p.1 p.2 = bytesWord (bytesAt (s.midway (.source p.1 p.2) false).renderRead
      (j.sourcePlace ox oy s p) (bpp j.depth)) := by
  have hpattern : j.patternAt s p.1 p.2 = (0, true) ∧ j.afterPattern s p.1 p.2 = s := by
    simp [Job.patternAt, Job.afterPattern, hj.pat]
  have hsource : j.sourceAt s p.1 p.2 = (bytesWord (bytesAt (s.midway (.source p.1 p.2) false).renderRead
      (j.sourcePlace ox oy s p) (bpp j.depth)), true) := by
    simp [Job.sourceAt, hj.src, hj.usesSource, Job.sourcePlace]
  constructor
  · simp [Job.enabledAt, Job.operandsAt, hpattern, hsource, rangeEnable, sourceMode, destMode, hj.mode]
  · simp only [Job.resultAt, Job.operandsAt, hpattern, hsource, hj.rop, rop3_copy]

/-- One pixel of a copy takes each undisturbed byte of its source pixel. -/
theorem Job.Copies.paintPixel_renderRead (hj : j.Copies ox oy) (hov : ∀ a ph, ov a ph = false) (hok : s.cachesOk)
    (hk : k < bpp j.depth) (hd : s.disturbs (j.sourcePlace ox oy s p + k) = false) :
    (j.paintPixel ov s p).renderRead (j.destPlace s p + k) = s.renderRead (j.sourcePlace ox oy s p + k) := by
  obtain ⟨hen, hres⟩ := hj.result s p
  simp only [Job.paintPixel, hen, hj.writesBytes, Bool.and_self, if_true]
  obtain ⟨u, hu⟩ := putPixel_renderRead_enabled ov _ _ _ (hj.mask k hk) _ _ (.inl (List.mem_range.mpr hk))
  calc _ = _ := hu
    _ = byteOf (j.resultAt s p.1 p.2) k := by rw [pixelByte, hov, if_neg Bool.false_ne_true]
    _ = (s.midway (.source p.1 p.2) false).renderRead (j.sourcePlace ox oy s p + k) := by
      rw [hres, byteOf_bytesWord _ (hk.trans_le (bpp_le _))]
      simp [bytesAt, hk]
    _ = _ := (s.midway_keeps _ _ _ hok hd).2.2

/-! ## All the pixels -/

/-- Painting keeps the caches in their form, and disturbs no byte that was not to be disturbed. -/
theorem paint_undisturbed (j : Job) (ov : Nat → Nat → Bool) (px : List (Int × Int)) (hok : s.cachesOk) {a : Nat}
    (hd : s.disturbs a = false) : (j.paint ov s px).cachesOk ∧ (j.paint ov s px).disturbs a = false := by
  refine paint_keeps (P := fun t => t.cachesOk ∧ t.disturbs a = false) (fun t b w use ⟨hok, hd⟩ => ?reach) (fun t l ht => ht)
    j ov px (fun p hp t u g v _ ⟨hok, hd⟩ => ?put) ⟨hok, hd⟩
  case reach =>
    obtain ⟨hok', hd', _⟩ := t.midway_keeps use w a hok hd
    exact ⟨hok', hd'⟩
  case put =>
    generalize t.physAddr (j.dst.addr (bpp j.depth) p.1 p.2) (bpp j.depth) true (.dest p.1 p.2) = ph
    obtain ⟨hok', _, _, _, hposted, hmid⟩ := putPixel_keeps ov g ph (byteEnable j.depth j.mask) v (List.range (bpp j.depth)) u
      (ph + bpp j.depth) (fun k hk => by have := List.mem_range.mp hk; omega) hok
    unfold State.disturbs at hd ⊢
    rw [hposted, hmid]
    exact ⟨hok', hd⟩

theorem State.SameBut.footprint (h : s.SameBut t) (j : Job) (px : List (Int × Int)) (a : Nat) :
    j.footprint t px a = j.footprint s px a := by
  unfold Job.footprint
  simp only [h.physAddr]

/-- A pixel takes what its source held before the copy, where no earlier pixel lies in the source byte and no later one in the
destination byte. -/
theorem Job.Copies.paint_renderRead (hj : j.Copies ox oy) (hov : ∀ a ph, ov a ph = false) (hok : s.cachesOk)
    (hk : k < bpp j.depth) (hpre : j.footprint s pre (j.sourcePlace ox oy s p + k) = false)
    (hpost : j.footprint s post (j.destPlace s p + k) = false)
    (hdest : s.disturbs (j.destPlace s p + k) = false) (hsource : s.disturbs (j.sourcePlace ox oy s p + k) = false) :
    (j.paint ov s (pre ++ p :: post)).renderRead (j.destPlace s p + k) = s.renderRead (j.sourcePlace ox oy s p + k) := by
  have hpix : j.paint ov s (pre ++ [p]) = j.paintPixel ov (j.paint ov s pre) p := List.foldl_concat ..
  have hall : j.paint ov s (pre ++ p :: post) = j.paint ov (j.paint ov s (pre ++ [p])) post := by simp [Job.paint]
  have hsame := paint_sameBut j ov pre s
  have hdestPlace : j.destPlace (j.paint ov s pre) p = j.destPlace s p := hsame.physAddr ..
  have hsourcePlace : j.sourcePlace ox oy (j.paint ov s pre) p = j.sourcePlace ox oy s p := hsame.physAddr ..
  obtain ⟨hokPre, hundisturbed⟩ := paint_undisturbed j ov pre hok hsource
  obtain ⟨hokPix, hundisturbed'⟩ := paint_undisturbed j ov (pre ++ [p]) hok hdest
  have hlater := paint_outside j ov post hokPix (by rwa [(paint_sameBut ..).footprint]) hundisturbed'
  have hpixel := hj.paintPixel_renderRead (p := p) hov hokPre hk (by rwa [hsourcePlace])
  rw [hdestPlace, hsourcePlace] at hpixel
  calc (j.paint ov s (pre ++ p :: post)).renderRead (j.destPlace s p + k)
    _ = (j.paint ov s (pre ++ [p])).renderRead (j.destPlace s p + k) := by rw [hall, hlater]
    _ = (j.paint ov s pre).renderRead (j.sourcePlace ox oy s p + k) := by rw [hpix, hpixel]
    _ = s.renderRead (j.sourcePlace ox oy s p + k) := paint_outside j ov pre hok hpre hsource

/-- A byte lies in no pixel of a job. -/
theorem footprint_eq_false_iff {a : Nat} :
    j.footprint s px a = false ↔ ∀ q ∈ px, ¬(j.destPlace s q ≤ a ∧ a < j.destPlace s q + bpp j.depth) := by
  simp [Job.footprint, Job.destPlace]

/-- A byte of a pixel inside its line of a linear surface lies in no other pixel there. -/
theorem footprint_linear_eq_false (hf : j.dst.tile = none) (hk : k < bpp j.depth) (hp : j.dst.InLine (bpp j.depth) p)
    (haddr : 0 ≤ j.dst.addr (bpp j.depth) p.1 p.2)
    (hpx : ∀ q ∈ px, q ≠ p ∧ j.dst.InLine (bpp j.depth) q ∧ (j.destPlace s q : Int) = j.dst.addr (bpp j.depth) q.1 q.2) :
    j.footprint s px ((j.dst.addr (bpp j.depth) p.1 p.2).toNat + k) = false := by
  rw [footprint_eq_false_iff]
  rintro q hq ⟨hlo, hhi⟩
  obtain ⟨hne, hline, hplace⟩ := hpx q hq
  exact hne (linear_byte_inj hf (i := (j.dst.addr (bpp j.depth) p.1 p.2).toNat + k - j.destPlace s q) hline hp (by omega) hk
    (by omega))

/-- Addresses in range map to themselves for operands of `n` bytes (R121, R150). -/
def State.MapsToItself (s : State) (n : Nat) : Prop :=
  ∀ (a : Int) (w : Bool) (use : Use), 0 ≤ a → a + n ≤ 0x100000000 → s.physAddr a n w use = a.toNat

/-- Loading registers moves no address. -/
theorem State.MapsToItself.br {n : Nat} (h : s.MapsToItself n) (b : Br) : ({ s with br := b } : State).MapsToItself n := by
  intro a w use h0 h32
  unfold State.physAddr
  rw [phys_br]
  exact h a w use h0 h32

/-- Such an access, where it reaches memory, reaches it at its address. -/
theorem State.MapsToItself.physAddr {a : Int} {n : Nat} {w : Bool} {use : Use} (hid : s.MapsToItself n)
    (h : (s.phys a n w use).isSome) : 0 ≤ a ∧ s.physAddr a n w use = a.toNat := by
  unfold State.phys at h
  split at h
  · rename_i hrange
    exact ⟨hrange.1, hid a w use hrange.1 hrange.2⟩
  · cases h

/-- Both places of a pixel that is ready to be copied are its addresses. -/
theorem Job.Copies.places (hj : j.Copies ox oy) (hready : j.ready s px) (hp : p ∈ px)
    (hid : s.MapsToItself (bpp j.depth)) :
    (0 ≤ j.dst.addr (bpp j.depth) p.1 p.2 ∧ j.destPlace s p = (j.dst.addr (bpp j.depth) p.1 p.2).toNat) ∧
    0 ≤ j.dst.addr (bpp j.depth) (p.1 + ox) (p.2 + oy) ∧
      j.sourcePlace ox oy s p = (j.dst.addr (bpp j.depth) (p.1 + ox) (p.2 + oy)).toNat := by
  have hpixel := List.all_eq_true.mp hready p hp
  simp only [Job.pixelReady, Job.sourceReady, Job.destOpen, hj.src, hj.usesSource, hj.writesBytes, Bool.true_or, Bool.not_true,
    Bool.false_or, Bool.and_eq_true] at hpixel
  obtain ⟨⟨⟨_, hsource, _⟩, _⟩, ⟨hdest, _⟩, _⟩ := hpixel
  exact ⟨hid.physAddr hdest, hid.physAddr hsource⟩

/-- An overlap that conforms leaves no byte open (R252, R486). -/
theorem overlapOf_conforming {conforming : Surface → Surface → Bool} (hj : j.Copies ox oy)
    (h : conforming j.dst j.dst = true) (px : List (Int × Int)) (s : State) (a ph : Nat) :
    overlapOf j conforming px s a ph = false := by
  simp [overlapOf, hj.src, h]

/-- A copy inside a linear surface, walked away from its source, leaves in each pixel what its source held before. -/
theorem Job.Copies.drawn_renderRead (hj : j.Copies ox oy) (hf : j.dst.tile = none) (hpitch : j.dst.pitch % 64 = 0)
    (hok : s.cachesOk) (hready : j.ready s px)
    (hwalk : px.Pairwise (WalksBefore (decide (ox < 0)) (decide (oy < 0))))
    (hline : ∀ p ∈ px, j.dst.InLine (bpp j.depth) p ∧ j.dst.InLine (bpp j.depth) (p.1 + ox, p.2 + oy))
    (hid : s.MapsToItself (bpp j.depth)) (hp : p ∈ px) (hk : k < bpp j.depth)
    (hdest : s.disturbs ((j.dst.addr (bpp j.depth) p.1 p.2).toNat + k) = false)
    (hsource : s.disturbs ((j.dst.addr (bpp j.depth) (p.1 + ox) (p.2 + oy)).toNat + k) = false) :
    (j.drawn px s).renderRead ((j.dst.addr (bpp j.depth) p.1 p.2).toNat + k) =
      s.renderRead ((j.dst.addr (bpp j.depth) (p.1 + ox) (p.2 + oy)).toNat + k) := by
  have hplaces := fun q (hq : q ∈ px) => hj.places hready hq hid
  obtain ⟨⟨hdest0, hdestPlace⟩, hsource0, hsourcePlace⟩ := hplaces p hp
  have hfree : ∀ q ∈ px, j.dst.InLine (bpp j.depth) q ∧ (j.destPlace s q : Int) = j.dst.addr (bpp j.depth) q.1 q.2 := by
    intro q hq
    obtain ⟨⟨h0, hplace⟩, _⟩ := hplaces q hq
    exact ⟨(hline q hq).1, by rw [hplace, Int.toNat_of_nonneg h0]⟩
  have hov := overlapOf_conforming hj (conforming := conformingXY) (by simp [conformingXY, hpitch]) px s
  unfold Job.drawn
  generalize overlapOf j conformingXY px s = ov at hov
  obtain ⟨pre, post, rfl⟩ := List.append_of_mem hp
  obtain ⟨hpre, hpost⟩ := ne_of_walk hwalk
  rw [← hdestPlace] at hdest ⊢
  rw [← hsourcePlace] at hsource ⊢
  refine hj.paint_renderRead hov hok hk ?_ ?_ hdest hsource
  · rw [hsourcePlace]
    exact footprint_linear_eq_false (p := (p.1 + ox, p.2 + oy)) hf hk (hline p hp).2 hsource0 fun q hq =>
      ⟨hpre q hq, hfree q (List.mem_append_left _ hq)⟩
  · rw [hdestPlace]
    exact footprint_linear_eq_false hf hk (hline p hp).1 hdest0 fun q hq =>
      ⟨hpost q hq, hfree q (List.mem_append_right _ (List.mem_cons_of_mem _ hq))⟩

/-- XY_SRC_COPY_BLT, where its job is legal and its accesses reach memory: registers are loaded, and the job is drawn (R330). -/
theorem exec_xySrcCopyBlt {d : Draw} {c : ColorSrc}
    (hj : j = { drawJob d s.regs.swctrl with src := copySource d.rect c s.regs.swctrl })
    (hlegal : j.legal (copyHeight d.rect c)) (hready : j.ready s (copyPixels d c s.setup)) (len : BitVec 8) :
    exec (.xySrcCopyBlt len d c) s = .next (j.drawn (copyPixels d c s.setup)
      { s with br := (s.br.withDraw .xySrcCopyBlt d 0 false false false).withSource c }) := by
  refine outcome_ok ?_
  rw [latchDraw_bind, latchSource_bind]
  exact runCopy_ok hj hlegal ((ready_br ..).trans hready)

/-- Settles O60: the job of the command copies inside its surface, and is walked away from its source. -/
theorem overlappingCopyIsSnapshot : Obligations.OverlappingCopyIsSnapshot := by
  unfold Obligations.OverlappingCopyIsSnapshot
  intro len d c s n pitch j px ox oy hd hc hbase hpitch _ hmod hrop hmask hfit hid hlegal hready hmem hrc hpast
  have hdst : j.dst = ⟨none, d.base.toNat, pitch⟩ := by simp [j, drawJob, xySurface, tileOf, hd, pitch]
  have hsrc : j.src = .color j.dst ox oy := by
    rw [hdst]
    simp [j, copySource_eq, xySurface, tileOf, hc, hbase, hpitch, pitch, ox, oy]
  have hj : j.Copies ox oy := ⟨hsrc, hrop, rfl, rfl, hmask⟩
  have hline : ∀ p ∈ px, j.dst.InLine n p ∧ j.dst.InLine n (p.1 + ox, p.2 + oy) := by
    intro p hp
    obtain ⟨hdest, hsource⟩ := nonneg_of_mem_copyPixels hp
    obtain ⟨hdest', hsource'⟩ := hfit p hp
    rw [hdst]
    exact ⟨⟨hdest, hdest'⟩, hsource, hsource'⟩
  refine ⟨_, exec_xySrcCopyBlt rfl hlegal hready len, fun p hp k hk => ?_⟩
  have hread := hj.drawn_renderRead (s := { s with br := (s.br.withDraw .xySrcCopyBlt d 0 false false false).withSource c })
    (by rw [hdst]) (by rw [hdst]; exact hmod) ⟨hmem, hrc, hpast⟩ ((ready_br ..).trans hready)
    (copyPixels_pairwise hbase s.setup) hline (State.MapsToItself.br hid _) hp hk
  rw [hdst] at hread
  exact hread

end Sys2Proof.Machine
end

section
/-! PROOFS. The linear commands (R280, R281): registers are loaded, the checks pass, and the job is drawn. -/

namespace Sys2Proof.Machine

/-! ## The X Direction in BR13 -/

/-- Depth, raster operation and pitch end below bit 30 (R38). -/
theorem bit_penWord_thirty (pen : Pen) : bit (penWord pen) 30 = false := by
  unfold penWord
  rw [bit_put_other _ _ _ _ (by decide), bit_put_other _ _ _ _ (by decide), bit_put_other _ _ _ _ (by decide), bit_zero]

/-- Bit 30 of BR13 or BR01 is the flag put there, and no other operand of DWord 1 reaches it (R38). -/
theorem bit_latchPen_thirty (pen : Pen) (mask : BitVec 2) (solid flag srcTransp patTransp : Bool) :
    bit (latchPen pen mask solid flag srcTransp patTransp) 30 = flag := by
  unfold latchPen
  rw [bit_putBit_other _ _ _ _ (by decide), bit_putBit_other _ _ _ _ (by decide), bit_putBit_same _ _ _ (by decide),
    bit_putBit_other _ _ _ _ (by decide), bit_put_other _ _ _ _ (by decide), bit_penWord_thirty, Bool.false_or]

/-! ## The two commands -/

/-- Settles O1: the registers are loaded, which moves no access, and the legal job is drawn. -/
theorem colorBltDraws : Obligations.ColorBltDraws := by
  unfold Obligations.ColorBltDraws
  intro len mask pen height width dst color s j px hwidth hdst hpitch hlegal hready
  refine outcome_ok ?_
  rw [latchLinear_bind, run_onBr_bind]
  simp only
  rw [require_bind (by simp [hwidth, hdst, hpitch])]
  exact drawLinear_ok hlegal ((ready_br ..).trans hready)

/-- Settles O2: as the fill, with the two checks of the source; the X Direction is the flag at bit 30 of DWord 1. -/
theorem srcCopyBltDraws : Obligations.SrcCopyBltDraws := by
  unfold Obligations.SrcCopyBltDraws
  intro len mask xdir pen height width dst spitch src s back j px hpitch hsource hlegal hready
  refine ⟨outcome_ok ?_, bit_latchPen_thirty ..⟩
  have haligned : (height == 0 || width == 0 || (src.toNat - back) % bpp pen.depth == 0) = true := by
    simpa [or_assoc] using hsource
  rw [latchLinear_bind, run_onBr_bind, require_bind (by simpa using hpitch), require_bind haligned]
  exact drawLinear_ok hlegal ((ready_br ..).trans hready)

end Sys2Proof.Machine
end

section
/-! PROOFS. Sample words (R280, R292, R316, R330, R352, R376, R378), by the round trip of the decoder. -/

namespace Sys2Proof

/-- DWords that are the encoding of a well-formed command decode to it. -/
theorem decode_of_encode_eq {ws : List Word} {i : Instr} (hwf : i.wf) (h : encode i = ws) : decode ws = .ok i :=
  h ▸ decodeOfEncode i hwf

/-- Settles O37: each sample is the encoding of its command. -/
theorem sampleWordsDecode : Obligations.SampleWordsDecode := by
  unfold Obligations.SampleWordsDecode
  and_intros
  all_goals exact decode_of_encode_eq rfl rfl

end Sys2Proof
end

section
/-! PROOFS. The setup commands and the commands that draw from the setup set (R290 to R296): the first load it and stop there; the
others load the engine's registers alone, so that the job the setup set describes and its accesses are those of the start. -/

namespace Sys2Proof.Machine

/-! ## Loading the setup set -/

/-- Loading BR00 and then a part of the setup set completes in every state, and does nothing else. -/
theorem latchPlain_onSetup_outcome (o : Op) (mask : BitVec 2) (tiled clips : Bool) (f : Setup → Setup) (s : State) :
    M.outcome (latchPlain o mask tiled clips >>= fun _ => onSetup f) s = .next { s with
      br := { s.br with br00 := { br00Of o clips false with mask := mask, dstTiled := tiled } }
      setup := f s.setup } := rfl

/-- Settles O3: each of the three loads BR00 and then its part of the setup set, with no check on the way. -/
theorem setupLoads : Obligations.SetupLoads := by
  unfold Obligations.SetupLoads
  refine ⟨?setup, ?monoPattern, ?clip⟩
  case setup =>
    intros
    simp only [exec, execXySetupBlt]
    exact latchPlain_onSetup_outcome ..
  case monoPattern =>
    intros
    simp only [exec, execXySetupMonoPatternSlBlt]
    exact latchPlain_onSetup_outcome ..
  case clip =>
    intros
    simp only [exec, execXySetupClipBlt]
    exact latchPlain_onSetup_outcome ..

/-! ## Drawing from the setup set -/

/-- `drawDependent` once the engine's registers are loaded: the job comes from the setup set, which has not changed, and the load
moves no access. -/
theorem drawDependent_loaded {tiled : Bool} {box : Box} {f : Setup → Job → Job} {s : State} {j : Job} (b : Br)
    (hj : j = f s.setup (setupJob s.setup s.regs.swctrl tiled)) (hlegal : j.legal (box.bottom - box.top).toNat)
    (hready : j.ready s (drawnPixels box (clipOf s.setup (bit s.setup.br01 30)) false false)) :
    drawDependent tiled box f { s with br := b } = .ok (⟨⟩, j.drawn
      (drawnPixels box (clipOf s.setup (bit s.setup.br01 30)) false false) { s with br := b }) :=
  drawDependent_ok hj hlegal ((ready_br ..).trans hready)

/-- A colour pattern on a boundary of its size passes the check, and a monochrome one is not checked (R40, M4). -/
theorem checkPattern_unless_mono {mono : Bool} {w : Word} {n : Nat} {s : State} (h : mono ∨ patAddr w % (64 * n) = 0) :
    onlyIf (!mono) (checkPattern w n) s = .ok (⟨⟩, s) := by
  cases mono with
  | true => rfl
  | false => exact require_ok (by simpa using h)

/-- Settles O4: the pitch is not negative, and the rectangle of the one pixel is one line high. -/
theorem xyPixelBltDraws : Obligations.XyPixelBltDraws := by
  unfold Obligations.XyPixelBltDraws
  intro len tiled x y s j px hpitch hlegal hready
  have hheight : (y.toInt + 1 - y.toInt).toNat = 1 := by omega
  refine outcome_ok ?_
  rw [latchDependent_bind, run_onBr_bind, require_bind (by simpa using hpitch)]
  exact drawDependent_loaded _ rfl (by rw [hheight]; exact hlegal) hready

/-- Settles O5: the pattern passes its check, whichever kind the setup set holds. -/
theorem xyScanlinesBltDraws : Obligations.XyScanlinesBltDraws := by
  unfold Obligations.XyScanlinesBltDraws
  intro len tiled seeds r s j px hpattern hlegal hready
  refine outcome_ok ?_
  rw [latchDependent_bind, latchRect_bind, latchSeeds_bind, run_onBr_bind, bind_ok (checkPattern_unless_mono hpattern)]
  exact drawDependent_loaded _ rfl hlegal hready

/-- Settles O6: neither form checks more than its job; the one with its source in memory also loads BR12. -/
theorem xyTextDraws : Obligations.XyTextDraws := by
  unfold Obligations.XyTextDraws
  refine ⟨?memory, ?immediate⟩
  case memory =>
    intro len tiled packed r src s j px hlegal hready
    refine outcome_ok ?_
    rw [latchDependent_bind, latchRect_bind, run_onBr_bind]
    exact drawDependent_loaded _ rfl hlegal hready
  case immediate =>
    intro len tiled packed r data s j px hlegal hready
    refine outcome_ok ?_
    rw [latchDependent_bind, latchRect_bind]
    exact drawDependent_loaded _ rfl hlegal hready

end Sys2Proof.Machine
end

section
/-! PROOFS. XY commands with a pattern and no source (R310 to R316): registers are loaded, the checks pass, and the job is drawn
where the command's rectangle and clip say. -/

namespace Sys2Proof.Machine

/-- `runDraw` once the engine's registers are loaded, which moves no access. -/
theorem runDraw_loaded {d : Draw} {f : Word → Job} {s : State} (b : Br) (hlegal : (f s.regs.swctrl).legal (rectHeight d.rect))
    (hready : (f s.regs.swctrl).ready s (drawnPixels (rectBox d.rect) (clipOf s.setup d.clip) false false)) :
    runDraw d f { s with br := b } = .ok (⟨⟩, (f s.regs.swctrl).drawn
      (drawnPixels (rectBox d.rect) (clipOf s.setup d.clip) false false) { s with br := b }) :=
  runDraw_ok hlegal ((ready_br ..).trans hready)

/-- `runDraw` once a monochrome pattern is loaded too: of the setup set only BR20S and BR21S change, which no clip rectangle
depends on (R22, D3). -/
theorem runDraw_patternLoaded {d : Draw} {f : Word → Job} {s : State} (b : Br)
    (hlegal : (f s.regs.swctrl).legal (rectHeight d.rect))
    (hready : (f s.regs.swctrl).ready s (drawnPixels (rectBox d.rect) (clipOf s.setup d.clip) false false)) :
    runDraw d f (State.patternLoaded { s with br := b }) = .ok (⟨⟩, (f s.regs.swctrl).drawn
      (drawnPixels (rectBox d.rect) (clipOf s.setup d.clip) false false) (State.patternLoaded { s with br := b })) :=
  runDraw_ok hlegal ((ready_patternLoaded ..).trans ((ready_br ..).trans hready))

/-- A colour pattern on a boundary of its size passes the check (R40, M4). -/
theorem checkPattern_bind {β : Type} {w : Word} {n : Nat} {f : PUnit → M β} {s : State} (h : patAddr w % (64 * n) = 0) :
    (checkPattern w n >>= f) s = f ⟨⟩ s := require_bind (beq_iff_eq.mpr h)

/-- A range mode that selects no source range passes the check (R312, E5). -/
theorem checkPatMode_bind {β : Type} {mode : BitVec 3} {f : PUnit → M β} {s : State} (h : chromaPatModeOk mode) :
    (checkPatMode mode >>= f) s = f ⟨⟩ s := require_bind h

/-- Settles O7: the command checks no more than its job. -/
theorem xyColorBltDraws : Obligations.XyColorBltDraws := by
  unfold Obligations.XyColorBltDraws
  intro len d color s j px hlegal hready
  refine outcome_ok ?_
  rw [latchDraw_bind, run_onBr_bind]
  exact runDraw_loaded _ hlegal hready

/-- Settles O8: the pattern lies on its boundary, and the mode of the second form selects no source range. -/
theorem xyPatternMemoryDraws : Obligations.XyPatternMemoryDraws := by
  unfold Obligations.XyPatternMemoryDraws
  refine ⟨?plain, ?chroma⟩
  case plain =>
    intro len d seeds pat s j px hpattern hlegal hready
    refine outcome_ok ?_
    rw [latchDraw_bind, latchSeeds_bind, run_onBr_bind, checkPattern_bind hpattern]
    exact runDraw_loaded _ hlegal hready
  case chroma =>
    intro len d mode seeds pat lo hi s j px hmode hpattern hlegal hready
    refine outcome_ok ?_
    rw [latchDraw_bind, latchSeeds_bind, run_onBr_bind, latchKey_bind, checkPatMode_bind hmode, checkPattern_bind hpattern]
    exact runDraw_loaded _ hlegal hready

/-- Settles O9: the pattern is in the command and is not checked apart from the job; the mode of the second form is. -/
theorem xyPatternImmediateDraws : Obligations.XyPatternImmediateDraws := by
  unfold Obligations.XyPatternImmediateDraws
  refine ⟨?plain, ?chroma⟩
  case plain =>
    intro len d seeds data s j px hlegal hready
    refine outcome_ok ?_
    rw [latchDraw_bind, latchSeeds_bind]
    exact runDraw_loaded _ hlegal hready
  case chroma =>
    intro len d mode seeds lo hi data s j px hmode hlegal hready
    refine outcome_ok ?_
    rw [latchDraw_bind, latchSeeds_bind, latchKey_bind, checkPatMode_bind hmode]
    exact runDraw_loaded _ hlegal hready

/-- Settles O10: a pattern from the command is loaded with BR20S and BR21S left open; a fixed one is one of the ten. -/
theorem xyMonoPatternDraws : Obligations.XyMonoPatternDraws := by
  unfold Obligations.XyMonoPatternDraws
  refine ⟨?loaded, ?fixed⟩
  case loaded =>
    intro len d transp seeds bg fg p0 p1 s j px hlegal hready
    refine outcome_ok ?_
    rw [latchDraw_bind, latchSeeds_bind, run_onBr_bind, latchMonoPattern_bind]
    exact runDraw_patternLoaded _ hlegal hready
  case fixed =>
    intro len d transp fixed seeds bg fg s j px hfixed hlegal hready
    refine outcome_ok ?_
    rw [latchDraw_bind, latchSeeds_bind, run_onBr_bind, require_bind hfixed]
    exact runDraw_loaded _ hlegal hready

end Sys2Proof.Machine
end

section
/-! PROOFS. A solid fill (R310, R222, R241): places of pixels in a linear surface are multiples of the pixel's size, so pixels
that share a byte share all of them, and a byte takes the colour's byte at its place in the pixel whichever of them it lies in. -/

namespace Sys2Proof.Machine

variable {s t : State}

/-! ## Where pixels begin -/

/-- Translation keeps the place inside the page (R150). -/
theorem translate_addr_mod {u : TlbUnit} {sp : Space} {a : Nat} {w : Bool} {use : Use} {q : Phys}
    (h : s.translate u sp a w use = .ok q) : q.addr % 4096 = a % 4096 := by
  have hentry : ∀ e : PageEntry, (match e.meaning w with
      | some (frame, cacheable) => Except.ok (⟨frame * 4096 + a % 4096, cacheable⟩ : Phys)
      | none => .error XlatFault.page) = .ok q → q.addr % 4096 = a % 4096 := by
    intro e he
    split at he
    · cases he
      simp
    · cases he
  unfold State.translate at h
  simp only at h
  split at h
  · exact hentry _ h
  · split at h
    · cases h
    · exact hentry _ h

/-- So what is aligned to a size that divides a page stays so in memory (R126, R150). -/
theorem dvd_physAddr {a : Int} {n : Nat} {w : Bool} {use : Use} (hn : n ∣ 4096) (ha : (n : Int) ∣ a) :
    n ∣ s.physAddr a n w use := by
  unfold State.physAddr
  cases hq : s.phys a n w use with
  | none => exact dvd_zero n
  | some q =>
    unfold State.phys at hq
    split at hq
    · rename_i hrange
      have htr : s.translate .blb s.engine.space a.toNat w use = .ok q := by
        cases h : s.translate .blb s.engine.space a.toNat w use <;> simp_all [Except.toOption]
      have hnat : n ∣ a.toNat := by
        rw [← Int.natCast_dvd_natCast, Int.toNat_of_nonneg hrange.1]
        exact ha
      have hmod : n ∣ q.addr % 4096 := translate_addr_mod htr ▸ (Nat.dvd_mod_iff hn).mpr hnat
      exact (Nat.dvd_mod_iff hn).mp hmod
    · cases hq

theorem bpp_dvd_four (d : Depth) : bpp d ∣ 4 := by cases d <;> decide

/-- The pixels of a legal linear surface are aligned to their size (R126, R251). -/
theorem Surface.dvd_addr_of_legal {f : Surface} {d : Depth} (h : f.legal (bpp d)) (hf : f.tile = none) (x y : Int) :
    (bpp d : Int) ∣ f.addr (bpp d) x y := by
  simp only [Surface.legal, hf, Bool.and_eq_true, beq_iff_eq] at h
  obtain ⟨hbase, hpitch⟩ := h
  have hline : (bpp d : Int) ∣ f.pitch :=
    (Int.natCast_dvd_natCast.mpr (bpp_dvd_four d)).trans (Int.dvd_of_emod_eq_zero hpitch)
  simp only [Surface.addr, hf]
  exact ((Int.dvd_of_emod_eq_zero hbase).add (hline.mul_left y)).add (dvd_mul_left ..)

/-! ## One pixel -/

/-- Raster operation F0h copies the pattern (R222). -/
theorem rop3_pattern (p s d : Word) : rop3 0xF0 p s d = p := by
  refine BitVec.eq_of_getLsbD_eq fun i hi => ?_
  rw [rop3_getLsbD _ _ _ _ hi]
  cases p.getLsbD i <;> cases s.getLsbD i <;> cases d.getLsbD i <;> rfl

/-- Of a pixel of `n` bytes that no overlap leaves open, the enabled bytes become the result's, and nothing else changes (R241). -/
theorem putPixel_renderRead {ov : Nat → Nat → Bool} (hov : ∀ a ph, ov a ph = false) (a ph : Nat) (en : Nat → Bool) (v : Word)
    (n x : Nat) (hok : s.cachesOk) : (putPixel ov a ph en v (List.range n) s).renderRead x =
      if (ph ≤ x ∧ x < ph + n) ∧ en (x - ph) then byteOf v (x - ph) else s.renderRead x := by
  by_cases hx : ph ≤ x ∧ x < ph + n
  · obtain ⟨k, rfl⟩ := Nat.exists_eq_add_of_le hx.1
    rw [Nat.add_sub_cancel_left]
    cases he : en k with
    | false => simpa using putPixel_renderRead_masked ov a ph v he _ s
    | true =>
      obtain ⟨u, hu⟩ := putPixel_renderRead_enabled ov a ph v he (List.range n) s (.inl (List.mem_range.mpr (by omega)))
      rw [hu, pixelByte, hov, if_neg Bool.false_ne_true, if_pos ⟨hx, rfl⟩]
  · rw [if_neg fun h => hx h.1]
    refine (putPixel_keeps ov a ph en v _ s x (fun k hk hkx => hx ?_) hok).2.1
    have := List.mem_range.mp hk
    omega

/-- The job fills its destination surface, which is linear, with one colour (R310). -/
structure Job.Fills (j : Job) (color : Word) : Prop where
  pat : j.pat = .solid color
  src : j.src = .absent
  rop : j.rop = 0xF0
  mode : j.mode = 0
  linear : j.dst.tile = none
  aligned : j.dst.legal (bpp j.depth)

variable {j : Job} {color : Word} {ov : Nat → Nat → Bool} {px : List (Int × Int)} {p : Int × Int} {a : Nat}

theorem Job.Fills.dvd_destPlace (hj : j.Fills color) (s : State) (p : Int × Int) : bpp j.depth ∣ j.destPlace s p :=
  dvd_physAddr ((bpp_dvd_four _).trans (by decide)) (Surface.dvd_addr_of_legal hj.aligned hj.linear p.1 p.2)

/-- A byte of a pixel lies there at its place modulo the pixel's size. -/
theorem Job.Fills.sub_destPlace (hj : j.Fills color) (h : j.destPlace s p ≤ a ∧ a < j.destPlace s p + bpp j.depth) :
    a - j.destPlace s p = a % bpp j.depth := by
  obtain ⟨k, rfl⟩ := Nat.exists_eq_add_of_le h.1
  rw [Nat.add_sub_cancel_left, Nat.add_mod, Nat.mod_eq_zero_of_dvd (hj.dvd_destPlace s p), Nat.zero_add, Nat.mod_mod,
    Nat.mod_eq_of_lt (by omega)]

/-- Every pixel of a fill becomes the colour (R222, R255). -/
theorem Job.Fills.result (hj : j.Fills color) (s : State) (p : Int × Int) :
    j.enabledAt s p.1 p.2 = true ∧ j.resultAt s p.1 p.2 = color := by
  have hpattern : j.patternAt s p.1 p.2 = (color, true) := by simp [Job.patternAt, hj.pat]
  have hsource : ∀ t, j.sourceAt t p.1 p.2 = (0, true) := fun t => by simp [Job.sourceAt, hj.src]
  constructor
  · simp [Job.enabledAt, Job.operandsAt, hpattern, hsource, rangeEnable, sourceMode, destMode, hj.mode]
  · simp only [Job.resultAt, Job.operandsAt, hpattern, hj.rop, rop3_pattern]

/-- Reading the operands of a pixel keeps what a BLT reads of an undisturbed byte. -/
theorem noted_byteKept (j : Job) (x y : Int) (hok : s.cachesOk) (hd : s.disturbs a = false) :
    s.ByteKept a (j.noted s x y) :=
  noted_keeps (fun _ b w use h => h.reached b w use) (fun _ l h => h.noteTexture l) j x y ⟨.refl s, hok, hd, rfl⟩

/-- Whether a byte lies in a pixel of the region, and the mask enables its place there. -/
def Job.reaches (j : Job) (s : State) (px : List (Int × Int)) (a : Nat) : Bool :=
  j.footprint s px a && byteEnable j.depth j.mask (a % bpp j.depth)

theorem Job.reaches_cons (j : Job) (s : State) (p : Int × Int) (px : List (Int × Int)) (a : Nat) :
    j.reaches s (p :: px) a = (j.reaches s [p] a || j.reaches s px a) := by
  simp [Job.reaches, Job.footprint, Bool.and_or_distrib_right]

/-- A fill that reaches a byte has an enabled byte to write (R241). -/
theorem Job.writesBytes_of_reaches (h : j.reaches s px a) : j.writesBytes :=
  List.any_eq_true.mpr ⟨a % bpp j.depth, List.mem_range.mpr (Nat.mod_lt _ (bpp_pos _)), (Bool.and_eq_true_iff.mp h).2⟩

/-- One pixel of a fill: an undisturbed byte takes the colour where the pixel reaches it, and keeps its value elsewhere. -/
theorem Job.Fills.paintPixel_renderRead (hj : j.Fills color) (hov : ∀ a ph, ov a ph = false) (hok : s.cachesOk)
    (hd : s.disturbs a = false) : (j.paintPixel ov s p).renderRead a =
      if j.reaches s [p] a then byteOf color (a % bpp j.depth) else s.renderRead a := by
  obtain ⟨hen, hres⟩ := hj.result s p
  have hkept := noted_byteKept j p.1 p.2 hok hd
  cases hw : j.writesBytes with
  | false =>
    rw [if_neg fun h => by simp [Job.writesBytes_of_reaches h] at hw]
    simp only [Job.paintPixel, hw, Bool.and_false, Bool.false_eq_true, if_false]
    obtain ⟨_, _, _, hread⟩ := hkept
    exact hread
  | true =>
    obtain ⟨_, hok', _, hread⟩ := hkept.reached (j.dst.addr (bpp j.depth) p.1 p.2) true (.dest p.1 p.2)
    simp only [Job.paintPixel, hen, hw, hres, Bool.and_self, if_true]
    rw [putPixel_renderRead hov _ _ _ _ _ _ hok', hread]
    by_cases hin : j.destPlace s p ≤ a ∧ a < j.destPlace s p + bpp j.depth
    · have hplace := hj.sub_destPlace hin
      unfold Job.destPlace at hin hplace
      simp [Job.reaches, Job.footprint, hin, hplace]
    · unfold Job.destPlace at hin
      simp [Job.reaches, Job.footprint, hin]

/-! ## All the pixels -/

theorem State.SameBut.reaches (h : s.SameBut t) (j : Job) (px : List (Int × Int)) (a : Nat) :
    j.reaches t px a = j.reaches s px a := by
  unfold Job.reaches
  rw [h.footprint]

/-- A fill gives the colour to the undisturbed bytes that it reaches, and keeps every other one. -/
theorem Job.Fills.paint_renderRead (hj : j.Fills color) (hov : ∀ a ph, ov a ph = false) (px : List (Int × Int))
    (hok : s.cachesOk) (hd : s.disturbs a = false) : (j.paint ov s px).renderRead a =
      if j.reaches s px a then byteOf color (a % bpp j.depth) else s.renderRead a := by
  induction px generalizing s with
  | nil => simp [Job.paint, Job.reaches, Job.footprint]
  | cons p px ih =>
    obtain ⟨hok', hd'⟩ := paint_undisturbed j ov [p] hok hd
    calc (j.paint ov s (p :: px)).renderRead a
      _ = (j.paint ov (j.paint ov s [p]) px).renderRead a := rfl
      _ = if j.reaches s px a then byteOf color (a % bpp j.depth)
          else if j.reaches s [p] a then byteOf color (a % bpp j.depth) else s.renderRead a := by
        rw [ih hok' hd', (paint_sameBut ..).reaches]
        exact congrArg (ite _ _) (hj.paintPixel_renderRead hov hok hd)
      _ = _ := by
        rw [j.reaches_cons s p px]
        cases j.reaches s px a <;> simp

/-- Loading registers moves no pixel. -/
theorem Job.reaches_br (j : Job) (s : State) (b : Br) (px : List (Int × Int)) (a : Nat) :
    j.reaches { s with br := b } px a = j.reaches s px a := by
  unfold Job.reaches Job.footprint State.physAddr
  simp only [phys_br]

/-- The fill drawn once registers are loaded; it reads no source, so no overlap leaves a byte open (R486). -/
theorem Job.Fills.drawn_renderRead (hj : j.Fills color) (px : List (Int × Int)) (b : Br) (hok : s.cachesOk)
    (hd : s.disturbs a = false) : (j.drawn px { s with br := b }).renderRead a =
      if j.reaches s px a then byteOf color (a % bpp j.depth) else s.renderRead a := by
  rw [← j.reaches_br s b px]
  exact hj.paint_renderRead (fun _ _ => by simp [overlapOf, hj.src]) px hok hd

/-- An enabled byte of a pixel of the region is reached, and a masked one is not. -/
theorem Job.Fills.reaches_destPlace (hj : j.Fills color) (hp : p ∈ px) {k : Nat} (hk : k < bpp j.depth) :
    (j.destPlace s p + k) % bpp j.depth = k ∧ j.reaches s px (j.destPlace s p + k) = byteEnable j.depth j.mask k := by
  have hplace : (j.destPlace s p + k) % bpp j.depth = k := by
    rw [← hj.sub_destPlace (s := s) (p := p) (by omega), Nat.add_sub_cancel_left]
  have hin : j.footprint s px (j.destPlace s p + k) = true := by
    rw [← Bool.not_eq_false, footprint_eq_false_iff]
    exact fun h => h p hp (by omega)
  exact ⟨hplace, by rw [Job.reaches, hin, hplace, Bool.true_and]⟩

/-- Settles O59: the job of the command fills its surface; loading the registers moves neither its pixels nor their bytes. -/
theorem fillPaintsRegion : Obligations.FillPaintsRegion := by
  unfold Obligations.FillPaintsRegion
  intro len d color s n j px htile hrop hlegal hready hmem hrc hpast
  have hdst : j.dst = ⟨none, d.base.toNat, d.pen.pitch.toInt⟩ := by simp [j, drawJob, xySurface, tileOf, htile]
  have hj : j.Fills color := by
    have hl := hlegal
    simp only [Job.legal, Bool.and_eq_true] at hl
    obtain ⟨⟨⟨⟨_, haligned⟩, _⟩, _⟩, _⟩ := hl
    exact ⟨rfl, rfl, hrop, rfl, by rw [hdst], haligned⟩
  refine ⟨_, xyColorBltDraws len d color s hlegal hready, ?pixel, ?outside⟩
  case pixel =>
    intro p hp k hk a hd
    have ha : a = j.destPlace s p := by
      unfold Job.destPlace
      rw [hdst]
      rfl
    obtain ⟨hplace, hreach⟩ := hj.reaches_destPlace (s := s) hp hk
    rw [← ha] at hplace hreach
    rw [hj.drawn_renderRead px _ ⟨hmem, hrc, hpast⟩ hd, hreach, hplace]
    rfl
  case outside =>
    intro a hf hd
    rw [hj.drawn_renderRead px _ ⟨hmem, hrc, hpast⟩ hd, Job.reaches, hf]
    rfl

end Sys2Proof.Machine
end

section
/-! PROOFS. XY commands with a source and no pattern (R330 to R333): registers are loaded, and the job is drawn, a copy in the
direction of R252 and a monochrome source always forward. None of the four checks more than its job. -/

namespace Sys2Proof.Machine

/-- `runCopy` once the engine's registers are loaded: the job does not depend on them, and the load moves no access. -/
theorem runCopy_loaded {d : Draw} {c : ColorSrc} {f : Word → Job} {s : State} {j : Job} (b : Br)
    (hj : j = { f s.regs.swctrl with src := copySource d.rect c s.regs.swctrl }) (hlegal : j.legal (copyHeight d.rect c))
    (hready : j.ready s (copyPixels d c s.setup)) :
    runCopy d c f { s with br := b } = .ok (⟨⟩, j.drawn (copyPixels d c s.setup) { s with br := b }) :=
  runCopy_ok hj hlegal ((ready_br ..).trans hready)

/-- Settles O11: the plain copy is `exec_xySrcCopyBlt`; the second form also loads the key range, and its mode and range are
part of its job. -/
theorem xySourceCopyDraws : Obligations.XySourceCopyDraws := by
  unfold Obligations.XySourceCopyDraws
  refine ⟨?plain, ?chroma⟩
  case plain =>
    intro len d c s j px hlegal hready
    exact exec_xySrcCopyBlt rfl hlegal hready len
  case chroma =>
    intro len d mode c lo hi s j px hlegal hready
    refine outcome_ok ?_
    rw [latchDraw_bind, latchSource_bind, run_onBr_bind]
    exact runCopy_loaded _ rfl hlegal hready

/-- Settles O12: the two forms load the same registers, but for BR12, which only the one with its source in memory loads; the
amount of immediate data is part of the legality of the job (R137). -/
theorem xyMonoSourceDraws : Obligations.XyMonoSourceDraws := by
  unfold Obligations.XyMonoSourceDraws
  refine ⟨?memory, ?immediate⟩
  case memory =>
    intro len d transp start src bg fg s j px hlegal hready
    refine outcome_ok ?_
    rw [latchDraw_bind, latchStart_bind, run_onBr_bind]
    exact runDraw_loaded _ hlegal hready
  case immediate =>
    intro len d transp start bg fg data s j px hlegal hready
    refine outcome_ok ?_
    rw [latchDraw_bind, latchStart_bind, run_onBr_bind]
    exact runDraw_loaded _ hlegal hready

end Sys2Proof.Machine
end

section
/-! PROOFS. XY full commands (R350 to R355): a source and a pattern at once. Registers are loaded, a colour pattern in memory
passes its check, and the job is drawn, a copy in the direction of R252 and a monochrome source always forward. -/

namespace Sys2Proof.Machine

/-! ## A monochrome pattern of the command's own -/

/-- `runCopy` once a monochrome pattern is loaded too: neither its direction nor its clip rectangle depends on BR20S and BR21S
(R22, D3). -/
theorem runCopy_patternLoaded {d : Draw} {c : ColorSrc} {f : Word → Job} {s : State} {j : Job} (b : Br)
    (hj : j = { f s.regs.swctrl with src := copySource d.rect c s.regs.swctrl }) (hlegal : j.legal (copyHeight d.rect c))
    (hready : j.ready s (copyPixels d c s.setup)) :
    runCopy d c f (State.patternLoaded { s with br := b }) = .ok (⟨⟩, j.drawn (copyPixels d c s.setup)
      (State.patternLoaded { s with br := b })) :=
  runCopy_ok hj hlegal ((ready_patternLoaded ..).trans ((ready_br ..).trans hready))

variable {solid transp : Bool} {m : M Unit}

/-- A solid pattern that is transparent ends the command before it draws (R227). -/
theorem run_ite_of_blank (hsolid : solid) (htransp : transp) (s : State) :
    (if solid && transp then pure () else m) s = .ok (⟨⟩, s) := by
  rw [if_pos (by rw [hsolid, htransp]; rfl), run_pure]

/-- Any other pattern lets the command draw. -/
theorem run_ite_of_not_blank (h : ¬(solid ∧ transp)) {s t : State} (hm : m s = .ok (⟨⟩, t)) :
    (if solid && transp then pure () else m) s = .ok (⟨⟩, t) := by
  rwa [if_neg (by rwa [Bool.and_eq_true])]

/-! ## The commands -/

/-- Settles O13: only a pattern in memory is checked apart from the job, and the immediate form loads 0 for the vertical seed. -/
theorem xyFullColorDraws : Obligations.XyFullColorDraws := by
  unfold Obligations.XyFullColorDraws
  refine ⟨?memory, ?immediate⟩
  case memory =>
    intro len d seeds c pat s j px hpattern hlegal hready
    refine outcome_ok ?_
    rw [latchDraw_bind, latchSeeds_bind, latchSource_bind, run_onBr_bind, checkPattern_bind hpattern]
    exact runCopy_loaded _ rfl hlegal hready
  case immediate =>
    intro len d hseed c data s j px hlegal hready
    refine outcome_ok ?_
    rw [latchDraw_bind, latchSeeds_bind, latchSource_bind]
    exact runCopy_loaded _ rfl hlegal hready

/-- Settles O14: as with a colour source, but the source is an operand of the job alone, and the direction is always forward. -/
theorem xyFullMonoSourceDraws : Obligations.XyFullMonoSourceDraws := by
  unfold Obligations.XyFullMonoSourceDraws
  refine ⟨?memory, ?immediate⟩
  case memory =>
    intro len d transp start seeds src bg fg pat s j px hpattern hlegal hready
    refine outcome_ok ?_
    rw [latchDraw_bind, latchSeeds_bind, latchStart_bind, run_onBr_bind, checkPattern_bind hpattern]
    exact runDraw_loaded _ hlegal hready
  case immediate =>
    intro len d transp start hseed src bg fg data s j px hlegal hready
    refine outcome_ok ?_
    rw [latchDraw_bind, latchSeeds_bind, latchStart_bind, run_onBr_bind]
    exact runDraw_loaded _ hlegal hready

/-- Settles O15: both forms load the pattern with BR20S and BR21S left open; the one with a monochrome source checks the pitch
before it looks at a solid, transparent pattern. -/
theorem xyFullMonoPatternDraws : Obligations.XyFullMonoPatternDraws := by
  unfold Obligations.XyFullMonoPatternDraws
  refine ⟨?colorSource, ?monoSource⟩
  case colorSource =>
    intro len d solid transp seeds c bg fg p0 p1 s j px t
    refine ⟨fun hsolid htransp => outcome_ok ?blank, fun hnot hlegal hready => outcome_ok ?drawn⟩ <;>
      rw [latchDraw_bind, latchSeeds_bind, latchSource_bind, run_onBr_bind, latchMonoPattern_bind]
    case blank => exact run_ite_of_blank hsolid htransp t
    case drawn => exact run_ite_of_not_blank hnot (runCopy_patternLoaded _ rfl hlegal hready)
  case monoSource =>
    intro len d solid stransp ptransp start seeds src sbg sfg pbg pfg p0 p1 s j px t
    refine ⟨fun hsolid htransp hpitch => outcome_ok ?blank, fun hnot hpitch hlegal hready => outcome_ok ?drawn⟩ <;>
      rw [latchDraw_bind, latchSeeds_bind, latchStart_bind, run_onBr_bind, latchMonoPattern_bind,
        require_bind (decide_eq_true hpitch)]
    case blank => exact run_ite_of_blank hsolid htransp t
    case drawn => exact run_ite_of_not_blank hnot (runDraw_patternLoaded _ hlegal hready)

end Sys2Proof.Machine
end

section
/-! PROOFS. What an MI command leaves alone that it then uses: the advance of `pc`, a status write and a posted write move no
translation, and the head report (R377). -/

namespace Sys2Proof.Machine

variable {s : State} {n : Nat}

/-! ## What the advance of `pc` leaves alone -/

@[simp] theorem Regs.moved_miMode (r : Regs) (n : Nat) : (r.moved n).miMode = r.miMode := by
  unfold Regs.moved Regs.uhptrCheck
  split <;> rfl

@[simp] theorem State.advanced_miMode (s : State) (n : Nat) : (s.advanced n).regs.miMode = s.regs.miMode := by
  unfold State.advanced
  split
  · rfl
  · exact Regs.moved_miMode _ _

@[simp] theorem State.advanced_tail (s : State) (n : Nat) : (s.advanced n).regs.tail = s.regs.tail := by
  unfold State.advanced
  split
  · rfl
  · exact Regs.moved_tail _ _

@[simp] theorem State.advanced_hwsp (s : State) (n : Nat) : (s.advanced n).regs.hwsp = s.regs.hwsp := by
  unfold State.advanced
  split
  · rfl
  · exact Regs.moved_hwsp _ _

@[simp] theorem State.advanced_hwsPgaWritten (s : State) (n : Nat) :
    (s.advanced n).regs.hwsPgaWritten = s.regs.hwsPgaWritten := by
  unfold State.advanced
  split
  · rfl
  · exact Regs.moved_hwsPgaWritten _ _

@[simp] theorem State.advanced_readAhead (s : State) (n : Nat) : (s.advanced n).readAhead = s.readAhead := by
  unfold State.advanced
  split <;> rfl

/-- The advance of `pc` moves no translation. -/
theorem State.advanced_xlatView (s : State) (n : Nat) : (s.advanced n).xlatView = s.xlatView := by
  unfold State.advanced
  split
  · rfl
  · simp only [State.xlatView, Regs.moved_bltMode, Regs.moved_ppDclv]

/-! ## The status write -/

/-- A change of the ISR plays no part in whether `pc` can move. -/
theorem canAdvance_signalled (s : State) (new : Word) (use : Use) :
    (s.signalled new use).canAdvance n = s.canAdvance n := rfl

/-- Nor do the EIR and the level bits of the ISR. -/
theorem canAdvance_settled (s : State) : s.settled.canAdvance n = s.canAdvance n := rfl

/-- The ISR changes with a status write: the ISR is posted (R424). -/
theorem signalled_eq_posting {new : Word} {use : Use} (h : s.signals new) :
    s.signalled new use =
      ({ s with regs := s.regs.withIsr new } : State).posting .ggtt s.regs.statusAddr (wordBytes new) use :=
  signalled_posts (v := { s with regs := s.regs.withIsr new }) rfl rfl rfl h

/-- An interrupt event (R422) is a change of its ISR bit. -/
theorem raiseInt_ok {b : Nat} (h : s.statusOpen (setBit s.regs.isr b true) .event) :
    raiseInt b s = .ok (⟨⟩, s.signalled (setBit s.regs.isr b true) .event) := by
  unfold raiseInt
  rw [run_get_bind]
  exact setIsr_ok h

/-! ## The head report (R377) -/

theorem reportHead_ok {use : Use} (hw : s.regs.hwsPgaWritten)
    (h : (s.parserPhys .ggtt (s.regs.hwsp + 0x10) true use).isSome) :
    reportHead use s = .ok (⟨⟩, s.posting .ggtt (s.regs.hwsp + 0x10) (wordBytes s.regs.head) use) := by
  unfold reportHead
  rw [run_get_bind, require_bind hw]
  exact post_ok h

theorem reportHead_unset {use : Use} (hw : s.regs.hwsPgaWritten = false) :
    reportHead use s = .error (.refused .statusPageUnset) := by
  unfold reportHead
  rw [run_get_bind]
  exact require_bind_not hw

/-- In the ring, an advance that makes the automatic report due reports after the rest of the command (R370, R377). -/
theorem finishWith_reports {m : M Unit} (hb : s.parser.inBatch = false)
    (hc : crossesReport s.regs.reportInterval s.regs.headOff n s.regs.ringSize) :
    finishWith n m s = (m >>= fun _ => reportHead .report) (s.advanced n) := by
  have hdue : s.reportDue n = true := by rw [State.reportDue, hb, hc]; rfl
  have hmove : movePc n { s with parser := { s.parser with run := .running } } = .ok (⟨⟩, s.advanced n) := by
    unfold movePc State.advanced
    rw [run_get_bind, hb, if_neg Bool.false_ne_true, if_neg Bool.false_ne_true]
    rfl
  unfold finishWith
  rw [run_get_bind, run_setRun_bind, bind_ok hmove, hdue, onlyIf_true]

/-- Of a report of the head behind the command, the page and the head are those of the advance. -/
theorem reportHead_advanced {use : Use} (hw : s.regs.hwsPgaWritten)
    (h : (s.parserPhys .ggtt (s.regs.hwsp + 0x10) true use).isSome) :
    reportHead use (s.advanced n) = .ok (⟨⟩, (s.advanced n).posting .ggtt (s.regs.hwsp + 0x10)
      (wordBytes (s.advanced n).regs.head) use) := by
  have hreport := reportHead_ok (s := s.advanced n) (use := use) (by rw [State.advanced_hwsPgaWritten]; exact hw)
    (by rw [State.advanced_hwsp, parserPhys_congr (s.advanced_xlatView n)]; exact h)
  rwa [State.advanced_hwsp] at hreport

end Sys2Proof.Machine
end

section
/-! PROOFS. MI commands that steer the parser (R371 to R373, R376 to R378, R382, R384, R385): the checks pass, registers and the
parser's state change, and `pc` moves on or the parser waits. -/

namespace Sys2Proof.Machine

variable {s : State}

/-! ## Commands that only move on -/

/-- Settles O16: `pc` moves by the ring registers alone, which NOPID is none of. -/
theorem miNoopCompletes : Obligations.MiNoopCompletes := by
  unfold Obligations.MiNoopCompletes
  intro writeId ident s hc
  refine outcome_ok ?_
  cases writeId with
  | false => exact finish_ok hc
  | true => exact finish_ok (s := { s with regs := { s.regs with nopid := ident } }) hc

/-- Settles O17: the change of the ISR is silent, or is posted to the status page. -/
theorem miUserInterruptCompletes : Obligations.MiUserInterruptCompletes := by
  unfold Obligations.MiUserInterruptCompletes
  intro s new u hc
  have hrun (hopen : s.statusOpen new .event) : exec .miUserInterrupt s = .next ((s.signalled new .event).advanced 1) :=
    outcome_ok ((bind_ok (raiseInt_ok hopen)).trans (finish_ok ((canAdvance_signalled ..).trans hc)))
  refine ⟨fun hsilent => ?silent, fun hsignals hphys => ?posts⟩
  case silent => rw [hrun (statusOpen_of_silent hsilent), signalled_silent hsilent]
  case posts => rw [hrun (statusOpen_of_phys (v := s) rfl rfl hphys), signalled_eq_posting hsignals]

/-- Settles O22: while bit 15 is 1, the sync flush is not ready. -/
theorem miSuspendFlushCompletes : Obligations.MiSuspendFlushCompletes := by
  unfold Obligations.MiSuspendFlushCompletes
  intro on s hc t
  refine ⟨outcome_ok (finish_ok (s := { s with regs := { s.regs with miMode := setBit s.regs.miMode 15 on } }) hc),
    fun hon => ?_⟩
  have hbit : bit t.regs.miMode 15 = true := by
    rw [State.advanced_miMode, bit_setBit_same _ _ _ (by decide), hon]
  simp [State.syncFlushReady, hbit]

/-! ## Waiting for an event (R385) -/

/-- Settles O18: a well-formed command passes its check, and then its condition and the run state decide. -/
theorem miWaitForEventCompletes : Obligations.MiWaitForEventCompletes := by
  unfold Obligations.MiWaitForEventCompletes
  intro sc cc pc sb pb sa pa s e cmd hwf
  have hcheck : (decide (eventCount sc cc pc sb pb sa pa ≤ 1) && decide (cc.toNat < 6)) = true := hwf
  refine ⟨fun hholds hrun hc => outcome_ok ?passes, fun hholds => outcome_ok ?waits,
    fun hholds hrun hc => outcome_ok ?ends⟩ <;> rw [require_bind hcheck]
  case passes =>
    rw [if_neg (by rw [hholds]; exact Bool.false_ne_true), if_neg hrun]
    exact finish_ok hc
  case waits =>
    rw [if_pos hholds]
    rfl
  case ends =>
    rw [if_neg (by rw [hholds]; exact Bool.false_ne_true), if_pos hrun]
    exact endEventWait_ok hc

/-! ## The pending head pointer (R371) -/

/-- No ring is longer than 2 MB (R23). -/
theorem Regs.ringSize_le (r : Regs) : r.ringSize ≤ 0x200000 := by
  have := (field r.ctl 12 9).isLt
  unfold Regs.ringSize
  omega

theorem miArbCheck_noPointer (hb : s.parser.inBatch = false) (hv : bit s.regs.uhptr 0 = false) (hc : s.canAdvance 1) :
    exec .miArbCheck s = .next (s.advanced 1) := by
  refine outcome_ok ?_
  rw [require_bind (by rw [hb]; rfl), if_neg (by rw [hv]; exact Bool.false_ne_true)]
  exact finish_ok hc

theorem miArbCheck_beyondRing (hb : s.parser.inBatch = false) (hv : bit s.regs.uhptr 0)
    (h : s.regs.ringSize ≤ (field s.regs.uhptr 3 29).toNat * 8) : exec .miArbCheck s = .refused .uhptrRange := by
  refine outcome_error ?_
  rw [require_bind (by rw [hb]; rfl), if_pos hv]
  exact require_bind_not (by rw [decide_eq_false (not_lt.mpr h), Bool.and_false])

/-- The parser runs at the pending head pointer, whose valid bit is reset; the wrap count stays (R371). -/
def State.jumped (s : State) (off : Nat) : State :=
  { s with
    regs := { s.regs with
      head := put (put 0 21 (field s.regs.head 21 11)) 2 (BitVec.ofNat 19 (off / 4))
      uhptr := setBit s.regs.uhptr 0 false }
    parser := { s.parser with run := .running } }

/-- A pending head pointer inside the ring is taken, and the jump is reported where it goes over the interval (log 24). -/
theorem miArbCheck_jumps (hb : s.parser.inBatch = false) (hv : bit s.regs.uhptr 0)
    (h : (field s.regs.uhptr 3 29).toNat * 8 < s.regs.ringSize) :
    exec .miArbCheck s = M.outcome
      (onlyIf (s.regs.jumpReports ((field s.regs.uhptr 3 29).toNat * 8)) (reportHead .report))
      (s.jumped ((field s.regs.uhptr 3 29).toNat * 8)) := by
  refine outcome_congr ?_
  rw [require_bind (by rw [hb]; rfl), if_pos hv,
    require_bind (by rw [decide_eq_true (h.trans_le s.regs.ringSize_le), decide_eq_true h]; rfl)]
  rfl

/-- Settles O19: what makes the jump due for a report is the interval, and the report is one of the state after the jump. -/
theorem miArbCheckCompletes : Obligations.MiArbCheckCompletes := by
  unfold Obligations.MiArbCheckCompletes
  intro s off
  refine ⟨fun hb => outcome_error (require_bind_not (by rw [hb]; rfl)), miArbCheck_beyondRing, miArbCheck_noPointer, ?_⟩
  intro hb hv hoff t k a
  refine ⟨fun hin => ?quiet, fun hk hover => ?reports⟩ <;> rw [miArbCheck_jumps hb hv hoff]
  case quiet =>
    have hdue : s.regs.jumpReports off = false := by
      simp only [Regs.jumpReports, Bool.and_eq_false_iff, bne_eq_false_iff_eq, decide_eq_false_iff_not, not_not]
      exact hin
    exact outcome_ok (by rw [hdue]; rfl)
  case reports =>
    have hdue : s.regs.jumpReports off = true := by
      simp only [Regs.jumpReports, Bool.and_eq_true, bne_iff_ne, decide_eq_true_eq]
      exact ⟨hk, hover⟩
    rw [hdue, onlyIf_true]
    exact ⟨fun hw hphys => outcome_ok (reportHead_ok (s := t) hw hphys),
      fun hw => outcome_error (reportHead_unset (s := t) hw)⟩

/-! ## The head report (R377) -/

/-- In the ring, MI_REPORT_HEAD is the report behind the command. -/
theorem miReportHead_eq (hb : s.parser.inBatch = false) : exec .miReportHead s = M.outcome (finishWith 1 reportHead) s :=
  outcome_congr (require_bind (by rw [hb]; rfl))

theorem miNoop_eq_finish : exec (.miNoop false 0) s = M.outcome (finish 1) s := rfl

/-- Settles O20: the command's own report comes before the automatic one, and each fails by itself without a status page. -/
theorem miReportHeadCompletes : Obligations.MiReportHeadCompletes := by
  unfold Obligations.MiReportHeadCompletes
  intro s a bytes crosses
  refine ⟨fun hb hw => ⟨fun hc hphys => ?single, fun hcross hauto => ⟨?automatic, fun hphys => ?both⟩⟩,
    fun hb hw => ⟨fun hc => ?unset, fun hcross => ⟨?unsetBoth, ?unsetAutomatic⟩⟩,
    fun hb => outcome_error (require_bind_not (by rw [hb]; rfl))⟩
  case single =>
    rw [miReportHead_eq hb]
    exact outcome_ok ((finishWith_ok hc).trans (reportHead_advanced hw hphys))
  case automatic =>
    rw [miNoop_eq_finish]
    exact outcome_ok ((finishWith_reports hb hcross).trans (reportHead_advanced hw hauto))
  case both =>
    rw [miReportHead_eq hb]
    refine outcome_ok ((finishWith_reports hb hcross).trans ((bind_ok (reportHead_advanced hw hphys)).trans ?_))
    have hview : ((s.advanced 1).posting .ggtt a bytes).xlatView = s.xlatView := s.advanced_xlatView 1
    have hreport := reportHead_ok (s := (s.advanced 1).posting .ggtt a bytes) (use := .report)
      (by rw [State.posting_regs, State.advanced_hwsPgaWritten]; exact hw)
      (by rw [State.posting_regs, State.advanced_hwsp, parserPhys_congr (s := s) hview]; exact hauto)
    rwa [State.posting_regs, State.advanced_hwsp] at hreport
  case unset =>
    rw [miReportHead_eq hb]
    exact outcome_error ((finishWith_ok hc).trans (reportHead_unset (by rw [State.advanced_hwsPgaWritten]; exact hw)))
  case unsetBoth =>
    rw [miReportHead_eq hb]
    exact outcome_error ((finishWith_reports hb hcross).trans
      (bind_error (reportHead_unset (by rw [State.advanced_hwsPgaWritten]; exact hw))))
  case unsetAutomatic =>
    rw [miNoop_eq_finish]
    exact outcome_error ((finishWith_reports hb hcross).trans
      (reportHead_unset (by rw [State.advanced_hwsPgaWritten]; exact hw)))

/-! ## Batch buffers (R372, R373) -/

/-- Settles O21: outside a batch buffer BCS_BB_ADDR bit 0 is 0 and the parser is secure. -/
theorem miBatchBufferEndCompletes : Obligations.MiBatchBufferEndCompletes := by
  unfold Obligations.MiBatchBufferEndCompletes
  intro s
  refine ⟨fun hb => ⟨outcome_ok (by rw [if_pos hb]; rfl), ?_, rfl⟩, fun hb hc => outcome_ok ?_⟩
  · simp [bit, State.bbAddr]
  · rw [if_neg (by rw [hb]; exact Bool.false_ne_true)]
    exact finish_ok hc

/-- Settles O23: both checks pass; from the ring `pc` first moves behind the command, which leaves the parser's space. -/
theorem miBatchBufferStartCompletes : Obligations.MiBatchBufferStartCompletes := by
  unfold Obligations.MiBatchBufferStartCompletes
  intro len asi addr s hspace hplace hmove
  have hspace' : (!asi || s.ppgttEnabled) = true := by rcases hspace with h | h <;> simp [h]
  have hplace' : (!s.parser.inBatch || s.parser.batchSpace == .ppgtt || !asi) = true := by
    rcases hplace with h | h | h <;> simp [h]
  refine outcome_ok ?_
  rw [require_bind hspace', require_bind hplace']
  by_cases hb : s.parser.inBatch = true
  · rw [if_pos hb, if_pos hb]
    rfl
  · rw [if_neg hb, if_neg hb, finishWith_ok (hmove.resolve_left hb)]
    simp only [enterBatch, run_modify_bind, run_onParser, batchSpaceOf, State.advanced_inBatch,
      State.advanced_batchSpace, State.advanced_readAhead]

/-! ## Semaphores (R378) -/

/-- The semaphore passes: Semaphore Wait is cleared, which plays no part in the advance of `pc`. -/
theorem semaphoreDone_ok (hc : s.canAdvance 3) :
    semaphoreDone s =
      .ok (⟨⟩, ({ s with regs := { s.regs with ctl := setBit s.regs.ctl 10 false } } : State).advanced 3) := by
  have hc' : ({ s with regs := { s.regs with ctl := setBit s.regs.ctl 10 false } } : State).canAdvance 3 = s.canAdvance 3 :=
    canAdvance_ctl (i := 10) false (.inl rfl) rfl rfl rfl rfl
  unfold semaphoreDone
  rw [run_onRegs_bind]
  exact finish_ok (hc'.trans hc)

/-- The register form, once its operands are legal, is decided by the comparison. -/
theorem miSemaphoreMbox_register (len ggtt data addr) {sel : BitVec 2} (hsel : sel = 0 ∨ sel = 2) :
    exec (.miSemaphoreMbox len ggtt false true true sel data addr) s = M.outcome
      (if data.toNat < (semaphoreReg s.regs sel).toNat then semaphoreDone
        else do
          onRegs fun r => { r with ctl := setBit r.ctl 10 true }
          setRun (.waitSemaphore (.miSemaphoreMbox len ggtt false true true sel data addr))) s := by
  refine outcome_congr ?_
  rw [require_bind (by rfl), if_pos rfl, require_bind (by rcases hsel with rfl | rfl <;> rfl)]

/-- Settles O24: the comparison decides; the other streamers' writes are events that write their register and no more. -/
theorem miSemaphoreRegisterCompletes : Obligations.MiSemaphoreRegisterCompletes := by
  unfold Obligations.MiSemaphoreRegisterCompletes
  refine ⟨?_, fun s v es hq => ⟨fun hs => step_event_next hq hs rfl, fun hs => step_event_next hq hs rfl⟩⟩
  intro len ggtt sel data addr s cmd r hsel
  refine ⟨fun hlt hc => ?passes, fun hle => ?waits⟩ <;>
    refine (miSemaphoreMbox_register _ _ _ _ hsel).trans (outcome_ok ?_)
  case passes =>
    rw [if_pos (by exact hlt)]
    exact semaphoreDone_ok hc
  case waits =>
    rw [if_neg (by exact not_lt.mpr hle)]
    rfl

/-- The comparison with memory reads where there is one, and passes without one (R378). -/
theorem semaphoreMemory_ok {compare : Bool} {sp : Space} {a : Nat} {data : Word}
    (h : compare → (s.parserPhys sp a false).isSome) :
    semaphoreMemory compare sp a data s = .ok (!compare || decide (data.toNat < (s.memWord sp a).toNat),
      if compare then s.reading sp a else s) := by
  cases compare with
  | false => rfl
  | true =>
    unfold semaphoreMemory
    rw [if_pos rfl, bind_ok (parserRead_ok (h rfl))]
    rfl

/-- Where the data goes to memory or not, with `pc` and the ring registers left alone (R378, R165). -/
theorem onlyIf_post_ok {c : Bool} {sp : Space} {a : Nat} {l : List Byte} (h : c → (s.parserPhys sp a true).isSome) :
    onlyIf c (post false sp a l) s = .ok (⟨⟩, if c then s.posting sp a l else s) := by
  cases c with
  | false => rfl
  | true => exact post_ok (h rfl)

/-- Settles O25: the read and the posted write move no translation and no register, so that what follows is as in the register
form; a wait is recorded nowhere (log 57). -/
theorem miSemaphoreMemoryCompletes : Obligations.MiSemaphoreMemoryCompletes := by
  unfold Obligations.MiSemaphoreMemoryCompletes
  intro len ggtt update compare sel data addr s cmd sp a q hop hread hwrite
  have hop' : (update || compare) = true := by simpa using hop
  have hsp : (if (ggtt && s.secure) = true then Space.ggtt else .ppgtt) = sp := by
    simp only [sp, Bool.and_eq_true]
  have hrun : exec cmd s = M.outcome
      (if (!compare || decide (data.toNat < (s.memWord sp a).toNat)) = true then
        onlyIf update (post false sp a (wordBytes data)) >>= fun _ => semaphoreDone
      else setRun (.waitSemaphore cmd)) q := by
    refine outcome_congr ?_
    simp only [hsp]
    rw [require_bind hop', if_neg Bool.false_ne_true, bind_ok (semaphoreMemory_ok hread)]
  have hq : q.xlatView = s.xlatView ∧ q.parser = s.parser ∧ q.regs = s.regs := by
    simp only [q]
    split <;> exact ⟨rfl, rfl, rfl⟩
  obtain ⟨hview, hparser, hregs⟩ := hq
  refine ⟨fun hpass hc => hrun.trans (outcome_ok ?passes), fun hcmp hle => hrun.trans (outcome_ok ?waits)⟩
  case passes =>
    have hposted : (if update then q.posting sp a (wordBytes data) else q).parser = s.parser ∧
        (if update then q.posting sp a (wordBytes data) else q).regs = s.regs := by
      split <;> exact ⟨hparser, hregs⟩
    obtain ⟨hp, hr⟩ := hposted
    rw [if_pos (by simpa using hpass), bind_ok (onlyIf_post_ok (by rw [parserPhys_congr hview]; exact hwrite)),
      semaphoreDone_ok ((canAdvance_congr (by rw [hp]) (by rw [hp]) (by rw [hr]) (by rw [hr])).trans hc), hr]
  case waits =>
    rw [if_neg (by simpa [hcmp] using hle), run_setRun, hparser]

end Sys2Proof.Machine
end

section
/-! PROOFS. MI commands that load registers and store data (R375, R379 to R381, R383, R386): protection and the checks pass, the
register or memory is written, and `pc` moves on. -/

namespace Sys2Proof.Machine

variable {s : State} {n : Nat}

/-! ## What the commands share -/

/-- A posted write, and the command is done. -/
theorem post_finish_ok {st : Bool} {sp : Space} {a : Nat} {l : List Byte} (hphys : (s.parserPhys sp a true).isSome)
    (hc : s.canAdvance n) :
    (post st sp a l >>= fun _ => finish n) s = .ok (⟨⟩, (s.posting sp a l).advanced n) :=
  (bind_ok (post_ok hphys)).trans (finish_ok hc)

/-- The space of a command may be the global GTT, or the PPGTT where it is enabled (R379, R380, R386). -/
theorem checkGlobal_bind {ggtt : Bool} {f : PUnit → M Unit} (h : ggtt ∨ s.ppgttEnabled) :
    (checkGlobal s ggtt >>= f) s = f ⟨⟩ s :=
  require_bind (by simpa using h)

theorem violates_eq_true {ggtt : Bool} (hg : ggtt) (hs : s.secure = false) : violates s ggtt = true := by
  rw [violates, hg, hs]
  rfl

theorem violates_eq_false {ggtt : Bool} (h : ggtt = false ∨ s.secure) : violates s ggtt = false := by
  rcases h with h | h <;> simp [violates, h]

/-- The interrupt masks and errors play no part in the advance of `pc`. -/
theorem canAdvance_writeErrors {off : Nat} {w : Word} {r : Regs} (h : s.regs.writeErrors off w = some r) :
    ({ s with regs := r } : State).canAdvance n = s.canAdvance n := by
  unfold Regs.writeErrors at h
  split at h <;> cases h <;> rfl

/-! ## A register write at the end of a command -/

theorem mmioWrite_finish_readOnly {off : Nat} (w : Word) (h : readOnlyReg off) (hc : s.canAdvance n) :
    (mmioWrite off w >>= fun _ => finish n) s = .ok (⟨⟩, s.advanced n) :=
  (bind_ok (mmioWrite_readOnly s off w h)).trans (finish_ok hc)

theorem mmioWrite_finish_written {off : Nat} {w : Word} {r : Regs} (h : s.regs.written off w = some r)
    (hc : ({ s with regs := r } : State).canAdvance n) :
    (mmioWrite off w >>= fun _ => finish n) s = .ok (⟨⟩, ({ s with regs := r } : State).advanced n) :=
  (bind_ok (mmioWrite_written s off w r h)).trans (finish_ok hc)

/-- A write to an interrupt mask or error register settles what follows it (R425). -/
theorem mmioWrite_settled {off : Nat} {w : Word} {r : Regs} (h : s.regs.writeErrors off w = some r)
    (hopen : ({ s with regs := r } : State).settleOpen) :
    mmioWrite off w s = .ok (⟨⟩, ({ s with regs := r } : State).settled) :=
  (mmioWrite_errors s off w r h).trans (refresh_ok hopen)

theorem mmioWrite_finish_settled {off : Nat} {w : Word} {r : Regs} (h : s.regs.writeErrors off w = some r)
    (hopen : ({ s with regs := r } : State).settleOpen) (hc : s.canAdvance n) :
    (mmioWrite off w >>= fun _ => finish n) s = .ok (⟨⟩, ({ s with regs := r } : State).settled.advanced n) :=
  (bind_ok (mmioWrite_settled h hopen)).trans
    (finish_ok ((canAdvance_settled _).trans ((canAdvance_writeErrors h).trans hc)))

theorem mmioWrite_finish_refused {off : Nat} {w : Word} {f : Refusal} (h : s.regs.writeRefused off w = some f) :
    (mmioWrite off w >>= fun _ => finish n) s = .error (.refused f) :=
  bind_error (mmioWrite_refused s off w f h)

/-! ## MI_LOAD_REGISTER_IMM (R375) -/

/-- With all byte write disables, or protected from the buffer, the register is not written (R441, D34). -/
theorem miLoadRegisterImm_consumed (len data) {disables : BitVec 4} {reg : BitVec 30}
    (h : disables = 15 ∨ protectedFrom s.secure (put 0 2 reg : Word).toNat) (hc : s.canAdvance 3) :
    exec (.miLoadRegisterImm len disables reg data) s = .next (s.advanced 3) := by
  refine outcome_ok ?_
  rw [if_pos h]
  exact finish_ok hc

/-- With none, and not protected, it is written as the host would write it (R61). -/
theorem miLoadRegisterImm_writes (len data) {reg : BitVec 30}
    (h : protectedFrom s.secure (put 0 2 reg : Word).toNat = false) :
    exec (.miLoadRegisterImm len 0 reg data) s =
      M.outcome (mmioWrite (put 0 2 reg : Word).toNat data >>= fun _ => finish 3) s := by
  refine outcome_congr ?_
  rw [if_neg (by rw [h]; decide), if_pos rfl]

/-- Settles O26: the command is consumed, or its meaning is the host's write of the register. -/
theorem miLoadRegisterImmCompletes : Obligations.MiLoadRegisterImmCompletes := by
  unfold Obligations.MiLoadRegisterImmCompletes
  intro len reg data s off permitted
  have hwrites (h : permitted) := miLoadRegisterImm_writes (s := s) len data (reg := reg) (protectedFrom_eq_false h)
  refine ⟨fun hc => ⟨miLoadRegisterImm_consumed _ _ (.inl rfl) hc, fun hs hoff disables => ?prohibited,
    fun h hro => (hwrites h).trans (outcome_ok (mmioWrite_finish_readOnly _ hro hc))⟩,
    fun r hr h hc => (hwrites h).trans (outcome_ok (mmioWrite_finish_written hr hc)),
    fun r hr h hopen hc => (hwrites h).trans (outcome_ok (mmioWrite_finish_settled hr hopen hc)),
    fun f hf h => (hwrites h).trans (outcome_error (mmioWrite_finish_refused hf))⟩
  case prohibited =>
    exact miLoadRegisterImm_consumed _ _ (.inr (by rw [hs]; exact protectedFrom_eq_true hoff)) hc

/-! ## MI_LOAD_REGISTER_MEM (R386) -/

/-- A prohibited load reads nothing (R432, R440, R441). -/
theorem miLoadRegisterMem_consumed (len async addr) {ggtt : Bool} {reg : BitVec 21} (hs : s.secure = false)
    (h : ggtt ∨ reg.toNat * 4 < 0x22200 ∨ 0x22300 ≤ reg.toNat * 4) (hc : s.canAdvance 3) :
    exec (.miLoadRegisterMem len ggtt async reg addr) s = .next (s.advanced 3) := by
  have hprohibited : (violates s ggtt || protectedFrom s.secure (reg.toNat * 4)) = true := by
    rw [Bool.or_eq_true, hs]
    exact h.imp (violates_eq_true · hs) protectedFrom_eq_true
  refine outcome_ok ?_
  rw [if_pos hprohibited]
  exact finish_ok hc

/-- Any other, to a register that may be named, is queued or done at once. -/
theorem miLoadRegisterMem_loads (len async addr) {ggtt : Bool} {reg : BitVec 21}
    (h : s.secure ∨ (ggtt = false ∧ 0x22200 ≤ reg.toNat * 4 ∧ reg.toNat * 4 < 0x22300)) (hsp : ggtt ∨ s.ppgttEnabled)
    (hlow : reg.toNat * 4 < 0x8800 ∨ 0x88FF < reg.toNat * 4) (hhigh : reg.toNat * 4 < 0xC0000) :
    exec (.miLoadRegisterMem len ggtt async reg addr) s = M.outcome
      (if async then do
        modify fun s => { s with
          asyncLoads := s.asyncLoads ++ [⟨spaceOf ggtt, put 0 2 addr, BitVec.ofNat 32 (reg.toNat * 4), s.secure⟩] }
        finish 3
      else do
        let v ← parserRead (spaceOf ggtt) (put 0 2 addr : Word).toNat
        mmioWrite (reg.toNat * 4) v
        finish 3) s := by
  have hpermitted : (violates s ggtt || protectedFrom s.secure (reg.toNat * 4)) = false := by
    rw [violates_eq_false (h.symm.imp_left And.left), protectedFrom_eq_false (h.imp_right And.right)]
    rfl
  have hnamed : loadForbidden (reg.toNat * 4) = false := by
    simp only [loadForbidden, Bool.or_eq_false_iff, Bool.and_eq_false_iff, decide_eq_false_iff_not]
    omega
  refine outcome_congr ?_
  rw [if_neg (by rw [hpermitted]; exact Bool.false_ne_true), checkGlobal_bind hsp, require_bind (by rw [hnamed]; rfl)]

/-- A load done at once ends as a write of the DWord in memory (log 7). -/
theorem miLoadRegisterMem_sync (len addr) {ggtt : Bool} {reg : BitVec 21}
    (h : s.secure ∨ (ggtt = false ∧ 0x22200 ≤ reg.toNat * 4 ∧ reg.toNat * 4 < 0x22300)) (hsp : ggtt ∨ s.ppgttEnabled)
    (hlow : reg.toNat * 4 < 0x8800 ∨ 0x88FF < reg.toNat * 4) (hhigh : reg.toNat * 4 < 0xC0000)
    (hphys : (s.parserPhys (spaceOf ggtt) (put 0 2 (addr : BitVec 30) : Word).toNat false).isSome) :
    exec (.miLoadRegisterMem len ggtt false reg addr) s = M.outcome
      (mmioWrite (reg.toNat * 4) (s.memWord (spaceOf ggtt) (put 0 2 addr : Word).toNat) >>= fun _ => finish 3)
      (s.reading (spaceOf ggtt) (put 0 2 addr : Word).toNat) := by
  rw [miLoadRegisterMem_loads len false addr h hsp hlow hhigh, if_neg Bool.false_ne_true]
  exact outcome_congr (bind_ok (parserRead_ok hphys))

/-- A queued load reads memory, leaves the queue, and comes to its register (R386). -/
theorem landAsyncLoad_ok {k : Nat} {l : AsyncLoad} (hl : s.asyncLoads[k]? = some l)
    (hphys : (s.parserPhys l.space l.addr.toNat false .load).isSome) :
    landAsyncLoad k s = loadRegister l.secure l.reg.toNat (s.memWord l.space l.addr.toNat .load)
      { s.reading l.space l.addr.toNat .load with asyncLoads := s.asyncLoads.eraseIdx k } := by
  unfold landAsyncLoad
  rw [run_get_bind, hl]
  exact bind_ok (parserRead_ok (s := { s with asyncLoads := s.asyncLoads.eraseIdx k }) hphys)

/-- A load that protection forbids writes nothing (R441). -/
theorem loadRegister_protected {secure : Bool} {off : Nat} (w : Word) (hs : secure = false)
    (hoff : off < 0x22200 ∨ 0x22300 ≤ off) : loadRegister secure off w s = .ok (⟨⟩, s) := by
  unfold loadRegister
  rw [if_pos (by rw [hs]; exact protectedFrom_eq_true hoff)]
  rfl

theorem loadRegister_eq_mmioWrite {secure : Bool} {off : Nat} (w : Word)
    (h : ¬(secure = false ∧ (off < 0x22200 ∨ 0x22300 ≤ off))) : loadRegister secure off w = mmioWrite off w := by
  have hopen : secure = true ∨ (0x22200 ≤ off ∧ off < 0x22300) := by
    cases secure with
    | true => exact .inl rfl
    | false =>
      have hoff := not_and.mp h rfl
      exact .inr (by omega)
  unfold loadRegister
  rw [if_neg (by rw [protectedFrom_eq_false hopen]; exact Bool.false_ne_true)]

/-- Settles O31: at once or later, a load that is not prohibited is the host's write of the register with what memory holds. -/
theorem miLoadRegisterMemCompletes : Obligations.MiLoadRegisterMemCompletes := by
  unfold Obligations.MiLoadRegisterMemCompletes
  refine ⟨?command, ?landing⟩
  case command =>
    intro len ggtt reg addr s sp a off permitted q
    refine ⟨fun hc async hs h => miLoadRegisterMem_consumed _ _ _ hs h hc, fun h hsp hlow hhigh =>
      ⟨fun hc => ?queued, fun hphys => ?sync⟩⟩
    case queued =>
      rw [miLoadRegisterMem_loads len true addr h hsp hlow hhigh, if_pos rfl]
      exact outcome_ok (finish_ok (s := { s with
        asyncLoads := s.asyncLoads ++ [(⟨sp, a, BitVec.ofNat 32 off, s.secure⟩ : AsyncLoad)] }) hc)
    case sync =>
      have hrun := miLoadRegisterMem_sync len addr h hsp hlow hhigh hphys
      exact ⟨fun hc hro => hrun.trans (outcome_ok (mmioWrite_finish_readOnly (s := q) _ hro hc)),
        fun r hr hc => hrun.trans (outcome_ok (mmioWrite_finish_written (s := q) hr hc)),
        fun r hr hopen hc => hrun.trans (outcome_ok (mmioWrite_finish_settled (s := q) hr hopen hc)),
        fun f hf => hrun.trans (outcome_error (mmioWrite_finish_refused (s := q) hf))⟩
  case landing =>
    intro s k l es hq hs hl hphys v off q t forbidden
    have hland : runEvent (.asyncLoad k) { s with schedule := es } = loadRegister l.secure off v t :=
      landAsyncLoad_ok (s := { s with schedule := es }) hl hphys
    refine ⟨fun h => step_event_next hq hs (hland.trans ?kept), fun h => ?written⟩
    case kept =>
      by_cases hforbidden : forbidden
      · exact loadRegister_protected v hforbidden.1 hforbidden.2
      · rw [loadRegister_eq_mmioWrite v hforbidden]
        exact mmioWrite_readOnly t off v (h.resolve_left hforbidden)
    case written =>
      rw [loadRegister_eq_mmioWrite v h] at hland
      exact ⟨fun r hr => step_event_next hq hs (hland.trans (mmioWrite_written t off v r hr)),
        fun r hr hopen => step_event_next hq hs (hland.trans (mmioWrite_settled (s := t) hr hopen)),
        fun f hf => step_event_refused hq hs (hland.trans (mmioWrite_refused t off v f hf))⟩

/-! ## Stores of data (R380, R381) -/

theorem miStoreDataImm_consumed {len : BitVec 10} {ggtt : Bool} (addr d0 d1) (hg : ggtt) (hs : s.secure = false)
    (hc : s.canAdvance (len.toNat + 2)) :
    exec (.miStoreDataImm len ggtt addr d0 d1) s = .next (s.advanced (len.toNat + 2)) := by
  refine outcome_ok ?_
  rw [checkGlobal_bind (.inl hg), if_pos (violates_eq_true hg hs)]
  exact finish_ok hc

/-- Settles O28: a form that is not privileged posts its data, in memory order (R193). -/
theorem miStoreDataImmCompletes : Obligations.MiStoreDataImmCompletes := by
  unfold Obligations.MiStoreDataImmCompletes
  intro ggtt addr d0 d1 s sp a hsp
  refine ⟨fun hg hs => ⟨miStoreDataImm_consumed (len := 2) _ _ _ hg hs, miStoreDataImm_consumed (len := 3) _ _ _ hg hs⟩,
    fun hpriv hphys => ⟨fun hc => outcome_ok ?dword, fun ha hc => outcome_ok ?qword⟩⟩ <;>
    rw [checkGlobal_bind hsp, if_neg (by rw [violates_eq_false hpriv]; exact Bool.false_ne_true)]
  case dword =>
    rw [if_neg (by decide)]
    exact post_finish_ok hphys hc
  case qword =>
    rw [if_pos rfl]
    exact (bind_ok (require_ok (beq_iff_eq.mpr ha))).trans (post_finish_ok hphys hc)

/-- Settles O29: beyond the first sixteen DWords the data is posted to the page; the refused forms are those of O50. -/
theorem miStoreDataIndexCompletes : Obligations.MiStoreDataIndexCompletes := by
  unfold Obligations.MiStoreDataIndexCompletes
  intro offset d0 d1 s a
  refine ⟨fun hw h16 hphys => ⟨fun hc => outcome_ok ?dword, fun ha hc => outcome_ok ?qword⟩,
    miStoreDataIndex_qwordAlignment offset d0 d1, fun hw h len => miStoreDataIndex_statusPageReserved len offset d0 d1 hw h⟩ <;>
    rw [require_bind hw, require_bind (decide_eq_true h16)]
  case dword =>
    rw [if_neg (by decide)]
    exact post_finish_ok hphys hc
  case qword =>
    rw [if_pos rfl]
    exact (bind_ok (require_ok (beq_iff_eq.mpr ha))).trans (post_finish_ok hphys hc)

/-! ## Page tables (R383, R150, R151) -/

theorem miUpdateGtt_consumed (len ggtt entry) {data : List Word} (hs : s.secure = false)
    (hc : s.canAdvance (2 + data.length)) :
    exec (.miUpdateGtt len ggtt entry data) s = .next (s.advanced (2 + data.length)) := by
  refine outcome_ok ?_
  rw [if_pos (by rw [hs]; rfl)]
  exact finish_ok hc

theorem miUpdateGtt_writes (len entry) {ggtt : Bool} {data : List Word} (hs : s.secure) (hg : ggtt) (hd : 1 ≤ data.length)
    (hc : s.canAdvance (2 + data.length)) :
    exec (.miUpdateGtt len ggtt entry data) s =
      .next (({ s with ggtt := writeEntries s.ggtt entry.toNat data } : State).advanced (2 + data.length)) := by
  refine outcome_ok ?_
  rw [if_neg (by rw [hs]; exact Bool.false_ne_true), require_bind hg, require_bind (decide_eq_true hd), run_modify_bind]
  exact finish_ok (s := { s with ggtt := writeEntries s.ggtt entry.toNat data }) hc

/-- A page table changes in the entry named and in no other (R150). -/
theorem lookup_insert_eq (t : List (Nat × PageEntry)) (page : Nat) (e : PageEntry) (p : Nat) :
    lookup (insert t page e) p = if p = page then some e else lookup t p := by
  rw [lookup_insert]
  exact if_congr eq_comm rfl rfl

/-- A page directory entry becomes valid or invalid, and no other changes (R151). -/
theorem contains_setDirectory (l : List Nat) (i k : Nat) (valid : Bool) :
    (if valid then l.filter (· != i) else i :: l.filter (· != i)).contains k = if k = i then !valid else l.contains k := by
  rw [Bool.eq_iff_iff]
  by_cases hk : k = i <;> cases valid <;> simp [hk]

/-- Settles O30: the command writes its entries, and each event of the platform the one entry it names. -/
theorem miUpdateGttCompletes : Obligations.MiUpdateGttCompletes := by
  unfold Obligations.MiUpdateGttCompletes
  refine ⟨fun len ggtt entry data s hc => ⟨fun hs => miUpdateGtt_consumed len ggtt entry hs hc, fun hs hg hd => ?command⟩,
    fun s page e es hq => ⟨fun hs => ⟨_, step_event_next hq hs rfl, lookup_insert_eq s.ggtt page e⟩,
      fun hs => ⟨_, step_event_next hq hs rfl, lookup_insert_eq s.ppgtt page e⟩,
      fun i valid hs => ⟨_, step_event_next hq hs rfl, fun k => contains_setDirectory s.pdInvalid i k valid⟩⟩⟩
  case command =>
    exact ⟨_, miUpdateGtt_writes len entry hs hg hd hc, lookup_writeEntries data s.ggtt entry.toNat⟩

end Sys2Proof.Machine
end

section
/-! PROOFS. What registers read as (R60, R61, R74, R80, R102, R460), and MI_STORE_REGISTER_MEM, which posts it (R379). -/

namespace Sys2Proof.Machine

variable {s : State}

/-! ## Registers that are views -/

/-- BCS_TLBPEND_SEC0 and BCS_TLBPEND_SEC1 have 64 entries each (R73, R74). -/
theorem regRead_tlbpendSec0 (s : State) {off : Nat} (h : 0x04400 ≤ off ∧ off < 0x04500) :
    regRead s off = some (s.regs.tlbpendSec0.toList.getD ((off - 0x04400) / 4) 0) := by
  unfold regRead
  split
  case h_37 => rw [if_pos h]
  all_goals omega

theorem regRead_tlbpendSec1 (s : State) {off : Nat} (h : 0x24500 ≤ off ∧ off < 0x24600) :
    regRead s off = some (s.regs.pendEntry ((off - 0x24500) / 4)) := by
  unfold regRead
  split
  case h_37 => rw [if_neg (by omega), if_pos h]
  all_goals omega

theorem regRead_tlbpendSec0_entry (s : State) {k : Nat} (hk : k < 64) :
    regRead s (0x04400 + 4 * k) = some (s.regs.tlbpendSec0.toList.getD k 0) := by
  rw [regRead_tlbpendSec0 s (by omega), Nat.add_sub_cancel_left, Nat.mul_div_cancel_left k (by decide)]

theorem regRead_tlbpendSec1_entry (s : State) {k : Nat} (hk : k < 64) :
    regRead s (0x24500 + 4 * k) = some (s.regs.pendEntry k) := by
  rw [regRead_tlbpendSec1 s (by omega), Nat.add_sub_cancel_left, Nat.mul_div_cancel_left k (by decide)]

/-- The reserved bits of BCS_TLBPEND_SEC1 read 0, and its other bits are those of the entry (R74). -/
theorem Regs.pendEntry_and (r : Regs) (k : Nat) :
    r.pendEntry k &&& 0x70C00000 = 0 ∧ r.pendEntry k &&& 0x8F3FFFFF = r.pendSec1.toList.getD k 0 &&& 0x8F3FFFFF := by
  constructor <;> rw [Regs.pendEntry, BitVec.and_assoc]
  · exact BitVec.and_zero
  · rfl

/-- Ring Idle is a view of the parser and the engine; the other bits of BCS_MI_MODE are stored (R80, D11). -/
theorem bit_ringIdle (s : State) :
    bit (setBit s.regs.miMode 9 s.ringIdle) 9 =
        ((s.parser.run == .idle || s.parser.run == .stopped || s.parser.run == .disabled) && s.engine.run == .idle) ∧
      ∀ i, i ≠ 9 → bit (setBit s.regs.miMode 9 s.ringIdle) i = bit s.regs.miMode i := by
  refine ⟨?_, fun i hi => bit_setBit_other _ _ _ _ hi⟩
  rw [bit_setBit_same _ _ _ (by decide), State.ringIdle, State.engineBusy, bne, Bool.not_not]

/-- BCS_BB_ADDR shows the QWord of the batch address, and in bit 0 whether the parser is in a batch buffer (R102). -/
theorem bit_bbAddr (s : State) (i : Nat) :
    bit s.bbAddr i = if i < 3 then decide (i = 0) && s.parser.inBatch else bit s.parser.batchAddr i := by
  by_cases h32 : i < 32
  · have hmask : (0xFFFFFFF8 : Word).getLsbD i = !decide (i < 3) := by
      interval_cases i <;> rfl
    simp only [bit, State.bbAddr, BitVec.getLsbD_or, BitVec.getLsbD_and, BitVec.getLsbD_setWidth, BitVec.getLsbD_ofBool,
      hmask, h32, decide_true, Bool.true_and]
    by_cases h3 : i < 3
    · simp [h3]
    · simp [h3, show i ≠ 0 by omega]
  · rw [if_neg (by omega), bit, bit, BitVec.getLsbD_of_ge _ _ (by omega), BitVec.getLsbD_of_ge _ _ (by omega)]

/-- The second part of TIMESTAMP holds bits 35:32 of the counter (R460). -/
theorem bit_timestampHigh (t : BitVec 36) (i : Nat) :
    bit ((t >>> 32).setWidth 32) i = (decide (i < 4) && t.getLsbD (32 + i)) := by
  simp only [bit, BitVec.getLsbD_setWidth, BitVec.getLsbD_ushiftRight]
  by_cases h : i < 4
  · simp [h, show i < 32 by omega]
  · rw [BitVec.getLsbD_of_ge t _ (by omega), Bool.and_false, Bool.and_false]

/-- Bits that are 0 make the upper half 0 when they cover it. -/
theorem upperHalf_eq_zero {w m : Word} (h : w &&& m = 0) (hm : m &&& fieldMask 16 16 = fieldMask 16 16) :
    field w 16 16 = 0 := by
  rw [field_eq_zero_iff, ← hm, ← BitVec.and_assoc, h]
  exact BitVec.zero_and

/-- The masked registers, whose upper half reads 0 (D9, R61). -/
theorem maskHalf_eq_zero (h : s.inv) {off : Nat}
    (hoff : off ∈ [0x22028, 0x22050, 0x2209C, 0x220A0, 0x220C0, 0x22200, 0x2229C]) {v : Word}
    (hv : regRead s off = some v) : field v 16 16 = 0 := by
  have hr := (State.regsOk h).reserved
  simp only [List.mem_cons, List.not_mem_nil, or_false] at hoff
  obtain rfl | rfl | rfl | rfl | rfl | rfl | rfl := hoff <;> obtain rfl := Option.some.inj hv
  · exact upperHalf_eq_zero hr.excc (by decide)
  · exact upperHalf_eq_zero hr.r22050 (by decide)
  · exact upperHalf_eq_zero (setBit_and (i := 9) (m := 0xFFFF0000) s.ringIdle
      ((field_eq_zero_iff _ 16 16).mp (upperHalf_eq_zero hr.miMode (by decide))) (by decide)) (by decide)
  · exact upperHalf_eq_zero hr.gabMode (by decide)
  · exact upperHalf_eq_zero hr.instpm (by decide)
  · exact upperHalf_eq_zero hr.swctrl (by decide)
  · exact upperHalf_eq_zero hr.bltMode (by decide)

/-! ## MI_STORE_REGISTER_MEM (R379) -/

theorem miStoreRegisterMem_consumed (len reg addr) {ggtt : Bool} (hg : ggtt) (hs : s.secure = false) (hc : s.canAdvance 3) :
    exec (.miStoreRegisterMem len ggtt reg addr) s = .next (s.advanced 3) := by
  refine outcome_ok ?_
  rw [checkGlobal_bind (.inl hg), if_pos (violates_eq_true hg hs)]
  exact finish_ok hc

/-- A command that is not privileged posts the value read. -/
theorem miStoreRegisterMem_posts (len) {ggtt : Bool} {reg : BitVec 21} {addr : BitVec 30} {t : State} {v : Word}
    (hsp : ggtt ∨ s.ppgttEnabled) (hpriv : ggtt = false ∨ s.secure) (hread : mmioRead (reg.toNat * 4) s = .ok (v, t))
    (hphys : (t.parserPhys (spaceOf ggtt) (put 0 2 addr : Word).toNat true).isSome) (hc : t.canAdvance 3) :
    exec (.miStoreRegisterMem len ggtt reg addr) s =
      .next ((t.posting (spaceOf ggtt) (put 0 2 addr : Word).toNat (wordBytes v)).advanced 3) := by
  refine outcome_ok ?_
  rw [checkGlobal_bind hsp, if_neg (by rw [violates_eq_false hpriv]; exact Bool.false_ne_true), bind_ok hread]
  exact post_finish_ok hphys hc

theorem mmioRead_some {off : Nat} {v : Word} (h : regRead s off = some v) : mmioRead off s = .ok (v, s) := by
  unfold mmioRead
  rw [run_get_bind, h]
  rfl

/-- A register outside the map reads as a free value (R107, U5). -/
theorem mmioRead_none {off : Nat} (h : regRead s off = none) :
    mmioRead off s = .ok (Config.freeWord s.freeCount, { s with freeCount := s.freeCount + 1 }) := by
  unfold mmioRead
  rw [run_get_bind, h]
  rfl

/-- Settles O27: the command posts what the read gives, and a read gives the stored register or its view. -/
theorem miStoreRegisterMemCompletes : Obligations.MiStoreRegisterMemCompletes := by
  unfold Obligations.MiStoreRegisterMemCompletes
  refine ⟨?command, ?views, ?stored⟩
  case command =>
    intro len ggtt reg addr s sp a hsp hc
    exact ⟨fun hg hs => miStoreRegisterMem_consumed _ _ _ hg hs hc, fun hpriv hphys =>
      ⟨fun v hv => miStoreRegisterMem_posts _ hsp hpriv (mmioRead_some hv) hphys hc,
        fun hn => miStoreRegisterMem_posts _ hsp hpriv (mmioRead_none hn) hphys hc⟩⟩
  case views =>
    intro s v
    refine ⟨fun hv => ?ringIdle, fun hv => ?bbAddr, fun hv => ?timestampLow, fun hv => ?timestampHigh, fun k hk hv => ?tlbpend,
      fun h off hoff hv => maskHalf_eq_zero h hoff hv⟩
    case ringIdle =>
      obtain rfl := Option.some.inj hv
      exact bit_ringIdle s
    case bbAddr =>
      obtain rfl := Option.some.inj hv
      exact ⟨bit_bbAddr s 0, bit_bbAddr s 1, bit_bbAddr s 2, fun i hi => (bit_bbAddr s i).trans (if_neg (by omega))⟩
    case timestampLow =>
      obtain rfl := Option.some.inj hv
      intro i hi
      simp [bit, hi]
    case timestampHigh =>
      obtain rfl := Option.some.inj hv
      exact bit_timestampHigh s.regs.timestamp
    case tlbpend =>
      obtain rfl := Option.some.inj ((regRead_tlbpendSec1_entry s hk).symm.trans hv)
      exact s.regs.pendEntry_and k
  case stored =>
    exact fun s => ⟨rfl, rfl, rfl, rfl, rfl, rfl, rfl, rfl, rfl, rfl, rfl, rfl, rfl, rfl, rfl, rfl, rfl, rfl, rfl, rfl, rfl, rfl,
      rfl, rfl, rfl, fun k hk => regRead_tlbpendSec0_entry s hk, rfl, rfl, rfl, rfl,
      fun k hk => by rw [regRead_tlbpendSec1_entry s hk]; rfl⟩

end Sys2Proof.Machine
end

section
/-! PROOFS. MI_FLUSH_DW (R374, R163, R428) and MI_DISPLAY_FLIP (R387, R207). -/

namespace Sys2Proof.Machine

variable {s t : State}

/-! ## The post-sync write (R374) -/

/-- The values of the field that name an operation: 2 is reserved. -/
theorem postSync_operations : ∀ op : BitVec 2, op ≠ 2 → op = 0 ∨ op = 1 ∨ op = 3 := by decide

theorem postSync_none (len index w toGgtt d0 d1) : postSync len index 0 w toGgtt d0 d1 s = .ok (⟨⟩, s) := rfl

section
variable {sp : Space} {a : Nat} {index toGgtt : Bool} {w : Word}

theorem postSync_data (len d0 d1) (hsp : (if index then .ggtt else flushSpace s toGgtt) = sp)
    (ha : (if index then s.regs.hwsp + (w &&& 0xFF8).toNat else w.toNat) = a) (h : (s.parserPhys sp a true).isSome) :
    postSync len index 1 w toGgtt d0 d1 s =
      .ok (⟨⟩, s.posting sp a (if len = 2 then wordBytes d0 ++ wordBytes d1 else wordBytes d0)) := by
  unfold postSync
  simp only [run_get_bind, hsp, ha]
  rw [if_pos trivial]
  split <;> exact post_ok h

theorem postSync_timestamp (len d0 d1) (hsp : (if index then .ggtt else flushSpace s toGgtt) = sp)
    (ha : (if index then s.regs.hwsp + (w &&& 0xFF8).toNat else w.toNat) = a) (h : (s.parserPhys sp a true).isSome) :
    postSync len index 3 w toGgtt d0 d1 s = .ok (⟨⟩, s.posting sp a
      (wordBytes (s.regs.timestamp.setWidth 32) ++ wordBytes ((s.regs.timestamp >>> 32).setWidth 32))) := by
  unfold postSync
  simp only [run_get_bind, hsp, ha]
  rw [if_neg (by decide), if_pos trivial]
  exact post_ok h

/-- Of the three operations, one writes nothing, one the data and one the timestamp. -/
theorem postSync_ok (len d0 d1) {op : BitVec 2} (hop : op ≠ 2)
    (hsp : (if index then .ggtt else flushSpace s toGgtt) = sp)
    (ha : (if index then s.regs.hwsp + (w &&& 0xFF8).toNat else w.toNat) = a)
    (h : op = 0 ∨ (s.parserPhys sp a true).isSome) :
    postSync len index op w toGgtt d0 d1 s = .ok (⟨⟩, if op = 0 then s else s.posting sp a
      (if op = 1 then if len = 2 then wordBytes d0 ++ wordBytes d1 else wordBytes d0
      else wordBytes (s.regs.timestamp.setWidth 32) ++ wordBytes ((s.regs.timestamp >>> 32).setWidth 32))) := by
  rcases postSync_operations op hop with rfl | rfl | rfl
  · exact postSync_none ..
  · exact postSync_data len d0 d1 hsp ha (h.resolve_left (by decide))
  · exact postSync_timestamp len d0 d1 hsp ha (h.resolve_left (by decide))

end

/-! ## MI_FLUSH_DW -/

/-- Whether a status write reaches memory depends on the registers and on translation alone. -/
theorem statusOpen_congr {new : Word} {use : Use} (hview : t.xlatView = s.xlatView) (hregs : t.regs = s.regs) :
    t.statusOpen new use = s.statusOpen new use := by
  simp only [State.statusOpen, State.signals, hregs, parserPhys_congr hview]

/-- Every posted write is in memory. -/
def State.drained (s : State) : State := { s with mem := drainAll s.mem s.posted, posted := [] }

/-- The notification comes once every posted write is in memory (R428, log 54). -/
theorem notify_ok (h : s.statusOpen (setBit s.regs.isr 26 true) .event) :
    (do modify fun s => { s with mem := drainAll s.mem s.posted, posted := [] }; raiseInt 26 : M Unit) s =
      .ok (⟨⟩, s.drained.signalled (setBit s.regs.isr 26 true) .event) := by
  have hopen : s.drained.statusOpen (setBit s.regs.isr 26 true) .event := (statusOpen_congr (s := s) rfl rfl).trans h
  rw [run_modify_bind]
  exact raiseInt_ok (s := s.drained) hopen

section
variable {len : BitVec 6} {index tlbInv gfdt : Bool} {op : BitVec 2} {addr : BitVec 29}

/-- A legal flush waits for the engine, and is done when it is idle (R374). -/
theorem miFlushDw_legal (spare notify toGgtt d0 d1) (hop : op ≠ 2) (hnone : op = 0 → tlbInv = false ∧ gfdt = false)
    (hqword : ¬(op = 1 ∧ len = 2 ∧ bit (put 0 3 addr) 5))
    (hpage : ¬(index ∧ op ≠ 0 ∧ s.secure = false ∧ s.ppgttEnabled)) :
    exec (.miFlushDw len spare index tlbInv gfdt op notify addr toGgtt d0 d1) s = M.outcome
      (if s.engineBusy then setRun (.waitFlush (.miFlushDw len spare index tlbInv gfdt op notify addr toGgtt d0 d1))
      else do
        modify State.flushCaches
        onlyIf tlbInv (modify State.invalidateTlbs)
        postSync len index op (put 0 3 addr) toGgtt d0 d1
        onlyIf notify do
          modify fun s => { s with mem := drainAll s.mem s.posted, posted := [] }
          raiseInt 26
        finish (len.toNat + 2)) s := by
  have hform : (!(tlbInv && op == 0) && !(gfdt && op == 0)) = true := by
    by_cases h0 : op = 0
    · obtain ⟨rfl, rfl⟩ := hnone h0
      rfl
    · rw [beq_false_of_ne h0, Bool.and_false, Bool.and_false]
      rfl
  refine outcome_congr ?_
  rw [require_bind (bne_iff_ne.mpr hop), require_bind hform, require_bind (by simpa [imp_iff_not_or, or_assoc] using hqword),
    require_bind (by simpa [imp_iff_not_or, or_assoc] using hpage)]

end

/-- Settles O32: caches and TLBs, then the post-sync write, then the notification, none of which moves `pc` before the end. -/
theorem miFlushDwCompletes : Obligations.MiFlushDwCompletes := by
  unfold Obligations.MiFlushDwCompletes
  intro len spare index tlbInv gfdt op notify addr toGgtt d0 d1 s cmd w u sp a bytes v hop hnone hqword hpage
  have hrun := miFlushDw_legal (s := s) spare notify toGgtt d0 d1 hop hnone hqword hpage
  refine ⟨fun hbusy => hrun.trans (outcome_ok (by rw [if_pos hbusy]; rfl)), fun hidle hphys hc => ?_⟩
  have hu : (if tlbInv = true then s.flushCaches.invalidateTlbs else s.flushCaches) = u := rfl
  have hregs : u.regs = s.regs ∧ u.parser = s.parser := by
    rw [← hu]
    split <;> exact ⟨rfl, rfl⟩
  obtain ⟨huregs, huparser⟩ := hregs
  have hsp : (if index = true then .ggtt else flushSpace u toGgtt) = sp := by
    simp only [sp, flushSpace, State.secure, huparser]
    cases index <;> simp
  have hpost := postSync_ok (s := u) len d0 d1 hop hsp (by rw [huregs]) hphys
  have hv : v.regs = u.regs ∧ v.parser = u.parser ∧ v.xlatView = u.xlatView := by
    simp only [v]
    split <;> exact ⟨rfl, rfl, rfl⟩
  obtain ⟨hvregs, hvparser, hvview⟩ := hv
  have hcv : v.canAdvance (len.toNat + 2) := by
    rw [canAdvance_congr (s := s) (by rw [hvparser, huparser]) (by rw [hvparser, huparser]) (by rw [hvregs, huregs])
      (by rw [hvregs, huregs])]
    exact hc
  rw [huregs] at hpost
  rw [hrun, if_neg (by rw [hidle]; exact Bool.false_ne_true)]
  refine ⟨fun hn => outcome_ok ?silent, fun hn hopen => outcome_ok ?notified⟩ <;>
    rw [run_modify_bind, onlyIf_modify_bind, hu, bind_ok hpost, hn]
  case silent => exact finish_ok hcv
  case notified =>
    have hisr : v.regs.isr = s.regs.isr := by rw [hvregs, huregs]
    have hnotify := notify_ok (s := v) (by rw [hisr, statusOpen_congr hvview hvregs]; exact hopen)
    rw [hisr] at hnotify
    exact (bind_ok hnotify).trans (finish_ok ((canAdvance_signalled ..).trans hcv))

/-! ## MI_DISPLAY_FLIP -/

/-- A command follows in a batch buffer, or in the ring before the tail (R207, log 50). -/
theorem checkFollowing_ok (h : s.parser.inBatch ∨ s.regs.headOff ≠ s.regs.tailOff) : checkFollowing s = .ok (⟨⟩, s) := by
  unfold checkFollowing
  rw [run_get_bind]
  exact require_ok (by simpa using h)

/-- The request joins those of the display engine in place of synchronous ones of its plane, whose pending flag is set (R387). -/
def State.flipped (s : State) (f : Flip) : State :=
  { s with
    flips := (s.flips.filter fun g => g.plane != f.plane || g.async) ++ [f]
    regs := { s.regs with syncFlip := s.regs.syncFlip ||| flipPendingBit f.plane.toNat f.async } }

/-- A flip request plays no part in where the head and the tail lie. -/
theorem advanced_flipped_following (f : Flip) {n : Nat}
    (h : s.parser.inBatch ∨ (s.advanced n).regs.headOff ≠ s.regs.tailOff) :
    ((s.flipped f).advanced n).parser.inBatch ∨
      ((s.flipped f).advanced n).regs.headOff ≠ ((s.flipped f).advanced n).regs.tailOff := by
  have hhead : ((s.flipped f).advanced n).regs.headOff = (s.advanced n).regs.headOff := by
    simp only [Regs.headOff, State.advanced_head]
    rfl
  have htail : ((s.flipped f).advanced n).regs.tailOff = s.regs.tailOff := by
    simp only [Regs.tailOff, State.advanced_tail]
    rfl
  rw [State.advanced_inBatch, hhead, htail]
  exact h

/-- Settles O33: a legal request is handed over, and the command is done where another follows. -/
theorem miDisplayFlipCompletes : Obligations.MiDisplayFlipCompletes := by
  unfold Obligations.MiDisplayFlipCompletes
  intro len async plane pitch tiled base s hplane hasync hline hc hfollow
  have htiled : (!async || tiled) = true := by
    cases async with
    | false => rfl
    | true => exact (hasync rfl).1
  have hmain : (!async || plane == 0 || plane == 1 || plane == 4) = true := by
    cases async with
    | false => rfl
    | true => simpa [or_assoc] using (hasync rfl).2
  refine outcome_ok ?_
  rw [require_bind (by cases async <;> simp [hplane]), require_bind (by cases async <;> rfl), require_bind htiled,
    require_bind hmain, require_bind hline, run_modify_bind, run_onRegs_bind, finishWith_ok (by exact hc)]
  exact checkFollowing_ok (advanced_flipped_following (⟨plane, async, tiled, pitch, base⟩ : Flip) hfollow)

end Sys2Proof.Machine
end

section
/-! PROOFS. RESET (R480): the machine it leaves, and what its debug registers then read. -/

namespace Sys2Proof.Machine

variable {s : State}

/-! ## The state after reset -/

/-- Settles O39: memory, caches and tables are empty, and the printed defaults have their reserved bits as specified. -/
theorem resetMeetsInv : Obligations.ResetMeetsInv := by
  unfold Obligations.ResetMeetsInv
  exact (State.inv_iff _).mpr ⟨⟨⟨rfl, rfl, rfl⟩, rfl, rfl, rfl, rfl⟩, Regs.reset_ok, rfl, rfl, rfl⟩

/-! ## The step at the event -/

/-- Bits that are 0 already are the same when they are cleared. -/
theorem and_not_eq_self {w m : Word} (h : w &&& m = 0) : w &&& ~~~m = w := by
  calc w &&& ~~~m = (w &&& m) ||| (w &&& ~~~m) := by rw [h]; exact BitVec.zero_or.symm
    _ = w &&& (m ||| ~~~m) := (BitVec.and_or_distrib_left ..).symm
    _ = w := by rw [show m ||| ~~~m = BitVec.allOnes 32 by ext i; simp]; exact BitVec.and_allOnes

/-- The ISR becoming what it is signals nothing. -/
theorem signalled_self_xlats (s : State) (use : Use) : (s.signalled s.regs.isr use).xlats = s.xlats := by
  rw [signalled_silent (by simp [State.signals, needsStatusWrite])]

/-- What RESET keeps of a state whose step has just begun is what it keeps of the state before; the status write that ends a pulse
adds to the record of translations alone. -/
theorem beginStep_afterReset {es : List EnvEvent} {full : Bool}
    (h : s.statusOpen (s.regs.isr &&& ~~~pulseInts) .pulse) (hs : s.schedule = .reset full :: es) :
    ∃ t, beginStep s = .ok (⟨⟩, t) ∧ t.schedule = .reset full :: es ∧
      State.afterReset { t with schedule := es } full = State.afterReset { s with
        xlats := (s.signalled (s.regs.isr &&& ~~~pulseInts) .pulse).xlats, schedule := es } full := by
  refine ⟨_, beginStep_ok h, ?_, ?_⟩
  · split <;> exact hs
  · split
    · next hnone =>
      rw [and_not_eq_self hnone, signalled_self_xlats]
      rfl
    · rfl

/-- RESET acts at once, whatever the machine was doing (R480). -/
theorem step_reset {es : List EnvEvent} {full : Bool}
    (h : s.statusOpen (s.regs.isr &&& ~~~pulseInts) .pulse) (hs : s.schedule = .reset full :: es) :
    step s = .next (State.afterReset { s with
      xlats := (s.signalled (s.regs.isr &&& ~~~pulseInts) .pulse).xlats, schedule := es } full) := by
  obtain ⟨t, hbegin, hsched, hreset⟩ := beginStep_afterReset h hs
  refine outcome_ok ?_
  unfold stepM
  rw [bind_ok hbegin, run_get_bind, hsched, ← hreset]
  rfl

/-! ## The debug registers after reset -/

/-- The debug views of the TLBs and of the PD TLB lie in four blocks of 64 registers (R63 to R66). -/
theorem regRead_tlbVa (s : State) {off : Nat} (h : 0x24800 ≤ off ∧ off < 0x24C00) : regRead s off = some
    (if 0x24800 ≤ off ∧ off < 0x24900 then s.tlbVa .bcs ((off - 0x24800) / 4)
    else if 0x24900 ≤ off ∧ off < 0x24A00 then s.tlbVa .blb ((off - 0x24900) / 4)
    else if 0x24A00 ≤ off ∧ off < 0x24B00 then 0
    else s.pdVa ((off - 0x24B00) / 4)) := by
  unfold regRead
  split
  case h_37 =>
    rw [if_neg (by omega), if_neg (by omega)]
    by_cases h1 : 0x24800 ≤ off ∧ off < 0x24900
    · simp only [if_pos h1]
    by_cases h2 : 0x24900 ≤ off ∧ off < 0x24A00
    · simp only [if_neg h1, if_pos h2]
    by_cases h3 : 0x24A00 ≤ off ∧ off < 0x24B00
    · simp only [if_neg h1, if_neg h2, if_pos h3]
    · simp only [if_neg h1, if_neg h2, if_neg h3, if_pos (show 0x24B00 ≤ off ∧ off < 0x24C00 by omega)]
  all_goals omega

/-- With the TLBs empty, every one of their debug views reads 0. -/
theorem regRead_tlbVa_reset {off : Nat} (h : 0x24800 ≤ off ∧ off < 0x24C00) : regRead State.reset off = some 0 := by
  have htlb (u : TlbUnit) (k : Nat) : State.reset.tlbVa u k = 0 := rfl
  have hpd (k : Nat) : State.reset.pdVa k = 0 := rfl
  rw [regRead_tlbVa _ h, htlb, htlb, hpd]
  simp only [ite_self]

/-- With no translation pending, every entry of the table reads 0 (R74). -/
theorem pendEntry_reset (k : Nat) : Regs.reset.pendEntry k = 0 := by
  have hsec : Regs.reset.pendSec1.toList.getD k 0 = 0 := by
    rw [show Regs.reset.pendSec1.toList = List.replicate 64 0 from Vector.toList_replicate]
    exact (List.getD_eq_getElem?_getD ..).trans (List.getElem?_getD_replicate_default_eq _ _ _)
  rw [Regs.pendEntry, hsec]
  rfl

/-- Settles O40: the event is the reset itself; the machine it leaves is written out; and each debug register reads an empty view. -/
theorem resetActs : Obligations.ResetActs := by
  unfold Obligations.ResetActs
  refine ⟨fun s full es h hs => step_reset h hs, rfl, fun off hoff _ => ?_⟩
  rcases hoff with rfl | hpend | hlist | htlb
  · rfl
  · rw [regRead_tlbpendSec1 _ hpend]
    exact congrArg some (pendEntry_reset _)
  · simp only [List.mem_cons, List.not_mem_nil, or_false] at hlist
    obtain rfl | rfl | rfl | rfl | rfl | rfl := hlist <;> rfl
  · exact regRead_tlbVa_reset htlb

end Sys2Proof.Machine
end

section
/-! PROOFS. The data hang (R435, D5): an immediate command with a wrong amount of data loads its registers and hangs engine and
parser; one whose length does not cover its fixed DWords hangs them where it stands in the stream (R181, D17). -/

namespace Sys2Proof.Machine

variable {s : State}

/-! ## A wrong amount of data -/

theorem runDraw_hang {d : Draw} {f : Word → Job} (h : (f s.regs.swctrl).wrongAmount (rectHeight d.rect)) :
    runDraw d f s = .error (.next s.dataHung) := by
  unfold runDraw
  rw [run_get_bind]
  exact drawXY_hang h

theorem runCopy_hang {d : Draw} {c : ColorSrc} {f : Word → Job}
    (h : Job.wrongAmount { f s.regs.swctrl with src := copySource d.rect c s.regs.swctrl } (copyHeight d.rect c)) :
    runCopy d c f s = .error (.next s.dataHung) := by
  unfold runCopy
  rw [run_get_bind]
  exact drawXY_hang h

theorem drawDependent_hang {tiled : Bool} {b : Box} {f : Setup → Job → Job}
    (h : (f s.setup (setupJob s.setup s.regs.swctrl tiled)).wrongAmount (b.bottom - b.top).toNat) :
    drawDependent tiled b f s = .error (.next s.dataHung) := by
  unfold drawDependent
  rw [run_get_bind]
  exact drawXY_hang h

/-! ## A length that does not cover the fixed DWords -/

/-- The length of an immediate command that is underfed announces fewer DWords than the command has fixed ones (R181). -/
theorem dwords_lt_fixed {o : Op} {w : Word} (hu : o.underfed w) : o.dwords w < o.row.fixed := by
  have hfits := o.len_fits
  unfold Op.underfed at hu
  unfold Op.dwords
  cases hk : o.row.len with
  | atLeast const =>
    simp only [hk, decide_eq_true_eq, LenKind.fits, beq_iff_eq] at hu hfits
    rw [if_neg (by simp), hfits]
    omega
  | _ => simp [hk] at hu

/-- Such a command does not decode (R181). -/
theorem decode_underfed {o : Op} {ws : List Word} (ho : Op.ofHeader (ws.getD 0 0) = some o) (hu : o.underfed (ws.getD 0 0))
    (hlen : ws.length = o.dwords (ws.getD 0 0)) : ∃ e, decode ws = .error e := by
  cases hd : decode ws with
  | error e => exact ⟨e, rfl⟩
  | ok i =>
    obtain ⟨o', ho', hfixed, -⟩ := decode_ok_iff.mp hd
    obtain rfl : o' = o := Option.some.inj (ho'.symm.trans ho)
    exact absurd hfixed (not_le.mpr (hlen ▸ dwords_lt_fixed hu))

/-- The engine that takes such a command hangs, and then the parser, `pc` having moved on (R435, log 34). -/
theorem starve_ok {o : Op} {n : Nat} (hc : s.canAdvance n)
    (hf : s.parser.inBatch ∨ (s.advanced n).regs.headOff ≠ s.regs.tailOff) :
    starve o n s = .error (.next { s.advanced n with
      engine := ⟨.hung, s.parser.space⟩, parser := { (s.advanced n).parser with run := .hung } }) := by
  unfold starve
  rw [bind_ok (handTo_ok hc fun _ hb => hf.resolve_left (by simp [hb]))]
  rfl

/-- An underfed command is fetched, and starves the engine that is free to take it (R370, R435). -/
theorem runCommand_underfed {o : Op} {ws : List Word} {defer : Bool} (hat : s.atCommand ws)
    (ho : Op.ofHeader (ws.getD 0 0) = some o) (hu : o.underfed (ws.getD 0 0)) (hlen : ws.length = o.dwords (ws.getD 0 0))
    (hr : o.reservedOk (fun k => ws.getD k 0)) :
    runCommand defer s = whenIdle (starve o ws.length) (s.taken ws.length) := by
  obtain ⟨e, hdecode⟩ := decode_underfed ho hu hlen
  unfold runCommand
  rw [bind_ok (fetchCommand_ok hat ho (by rw [hu, Bool.or_true]) hlen)]
  simp only [hr, Bool.not_true, Bool.false_eq_true, if_false, hdecode]

/-- The step at an underfed command (R181, D17, log 34). -/
theorem step_underfed {o : Op} {ws : List Word} (hat : s.atCommand ws) (ho : Op.ofHeader (ws.getD 0 0) = some o)
    (hu : o.underfed (ws.getD 0 0)) (hlen : ws.length = o.dwords (ws.getD 0 0)) (hr : o.reservedOk (fun k => ws.getD k 0))
    (he : s.engine.run = .idle) (hc : s.canAdvance ws.length)
    (hf : s.parser.inBatch ∨ (s.advanced ws.length).regs.headOff ≠ s.regs.tailOff) :
    step s = .next { (s.taken ws.length).advanced ws.length with
      engine := ⟨.hung, if s.parser.inBatch then s.parser.batchSpace else .ggtt⟩
      parser := { (s.advanced ws.length).parser with run := .hung } } := by
  obtain ⟨l, hl⟩ := fetched_eq s s.fetchPoint.space s.fetchPoint.addr ws.length
  have hrun := (stepM_atCommand hat (.inl he)).trans (runCommand_underfed hat ho hu hlen hr)
  rw [State.taken, hl] at hrun
  rw [State.taken, hl, advanced_fetched]
  have hidle : whenIdle (starve o ws.length) { s with xlats := l } =
      starve o ws.length { s with xlats := l, parser := { s.parser with run := .running } } := by
    simp [whenIdle, State.engineBusy, he]
  have hstarve := starve_ok (o := o) (n := ws.length)
    (s := { s with xlats := l, parser := { s.parser with run := .running } }) hc (by rw [advanced_fetched_running]; exact hf)
  rw [advanced_fetched_running] at hstarve
  exact outcome_error (hrun.trans (hidle.trans hstarve))

/-! ## The six immediate commands -/

/-- Settles O49: each command loads its registers and then meets the data hang of its job; the underfed one is handed over and
hangs the engine that takes it. -/
theorem wrongDataAmountHangs : Obligations.WrongDataAmountHangs := by
  unfold Obligations.WrongDataAmountHangs
  refine ⟨?text, ?pattern, ?patternChroma, ?monoSource, ?fullPattern, ?fullMonoSource, ?underfed⟩
  case text =>
    intro len tiled packed r data s j h
    refine outcome_error ?_
    rw [latchDependent_bind, latchRect_bind]
    exact drawDependent_hang h
  case pattern =>
    intro len d seeds data s j h
    refine outcome_error ?_
    rw [latchDraw_bind, latchSeeds_bind]
    exact runDraw_hang h
  case patternChroma =>
    intro len d mode seeds lo hi data s j hmode h
    refine outcome_error ?_
    rw [latchDraw_bind, latchSeeds_bind, latchKey_bind, checkPatMode_bind hmode]
    exact runDraw_hang h
  case monoSource =>
    intro len d transp start bg fg data s j h
    refine outcome_error ?_
    rw [latchDraw_bind, latchStart_bind, run_onBr_bind]
    exact runDraw_hang h
  case fullPattern =>
    intro len d hseed c data s j h
    refine outcome_error ?_
    rw [latchDraw_bind, latchSeeds_bind, latchSource_bind]
    exact runCopy_hang h
  case fullMonoSource =>
    intro len d transp start hseed src bg fg data s j h
    refine outcome_error ?_
    rw [latchDraw_bind, latchSeeds_bind, latchStart_bind, run_onBr_bind]
    exact runDraw_hang h
  case underfed => exact fun s o ws => step_underfed

end Sys2Proof.Machine
end

section
/-! PROOFS. Page faults (R430, R431): an access without a translation hangs its agent or goes on, and what that makes of a posted
write, of the fetch of a command, and of the write of one pixel. -/

namespace Sys2Proof.Machine

variable {s : State} {f : XlatFault}

/-! ## An access that faults -/

/-- A fault hangs unless GAB_CTL_REG bit 8 lets it continue, and always where a directory set is not enabled (R430, D33). -/
theorem faultHangs_eq_true {r : Regs} (h : bit r.gabCtl 8 = false ∨ f = .directorySet) : faultHangs r f = true := by
  rcases h with h | rfl
  · simp [faultHangs, h]
  · rfl

theorem faultHangs_eq_false {r : Regs} (h : bit r.gabCtl 8) (hf : f ≠ .directorySet) : faultHangs r f = false := by
  simp [faultHangs, h, hf]

section
variable {a : Agent} {st w : Bool} {sp : Space} {addr : Nat} {use : Use} (ht : s.translate a.tlb sp addr w use = .error f)
include ht

/-- The agent hangs, and the step ends. -/
theorem access_hangs (hf : bit s.regs.gabCtl 8 = false ∨ f = .directorySet)
    (h : s.faultHungOpen a (gabBit st f) fun rise => .fault rise addr w use) :
    access a st sp addr w use s = .error (.next (s.faultHung a (gabBit st f) fun rise => .fault rise addr w use)) := by
  unfold access
  rw [run_get_bind, ht]
  exact bind_error (takePageFault_hangs (faultHangs_eq_true hf) h)

/-- The access goes nowhere, and the command goes on. -/
theorem access_continues (hc : bit s.regs.gabCtl 8) (hf : f ≠ .directorySet)
    (h : s.faultPassedOpen a (gabBit st f) fun rise => .fault rise addr w use) :
    access a st sp addr w use s = .ok (none, s.faultPassed a (gabBit st f) fun rise => .fault rise addr w use) := by
  unfold access
  rw [run_get_bind, ht]
  exact bind_ok (takePageFault_continues (faultHangs_eq_false hc hf) h)

end

/-! ## A posted write that faults -/

section
variable {st : Bool} {sp : Space} {a n : Nat} {l : List Byte} {use : Use} {next : PUnit → M Unit}
  (ht : s.translate .bcs sp a true use = .error f)
include ht

theorem post_hangs (hf : bit s.regs.gabCtl 8 = false ∨ f = .directorySet)
    (h : s.faultHungOpen .parser (gabBit st f) fun rise => .fault rise a true use) :
    (post st sp a l use >>= next) s = .error (.next (s.faultHung .parser (gabBit st f) fun rise => .fault rise a true use)) :=
  bind_error (bind_error (access_hangs (a := .parser) ht hf h))

/-- The write is lost, and the command is done (D33, log 14). -/
theorem post_continues (hc : bit s.regs.gabCtl 8) (hf : f ≠ .directorySet)
    (h : s.faultPassedOpen .parser (gabBit st f) fun rise => .fault rise a true use) (hn : s.canAdvance n) :
    (post st sp a l use >>= fun _ => finish n) s =
      .ok (⟨⟩, (s.faultPassed .parser (gabBit st f) fun rise => .fault rise a true use).advanced n) :=
  (bind_ok (bind_ok (access_continues (a := .parser) ht hc hf h))).trans (finish_ok hn)

end

/-- MI_STORE_DATA_IMM with a DWord, where it is not privileged, is a posted write (R380). -/
theorem miStoreDataImm_dword (ggtt : Bool) (addr : BitVec 30) (d0 d1 : Word) (hpriv : ggtt = false ∨ s.secure)
    (hsp : ggtt ∨ s.ppgttEnabled) : exec (.miStoreDataImm 2 ggtt addr d0 d1) s =
      M.outcome (post false (spaceOf ggtt) (put 0 2 addr : Word).toNat (wordBytes d0) >>= fun _ => finish 4) s := by
  refine outcome_congr ?_
  rw [checkGlobal_bind hsp, if_neg (by rw [violates_eq_false hpriv]; exact Bool.false_ne_true), if_neg (by decide)]
  rfl

/-- MI_STORE_DATA_INDEX with a DWord beyond the first sixteen is a posted write to the status page (R381). -/
theorem miStoreDataIndex_dword (offset : BitVec 10) (d0 d1 : Word) (hw : s.regs.hwsPgaWritten) (h16 : 16 ≤ offset.toNat) :
    exec (.miStoreDataIndex 1 offset d0 d1) s =
      M.outcome (post true .ggtt (s.regs.hwsp + 4 * offset.toNat) (wordBytes d0) >>= fun _ => finish 3) s := by
  refine outcome_congr ?_
  rw [require_bind hw, require_bind (decide_eq_true h16), if_neg (by decide)]
  rfl

/-- A fault of the status page has a GAB error bit of its own where its entry is invalid (R431). -/
theorem gabBit_statusPage (f : XlatFault) : gabBit true f = if f = .page then 7 else gabBit false f := by
  cases f <;> rfl

/-! ## A fetch that faults -/

/-- The fetch of DWord 0 of a command ends the step in its fault (R210, R430). -/
theorem runCommand_hangs {defer : Bool} (hat : s.atCommand [])
    (ht : s.translate .bcs s.fetchPoint.space s.fetchPoint.addr false .fetch = .error f)
    (hf : bit s.regs.gabCtl 8 = false ∨ f = .directorySet)
    (h : s.faultHungOpen .parser (gabBit false f) fun rise => .fault rise s.fetchPoint.addr false .fetch) :
    runCommand defer s =
      .error (.next (s.faultHung .parser (gabBit false f) fun rise => .fault rise s.fetchPoint.addr false .fetch)) := by
  obtain ⟨_, hahead, _, _, _, _, _, hring, _, _⟩ := atCommand_facts hat
  have hword : commandWord (!s.parser.inBatch) s.fetchPoint.space s.fetchPoint.addr s = .error (.next
      (s.faultHung .parser (gabBit false f) fun rise => .fault rise s.fetchPoint.addr false .fetch)) := by
    simp only [commandWord, run_get_bind, hahead, List.find?_nil]
    exact bind_error (access_hangs (a := .parser) ht hf h)
  refine bind_error ?_
  unfold fetchCommand
  rw [run_get_bind, if_neg (by rcases hring with hb | hb <;> simp [hb])]
  exact bind_error hword

/-! ## A pixel that faults -/

/-- An access of the engine in the address space (R121) is made once what was to happen before it has happened (R162, R165). -/
theorem engineAccess_inRange {a : Int} {n : Nat} {w : Bool} {use : Use} (h : 0 ≤ a ∧ a + n ≤ 0x100000000) :
    engineAccess a n w use s = access .engine false s.engine.space a.toNat w use (s.midway use w) := by
  have hengine : (s.midway use w).engine = s.engine := by
    obtain ⟨_, _, _, _, _, he⟩ := s.midway_eq use w
    rw [he]
  unfold engineAccess checkRange
  rw [bind_ok (a := a.toNat) (s' := s) ((require_bind (by simpa using h)).trans rfl), run_modify_bind, run_get_bind, hengine]

theorem midway_gabCtl (use : Use) (w : Bool) : (s.midway use w).regs.gabCtl = s.regs.gabCtl := by
  obtain ⟨_, _, _, _, _, he⟩ := s.midway_eq use w
  rw [he]

section
variable {j : Job} {ov : Nat → Nat → Bool} {c : Bool} {x y a : Int} {v : Word} (hw : j.writesBytes)
  (ha : j.dst.addr (bpp j.depth) x y = a) (hr : 0 ≤ a ∧ a + bpp j.depth ≤ 0x100000000)
  (ht : s.translate .blb s.engine.space a.toNat true (.dest x y) = .error f)
include hw ha hr ht

theorem writeDest_hangs (hf : bit s.regs.gabCtl 8 = false ∨ f = .directorySet)
    (h : (s.midway (.dest x y) true).faultHungOpen .engine (gabBit false f) fun rise => .fault rise a.toNat true (.dest x y)) :
    writeDest j ov c x y v s = .error (.next ((s.midway (.dest x y) true).faultHung .engine (gabBit false f)
      fun rise => .fault rise a.toNat true (.dest x y))) := by
  have haccess := access_hangs (a := .engine) (st := false) (((midway_sameBut s _ true).translate ..).trans ht)
    (by rw [midway_gabCtl]; exact hf) h
  unfold writeDest
  simp only [hw, onlyIf_true, ha]
  exact bind_error ((engineAccess_inRange hr).trans haccess)

/-- The pixel is lost, and the command goes on (D33, log 14). -/
theorem writeDest_continues (hc : bit s.regs.gabCtl 8) (hf : f ≠ .directorySet)
    (h : (s.midway (.dest x y) true).faultPassedOpen .engine (gabBit false f)
      fun rise => .fault rise a.toNat true (.dest x y)) :
    writeDest j ov c x y v s = .ok (⟨⟩, (s.midway (.dest x y) true).faultPassed .engine (gabBit false f)
      fun rise => .fault rise a.toNat true (.dest x y)) := by
  have haccess := access_continues (a := .engine) (st := false) (((midway_sameBut s _ true).translate ..).trans ht)
    (by rw [midway_gabCtl]; exact hc) hf h
  unfold writeDest
  simp only [hw, onlyIf_true, ha]
  exact (bind_ok ((engineAccess_inRange hr).trans haccess)).trans rfl

end

/-- A pixel of a solid pattern, with no source and no destination to read, is written (R255). -/
theorem drawPixel_solid {j : Job} {ov : Nat → Nat → Bool} {x y : Int} {color : Word} (hpat : j.pat = .solid color)
    (hsrc : j.src = .absent) (hmode : j.mode = 0) (hd : (ropUses j.rop).d = false) :
    drawPixel j ov x y s = writeDest j ov false x y (rop3 j.rop color 0 0) s := by
  have hread : destRead j.rop j.mode = false := by simp [destRead, destMode, hd, hmode]
  have hrange : rangeEnable j.depth j.mode j.lo j.hi 0 0 = true := by simp [rangeEnable, hmode, sourceMode, destMode]
  simp only [drawPixel, patternOperand, sourceOperand, destOperand, hpat, hsrc, hread, Bool.false_eq_true, if_false,
    run_pure_bind, hrange, Bool.and_self, onlyIf_true]

/-- XY_PIXEL_BLT with one pixel to draw and no operand to read is the write of that pixel (R255, R293). -/
theorem xyPixelBlt_eq_writeDest (len : BitVec 8) (tiled : Bool) (x y : BitVec 16) {j : Job}
    (hj : j = { setupJob s.setup s.regs.swctrl tiled with pat := .solid s.setup.br05 })
    (hp : 0 ≤ (setupPen s.setup).pitch.toInt) (hl : j.legal 1) (hd : (ropUses j.rop).d = false)
    (hpx : drawnPixels ⟨x.toInt, y.toInt, x.toInt + 1, y.toInt + 1⟩ (clipOf s.setup (bit s.setup.br01 30)) false false =
      [(x.toInt, y.toInt)]) :
    ∃ ov v, exec (.xyPixelBlt len tiled x y) s = M.outcome (writeDest j ov false x.toInt y.toInt v)
      { s with br := { s.br.withDependent s.setup .xyPixelBlt tiled false with br22 := pointWord x y } } := by
  have hpat : j.pat = .solid s.setup.br05 := by rw [hj]
  have hsrc : j.src = .absent := by rw [hj]; rfl
  have hmode : j.mode = 0 := by rw [hj]; rfl
  have hoverlap (px) (t : State) : overlapOf j conformingXY px t = fun _ _ => false := by simp only [overlapOf, hsrc]
  refine ⟨fun _ _ => false, rop3 j.rop s.setup.br05 0 0, outcome_congr ?_⟩
  rw [latchDependent_bind, run_onBr_bind, require_bind (by simpa using hp)]
  unfold drawDependent
  rw [run_get_bind]
  simp only [← hj]
  rw [drawXY_legal (by simpa using hl), hpx, hoverlap]
  simp only [drawPixels]
  rw [bind_pure]
  exact drawPixel_solid hpat hsrc hmode hd

/-! ## The four forms -/

/-- Settles O48: the two stores are posted writes that fault, the step is a fetch that faults, and the pixel is a write of the
engine that faults. -/
theorem pageFaultTaken : Obligations.PageFaultTaken := by
  unfold Obligations.PageFaultTaken
  refine ⟨?storeImm, ?storeIndex, ?fetch, ?pixel⟩
  case storeImm =>
    intro ggtt addr d0 d1 s f sp a use hpriv hsp ht
    rw [miStoreDataImm_dword ggtt addr d0 d1 hpriv hsp]
    exact ⟨fun hf h => outcome_error (post_hangs ht hf h), fun hc hf h hn => outcome_ok (post_continues ht hc hf h hn)⟩
  case storeIndex =>
    intro offset d0 d1 s f a gab use hw h16 ht
    rw [miStoreDataIndex_dword offset d0 d1 hw h16, show gab = gabBit true f from (gabBit_statusPage f).symm]
    exact ⟨fun hf h => outcome_error (post_hangs ht hf h), fun hc hf h hn => outcome_ok (post_continues ht hc hf h hn)⟩
  case fetch =>
    intro s f use hat he ht hf h
    exact outcome_error ((stepM_atCommand hat he).trans (runCommand_hangs hat ht hf h))
  case pixel =>
    intro len tiled x y s f j a use t hp hl hd hw hpx h0 hn ht
    obtain ⟨ov, v, hexec⟩ := xyPixelBlt_eq_writeDest len tiled x y rfl hp hl hd hpx
    rw [hexec]
    have htrans : State.translate { s with
        br := { s.br.withDependent s.setup .xyPixelBlt tiled false with br22 := pointWord x y } } .blb s.engine.space
        a.toNat true (.dest x.toInt y.toInt) = .error f := (translate_congr (s := s) rfl ..).trans ht
    exact ⟨fun hf h => outcome_error (writeDest_hangs hw rfl ⟨h0, hn⟩ htrans hf h),
      fun hc hf h => outcome_ok (writeDest_continues hw rfl ⟨h0, hn⟩ htrans hc hf h)⟩

end Sys2Proof.Machine
end

section
/-! PROOFS. What an operation leaves: how operations that keep a property of the state combine, and which properties the shared
operations keep, whatever their accesses meet. -/

namespace Sys2Proof.Machine

variable {α β : Type} {I J : State → Prop} {s t : State}

/-! ## Operations that keep a property -/

/-- Run in `s`, the operation goes on, or ends the step, in a state with the property, if in a state at all. -/
def Leaves (I : State → Prop) (m : M α) (s : State) : Prop :=
  match m s with
  | .ok (_, t) => I t
  | .error (.next t) => I t
  | .error _ => True

/-- From every state with the property the operation leaves one. -/
def Stays (I : State → Prop) (m : M α) : Prop := ∀ s, I s → Leaves I m s

theorem Leaves.bind {m : M α} {f : α → M β} (hm : Leaves J m s) (hJ : ∀ t, J t → I t) (hf : ∀ a t, J t → Leaves I (f a) t) :
    Leaves I (m >>= f) s := by
  unfold Leaves at hm ⊢
  rw [run_bind]
  generalize m s = o at hm ⊢
  rcases o with o | ⟨a, t⟩
  · cases o with
    | next t => exact hJ t hm
    | fault => trivial
    | refused => trivial
  · exact hf a t hm

theorem Leaves.outcome {m : M Unit} (hm : Leaves I m s) (ht : M.outcome m s = .next t) : I t := by
  unfold Leaves at hm
  rcases (outcome_next_iff m s t).mp ht with ht | ht <;> rw [ht] at hm <;> exact hm

theorem Stays.pure (a : α) : Stays I (pure a : M α) := fun _ hs => hs

theorem Stays.bind {m : M α} {f : α → M β} (hm : Stays I m) (hf : ∀ a, Stays I (f a)) : Stays I (m >>= f) :=
  fun s hs => (hm s hs).bind (fun _ ht => ht) hf

/-- One operation after another. -/
theorem Stays.seq {m : M PUnit} {f : PUnit → M β} (hm : Stays I m) (hf : Stays I (f ⟨⟩)) : Stays I (m >>= f) :=
  hm.bind fun _ => hf

/-- An operation that looks at the state, which has the property. -/
theorem Stays.get {f : State → M β} (h : ∀ s, I s → Stays I (f s)) : Stays I ((MonadState.get : M State) >>= f) :=
  fun s hs => h s hs s hs

theorem Stays.refuse (r : Refusal) : Stays I (refuse r : M α) := fun _ _ => trivial

theorem Stays.stop (f : Fault) : Stays I (stop f : M α) := fun _ _ => trivial

theorem Stays.halt : Stays I (halt : M α) := fun _ hs => hs

/-- A requirement, and what follows it where it is met. -/
theorem Stays.require {c : Bool} {r : Refusal} {f : PUnit → M β} (h : c = true → Stays I (f ⟨⟩)) :
    Stays I (require c r >>= f) := by
  cases c with
  | true => exact .seq (.pure _) (h rfl)
  | false => exact fun s _ => by simp only [Leaves, require_bind_not rfl]

theorem Stays.ite {c : Prop} [Decidable c] {m m' : M α} (hm : c → Stays I m) (hm' : ¬c → Stays I m') :
    Stays I (if c then m else m') := by
  split
  · exact hm ‹_›
  · exact hm' ‹_›

theorem Stays.onlyIf {c : Bool} {m : M Unit} (hm : Stays I m) : Stays I (onlyIf c m) := .ite (fun _ => hm) fun _ => .pure _

theorem Stays.modify {g : State → State} (h : ∀ s, I s → I (g s)) : Stays I (modify g : M PUnit) := h

theorem Stays.set (h : I t) : Stays I (set t : M PUnit) := fun _ _ => h

theorem Stays.ofOutcome {f : State → Host.Outcome State Fault Refusal} (h : ∀ s t, I s → f s = .next t → I t) :
    Stays I (M.ofOutcome f) := by
  intro s hs
  unfold Leaves M.ofOutcome
  cases hf : f s with
  | next t => exact h s t hs hf
  | fault r => trivial
  | refused r => trivial

/-! ## What only the host and a privileged command may change -/

/-- The registers as protection sees them (R441, D35): those a non-secure command may change, and the status bits and mode bit
it may change, are blotted out. -/
def Regs.guarded (r : Regs) : Regs :=
  { r with
    ctl := r.ctl ||| 0xC00
    miMode := r.miMode ||| 0x8000
    isr := 0
    iir := 0
    eir := 0
    gabErr := 0
    faultPending := false
    swctrl := 0
    ppDclv := 0
    bltMode := 0
    syncFlip := 0
    nopid := 0 }

/-- A bit that is blotted out may change. -/
theorem setBit_or {w m : Word} {i : Nat} (b : Bool) (h : (1#32 <<< i) ||| m = m) : setBit w i b ||| m = w ||| m := by
  have hbit (j : Nat) : ((1#32 <<< i).getLsbD j || m.getLsbD j) = m.getLsbD j := by rw [← BitVec.getLsbD_or, h]
  cases b with
  | true => rw [setBit, if_pos rfl, BitVec.or_assoc, h]
  | false =>
    apply BitVec.eq_of_getLsbD_eq
    intro j hj
    have hj' := hbit j
    rw [setBit, if_neg Bool.false_ne_true]
    generalize (1#32 <<< i) = b at hj' ⊢
    rw [BitVec.getLsbD_or, BitVec.getLsbD_and, BitVec.getLsbD_not, BitVec.getLsbD_or, ← hj', decide_eq_true hj]
    cases b.getLsbD j <;> simp

/-- RBWait and Semaphore Wait are blotted out (R90). -/
theorem Regs.guarded_ctl (r : Regs) {i : Nat} (b : Bool) (hi : i = 10 ∨ i = 11) :
    ({ r with ctl := setBit r.ctl i b } : Regs).guarded = r.guarded := by
  have h : setBit r.ctl i b ||| 0xC00 = r.ctl ||| 0xC00 := setBit_or b (by rcases hi with rfl | rfl <;> rfl)
  simp only [Regs.guarded, h]

/-! ## Interrupts and accesses of the parser -/

/-- A property that is blind to interrupts, to what is posted and noted, and to a hang of the parser: what a fault changes. -/
structure Robust (I : State → Prop) : Prop where
  regs : ∀ {s : State} (r : Regs), I s → r.guarded = s.regs.guarded → I { s with regs := r }
  hang : ∀ {s : State}, I s → I { s with parser := { s.parser with run := .hung } }
  record : ∀ {s : State} (x : List TlbEntry) (q : List (List Host.Cell)) (n : Nat), I s →
    I { s with xlats := x, posted := q, freeCount := n }

section
variable (h : Robust I)
include h

theorem Robust.onRegs {f : Regs → Regs} (hf : ∀ r, (f r).guarded = r.guarded) : Stays I (onRegs f) :=
  fun _ hs => h.regs _ hs (hf _)

theorem Robust.hangParser : Stays I (Machine.hang .parser) := fun _ hs => h.hang hs

theorem Robust.latchIsr (new : Word) : Stays I (latchIsr new) := h.onRegs fun _ => rfl

theorem Robust.statusWriteFault (f : XlatFault) : Stays I (statusWriteFault f) :=
  .seq (h.onRegs fun _ => rfl) (.get fun _ _ => .ite
    (fun _ => .seq (h.onRegs fun _ => rfl) (.seq (h.latchIsr _) (.seq h.hangParser .halt)))
    fun _ => .seq (h.latchIsr _) (h.latchIsr _))

theorem Robust.statusWrite (use : Use) : Stays I (statusWrite use) := by
  refine .get fun s hs => ?_
  split
  · exact .set (h.record (s := s) _ _ _ hs)
  · exact h.statusWriteFault _

theorem Robust.setIsr (use : Use) (new : Word) : Stays I (setIsr use new) :=
  .get fun _ _ => .seq (h.latchIsr new) (.onlyIf (h.statusWrite use))

theorem Robust.refresh : Stays I refresh := .seq (h.onRegs fun _ => rfl) (.get fun _ _ => h.setIsr _ _)

theorem Robust.raiseInt (b : Nat) : Stays I (raiseInt b) := .get fun _ _ => h.setIsr _ _

theorem Robust.dropPulses : Stays I dropPulses := .get fun _ _ => .ite (fun _ => .pure _) fun _ => h.setIsr _ _

/-- A page fault of the parser (R430). -/
theorem Robust.takePageFault (st : Bool) (use : Bool → Use) (f : XlatFault) : Stays I (takePageFault .parser st use f) :=
  .seq (h.onRegs fun _ => rfl) (.get fun _ _ => .ite
    (fun _ => .seq (h.onRegs fun _ => rfl) (.seq h.hangParser (.seq (h.setIsr _ _) .halt)))
    fun _ => .seq (h.setIsr _ _) (.get fun _ _ => h.setIsr _ _))

theorem Robust.access (st : Bool) (sp : Space) (addr : Nat) (w : Bool) (use : Use) :
    Stays I (access .parser st sp addr w use) := by
  refine .get fun s hs => ?_
  split
  · exact .seq (.set (h.record _ _ _ hs)) (.pure _)
  · exact .seq (h.takePageFault _ _ _) (.pure _)

theorem Robust.freeByte : Stays I freeByte := .get fun _ hs => .seq (.set (h.record _ _ _ hs)) (.pure _)

theorem Robust.freeWord : Stays I freeWord := .get fun _ hs => .seq (.set (h.record _ _ _ hs)) (.pure _)

theorem Robust.freeBytes (n : Nat) : Stays I (freeBytes n) := by
  induction n with
  | zero => exact .pure _
  | succ n ih => exact .bind h.freeByte fun _ => .bind ih fun _ => .pure _

theorem Robust.parserRead (sp : Space) (addr : Nat) (use : Use) : Stays I (parserRead sp addr use) := by
  refine .bind (h.access _ _ _ _ _) fun o => ?_
  cases o with
  | some p => exact .get fun _ _ => .pure _
  | none => exact .bind (h.freeBytes 4) fun _ => .pure _

theorem Robust.post (st : Bool) (sp : Space) (addr : Nat) (l : List Byte) (use : Use) : Stays I (post st sp addr l use) := by
  refine .bind (h.access _ _ _ _ _) fun o => ?_
  cases o with
  | some p => exact .modify fun _ hs => h.record _ _ _ hs
  | none => exact .pure _

theorem Robust.reportHead (use : Use) : Stays I (reportHead use) := .get fun _ _ => .require fun _ => h.post _ _ _ _ _

end

/-! ## The advance of `pc` -/

/-- A property that is blind to where the parser is, too: `pc` in its buffer, and what its advance changes. -/
structure Movable (I : State → Prop) : Prop extends Robust I where
  parser : ∀ {s : State} (r : RunState) (a : Word), I s → I { s with parser := { s.parser with run := r, batchAddr := a } }
  head : ∀ {s : State} (w v : Word), I s → s.parser.inBatch = false → I { s with regs := { s.regs with head := w, uhptr := v } }

section
variable (h : Movable I)
include h

theorem Movable.setRun (r : RunState) : Stays I (setRun r) := fun _ hs => h.parser r _ hs

theorem Movable.movePc (n : Nat) : Stays I (movePc n) := by
  intro s hs
  cases hb : s.parser.inBatch with
  | true =>
    simp only [Leaves, Machine.movePc, run_get_bind, hb, if_true]
    split_ifs
    · trivial
    · exact h.parser _ _ hs
  | false =>
    simp only [Leaves, Machine.movePc, run_get_bind, hb, Bool.false_eq_true, if_false, run_onRegs, Regs.uhptrCheck]
    split
    · exact h.head _ _ hs hb
    · exact h.head _ s.regs.uhptr hs hb

theorem Movable.finishWith (n : Nat) {m : M Unit} (hm : Stays I m) : Stays I (finishWith n m) :=
  .get fun _ _ => .seq (h.setRun _) (.seq (h.movePc n) (.seq hm (.onlyIf (h.reportHead _))))

theorem Movable.finish (n : Nat) : Stays I (finish n) := h.finishWith n (.pure _)

/-- The end of a wait for an event (R385). -/
theorem Movable.endEventWait : Stays I endEventWait :=
  .seq (h.onRegs fun r => Regs.guarded_ctl { r with syncFlip := r.syncFlip &&& ~~~waitRecords } false (.inr rfl)) (h.finish 1)

end

/-! ## Register writes -/

/-- A register write keeps a property that is blind to interrupts, to the register written, and to the end of a wait for an event,
which only a write of BCS_RING_BUFFER_CTL can be (R90). -/
theorem Robust.mmioWrite (h : Robust I) (off : Nat) (w : Word)
    (hregs : ∀ {s : State} (r : Regs), I s → (unprotected off → r.guarded = s.regs.guarded) → I { s with regs := r })
    (hwait : ∀ {s : State} {i : Instr}, I s → s.parser.run = .waitEvent i → Stays I endEventWait) :
    Stays I (mmioWrite off w) := by
  have hany {f : Regs → Regs} (hp : unprotected off = false) : Stays I (Machine.onRegs f) :=
    fun _ hs => hregs _ hs fun hu => absurd hu (by simp [hp])
  have hown {f : Regs → Regs} (hf : ∀ r, (f r).guarded = r.guarded) : Stays I (Machine.onRegs f) := h.onRegs hf
  unfold Machine.mmioWrite
  refine .get fun s hs => ?_
  split
  · exact hany rfl
  · exact hany rfl
  · exact .ite (fun _ => .refuse _) fun _ => .ite (fun _ => .refuse _) fun _ => hany rfl
  · exact .ite (fun _ => .refuse _) fun _ => hany rfl
  · exact hany rfl
  · refine .ite (fun _ => .refuse _) fun _ => ?_
    split
    · exact .seq (hwait hs ‹_›) (hany rfl)
    · exact hany rfl
  · exact hany rfl
  · exact hany rfl
  · exact hany rfl
  · exact .ite (fun _ => hany rfl) fun _ => .refuse _
  · exact hany rfl
  · exact hany rfl
  · exact .seq (hany rfl) h.refresh
  · exact .seq (hany rfl) h.refresh
  · exact .seq (hany rfl) h.refresh
  · exact hany rfl
  · exact hany rfl
  · exact hany rfl
  · exact hany rfl
  · exact hown fun _ => rfl
  · exact hown fun _ => rfl
  · exact hown fun _ => rfl
  · exact .ite (fun _ => hown fun _ => rfl) fun _ => .refuse _
  · exact hany rfl
  -- The read-only registers drop the write.
  iterate 12 · exact .pure _
  · refine .ite (fun _ => .pure _) fun _ => .ite (fun ht => ?_) fun _ => .ite (fun _ => .pure _) fun _ =>
      .ite (fun _ => .seq (hown fun _ => rfl) h.refresh) fun _ => .pure _
    exact hany (by simp [unprotected]; omega)

end Sys2Proof.Machine
end

section
/-! PROOFS. What an MI command leaves: the engine, and out of a non-secure batch buffer what protection guards. -/

namespace Sys2Proof.Machine

variable {s t : State}

/-! ## The guarded part of the state -/

/-- What a non-secure command may not change (R440, R441, D35). -/
def State.guarded (s : State) : List (Nat × PageEntry) × List (Nat × PageEntry) × List Nat × Regs :=
  (s.ggtt, s.ppgtt, s.pdInvalid, s.regs.guarded)

theorem State.guarded_eq_iff : t.guarded = s.guarded ↔
    t.ggtt = s.ggtt ∧ t.ppgtt = s.ppgtt ∧ t.pdInvalid = s.pdInvalid ∧ t.regs.guarded = s.regs.guarded := by
  simp only [State.guarded, Prod.mk.injEq]

/-- Protection is in force in a PPGTT batch buffer alone (R440). -/
theorem secure_eq_false_iff : s.secure = false ↔ s.parser.inBatch = true ∧ s.parser.batchSpace = .ppgtt := by
  unfold State.secure
  cases s.parser.inBatch <;> cases s.parser.batchSpace <;> decide

/-- An MI command that began in `s` has come to `t`: the engine is as it was, and a non-secure command is still non-secure and has
changed nothing guarded. -/
def State.MiAt (s t : State) : Prop :=
  t.engine = s.engine ∧ (s.secure = false → t.secure = false ∧ t.guarded = s.guarded)

/-- A change that leaves the engine, the buffer and what is guarded. -/
theorem State.MiAt.of_eq {u : State} (h : s.MiAt t) (he : u.engine = t.engine) (hs : u.secure = t.secure)
    (hg : u.guarded = t.guarded) : s.MiAt u := by
  refine ⟨he.trans h.1, fun hn => ?_⟩
  rw [hs, hg]
  exact h.2 hn

/-- A command of the ring or of a GGTT batch buffer may change everything but the engine. -/
theorem State.MiAt.of_secure (h : s.secure = true) (he : t.engine = s.engine) : s.MiAt t :=
  ⟨he, fun hn => absurd (h.symm.trans hn) Bool.noConfusion⟩

/-- A register may change where protection does not guard it. -/
theorem State.MiAt.withRegs {r : Regs} (h : s.MiAt t) (hr : s.secure = false → r.guarded = t.regs.guarded) :
    s.MiAt { t with regs := r } := by
  refine ⟨h.1, fun hn => ?_⟩
  obtain ⟨hsec, hg⟩ := h.2 hn
  exact ⟨hsec, (congrArg (fun g => (t.ggtt, t.ppgtt, t.pdInvalid, g)) (hr hn)).trans hg⟩

theorem miAt_movable (s : State) : Movable s.MiAt where
  regs _ h hr := h.withRegs fun _ => hr
  hang h := h.of_eq rfl rfl rfl
  record _ _ _ h := h.of_eq rfl rfl rfl
  parser _ _ h := h.of_eq rfl rfl rfl
  head _ _ h hb := h.withRegs fun hn =>
    absurd (hb.symm.trans (secure_eq_false_iff.mp (h.2 hn).1).1) Bool.noConfusion

/-- A command that leaves the engine, and out of a non-secure batch buffer what is guarded. -/
def Confined (f : State → Host.Outcome State Fault Refusal) : Prop :=
  ∀ s t, f s = .next t → t.engine = s.engine ∧ (s.secure = false → t.guarded = s.guarded)

theorem Confined.of_stays {m : State → M Unit} (h : ∀ s, Stays s.MiAt (m s)) : Confined fun s => M.outcome (m s) s := by
  intro s t ht
  obtain ⟨he, hg⟩ := (h s s ⟨rfl, fun hn => ⟨hn, rfl⟩⟩).outcome ht
  exact ⟨he, fun hn => (hg hn).2⟩

section
variable (s)

theorem finish_miAt (n : Nat) : Stays s.MiAt (finish n) := (miAt_movable s).finish n

theorem setRun_miAt (r : RunState) : Stays s.MiAt (setRun r) := (miAt_movable s).setRun r

theorem post_miAt (st : Bool) (sp : Space) (a : Nat) (l : List Byte) (use : Use := .operand) :
    Stays s.MiAt (post st sp a l use) := (miAt_movable s).post st sp a l use

theorem parserRead_miAt (sp : Space) (a : Nat) (use : Use := .operand) : Stays s.MiAt (parserRead sp a use) :=
  (miAt_movable s).parserRead sp a use

theorem onRegs_miAt {f : Regs → Regs} (hf : ∀ r, (f r).guarded = r.guarded) : Stays s.MiAt (onRegs f) :=
  (miAt_movable s).onRegs hf

end

/-! ## Commands that steer the parser -/

theorem execMiNoop_confined (writeId : Bool) (ident : BitVec 22) : Confined (execMiNoop writeId ident) :=
  .of_stays fun s => .seq (.onlyIf (onRegs_miAt s fun _ => rfl)) (finish_miAt s 1)

theorem execMiUserInterrupt_confined : Confined execMiUserInterrupt :=
  .of_stays fun s => .seq ((miAt_movable s).raiseInt 22) (finish_miAt s 1)

theorem recordWait_miAt (s : State) (e : WaitEvent) : Stays s.MiAt (recordWait e) := by
  refine .get fun u _ => onRegs_miAt s fun r => ?_
  split
  · rfl
  · exact Regs.guarded_ctl { r with syncFlip := (r.syncFlip &&& ~~~waitRecords) ||| e.record } true (.inr rfl)

theorem execMiWaitForEvent_confined (spriteC : Bool) (cc : BitVec 4) (planeC spriteB planeB spriteA planeA : Bool) :
    Confined (execMiWaitForEvent spriteC cc planeC spriteB planeB spriteA planeA) :=
  .of_stays fun s => .require fun _ => .ite (fun _ => .seq (recordWait_miAt s _) (setRun_miAt s _)) fun _ =>
    .ite (fun _ => (miAt_movable s).endEventWait) fun _ => finish_miAt s 1

/-- The ring is secure (R440). -/
theorem secure_of_ring (h : (!s.parser.inBatch) = true) : s.secure = true := by
  unfold State.secure
  rw [h, Bool.true_or]

theorem execMiArbCheck_confined : Confined execMiArbCheck :=
  .of_stays fun s => .require fun hc => .ite
    (fun _ => .require fun _ => .seq (setRun_miAt s _) (.seq
      (fun _ hu => State.MiAt.of_secure (secure_of_ring hc) hu.1) (.onlyIf ((miAt_movable s).reportHead _))))
    fun _ => finish_miAt s 1

theorem execMiReportHead_confined : Confined execMiReportHead :=
  .of_stays fun s => .require fun _ => (miAt_movable s).finishWith 1 ((miAt_movable s).reportHead _)

/-- The end of a batch buffer changes where the parser is alone (R372). -/
theorem execMiBatchBufferEnd_confined : Confined execMiBatchBufferEnd := by
  intro s t ht
  unfold execMiBatchBufferEnd at ht
  cases hb : s.parser.inBatch with
  | true =>
    rw [hb, if_pos rfl, outcome_ok (run_onParser _ s)] at ht
    cases ht
    exact ⟨rfl, fun _ => rfl⟩
  | false =>
    rw [hb, if_neg Bool.false_ne_true] at ht
    exact Confined.of_stays (m := fun _ => finish 1) (fun s => finish_miAt s 1) s t ht

theorem Regs.guarded_miMode (r : Regs) (on : Bool) : ({ r with miMode := setBit r.miMode 15 on } : Regs).guarded = r.guarded := by
  have h : setBit r.miMode 15 on ||| 0x8000 = r.miMode ||| 0x8000 := setBit_or on rfl
  simp only [Regs.guarded, h]

theorem execMiSuspendFlush_confined (on : Bool) : Confined (execMiSuspendFlush on) :=
  .of_stays fun s => .seq (onRegs_miAt s fun r => r.guarded_miMode on) (finish_miAt s 1)

/-- A PPGTT batch buffer chains to another one alone (R373, log 58). -/
theorem enterBatch_miAt (s : State) (asi : Bool) (addr : BitVec 30) : Stays s.MiAt (enterBatch asi addr) := by
  refine .seq (.modify fun u hu => hu.of_eq rfl rfl rfl) fun u hu => ⟨hu.1, fun hn => ?_⟩
  obtain ⟨hsec, hg⟩ := hu.2 hn
  exact ⟨secure_eq_false_iff.mpr ⟨rfl, if_pos (secure_eq_false_iff.mp hsec)⟩, hg⟩

theorem execMiBatchBufferStart_confined (len : BitVec 8) (asi : Bool) (addr : BitVec 30) :
    Confined (execMiBatchBufferStart len asi addr) :=
  .of_stays fun s => .require fun _ => .require fun _ =>
    .ite (fun _ => enterBatch_miAt s asi addr) fun _ => (miAt_movable s).finishWith 2 (enterBatch_miAt s asi addr)

theorem semaphoreMemory_miAt (s : State) (compare : Bool) (sp : Space) (a : Nat) (data : Word) :
    Stays s.MiAt (semaphoreMemory compare sp a data) :=
  .ite (fun _ => .bind (parserRead_miAt s _ _) fun _ => .pure _) fun _ => .pure _

theorem semaphoreDone_miAt (s : State) : Stays s.MiAt semaphoreDone :=
  .seq (onRegs_miAt s fun r => r.guarded_ctl false (.inl rfl)) (finish_miAt s 3)

theorem execMiSemaphoreMbox_confined (len : BitVec 8) (ggtt update compare cmpReg : Bool) (sel : BitVec 2) (data : Word)
    (addr : BitVec 30) : Confined (execMiSemaphoreMbox len ggtt update compare cmpReg sel data addr) :=
  .of_stays fun s => .require fun _ => .ite
    (fun _ => .require fun _ => .ite (fun _ => semaphoreDone_miAt s) fun _ =>
      .seq (onRegs_miAt s fun r => r.guarded_ctl true (.inl rfl)) (setRun_miAt s _))
    fun _ => .bind (semaphoreMemory_miAt s _ _ _ _) fun _ => .ite
      (fun _ => .seq (.onlyIf (post_miAt s _ _ _ _)) (semaphoreDone_miAt s)) fun _ => setRun_miAt s _

/-! ## Commands that move data -/

/-- A register load that protection lets through (R441). -/
theorem mmioWrite_miAt (s : State) {off : Nat} (w : Word) (hp : protectedFrom s.secure off = false) :
    Stays s.MiAt (mmioWrite off w) := by
  have hun (hn : s.secure = false) : unprotected off = true := by simpa [protectedFrom, hn] using hp
  exact (miAt_movable s).mmioWrite off w (fun _ hu hr => hu.withRegs fun hn => hr (hun hn))
    fun _ _ => (miAt_movable s).endEventWait

theorem execMiLoadRegisterImm_confined (len : BitVec 8) (disables : BitVec 4) (reg : BitVec 30) (data : Word) :
    Confined (execMiLoadRegisterImm len disables reg data) := by
  refine .of_stays fun s => .ite (fun _ => finish_miAt s 3) fun hp => .ite (fun _ => ?_) fun _ => ?_
  · exact .seq (mmioWrite_miAt s _ (Bool.eq_false_of_not_eq_true (not_or.mp hp).2)) (finish_miAt s 3)
  · exact .seq (.refuse _) (finish_miAt s 3)

theorem mmioRead_miAt (s : State) (off : Nat) : Stays s.MiAt (mmioRead off) := by
  refine .get fun u _ => ?_
  cases regRead u off with
  | some w => exact .pure w
  | none => exact (miAt_movable s).freeWord

theorem execMiStoreRegisterMem_confined (len : BitVec 8) (ggtt : Bool) (reg : BitVec 21) (addr : BitVec 30) :
    Confined (execMiStoreRegisterMem len ggtt reg addr) :=
  .of_stays fun s => .require fun _ => .ite (fun _ => finish_miAt s 3) fun _ =>
    .bind (mmioRead_miAt s _) fun _ => .seq (post_miAt s _ _ _ _) (finish_miAt s 3)

theorem execMiStoreDataImm_confined (len : BitVec 10) (ggtt : Bool) (addr : BitVec 30) (d0 d1 : Word) :
    Confined (execMiStoreDataImm len ggtt addr d0 d1) :=
  .of_stays fun s => .require fun _ => .ite (fun _ => finish_miAt s _) fun _ => .ite
    (fun _ => .require fun _ => .seq (post_miAt s _ _ _ _) (finish_miAt s _))
    fun _ => .seq (post_miAt s _ _ _ _) (finish_miAt s _)

theorem execMiStoreDataIndex_confined (len : BitVec 8) (offset : BitVec 10) (d0 d1 : Word) :
    Confined (execMiStoreDataIndex len offset d0 d1) :=
  .of_stays fun s => .require fun _ => .require fun _ => .ite
    (fun _ => .require fun _ => .seq (post_miAt s _ _ _ _) (finish_miAt s _))
    fun _ => .seq (post_miAt s _ _ _ _) (finish_miAt s _)

/-- A page table is written by a secure command alone (R383, R440). -/
theorem execMiUpdateGtt_confined (len : BitVec 6) (ggtt : Bool) (entry : BitVec 20) (data : List Word) :
    Confined (execMiUpdateGtt len ggtt entry data) :=
  .of_stays fun s => .ite (fun _ => finish_miAt s _) fun hp => .require fun _ => .require fun _ =>
    .seq (.modify fun _ hu => State.MiAt.of_secure (by simpa using hp) hu.1) (finish_miAt s _)

theorem execMiLoadRegisterMem_confined (len : BitVec 8) (ggtt async : Bool) (reg : BitVec 21) (addr : BitVec 30) :
    Confined (execMiLoadRegisterMem len ggtt async reg addr) := by
  refine .of_stays fun s => .ite (fun _ => finish_miAt s 3) fun hp => .require fun _ => .require fun _ =>
    .ite (fun _ => ?_) fun _ => ?_
  · exact .seq (.modify fun _ hu => hu.of_eq rfl rfl rfl) (finish_miAt s 3)
  · rw [Bool.or_eq_true] at hp
    exact .bind (parserRead_miAt s _ _) fun w =>
      .seq (mmioWrite_miAt s w (Bool.eq_false_of_not_eq_true (not_or.mp hp).2)) (finish_miAt s 3)

theorem postSync_miAt (s : State) (len : BitVec 6) (index : Bool) (op : BitVec 2) (addr : Word) (toGgtt : Bool) (d0 d1 : Word) :
    Stays s.MiAt (postSync len index op addr toGgtt d0 d1) :=
  .get fun _ _ => .ite
    (fun _ => .ite (fun _ => post_miAt s _ _ _ _) fun _ => post_miAt s _ _ _ _)
    fun _ => .ite (fun _ => post_miAt s _ _ _ _) fun _ => .pure _

theorem execMiFlushDw_confined (len : BitVec 6) (spare index tlbInv gfdt : Bool) (op : BitVec 2) (notify : Bool)
    (addr : BitVec 29) (toGgtt : Bool) (d0 d1 : Word) :
    Confined (execMiFlushDw len spare index tlbInv gfdt op notify addr toGgtt d0 d1) :=
  .of_stays fun s => .require fun _ => .require fun _ => .require fun _ => .require fun _ => .ite
    (fun _ => setRun_miAt s _)
    fun _ => .seq (.modify fun _ hu => hu.of_eq rfl rfl rfl)
      (.seq (.onlyIf (.modify fun _ hu => hu.of_eq rfl rfl rfl))
      (.seq (postSync_miAt s _ _ _ _ _ _ _)
      (.seq (.onlyIf (.seq (.modify fun _ hu => hu.of_eq rfl rfl rfl) ((miAt_movable s).raiseInt 26)))
      (finish_miAt s _))))

theorem checkFollowing_miAt (s : State) : Stays s.MiAt checkFollowing :=
  .get fun _ _ => .ite (fun _ => .pure _) fun _ => .refuse _

theorem execMiDisplayFlip_confined (len : BitVec 8) (async : Bool) (plane : BitVec 3) (pitch : BitVec 10) (tiled : Bool)
    (base : BitVec 20) (kind : BitVec 2) : Confined (execMiDisplayFlip len async plane pitch tiled base kind) :=
  .of_stays fun s => .require fun _ => .require fun _ => .require fun _ => .require fun _ => .require fun _ =>
    .seq (.modify fun _ hu => hu.of_eq rfl rfl rfl)
      (.seq (onRegs_miAt s fun _ => rfl) ((miAt_movable s).finishWith 3 (checkFollowing_miAt s)))

/-- Every MI command leaves the engine, and out of a non-secure batch buffer what is guarded. -/
theorem exec_confined {i : Instr} (hb : i.op.isBlt = false) : Confined (exec i) := by
  cases i with
  | miNoop => exact execMiNoop_confined _ _
  | miUserInterrupt => exact execMiUserInterrupt_confined
  | miWaitForEvent => exact execMiWaitForEvent_confined _ _ _ _ _ _ _
  | miArbCheck => exact execMiArbCheck_confined
  | miReportHead => exact execMiReportHead_confined
  | miBatchBufferEnd => exact execMiBatchBufferEnd_confined
  | miSuspendFlush => exact execMiSuspendFlush_confined _
  | miDisplayFlip len => exact execMiDisplayFlip_confined len _ _ _ _ _ _
  | miSemaphoreMbox => exact execMiSemaphoreMbox_confined _ _ _ _ _ _ _ _
  | miStoreDataImm => exact execMiStoreDataImm_confined _ _ _ _ _
  | miStoreDataIndex => exact execMiStoreDataIndex_confined _ _ _ _
  | miLoadRegisterImm len => exact execMiLoadRegisterImm_confined len _ _ _
  | miUpdateGtt len => exact execMiUpdateGtt_confined len _ _ _
  | miStoreRegisterMem len => exact execMiStoreRegisterMem_confined len _ _ _
  | miFlushDw => exact execMiFlushDw_confined _ _ _ _ _ _ _ _ _ _ _
  | miLoadRegisterMem len => exact execMiLoadRegisterMem_confined len _ _ _ _
  | miBatchBufferStart len => exact execMiBatchBufferStart_confined len _ _
  | _ => cases hb

/-! ## Privilege -/

/-- A BLT command, secure or not, changes the page tables and guarded registers not at all (R28). -/
theorem exec_blt_guarded {i : Instr} (hb : i.op.isBlt = true) (ht : exec i s = .next t) : t.guarded = s.guarded := by
  rw [(bltChangesOnly i s t hb ht).1]
  rfl

theorem exec_guarded {i : Instr} (hn : s.secure = false) (ht : exec i s = .next t) : t.guarded = s.guarded := by
  cases hb : i.op.isBlt with
  | true => exact exec_blt_guarded hb ht
  | false => exact (exec_confined hb s t ht).2 hn

/-- Settles O46: a non-secure command leaves the guarded part of the state, of which each clause names a component. -/
theorem nonSecureKeepsPrivilege : Obligations.NonSecureKeepsPrivilege := by
  unfold Obligations.NonSecureKeepsPrivilege
  intro i s t hn ht
  obtain ⟨hggtt, hppgtt, hpd, hregs⟩ := State.guarded_eq_iff.mp (exec_guarded hn ht)
  have hreg {α : Type} (f : Regs → α) : f t.regs.guarded = f s.regs.guarded := congrArg f hregs
  exact ⟨hggtt, hppgtt, hpd, hreg Regs.hwsPga, hreg Regs.excc, hreg Regs.tail, hreg Regs.head, hreg Regs.start, hreg Regs.ctl,
    hreg Regs.hwstam, hreg Regs.gabMode, hreg Regs.imr, hreg Regs.emr, hreg Regs.instpm, hreg Regs.uhptr, hreg Regs.ctrThrsh,
    hreg Regs.cxtSize, hreg Regs.gabCtl, hreg Regs.brsync, hreg Regs.bvsync, hreg Regs.r22050, hreg Regs.tlbpendSec0,
    hreg Regs.hwsPgaWritten, hreg Regs.miMode⟩

end Sys2Proof.Machine
end

section
/-! PROOFS. A hang lasts (R435): what the agents, the environment and the step do to the agents' run states. -/

namespace Sys2Proof.Machine

variable {I : State → Prop} {s t : State}

/-! ## Properties of the agents' run states -/

/-- The run states of parser and engine. -/
def State.runs (s : State) : RunState × EngineRun := (s.parser.run, s.engine.run)

/-- A property of the run states alone that a hang of the parser does not end, nor a wait for an event that ends. -/
structure OfRuns (I : State → Prop) : Prop where
  keep : ∀ {s t : State}, I s → t.runs = s.runs → I t
  hang : ∀ {s : State}, I s → I { s with parser := { s.parser with run := .hung } }
  wait : ∀ {s : State} {i : Instr}, I s → s.parser.run = .waitEvent i → Stays I endEventWait

section
variable (h : OfRuns I)
include h

theorem OfRuns.robust : Robust I where
  regs _ hs _ := h.keep hs rfl
  hang hs := h.hang hs
  record _ _ _ hs := h.keep hs rfl

/-- With the schedule still as it was. -/
theorem OfRuns.robust_schedule (l : List EnvEvent) : Robust fun s => I s ∧ s.schedule = l where
  regs _ hs _ := ⟨h.keep hs.1 rfl, hs.2⟩
  hang hs := ⟨h.hang hs.1, hs.2⟩
  record _ _ _ hs := ⟨h.keep hs.1 rfl, hs.2⟩

theorem OfRuns.modify {g : State → State} (hg : ∀ s, (g s).runs = s.runs) : Stays I (modify g : M PUnit) :=
  .modify fun s hs => h.keep hs (hg s)

theorem OfRuns.onRegs (f : Regs → Regs) : Stays I (Machine.onRegs f) := fun _ hs => h.keep hs rfl

theorem OfRuns.mmioWrite (off : Nat) (w : Word) : Stays I (Machine.mmioWrite off w) :=
  h.robust.mmioWrite off w (fun _ hs _ => h.keep hs rfl) fun hs hw => h.wait hs hw

theorem OfRuns.loadRegister (secure : Bool) (off : Nat) (w : Word) : Stays I (Machine.loadRegister secure off w) :=
  .ite (fun _ => .pure _) fun _ => h.mmioWrite off w

theorem OfRuns.landAsyncLoad (k : Nat) : Stays I (Machine.landAsyncLoad k) := by
  refine .get fun s hs => ?_
  split
  · exact .pure _
  · exact .seq (.set (h.keep hs rfl)) (.bind (h.robust.parserRead _ _ _) fun _ => h.loadRegister _ _ _)

end

/-! ## What happens to memory, caches and what is read ahead -/

theorem State.drainOne_runs (s : State) : s.drainOne.runs = s.runs := by
  unfold State.drainOne
  split <;> rfl

theorem State.evictByte_runs (s : State) (a : Nat) : (s.evictByte a).runs = s.runs := by
  unfold State.evictByte
  split <;> rfl

theorem State.fillTexture_runs (s : State) (a : Nat) : (s.fillTexture a).runs = s.runs := by
  unfold State.fillTexture
  split <;> rfl

theorem State.takeAhead_runs (s : State) (ring : Bool) (n : Nat) : (s.takeAhead ring n).runs = s.runs := by
  unfold State.takeAhead
  split
  · rfl
  · split <;> rfl

theorem State.fillTlb_runs (s : State) (k : Nat) : (s.fillTlb k).runs = s.runs := by
  unfold State.fillTlb
  split
  · split <;> rfl
  · rfl

theorem State.fillPd_runs (s : State) (i : Nat) : (s.fillPd i).runs = s.runs := by
  unfold State.fillPd
  split <;> rfl

/-! ## The environment and the step -/

section
variable (h : OfRuns I)
include h

theorem OfRuns.background : Stays I Machine.background :=
  .get fun s hs => .ite (fun _ => h.landAsyncLoad 0) fun _ => .set (h.keep hs s.drainOne_runs)

theorem OfRuns.syncFlush : Stays I Machine.syncFlush :=
  .get fun _ _ => .seq (.onlyIf (h.modify fun _ => rfl)) (.seq (.onlyIf (h.modify fun _ => rfl))
    (.seq (h.onRegs _) (h.robust.raiseInt 24)))

theorem OfRuns.defaultStep (hp : Stays I (parserStep false)) (he : Stays I engineStep) : Stays I Machine.defaultStep :=
  .get fun _ _ => .ite (fun _ => h.syncFlush) fun _ => .ite (fun _ => he) fun _ => hp

/-- No event but RESET ends what the agents' own steps do not end. -/
theorem OfRuns.runEvent (hp : ∀ d, Stays I (parserStep d)) (he : Stays I engineStep) {e : EnvEvent}
    (hr : ∀ full, e ≠ .reset full) : Stays I (Machine.runEvent e) := by
  cases e with
  | parser => exact hp false
  | parserDefer => exact hp true
  | engine => exact he
  | readAhead ring n => exact h.modify fun s => s.takeAhead_runs ring n
  | drain => exact h.modify State.drainOne_runs
  | evict a => exact h.modify fun s => s.evictByte_runs a
  | texFill a => exact h.modify fun s => s.fillTexture_runs a
  | midEvents => exact h.modify fun _ => rfl
  | tlbFill k => exact h.modify fun s => s.fillTlb_runs k
  | tlbDrop => exact h.modify fun _ => rfl
  | pdFill i => exact h.modify fun s => s.fillPd_runs i
  | pdDrop => exact h.modify fun _ => rfl
  | tlbPick => exact h.modify fun _ => rfl
  | tlbPend => exact h.modify fun _ => rfl
  | asyncLoad k => exact h.landAsyncLoad k
  | syncFlush => exact .get fun _ _ => .onlyIf h.syncFlush
  | hostWrite off v => exact h.mmioWrite off v
  | hostClearIir => exact .seq (h.onRegs _) h.robust.refresh
  | hostStore => exact h.modify fun _ => rfl
  | setPage sp => cases sp <;> exact h.modify fun _ => rfl
  | setDirectory => exact h.modify fun _ => rfl
  | csSemaphore => exact h.modify fun _ => rfl
  | vcsSemaphore => exact h.modify fun _ => rfl
  | flipDone => exact .seq (h.modify fun _ => rfl) (h.onRegs _)
  | tick => exact h.modify fun _ => rfl
  | reset full => exact absurd rfl (hr full)

theorem OfRuns.beginStep (l : List EnvEvent) : Stays (fun s => I s ∧ s.schedule = l) Machine.beginStep :=
  .seq (.modify fun _ hs => ⟨h.keep hs.1 rfl, hs.2⟩) (h.robust_schedule l).dropPulses

/-- A step that does not take RESET from the schedule. -/
theorem OfRuns.step (hp : ∀ d, Stays I (parserStep d)) (he : Stays I engineStep) (hs : I s)
    (hr : ∀ full, s.schedule.head? ≠ some (.reset full)) (ht : Machine.step s = .next t) : I t := by
  refine Leaves.outcome ((h.beginStep s.schedule s ⟨hs, rfl⟩).bind (fun _ hu => hu.1) ?_) ht
  rintro - u ⟨hu, hsch⟩
  rw [← hsch] at hr
  simp only [Leaves, run_get_bind]
  cases hl : u.schedule with
  | nil => exact h.defaultStep (hp false) he u hu
  | cons e es =>
    have hne (full : Bool) : e ≠ .reset full := fun hc => hr full (by rw [hl, hc]; rfl)
    exact (h.runEvent hp he hne) { u with schedule := es } (h.keep hu rfl)

end

/-! ## A hung parser -/

/-- The parser is hung, and the engine holds a BLT command if it holds one. -/
def State.parserHung (s : State) : Prop := s.parser.run = .hung ∧ s.engine.run.holdsOwn = true

theorem parserHung_ofRuns : OfRuns State.parserHung where
  keep {s t} hs ht := by
    obtain ⟨hp, he⟩ := Prod.mk.inj ht
    exact ⟨hp.trans hs.1, by rw [he]; exact hs.2⟩
  hang hs := ⟨rfl, hs.2⟩
  wait hs hw := absurd (hs.1.symm.trans hw) RunState.noConfusion

/-- A hung parser makes no step (R435). -/
theorem parserStep_parserHung (d : Bool) : Stays State.parserHung (parserStep d) :=
  .get fun _ hs => .ite (fun _ => parserHung_ofRuns.background) fun hn => absurd hs.1 hn

/-- A BLT command leaves the parser where it is, or hangs it (R28). -/
theorem exec_blt_parserHung {i : Instr} (hb : i.op.isBlt = true) : Stays State.parserHung (M.ofOutcome (exec i)) := by
  refine .ofOutcome fun s t hs ht => ?_
  obtain ⟨-, -, -, -, -, -, -, hp, he, -⟩ := bltChangesOnly i s t hb ht
  refine ⟨hp.elim (·.trans hs.1) id, ?_⟩
  rcases he with he | he <;> rw [he]
  · exact hs.2
  · rfl

theorem engineStep_parserHung : Stays State.parserHung engineStep := by
  refine .get fun s hs => ?_
  split
  · rename_i i hi
    have howns := hs.2
    rw [hi] at howns
    exact .seq (.set ⟨hs.1, rfl⟩) (exec_blt_parserHung howns)
  · exact .pure _

/-! ## A hung engine -/

def State.engineHung (s : State) : Prop := s.engine.run = .hung

theorem engineHung_movable : Movable State.engineHung where
  regs _ hs _ := hs
  hang hs := hs
  record _ _ _ hs := hs
  parser _ _ hs := hs
  head _ _ hs _ := hs

theorem engineHung_ofRuns : OfRuns State.engineHung where
  keep hs ht := (Prod.mk.inj ht).2.trans hs
  hang hs := hs
  wait _ _ := engineHung_movable.endEventWait

/-- No command ends a hang of the engine. -/
theorem exec_engineHung (i : Instr) : Stays State.engineHung (M.ofOutcome (exec i)) := by
  refine .ofOutcome fun s t hs ht => ?_
  cases hb : i.op.isBlt with
  | true =>
    obtain ⟨-, -, -, -, -, -, -, -, he, -⟩ := bltChangesOnly i s t hb ht
    exact he.elim (·.trans hs) id
  | false => exact (congrArg Engine.run (exec_confined hb s t ht).1).trans hs

theorem engineStep_engineHung : Stays State.engineHung engineStep := by
  refine .get fun s hs => ?_
  rw [show s.engine.run = .hung from hs]
  exact .pure _

theorem setRun_engineHung (r : RunState) : Stays State.engineHung (setRun r) := engineHung_movable.setRun r

theorem rest_engineHung (r : RunState) : Stays State.engineHung (rest r) := by
  refine .seq (.get fun s _ => ?_) (.seq (setRun_engineHung r) engineHung_ofRuns.background)
  split
  · exact engineHung_ofRuns.onRegs _
  · exact engineHung_ofRuns.onRegs _
  · exact .pure _

theorem rewait_engineHung (i : Instr) : Stays State.engineHung (rewait i) :=
  .get fun _ _ => .seq (exec_engineHung i) (.get fun _ _ => .ite
    (fun _ => .ite (fun _ => rest_engineHung .stopped) fun _ => engineHung_ofRuns.background) fun _ => .pure _)

/-- A command for a hung engine waits at its place (R28, R370). -/
theorem whenIdle_engineHung (m : M Unit) : Stays State.engineHung (whenIdle m) := by
  refine .seq (setRun_engineHung _) (.get fun s hs => .ite (fun _ => engineHung_ofRuns.background) fun hn => ?_)
  have hbusy : s.engineBusy = true := by rw [State.engineBusy, show s.engine.run = .hung from hs]; rfl
  exact absurd hbusy hn

theorem runMi_engineHung (i : Instr) (d : Bool) : Stays State.engineHung (runMi i d) :=
  .seq (setRun_engineHung _) (.get fun _ _ => .ite (fun _ => setRun_engineHung _) fun _ => exec_engineHung i)

theorem takeInstructionError_engineHung : Stays State.engineHung takeInstructionError :=
  .seq (engineHung_ofRuns.onRegs _) (.seq (setRun_engineHung _) engineHung_movable.refresh)

theorem commandWord_engineHung (ring : Bool) (sp : Space) (addr : Nat) : Stays State.engineHung (commandWord ring sp addr) := by
  refine .get fun s hs => ?_
  split
  · exact .seq (.set hs) (.pure _)
  · exact engineHung_movable.parserRead _ _ _

theorem fetchWords_engineHung (ring : Bool) (sp : Space) (addr n : Nat) : Stays State.engineHung (fetchWords ring sp addr n) := by
  induction n generalizing addr with
  | zero => exact .pure _
  | succ n ih => exact .bind (commandWord_engineHung _ _ _) fun _ => .bind (ih _) fun _ => .pure _

theorem fetchCommand_engineHung : Stays State.engineHung fetchCommand := by
  refine .get fun s _ => .ite (fun _ => .stop _) fun _ => .bind (commandWord_engineHung _ _ _) fun w => ?_
  cases Op.ofHeader w with
  | none => exact .pure _
  | some o =>
    exact .require fun _ => .ite (fun _ => .stop _) fun _ => .bind (fetchWords_engineHung _ _ _ _) fun _ => .pure _

theorem runCommand_engineHung (d : Bool) : Stays State.engineHung (runCommand d) := by
  refine .bind fetchCommand_engineHung fun c => ?_
  rcases c with _ | ⟨o, ws⟩
  · exact takeInstructionError_engineHung
  · refine .ite (fun _ => .refuse _) fun _ => ?_
    cases decode ws with
    | error => exact whenIdle_engineHung _
    | ok i => exact .ite (fun _ => whenIdle_engineHung _) fun _ => runMi_engineHung i d

theorem parserStep_engineHung (d : Bool) : Stays State.engineHung (parserStep d) := by
  refine .get fun s _ => .ite (fun _ => engineHung_ofRuns.background) fun _ => .ite (fun _ => rest_engineHung _) fun _ => ?_
  split
  · exact rewait_engineHung _
  · exact rewait_engineHung _
  · exact rewait_engineHung _
  · exact rewait_engineHung _
  · exact .ite (fun _ => rest_engineHung _) fun _ => .ite (fun _ => rest_engineHung _) fun _ => runCommand_engineHung d

/-- Settles O44: each of the two hangs is a property of the run states that the steps of both agents keep. -/
theorem hungStaysHung : Obligations.HungStaysHung := by
  unfold Obligations.HungStaysHung
  intro s t hinv hr ht
  obtain ⟨-, -, -, -, howns⟩ := s.inv_iff.mp hinv
  constructor
  · intro hp
    exact (parserHung_ofRuns.step parserStep_parserHung engineStep_parserHung ⟨hp, howns⟩ hr ht).1
  · intro he
    exact engineHung_ofRuns.step parserStep_engineHung engineStep_engineHung he hr ht

end Sys2Proof.Machine
end
